-- ==== Sys2Proof/Word.lean ====
section
/-! DEFINITION. Words: the bit-vector types of the model and their plainest operations. -/

namespace Sys2Proof

/-- A byte of memory. -/
abbrev Byte := BitVec 8
/-- The contents of one 32-bit register of one lane. -/
abbrev W32 := BitVec 32
/-- A 64-bit value: an address, a register pair, an instruction word, a control register. -/
abbrev W64 := BitVec 64
/-- One bit per lane of a group (R28: 32 lanes). -/
abbrev Mask := BitVec 32

/-- Zero-extension to 64 bits. -/
abbrev zx (x : W32) : W64 := x.setWidth 64
/-- Sign-extension of a 32-bit value to 64 bits. -/
abbrev sx (x : W32) : W64 := x.signExtend 64
/-- The low 32 bits. -/
abbrev lo (x : W64) : W32 := x.setWidth 32
/-- The high 32 bits. -/
abbrev hi (x : W64) : W32 := (x >>> 32).setWidth 32
/-- A 64-bit value of two 32-bit halves, the first argument low (R191). -/
abbrev pair64 (l h : W32) : W64 := zx l ||| (zx h <<< 32)

/-- A field of `n` bits from bit `p` of a 64-bit value, as a number. -/
abbrev fieldN (x : W64) (p n : Nat) : Nat := x.toNat / 2 ^ p % 2 ^ n

end Sys2Proof
end

