-- ==== Sys2Proof/Machine/Map.lean ====
section
/-! DEFINITION. Finite maps as lists of (key, value) pairs in one canonical form: keys strictly rising. A map with a
default value holds no entry equal to the default, so that equal maps are equal lists. -/

namespace Sys2Proof.Machine

/-- A finite map with natural-number keys. -/
abbrev FMap (α : Type) := List (Nat × α)

/-- The entry at a key. -/
def look {α : Type} : FMap α → Nat → Option α
  | [], _ => none
  | (j, v) :: t, k => if j = k then some v else look t k

/-- Write an entry, keeping the keys rising. -/
def put {α : Type} : FMap α → Nat → α → FMap α
  | [], k, v => [(k, v)]
  | (j, w) :: t, k, v => if k < j then (k, v) :: (j, w) :: t else if k = j then (k, v) :: t else (j, w) :: put t k v

/-- Remove an entry. -/
def del {α : Type} : FMap α → Nat → FMap α
  | [], _ => []
  | (j, w) :: t, k => if j = k then del t k else (j, w) :: del t k

/-- The value at a key of a map whose unlisted keys read as `d`. -/
def get {α : Type} (d : α) (m : FMap α) (k : Nat) : α := (look m k).getD d

/-- Write a value into a map whose unlisted keys read as `d`: the default is never listed. -/
def set {α : Type} [DecidableEq α] (d : α) (m : FMap α) (k : Nat) (v : α) : FMap α :=
  if v = d then del m k else put m k v

/-- Keys strictly rising. -/
def sorted {α : Type} : FMap α → Bool
  | [] => true
  | [_] => true
  | (j, _) :: (k, w) :: t => j < k && sorted ((k, w) :: t)

/-- The canonical form: keys strictly rising and no entry equal to the default. -/
def canon {α : Type} [DecidableEq α] (d : α) (m : FMap α) : Bool :=
  sorted m && m.all (fun e => e.2 ≠ d)

/-- Change an entry that is there. -/
def upd {α : Type} (m : FMap α) (k : Nat) (f : α → α) : FMap α :=
  match look m k with
  | none => m
  | some v => put m k (f v)

/-- The entries whose value meets a condition. -/
def keep {α : Type} (m : FMap α) (p : Nat → α → Bool) : FMap α := m.filter (fun e => p e.1 e.2)

/-- Insert by a number, smaller first. -/
def insertBy {α : Type} (f : α → Nat) (x : α) : List α → List α
  | [] => [x]
  | y :: ys => if f x ≤ f y then x :: y :: ys else y :: insertBy f x ys
/-- Sort by a number, smallest first. -/
def sortBy {α : Type} (f : α → Nat) (xs : List α) : List α := xs.foldr (insertBy f) []

end Sys2Proof.Machine
end

