-- ==== Sys2Proof/Syntax.lean ====
section
/-! DEFINITION. The instructions: one constructor for each row of the opcode table, words first, then the events
(the indivisible steps of the engines). -/

namespace Sys2Proof

/-- The operand selectors of R102 that name something. -/
inductive Sel where
  | v (n : BitVec 8)      -- V0-V255, or S0-S63 in lead code; a predicate operand is `v 0` to `v 7` (R159)
  | latch (k : BitVec 2)  -- L0-L2
  | q | qp                -- uniform queue, pop and peek (R152)
  | idx (k : BitVec 2)    -- V[X0]-V[X3] (R143)
  | lane | grp | teamX | teamY | teamZ | zero | core | dev
  deriving DecidableEq, Repr, Inhabited

/-- The SB field: a selector, or the 18-bit immediate of an immediate variant (R98). -/
inductive SelB where
  | sel (s : Sel)
  | imm (i : BitVec 18)
  deriving DecidableEq, Repr, Inhabited

/-- The SB field holds an immediate. -/
def SelB.isImm : SelB → Bool
  | .imm _ => true
  | .sel _ => false

/-- The fields of an F-form word that every instruction has (R96). -/
structure FWord where
  pn : Bool := false
  pr : BitVec 3 := 0
  dst : BitVec 8 := 0
  ws : Bool := false
  dl : BitVec 2 := 0
  a : Sel := .zero
  b : SelB := .sel .zero
  c : Sel := .zero
  hsrc : BitVec 2 := 0
  hlat : BitVec 2 := 0
  deriving DecidableEq, Repr, Inhabited

/-- Overflow handling of the integer adds (R160, R162). -/
inductive Sat where | wrap | sat | usat
  deriving DecidableEq, Repr, Inhabited
/-- The rounding field of R111: codes 0 to 5. -/
inductive Rm where | team | rne | rz | ru | rd | rs
  deriving DecidableEq, Repr, Inhabited
/-- Integer conditions (R170), codes 0 to 5. -/
inductive Cond where | eq | ne | lt | le | gt | ge
  deriving DecidableEq, Repr, Inhabited
/-- Floating-point conditions (R211), codes 0 to 7. -/
inductive FCond where | eq | lt | le | gt | ge | ne | un | ord
  deriving DecidableEq, Repr, Inhabited
/-- Directions of `SHF64` (R164). -/
inductive ShfDir where | l | r | ar | rot
  deriving DecidableEq, Repr, Inhabited
/-- Formats of `FCLASS` (R213). -/
inductive ClassFmt where | fp32 | fp64 | fp16 | bf16 | e4m3 | e5m2
  deriving DecidableEq, Repr, Inhabited
/-- The conversions of `CVT` (R217), in the order of their codes, code 15 left out. The destination stands first. -/
inductive Cvt where
  | f32F64 | f64F32 | f16F32 | f32F16 | bf16F32 | f32Bf16 | tf32F32 | f16F64 | bf16F64 | f64F16 | f64Bf16
  | f16Bf16 | bf16F16 | f16x2F32 | bf16x2F32
  | f32I32 | f32U32 | f64I32 | f64U32 | f64I64 | f32I64 | i32F32 | u32F32 | i32F64 | u32F64 | i64F64 | i64F32
  | i16F32 | u16F32 | i8F32 | u8F32
  deriving DecidableEq, Repr, Inhabited
/-- The operations of `CVT8` (R218) with their modifiers. `e5` selects E5M2, `bf` BF16, `h` the halfword. -/
inductive Cvt8 where
  | fromF32 (e5 : Bool) (rm : Rm) (h : Bool)
  | from16 (e5 : Bool) (rm : Rm) (h bf : Bool)
  | toF32 (e5 : Bool) (k : BitVec 2)
  | to16 (e5 : Bool) (h bf : Bool)
  deriving DecidableEq, Repr, Inhabited
/-- Storage formats of `CVTX` (R220). -/
inductive StoFmt where | int4 | uint4 | e2m3 | e3m2
  deriving DecidableEq, Repr, Inhabited
/-- Element formats of the block scale (R221). -/
inductive BlkFmt where | e2m1 | e4m3 | e5m2 | int8
  deriving DecidableEq, Repr, Inhabited
/-- Load sizes (R243), codes 0 to 6. -/
inductive LdSize where | w | d | q | ub | sb | uh | sh
  deriving DecidableEq, Repr, Inhabited
/-- Store sizes (R243): codes 0, 1, 2, 3 and 5. -/
inductive StSize where | w | d | q | b | h
  deriving DecidableEq, Repr, Inhabited
/-- L1 policies (R234). -/
inductive L1Pol where | normal | nl1 | lu
  deriving DecidableEq, Repr, Inhabited
/-- Element selects (R243). -/
inductive ElSel where | e | lo | hi
  deriving DecidableEq, Repr, Inhabited
/-- Atomic operations (R243). -/
inductive AtOp where | add | exch | cas | and | or | xor | min | max
  deriving DecidableEq, Repr, Inhabited
/-- Kinds of `PBAR` (R182). -/
inductive PbarKind where | sync | arv | wait
  deriving DecidableEq, Repr, Inhabited
/-- Modes of `VOTE` (R176). -/
inductive VoteMode where | every | some | same | mask | count
  deriving DecidableEq, Repr, Inhabited
/-- Modes of `SHFL` (R177). -/
inductive ShflMode where | from | back | fwd | flip
  deriving DecidableEq, Repr, Inhabited
/-- Segment codes of `SHFL` (R177): 32, 16, 8, 4 and 2 lanes. -/
inductive Seg where | s32 | s16 | s8 | s4 | s2
  deriving DecidableEq, Repr, Inhabited
/-- Fields of `XGET` (R178). -/
inductive XField where | index | base | limit
  deriving DecidableEq, Repr, Inhabited
/-- Levels of `CANCEL` and `CNTRD` (R499). -/
inductive Level where | l | g | p | j
  deriving DecidableEq, Repr, Inhabited
/-- Contrail directions (R26), codes 0 to 3. -/
inductive Dir where | n | e | s | w
  deriving DecidableEq, Repr, Inhabited
/-- Forms of `FGRP` (R467). -/
inductive FgrpKind where | info | route | tree
  deriving DecidableEq, Repr, Inhabited
/-- Forms of `BRC` (R278). -/
inductive BrcKind where | jump | call | ret
  deriving DecidableEq, Repr, Inhabited
/-- How `SCMP` combines with the old predicate (R279). -/
inductive ScmpComb where | set | and | or
  deriving DecidableEq, Repr, Inhabited

/-- Operations of a P-form half (R108), with the modifiers of MOD4. -/
inductive POp where
  | iadd | isub | imul | imin (u : Bool) | imax (u : Bool) | iand | ior | ixor | shl | shr | sar | rot | mov
  | popc | clz | brev
  | fadd (rm : Rm) | fsub (rm : Rm) | fmul (rm : Rm) | fmin (rm : Rm) | fmax (rm : Rm)
  | hadd2 (rm : Rm) | hmul2 (rm : Rm) | badd2 (rm : Rm) | bmul2 (rm : Rm)
  | frcp | frsq | fsqrt | fexp2 | flog2 | fsin | fcos
  deriving DecidableEq, Repr, Inhabited

/-- One half of a P-form word (R106). -/
structure PHalf where
  op : POp
  pr : BitVec 3
  dst : BitVec 8
  src : Sel
  deriving DecidableEq, Repr, Inhabited

/-- One code of a D-form word (R109): a dictionary index and a register offset. -/
structure DCode where
  index : BitVec 10
  off : BitVec 6
  deriving DecidableEq, Repr, Inhabited

/-- A flit that arrives from the fabric, or leaves for it: the port, the device it came from, the 64-bit words of its fields
in the order of the flit's table (R430 to R461), and the wavelength of the port (R426, R431). -/
structure Flit where
  port : Nat
  src : Nat
  words : List W64
  wave : Nat := 0
  deriving DecidableEq, Repr, Inhabited

/-- One constructor per row of the opcode table. The first 174 are F-form instructions, then the P-form word and the
D-form word, then the events, each with the name of the thing it happens to. -/
inductive Instr where
  -- class 000: integer and logic (R116)
  | iadd (w : FWord) (m : Sat) | isub (w : FWord) (m : Sat)
  | iaddc (w : FWord) (p : BitVec 3) (c0 : Bool) | isubb (w : FWord) (p : BitVec 3) (c0 : Bool)
  | ineg (w : FWord) (sat : Bool) | iabs (w : FWord) (sat : Bool)
  | imul (w : FWord) | imulh (w : FWord) (u : Bool) | imad (w : FWord) | imadw (w : FWord) (u : Bool)
  | iadd64 (w : FWord) (m : Sat) | isub64 (w : FWord) (m : Sat) | shf64 (w : FWord) (dir : ShfDir)
  | imin (w : FWord) (u : Bool) | imax (w : FWord) (u : Bool)
  | iand (w : FWord) (d : Bool) | ior (w : FWord) (d : Bool) | ixor (w : FWord) (d : Bool) | inot (w : FWord) (d : Bool)
  | ilop3 (w : FWord) (f0 f1 : BitVec 4)
  | shl (w : FWord) | shr (w : FWord) | sar (w : FWord) | rot (w : FWord)
  | bfe (w : FWord) (s : Bool) | bfi (w : FWord) | popc (w : FWord) | clz (w : FWord) | brev (w : FWord)
  | icmp (w : FWord) (cond : Cond) (u d : Bool) | sel (w : FWord) (p : BitVec 3) (neg d : Bool)
  | mov (w : FWord) (d : Bool) (xdst : Option (BitVec 2)) | movi (w : FWord) (d : Bool) | movhi (w : FWord)
  | lea (w : FWord) (sh : BitVec 3) (s : Bool)
  | pand (w : FWord) (neg : Bool) | por (w : FWord) (neg : Bool) | pxor (w : FWord) (neg : Bool) | pnot (w : FWord)
  | pset (w : FWord) (z : Bool)
  -- classes 001 and 010: floating point (R117)
  | fadd (w : FWord) (rm : Rm) (sat : Bool) | fsub (w : FWord) (rm : Rm) (sat : Bool) | fmul (w : FWord) (rm : Rm) (sat : Bool)
  | fdivs (w : FWord) (rm : Rm) (sat : Bool)
  | dadd (w : FWord) (rm : Rm) (sat : Bool) | dsub (w : FWord) (rm : Rm) (sat : Bool) | dmul (w : FWord) (rm : Rm) (sat : Bool)
  | ffma (w : FWord) (nab nc : Bool) (rm : Rm) (sat : Bool) | dfma (w : FWord) (nab nc : Bool) (rm : Rm) (sat : Bool)
  | fmin (w : FWord) (rm : Rm) | fmax (w : FWord) (rm : Rm) | dmin (w : FWord) (rm : Rm) | dmax (w : FWord) (rm : Rm)
  | fcmp (w : FWord) (cond : FCond) (rm : Rm) (s : Bool) | dcmp (w : FWord) (cond : FCond) (rm : Rm) (s : Bool)
  | frnd (w : FWord) (rm : Rm) | drnd (w : FWord) (rm : Rm) | fclass (w : FWord) (fmt : ClassFmt) (rm : Rm)
  | hadd2 (w : FWord) (rm : Rm) (sat : Bool) | hmul2 (w : FWord) (rm : Rm) (sat : Bool)
  | badd2 (w : FWord) (rm : Rm) (sat : Bool) | bmul2 (w : FWord) (rm : Rm) (sat : Bool)
  | hfma2 (w : FWord) (rm : Rm) (sat : Bool) | bfma2 (w : FWord) (rm : Rm) (sat : Bool)
  | dot4i (w : FWord) (ua ub sat : Bool) (rm : Rm)
  -- class 011: special functions and conversions (R118)
  | frcp (w : FWord) | frsq (w : FWord) | fsqrt (w : FWord) | fexp2 (w : FWord) | flog2 (w : FWord) | fsin (w : FWord) | fcos (w : FWord)
  | cvt (w : FWord) (k : Cvt) (rm : Rm) | cvt8 (w : FWord) (op : Cvt8)
  | cvt4E2m1 (w : FWord) (rm : Rm) | cvt4Pack (w : FWord) | cvt4Fp32 (w : FWord) (n : BitVec 3)
  | cvtx (w : FWord) (fmt : StoFmt) (o : BitVec 3)
  | sclxFp32 (w : FWord) (rm : Rm) | sclxFp64 (w : FWord) (rm : Rm) | sclxX8 (w : FWord) (inv : Bool) (rm : Rm) | sclxBlk (w : FWord) (fmt : BlkFmt)
  -- class 100: memory (R119)
  | ld (w : FWord) (sz : LdSize) (pol : L1Pol) (acq : Bool) | lds (w : FWord) (sz : LdSize) (acq : Bool)
  | st (w : FWord) (sz : StSize) (os : BitVec 3) (rel : Bool) | sts (w : FWord) (sz : StSize) (os : BitVec 3) (rel : Bool)
  | lde (w : FWord) (el : ElSel) (pol : L1Pol) (acq : Bool) | ste (w : FWord) (el : ElSel) (os : BitVec 3) (rel : Bool)
  | ldx (w : FWord) (x : BitVec 2) (pol : L1Pol) (acq : Bool) | stx (w : FWord) (x : BitVec 2) (os : BitVec 3) (rel : Bool)
  | atom (w : FWord) (op : AtOp) (os : BitVec 3) (ar : Bool) | atomx (w : FWord) (op : AtOp) (os : BitVec 3) (ar : Bool)
  | acq (w : FWord) | rel (w : FWord) | sjoin (w : FWord)
  | pref (w : FWord) (l2 : Bool) | cflush (w : FWord) | cinv (w : FWord)
  -- class 101: control and synchronisation (R120)
  | bra (w : FWord) | brx (w : FWord) | call (w : FWord) | ret (w : FWord)
  | exit (w : FWord) | nop (w : FWord) | yield (w : FWord) | bkpt (w : FWord) | trap (w : FWord) | rtt (w : FWord)
  | bar (w : FWord) (n : BitVec 4) (arv : Bool) | pbar (w : FWord) (n : BitVec 3) (k : PbarKind)
  | vote (w : FWord) (m : VoteMode) (inv : Bool) | lead (w : FWord)
  | shfl (w : FWord) (m : ShflMode) (d : Bool) (seg : Seg)
  | xset (w : FWord) (x : BitVec 2) | xadd (w : FWord) (x : BitVec 2) | xget (w : FWord) (x : BitVec 2) (f : XField)
  | dqtake (w : FWord) (pd : Option (BitVec 3))
  | vgrow (w : FWord) | vshrink (w : FWord) | krd (w : FWord) | kwr (w : FWord) | flagarm (w : FWord) (off : Bool)
  | spawn (w : FWord) | grow (w : FWord) | launch (w : FWord) | cancel (w : FWord) (lvl : Level) | cntrd (w : FWord) (lvl : Level)
  -- class 110: engine commands (R121)
  | capmk (w : FWord) (snd eng : Bool) | caprv (w : FWord)
  | rarm (w : FWord) (acq nbr : Bool) | rdisarm (w : FWord) | rpend (w : FWord)
  | sendr (w : FWord) (d : Bool) (os : BitVec 3) | sendn (w : FWord) (dir : Dir) (os : BitVec 3)
  | cpy (w : FWord) | cpyg (w : FWord) | cpym (w : FWord) | cpypf (w : FWord)
  | twaitany (w : FWord) | twaitall (w : FWord) | tffr (w : FWord) | tclr (w : FWord)
  | mloadb (w : FWord) | mma (w : FWord) (z : Bool) | mzero (w : FWord)
  | mstore (w : FWord) (os : BitVec 3) | mread (w : FWord) (d : Bool) | mwrite (w : FWord) (d : Bool)
  | mres (w : FWord) | mrel (w : FWord) (all : Bool) | mstat (w : FWord)
  | rmoN (w : FWord) (n : BitVec 5) (os : BitVec 3) | rmoR (w : FWord) (n : BitVec 5) (os : BitVec 3)
  | rmdef (w : FWord) | rmdrop (w : FWord) | rmqry (w : FWord) | sweep (w : FWord)
  | mcast (w : FWord) (d : Bool) (os : BitVec 3) | coll (w : FWord) (os : BitVec 3) | fgrp (w : FWord) (k : FgrpKind)
  -- class 111: lead-only and system (R122)
  | sld (w : FWord) (d acq : Bool) | slds (w : FWord) (d acq : Bool) | sst (w : FWord) (d : Bool) (os : BitVec 3) (rel : Bool)
  | qpush (w : FWord) (d : Bool) | qpusha (w : FWord) | dqpush (w : FWord) (all : Bool)
  | brc (w : FWord) (k : BrcKind) | scmp (w : FWord) (cond : Cond) (u d : Bool) (comb : ScmpComb)
  | lwait (w : FWord) (bar : Option (BitVec 4)) | ltime (w : FWord) (bar : Option (BitVec 4))
  | dictld (w : FWord) | lexit (w : FWord) | tlbinv (w : FWord) (ctx : Bool) | pgacc (w : FWord) (ca : Bool)
  -- the two other forms
  | pFormWord (a b : PHalf)
  | dFormSlot (c0 : DCode) (c1 c2 : Option DCode)
  -- events of the memory system and of the lanes
  | loadReturn (load : Nat) | storeAcknowledge (ack : Nat) | packetArrival (pkt : Nat) | watermarkMessage (msg : Nat)
  | ownershipConflictWindowEnd (slice : Nat)
  | barrierComplete (team bar : Nat) | phaseComplete (team bar : Nat) | barrierTimeout (team bar : Nat)
  | registerDeadlockBreak (core : Nat) | vgrowGrant (team group : Nat)
  | faultRecordArrival (rec : Nat) | asyncFaultDelivery (team src : Nat) | sendCommit (pkt : Nat)
  -- events of the copy engine, the matrix array, the update units and Ceiling
  | copyStart (cmd : Nat) | copyChunk (cmd : Nat) | cpymHandover (cmd : Nat) | copyComplete (cmd : Nat)
  | matrixCommandStart (cmd : Nat) | mmaRowPairCommit (cmd : Nat) | matrixCommandComplete (cmd : Nat)
  | mstoreComplete (cmd : Nat) | sequencerParityError (cmd : Nat)
  | rmoExecute (unit : Nat) | rmoAcknowledge (ack : Nat) | definitionFetch (unit : Nat)
  | sweepStart (cmd : Nat) | sweepComplete (cmd : Nat)
  | leaveRequest (cmd : Nat) | ceilingWindow
  -- events of the fabric engine: a flit arrives, or a timer runs out
  | ack (f : Flit) | nak (f : Flit) | done (f : Flit) | wmark (f : Flit) | read (f : Flit) | inval (f : Flit)
  | invack (f : Flit) | send1 (f : Flit) | burst (f : Flit) | dataFlit (f : Flit) | btag (f : Flit) | close (f : Flit)
  | retire (f : Flit) | collctl (f : Flit) | probe (f : Flit)
  | resendTimeout (dev : Nat) | probeTimer (dev : Nat) | burstTimeout (port : Nat) | unreachableTimeout (dev : Nat)
  | lossOfSignal (port wave : Nat) | collStart (coll : Nat) | collComplete (coll : Nat)
  -- events of Zenith
  | qpushWindowWrite (host queue off : Nat) (data : List Byte) | qcfgWrite (host queue : Nat) (v : W64)
  | qbaseWrite (host queue : Nat) (v : W64)
  | pendingListEntry (queue : Nat) | dispatch | launchRecordTake (queue : Nat) | graphStart (queue : Nat)
  | phaseMark (queue : Nat) | reconfigurationWindow (ctx : Nat)
  | teamEnd (team : Nat) | teamCancel (team : Nat)
  | priorityPreemptTimeout (queue : Nat) | powerPackingCheck (quad : Nat) | timeSliceExpiry (team : Nat)
  | hostPreemptRequest (team : Nat) | preemptionEffect (team : Nat) | quadWakeDone (quad : Nat) | quadPowerGate (quad : Nat)
  -- events of the walker
  | pageWalk (walk : Nat) | fqreplyRetry (host rec : Nat) | fqreplyDecline (host rec : Nat)
  | invctlPage (host : Nat) (v : W64) | invctlContext (host : Nat) (v : W64) | invalidationComplete (inv : Nat)
  -- events of Stratus, the lead's timer and the system controller
  | regionGovernorWindow (region occupancy : Nat) | regionPowerDown (region : Nat) | regionWake (region : Nat)
  | regionWakeAccept (region : Nat)
  | lwaitTimerReached (team : Nat)
  | powerOn | resetreqStart (host : Nat) | resetreqRecover (host : Nat) | dawnreqEnter (host : Nat)
  | freezeRequest (host : Nat) | freezeResume (host : Nat) | freezePinAssert | freezePinRelease
  | thermalSample | quoteRequest (host : Nat) (v : W64) | quoteReportWritten | flashCopyStart (host : Nat) (v : W64) | flashCopyDone
  | featureAcceptWrite (host : Nat) (high : Bool) (v : W64) | pcapWrite (host : Nat) (v : W64)
  | channelRetire (channel : Nat) | channelMapChange (region channelMap : Nat)
  | registerWrite (host reg : Nat) (v : W64) | powerLoss
  deriving DecidableEq, Repr, Inhabited

end Sys2Proof
end

