-- ==== Sys2Proof/Machine/State.lean ====
section
/-! DEFINITION. The state of the machine as plain data, the reasons a step can stop, and the state after reset. -/

namespace Sys2Proof.Machine

/-- Why the machine stops. -/
inductive Fault where
  /-- A physical address in a hole of R501, where the walker is to read a context entry (PAGE_WALK) or a host has asked for its
  attestation report (QUOTE_REPORT_WRITTEN): the spec gives no effect. Safe: the model stops where the hardware's behaviour is not
  described. -/
  | hole (pa : Nat)
  deriving DecidableEq, Repr

/-- Why the model has no meaning for an instruction. -/
inductive Refusal where
  /-- The instruction has no meaning in the model yet. Safe. -/
  | notModelled (mnemonic : String)
  deriving DecidableEq, Repr

/-- A source (R59): a group of a team, or (`g` = 32) its lead thread. -/
structure SrcId where
  team : Nat
  g : Nat
  deriving DecidableEq, Repr, Inhabited

/-- An index register of one lane (R130, R143). -/
structure XReg where
  base : BitVec 8 := 0
  limit : BitVec 7 := 0
  index : W32 := 0
  deriving DecidableEq, Repr

/-- The ERR mark of one register of one lane, with the cause its consumer faults with (R239, R241). -/
structure ErrMark where
  cause : Nat
  addr : W64
  deriving DecidableEq, Repr

/-- What a lane waits for at the word of its PC (R44, R132); `next` is the PC after that word. -/
inductive LaneWait where
  | bar (n : Nat) (later : Bool) (next : W64)   -- a counting barrier; `later`: its next generation (R147)
  | pbar (n : Nat) (next : W64)                 -- a phase-bit barrier, until AHEAD is 0
  | held (n : Nat) (sync : Bool) (next : W64)   -- an arrival held with AHEAD = 2 (R150)
  | vgrow (n since : Nat) (next : W64)          -- room for an allocation of n, since a cycle (R144, R145)
  | timer (t next : W64)                        -- the lead's timer (R280)
  | rtt                                         -- the other lanes of the group at their RTT (R181)
  deriving DecidableEq, Repr

/-- A chain in progress (R138 to R142), with what its words have written, so that a discard can undo it: `pUndo` has the
predicates with the lanes written and their old values. -/
structure Chain where
  first : W64
  lanes : Mask
  len : Nat
  vUndo : List (Nat × W32) := []
  pUndo : List (Nat × Mask × Mask) := []
  srUndo : List (Nat × W32) := []
  errUndo : List (Nat × Option ErrMark) := []
  flags : W64 := 0
  load : Option Nat := none
  deriving DecidableEq, Repr

/-- What a broken chain waits for before its first word issues again (R142): a cycle, registers of lanes, and the fetch of a word. -/
structure Hold where
  first : W64
  until_ : Nat := 0
  regs : List (Nat × Nat) := []
  fetch : Option W64 := none
  deriving DecidableEq, Repr

/-- Counters of one order stream of a source (R75, R76). -/
structure Stream where
  next : BitVec 24 := 0
  wm : BitVec 24 := 0
  last : Option Nat := none
  deriving DecidableEq, Repr

/-- The kind of an operation of a source, for the fences and the order table (R61, R64, R66, R71, R74). -/
inductive OpKind where
  | store | atomic | rmo | send | cflush | copy | matrix | sweep | coll | mcast
  deriving DecidableEq, Repr

/-- An issued operation of a source that is not performed (R59, R61). `left` counts its packets that are not
acknowledged, `pas` are the bytes it writes, and `data` those bytes' values where the issue fixes them (R232). -/
structure Op where
  kind : OpKind
  stream : Nat
  seq : BitVec 24
  ord : Nat
  lanes : Mask
  left : Nat
  pas : List Nat := []
  data : List (Nat × Byte) := []
  counted : Bool := false
  passed : Bool := false   -- in a range that the fabric engine has reported: the watermark goes past it (R83)
  deriving DecidableEq, Repr

/-- A trap that waits for the group's routine to return (R44). -/
inductive HeldTrap where
  | barrierTimeout (bar : Nat)
  | satAtBarrier (bar : Nat)
  deriving DecidableEq, Repr

/-- A gateway window bit of one register and lane (R288). -/
structure Arm where
  armed : Bool := false
  acq : Bool := false
  kind : BitVec 3 := 0
  deriving DecidableEq, Repr

/-! Engine commands. -/

/-- A command's need of leave from Ceiling (R4, R526). -/
inductive Leave where
  | unasked | wanted | queued | granted
  deriving DecidableEq, Repr

/-- How a command ended by a fault: cause, detail, failing address and EXTRA. -/
structure CmdFault where
  cause : Nat
  detail : Nat
  addr : W64 := 0
  extra : W64 := 0
  deriving DecidableEq, Repr

/-- A resolved layout record (R319, R326): `page` tells that it took its format from a page. -/
structure Layout where
  base : Nat := 0
  oob : Bool := false
  rank : Nat := 1
  geom : Nat := 0
  fmt : Nat := 0
  page : Bool := false
  ext : List Nat := []
  str : List Int := []
  deriving DecidableEq, Repr

/-- A copy command's own part (R321, R340): `kind` is 0 CPY, 1 CPYG, 2 CPYM, 3 CPYPF; `chunk` is the next chunk. -/
structure CopyCmd where
  kind : Nat
  srec : W64
  drec : W64
  idxAddr : W64 := 0
  rnd : Rm
  tier : Bool
  fkind : Nat
  farg : W32
  sc : List Nat
  dc : List Nat
  cnt : List Nat
  src : Layout := {}
  dst : Layout := {}
  idx : List Int := []
  chunk : Nat := 0
  skipped : List W64 := []   -- the lines that a `CPYPF` has skipped (R334, R338)
  handed : Bool := false
  transit : List Nat := []   -- peer lines that a TIER copy reads without keeping them (R336)
  deriving DecidableEq, Repr

/-- A matrix command's own part: `member` 0 MLOADB, 1 MMA, 2 MZERO, 4 MSTORE, 5 MREAD, 6 MWRITE (R387); `row` is the
next row of an `MMA` or of an `MSTORE`'s writes, `shadow` the rows as an `MMA` found them, `rows` what an `MSTORE` has read
and `upTo` how many rows it writes. -/
structure MatCmd where
  member : Nat
  desc : W32
  addr : W64 := 0
  z : Bool := false
  d : Bool := false
  reg : Nat := 0
  lanes : Mask := 0
  data : FMap W64 := []
  row : Nat := 0
  shadow : FMap W32 := []
  shadowBad : FMap Bool := []        -- uncorrectable units of the shadow
  rows : FMap W32 := []
  upTo : Nat := 0
  hasRead : Bool := false
  deriving DecidableEq, Repr

/-- A sweep's own part (R415, R417): the physical pages of its ranges, by virtual page, and whether its result is
written. -/
structure SweepCmd where
  op : Nat
  res : W64
  ranges : List (Nat × Nat)
  pages : FMap Nat := []
  written : Bool := false
  deriving DecidableEq, Repr

/-- A collective's own part (R466): `own` is the fold of its contributions (R454), `result` this node's result (R455). -/
structure CollCmd where
  inst : W32
  tree : Nat
  op : Nat
  dkind : Nat
  src : W64
  cstride : Nat
  c : Nat
  nel : Nat
  res : W64
  cap : W64
  own : Option (List W64) := none
  result : Option (List W64) := none
  sent : Option Nat := none          -- bursts of the result that the parent has not accepted
  final : Option (List W64) := none  -- the collective's result, where this member delivers it
  written : Bool := false
  deriving DecidableEq, Repr

inductive CmdBody where
  | copy (c : CopyCmd)
  | mat (m : MatCmd)
  | sweep (w : SweepCmd)
  | coll (k : CollCmd)
  deriving DecidableEq, Repr

/-- An engine command from its issue to its completion (R315, R323, R355, R416, R453): its issuer with the lane and the
settings that the issue recorded, its operation in the issuer's order, its tag and status register, and how far it is.
`left` counts its writes at other devices that are not performed. -/
structure Cmd where
  src : SrcId
  lane : Nat
  core : Nat
  ctx : Nat
  stream : Nat := 0
  seq : BitVec 24 := 0
  op : Option Nat := none
  tag : Option Nat := none
  stat : Option Nat := none
  ident : W64 := 0
  rmode : BitVec 2 := 0
  ftz : Bool := false
  sr : W32 := 0
  flags : W64 := 0
  started : Bool := false
  leave : Leave := .unasked
  left : Nat := 0
  fault : Option CmdFault := none
  body : CmdBody
  deriving DecidableEq, Repr

/-- The issue of a copy word while its lanes wait (R323): its word, all its lanes, those at the word, and the lanes not
enqueued with their commands. -/
structure Enq where
  pc : W64
  next : W64
  act : Mask
  at_ : Mask
  left : List Cmd
  deriving DecidableEq, Repr

/-- A B bank of the matrix array (R352): element codes by 256 * row + column, scales by 256 * block row + column. -/
structure Bank where
  valid : Bool := false
  fmt : Nat := 0
  geom : Nat := 0
  owner : Option Nat := none
  data : FMap W64 := []
  scales : FMap Nat := []
  load : Option (W32 × W64) := none     -- the `MLOADB` that loaded it (R373)
  deriving DecidableEq, Repr

/-- The matrix array of a core (R352, R356). Accumulator elements have the key 256 * row + column, units of 64 bits the
key 128 * row + half column; queues the key 64 * team + group. -/
structure MatArray where
  bank0 : Bank := {}
  bank1 : Bank := {}
  acc : FMap W32 := []
  accBad : FMap Bool := []           -- uncorrectable units of the accumulator
  rowOwner : FMap Nat := []
  queues : FMap (List Nat) := []
  loading : Option Nat := none       -- the command on the load path
  computing : Option Nat := none     -- the command on the compute path
  lastLoad : Nat := 0                -- the queue that each path took last
  lastCompute : Nat := 0
  reserved : Option Nat := none
  parity : BitVec 16 := 0
  eccfix : BitVec 16 := 0
  deriving DecidableEq, Repr

/-- What a saved team's image holds of the matrix array (R373). -/
structure SavedArray where
  rows : List Nat := []
  acc : FMap W32 := []
  bank0 : Option (W32 × W64) := none
  bank1 : Option (W32 × W64) := none
  own0 : Bool := false
  own1 : Bool := false
  bad : FMap Bool := []
  queues : FMap (List Nat) := []
  reserved : Bool := false
  deriving DecidableEq, Repr

/-- The state of a group (R130), or of a lead thread (R258), whose registers S are the registers of lane 0, whose
predicates C are its predicates and whose PC is the PC of lane 0. -/
structure Group where
  pc : FMap W64 := []
  shadow : FMap W64 := []
  live : Mask := 0
  age : FMap Nat := []
  slotBit : Mask := 0
  alloc : Nat := 0
  v : FMap W32 := []
  err : FMap ErrMark := []
  sb : FMap Mask := []
  p : FMap Mask := []
  x : FMap XReg := []
  latch : FMap W64 := []
  latchLeft : FMap Nat := []
  chain : Option Chain := none
  sr : FMap W32 := []
  inTrap : Bool := false
  tcause : W64 := 0
  tpc : W64 := 0
  taddr : W64 := 0
  tlanes : W64 := 0
  trec : List W64 := [0, 0, 0, 0]
  restart : Option W64 := none
  tpcWritten : Bool := false
  heldTraps : List HeldTrap := []
  wait : FMap LaneWait := []
  mark : FMap LaneWait := []
  uqRead : BitVec 7 := 0
  dq : List W32 := []
  streams : FMap Stream := []
  ops : FMap Op := []
  ord : Nat := 0
  memq : Nat := 0
  copyq : Nat := 0
  arm : FMap Arm := []
  handle : Option Nat := none
  yieldUntil : Nat := 0
  defWait : Option W64 := none     -- the PC of an `RMDEF` or `RMDROP` in progress (R411, R412)
  dropVer : Option (BitVec 8) := none   -- the version that an `RMDROP` in progress has withdrawn (R412)
  enq : List Enq := []
  started : Option Nat := none     -- the cycle from which the lead lets the groups issue (R257)
  ready : FMap Nat := []           -- the cycle from which a result can be used, by the scoreboard's keys (R206)
  dqAt : List Nat := []            -- the cycles of the last pushes to the decision queue, oldest first (R268)
  uqSeen : Option (Nat × BitVec 7) := none  -- the cycle of the last issue and the read pointer before it (R265, R267)
  hold : Option Hold := none       -- what keeps the first word of a broken chain (R142)
  ownKeys : List Nat := []         -- the scoreboard's keys of the results of the last chain's words (R142)
  ownPipes : FMap Nat := []        -- until when its words hold a pipe (R142)
  deriving DecidableEq, Repr

/-- An arrival at a barrier: the group order of the arriving word, which tells the lane's earlier operations (R67), and
the team's clock (R149). -/
structure Arr where
  ord : Nat
  at_ : Nat
  deriving DecidableEq, Repr

/-- A counting barrier (R147) with its generation count (R260). Lanes are numbered 32 * group + lane. Once the target
is met the barrier is `closed`, and arrivals count for the next generation. -/
structure Bar where
  target : Option Nat := none
  arrived : FMap Arr := []
  timer : Option Nat := none
  closed : Bool := false
  nextTarget : Option Nat := none
  next : FMap Arr := []
  gen : BitVec 16 := 0
  deriving DecidableEq, Repr

/-- A phase-bit barrier (R150); `held` keeps each held arrival with its count. -/
structure PBar where
  phase : Bool := false
  cnt0 : FMap Arr := []
  target0 : Option Nat := none
  cnt1 : FMap Arr := []
  target1 : Option Nat := none
  ahead : FMap Nat := []
  held : FMap (Nat × Arr) := []
  timer : Option Nat := none
  deriving DecidableEq, Repr

/-- An entry of the uniform queue (R258). -/
inductive UqEntry where
  | uniform (v : W64)
  | affine (base stride : W64)
  deriving DecidableEq, Repr

/-- A launch record's fields (R31). -/
structure Launch where
  kcode : W64 := 0
  frame : W64 := 0
  compl : W64 := 0
  extx : Nat := 0
  exty : Nat := 0
  extz : Nat := 0
  rmode : BitVec 2 := 0
  ftz : Bool := false
  barlog : Nat := 0
  tagn : Nat := 0
  tagbase : Nat := 0
  scrkb : Nat := 0
  regb : Nat := 0
  grpm1 : Nat := 0
  remap : Bool := false
  chmap : Nat := 0
  ctx : Nat := 0
  gslot : Nat := 0xFFFF
  lid : Nat := 0
  save : W64 := 0
  leadoff : Nat := 0         -- of the kernel image's header (R129), as the accepting check read it
  laneoff : Nat := 0
  dictn : Nat := 0
  dictoff : Nat := 0
  deriving DecidableEq, Repr

/-- Where a team is. -/
inductive TeamStatus where
  | resident   -- on a core
  | saved      -- pre-empted, its state in its save area (R57)
  | ending     -- ended by a cancel, a trap or its last thread; its operations drain (R30, R480)
  deriving DecidableEq, Repr

/-- A defined remote opcode in a team's header cache (R393, R400). -/
structure RmoHeader where
  dw0 : W64 := 0
  version : BitVec 8 := 0
  deriving DecidableEq, Repr

/-- A record in a fault ring (R49), with the lane that issued its operation (R50). -/
structure RingRec where
  words : List W64
  lane : Option Nat := none
  deriving DecidableEq, Repr

/-- A team (R28): its identity, its shared state and its groups; the lead thread stands under key 32. -/
structure Team where
  launch : Launch := {}
  index : Nat := 0
  status : TeamStatus := .resident
  core : Nat := 0
  slots : List Nat := [0]    -- the group slots of its groups on its core (R132)
  dispatched : Nat := 0      -- device cycle of its last dispatch or restore
  order : Nat := 0           -- dispatch order
  flags : W64 := 0
  due : List (Nat × W64) := []   -- settings of FLAGS with the cycles in which their instructions complete (R155)
  trapBase : W64 := 0
  barLog : Nat := 24
  bars : FMap Bar := []
  pbars : FMap PBar := []
  uq : FMap UqEntry := []
  uqWrite : BitVec 7 := 0
  uqAt : FMap Nat := []      -- the cycle in which an entry was pushed, by its position (R265)
  ring : List RingRec := []
  lost : Nat := 0
  dict : FMap W64 := []
  dictBusy : Option (Nat × Nat) := none
  scratch : FMap Byte := []
  joins : List W64 := []
  headers : FMap RmoHeader := []
  savedTags : W64 := 0
  savedBusy : W64 := 0
  savedArray : SavedArray := {}
  timer : Nat := 0
  cancelReq : Bool := false
  preemptReq : Bool := false
  groups : FMap Group := []
  entry : W64 := 0
  queue : Nat := 0           -- the queue from which its launch was taken (R474)
  run : Nat := 0             -- its launch's `Cnt.seq`
  join : W64 := 0            -- the join block that its end decrements (R479)
  contDue : Option W64 := none   -- the join block whose continuation its end still has to queue (R479)
  savedPages : FMap Nat := []   -- physical base by 64 KiB virtual page of its save area, while saved (R493)
  saveNo : Nat := 0          -- the step that saved it: names the contents of Zenith's own regions (log 17)
  deriving DecidableEq, Repr

/-- A TLB entry: the leaf it was filled from, with its context, page size (as a power of two) and virtual page (R508). -/
structure TlbEntry where
  ctx : Nat
  size : Nat
  vpn : Nat
  leaf : W64
  deriving DecidableEq, Repr

/-- The kind of an access, as host fault records code it (R511). -/
inductive AccKind where
  | load | store | fetch | engRead | engWrite | rmo | zenith | zenWrite | other
  deriving DecidableEq, Repr

/-- Who waits for a translation: a source of a team, an engine command by its number, or a task of Zenith. -/
inductive Waiter where
  | src (id : SrcId)
  | cmd (n : Nat)
  | zen (task : Nat)
  deriving DecidableEq, Repr

/-- A walk in progress (R508). -/
structure Walk where
  ctx : Nat
  va : W64
  kind : AccKind
  core : Nat
  waiters : List Waiter
  deriving DecidableEq, Repr

/-- An outstanding replayable translation fault (R510, R511). -/
structure TFault where
  ctx : Nat
  page : Nat                 -- virtual address bits [56:16]
  kind : AccKind
  cause : Nat
  detail : Nat
  waiters : List Waiter
  deriving DecidableEq, Repr

/-- A declined access: its waiter meets the cause when it tries the page again (R511). -/
structure Declined where
  waiter : Waiter
  ctx : Nat
  page : Nat
  cause : Nat
  detail : Nat
  deriving DecidableEq, Repr

/-- How a loaded value is formed (R245, R247, R249, R250, R398). -/
inductive LoadKind where
  | plain (sz : LdSize)
  | elem (el : ElSel) (rmode : BitVec 2) (ftz : Bool)
  | word                      -- a word of an `LDX`
  | old (d : Bool)            -- the old value of an atomic or the return of an `RMO.r`
  deriving DecidableEq, Repr

/-- One access of a load: its lane, destination register, physical bytes in address order, the byte of a block
scale, and the value once read. `bad` names the failing unit of an uncorrectable access (R239). -/
structure LoadAcc where
  lane : Nat
  reg : Nat
  pas : List Nat
  fmt : Nat := 0
  scale : Option Nat := none
  ms : Bool := false         -- on a memory-side page (R389)
  val : Option (List Byte) := none
  scaleVal : Option Byte := none
  bad : Option ErrMark := none
  keep : Bool := false       -- released unchanged (R397, R451)
  deriving DecidableEq, Repr

/-- An outstanding load, atomic or `RMO.r` whose values are not bound (R238, R61). -/
structure LoadOp where
  src : SrcId
  ord : Nat
  lanes : Mask
  kind : LoadKind
  accs : List LoadAcc
  strong : Bool
  pol : L1Pol
  acquire : Bool
  counted : Bool
  opener : Bool := false   -- the load opened a chain (R141)
  dl : BitVec 2 := 0
  ws : Bool := false
  deriving DecidableEq, Repr

/-- The bytes that one lane writes (R246). -/
structure StLane where
  lane : Nat
  bytes : List (Nat × Byte)
  ms : List Nat := []      -- those of the bytes that lie on memory-side pages (R389)
  deriving DecidableEq, Repr

/-- One element that an `STE` writes (R248). -/
structure SteLane where
  lane : Nat
  pa : Nat
  el : ElSel
  data : W32
  fmt : Nat
  scale : Option Nat
  ms : Bool := false
  deriving DecidableEq, Repr

/-- One lane of an atomic (R250). -/
structure AtLane where
  lane : Nat
  pa : Nat
  operand : W64
  cmp : W64
  ms : Bool := false       -- on a memory-side page: performed at the channel unit (R250, R389)
  deriving DecidableEq, Repr

/-- One request of a remote opcode (R396, R409). -/
structure RmoReq where
  lane : Nat
  va : W64
  pa : Nat
  ops : List W32
  deriving DecidableEq, Repr

/-- One lane of a register send: window offset and value (R311, R312). -/
structure SendLane where
  lane : Nat
  off : W32
  val : W64
  deriving DecidableEq, Repr

/-- How a send names its target (R40, R287, R300): by a capability, by a Contrail port, or as a status word to the
issuing lane's own register (R303). -/
inductive Target where
  | cap (c : W64)
  | port (core : Nat) (dir : Dir) (ctx : Nat)
  | status (id : SrcId) (lane reg : Nat)
  deriving DecidableEq, Repr

/-- A byte that an engine's write changes at its home slice, in the bits of a mask (R339): a sub-byte element leaves the
other bits of its byte alone. -/
structure EngByte where
  pa : Nat
  val : Byte
  mask : Byte := 0xFF
  ms : Bool := false       -- on a memory-side page (R389)
  deriving DecidableEq, Repr

/-- What a packet asks of its destination (R76). -/
inductive Body where
  | store (ws : List StLane) (strong : Bool)
  | ste (ws : List SteLane) (rm : BitVec 2) (ftz : Bool)
  | load (load : Nat) (accs : List Nat)
  | atom (load : Nat) (op : AtOp) (d : Bool) (ls : List AtLane)
  | rmo (num : Nat) (hdr : RmoHeader) (load : Option Nat) (rs : List RmoReq)
  | send (t : Target) (d : Bool) (eng : Bool) (ls : List SendLane)
  | cflush (lines : List Nat)
  | mcast (ws : List (Nat × W64 × W64)) (d : Bool)   -- lane, address and datum
  | peerRead (pa size : Nat) (strong : Bool)          -- a READ of another device (R445)
  | eng (cmd : Option Nat) (ws : List EngByte)        -- writes of an engine command (R339), or of a multicast (R452)
  deriving DecidableEq, Repr

/-- A packet of an operation on its way to a destination, or held there (R76 to R80). `after` are the operations of
the source that are performed first (R74). -/
structure Pkt where
  src : SrcId
  op : Option Nat
  ctx : Nat
  core : Nat
  dest : Nat
  stream : Nat
  seq : BitVec 24
  wm : BitVec 24
  flag : Bool
  after : List Nat := []
  held : Bool := false
  parts : Nat := 0           -- parts that a channel unit has still to perform (R389)
  sup : List Nat := []       -- words superseded in the packet's window (R88)
  body : Body
  deriving DecidableEq, Repr

/-- An acknowledgement on its way back to a core (R231): the words written, and those superseded (R88). -/
structure AckMsg where
  src : SrcId
  op : Nat
  core : Nat
  words : List Nat
  superseded : List Nat
  flags : W64 := 0
  deriving DecidableEq, Repr

/-- A watermark message on its way to a destination (R78). -/
structure WmMsg where
  src : SrcId
  dest : Nat
  stream : Nat
  wm : BitVec 24
  deriving DecidableEq, Repr

/-- What a destination keeps per source and stream (R77): the last committed number and the watermark that has
reached it. -/
structure Commit where
  dest : Nat
  src : SrcId
  stream : Nat
  last : BitVec 24
  wm : BitVec 24
  deriving DecidableEq, Repr

/-- A team's place in the work: its context, its launch id, its index, and its launch's `seq`. -/
structure Origin where
  ctx : Nat
  lid : Nat
  index : Nat
  run : Nat
  deriving DecidableEq, Repr

/-- An asynchronous fault record on its way to its ring (R49, R53), with the place of its team where that may have ended (R52). -/
structure RecMsg where
  team : Nat
  words : List W64
  lane : Option Nat := none    -- the lane that issued the operation
  origin : Option Origin := none
  deriving DecidableEq, Repr

/-- An invalidation in progress (R510, R517): who waits for it and the accesses it waits for; `pkts` names packets and operations
at other devices. -/
structure Inval where
  ctx : Nat
  page : Option Nat
  host : Option Nat
  src : Option SrcId
  loads : List Nat
  pkts : List Nat
  deriving DecidableEq, Repr

/-- A completion counter entry (R483): outstanding count, state (0 free, 1 running, 2 completed, 3 cancelled,
4 refused, 5 faulted), cause and detail. `next` is NEXT of a launch (R474), `seq` the order of allocation, `fault`
tells that a team of the launch ended by a fault (R485); `queue` is the launch's queue, `node` the graph slot and node
that it runs (R487). -/
structure Cnt where
  count : Nat := 0
  state : Nat := 0
  cause : Nat := 0
  detail : Nat := 0
  next : Nat := 0
  seq : Nat := 0
  fault : Bool := false
  launch : Launch := {}
  queue : Nat := 0
  node : Option (Nat × Nat) := none
  deriving DecidableEq, Repr

/-! Zenith. -/

/-- A record on its way into a queue's slot, or in one (R470 to R473): its doublewords, the issuer of a `LAUNCH` with its
lowest lane and its place (R32, R52), the graph slot and node whose launch it is (R487), the `seq` of its launch or graph, whether
it waits for a slot (R471), and whether its slot's write has met a translation fault (R531). -/
structure Mark where
  words : List W64
  issuer : Option (SrcId × Nat) := none
  origin : Option Origin := none
  node : Option (Nat × Nat) := none
  run : Nat := 0
  held : Bool := false
  faulted : Bool := false
  deriving DecidableEq, Repr

/-- The record at a queue's head while its teams are dispatched (R476): the launch's key and `seq`, the next index and
the one after its last, and what its teams start with. -/
structure HeadProg where
  key : Nat
  run : Nat
  next : Nat
  last : Nat
  entry : W64 := 0
  frame : W64 := 0
  join : W64 := 0
  deriving DecidableEq, Repr

/-- A queue (R469, R471, R476, R494): its registers, the pending list, the records that Zenith wrote into the ring by slot
count, the head's progress, the saved teams, the launches in the order in which each first lost a team, whether a slot
write was declined (R531), since when its next team has found no place (R491), and the quad that was woken for that team (R482). -/
structure ZQueue where
  ctx : BitVec 16 := 0
  slice : BitVec 8 := 0
  runest : BitVec 16 := 4096
  ovf : Bool := false
  log2n : BitVec 5 := 6
  enable : Bool := false
  pri : BitVec 3 := 0
  base : W64 := 0
  head : W32 := 0
  tail : W32 := 0
  pending : List Mark := []
  marks : FMap Mark := []
  prog : Option HeadProg := none
  saved : List Nat := []
  losers : List Nat := []
  stuck : Bool := false
  blocked : Option Nat := none
  woke : Option Nat := none
  deriving DecidableEq, Repr

/-- A node of a graph (R486, R487): its launch record, successors, unfinished predecessors and queue, and whether it is
waiting 0, pushed 1, completed 2, ended otherwise 3 or unreachable 4. -/
structure GNode where
  record : List W64
  succs : List Nat
  left : Nat
  queue : Nat
  state : Nat := 0
  deriving DecidableEq, Repr

/-- A GCNT entry with its graph (R483, R487). -/
structure Graph where
  ctx : Nat
  count : Nat := 0
  state : Nat := 0
  cause : Nat := 0
  detail : Nat := 0
  seq : Nat := 0
  nodes : List GNode := []
  deriving DecidableEq, Repr

/-- A context that a phase mark has stopped (R488): the mark's queue and table address, and whether its table failed. -/
structure Halt where
  queue : Nat
  table : W64
  failed : Bool := false
  deriving DecidableEq, Repr

/-- A core quad (R482): awake, the cycle its wake ends, and since when it has no resident team. -/
structure Quad where
  awake : Bool := false
  wake : Option Nat := none
  emptyAt : Nat := 0
  packAt : Nat := 0          -- its last power-packing check (R491)
  gatedAt : Option Nat := none   -- the cycle in which it was gated last
  deriving DecidableEq, Repr

/-- Zenith's state: LCNT stands in `State.lcnt`. -/
structure Zen where
  queues : FMap ZQueue := []
  gcnt : FMap Graph := []
  pcnt : FMap Cnt := []
  jcnt : FMap Cnt := []
  halts : FMap Halt := []
  lastQueue : Nat := 63      -- the queue served last (R476)
  quads : FMap Quad := []
  skipped : Nat := 0         -- records skipped and counted (R472)
  enabled : Bool := false    -- a queue has been enabled since the start (R523)
  deriving DecidableEq, Repr

/-- What a core holds beside its teams' state (R230, R314, R508, R530). -/
structure CoreSt where
  tags : W64 := 0
  busy : W64 := 0
  doneTags : W64 := 0           -- the tags that completions have set in the cycle `doneAt` (R316)
  doneAt : Nat := 0
  l1 : FMap Byte := []          -- bytes of the resident L1 lines
  owned : FMap Bool := []       -- words of the L1 that the core owns
  icache : FMap W64 := []       -- fetched words by context and word address
  icPast : FMap (List W64) := []   -- the values of these words that the core fetched before, since its cache was discarded (R530)
  tlb : List TlbEntry := []
  lastSlot : FMap Nat := []     -- group slot that each scheduler chose last (R132)
  lastLead : Nat := 0           -- team that the lead unit chose last (R256)
  pipes : FMap Nat := []        -- the cycle until which a pipe is held, by 2 * scheduler + pipe (R206)
  schedAt : FMap Nat := []      -- the cycle from which a scheduler takes its next opportunity (R132, R143)
  leadAt : Nat := 0             -- the cycle from which the lead unit issues its next word (R256)
  stuck : Option Nat := none    -- since when the condition of R145 holds
  breaking : Bool := false      -- the allocator has pre-empted a team for the `VGROW` issued earliest (R145)
  array : MatArray := {}
  deriving DecidableEq, Repr

/-- An entry of the handle table (R285): its generation and the group that holds it. -/
structure Handle where
  gen : BitVec 8 := 0
  holder : Option SrcId := none
  deriving DecidableEq, Repr

/-- A claim of a Contrail port (R300): the group, its window and its context. -/
structure Claim where
  id : SrcId
  base : Nat
  count : Nat
  ctx : Nat
  deriving DecidableEq, Repr

/-- A host's translation registers (R510) and the records that wait for its ring (R511). -/
structure HostRegs where
  ctxtbl : W64 := 0
  fqbase : W64 := 0
  fqEnable : Bool := false
  fqLog2n : Nat := 8
  fqHead : W32 := 0
  fqTail : W32 := 0
  invctl : W64 := 0
  waiting : List (List W64) := []
  deriving DecidableEq, Repr

/-! The fabric engine. -/

/-- What a packet of the fabric carries (R430): one control flit's payload, or the data flits of a burst. -/
inductive FabBody where
  | ctl (kind : Nat) (payload : Nat)
  | burst (flits : List (List W64))
  deriving DecidableEq, Repr

/-- A packet to another device (R428, R434): its header, when it was sent last, the place in its route entry, and a
refusal that waits for the next ACK (R435). -/
structure FabPkt where
  tsn : W32 := 0
  srcn : BitVec 14 := 0
  stream : Nat := 0
  sd : Bool := false
  seq : BitVec 24 := 0
  wm : BitVec 24 := 0
  body : FabBody
  sentAt : Nat := 0
  route : Nat := 0
  refused : Bool := false
  coll : Option Nat := none      -- the collective whose result the burst carries
  deriving DecidableEq, Repr

/-- What the fabric engine keeps for another device (R434 to R437, R462, R450). -/
structure Peer where
  nextTsn : W32 := 1
  contig : W32 := 0
  marks : List W32 := []
  retx : List FabPkt := []
  waiting : List FabPkt := []
  quiet : Option Nat := none      -- since when packets are outstanding and nothing has arrived
  lastSent : Nat := 0
  unreach : Bool := false
  closes : List FabPkt := []      -- a CLOSE for each range reported (R450)
  deriving DecidableEq, Repr

/-- A burst that is being staged (R432). -/
structure Burst where
  port : Nat
  hdr : List W64
  flits : List (List W64) := []
  tag : Option (W64 × Nat) := none     -- the tag, and the cycle of its BTAG
  deriving DecidableEq, Repr

/-- What a record names of a remote-opcode request (R409): number, version, lane and a1:a0, with its physical address. -/
structure RmoTag where
  num : Nat
  version : BitVec 8
  lane : Nat
  a01 : W64
  pa : Nat := 0
  deriving DecidableEq, Repr

/-- What an item that left the device waits for (R444). -/
inductive AwayKind where
  | line (ln : Nat)                              -- a READ that fills a line of the local L2
  | store (bytes : List (Nat × Byte))
  | merge (cmd : Option Nat) (ws : List EngByte) (old : W32)   -- sub-byte writes of a word, by compare and swap (log 19)
  | value (load acc : Nat) (tag : Option RmoTag)   -- a read, an atomic or an `RMO.r`: access `acc` of a load
  | request (tag : RmoTag)                         -- an `RMO.n`
  | send (cap : W64)
  | mcast (member : Nat)
  | engine (cmd : Nat)                             -- a write of an engine command
  | deliver (cmd : Nat) (cap : W64)                -- the delivery of a collective (R459)
  | raise (k : Nat)                                -- COUNT of a join block rises by k (R479)
  | lower (j : W64) (old : W64)                    -- COUNT of join block j falls from `old`, by compare and swap (R479)
  deriving DecidableEq, Repr

/-- An operation of this device at another one (R444, R449). -/
structure Away where
  dev : Nat
  src : SrcId
  op : Option Nat
  stream : Nat
  seq : BitVec 24
  core : Nat
  addr : W64
  kind : AwayKind
  flags : W64 := 0         -- FLAGS bits that its DONE sets (R248)
  deriving DecidableEq, Repr

/-- An operation of another device that is performed here: its parts not performed (R444). -/
structure Guest where
  dev : Nat
  srcn : BitVec 14
  stream : Nat
  seq : BitVec 24
  left : Nat
  deriving DecidableEq, Repr

/-- A node's place in a reduction tree (R439); `ops` is OPMASK after verification. -/
structure TreeEnt where
  parent : Nat
  children : List Nat
  isIn : Bool
  switch : Nat
  ops : Nat
  deriving DecidableEq, Repr

/-- A group table (R438, R439). -/
structure GroupTable where
  phase : Nat
  self : Nat
  ndev : Nat
  routes : FMap W64
  sets : List (List Nat)
  trees : List TreeEnt
  deriving DecidableEq, Repr

/-- An entry of a peer directory (R445), and the devices whose INVACK it waits for. -/
structure DirEntry where
  devs : List Nat := []
  bcast : Bool := false
  waiting : List Nat := []
  deriving DecidableEq, Repr

/-- What has arrived of a collective from one device (R433, R455), before this member has taken it: the elements, whether
items disagreed, and an abort that came before this member issued (R461). -/
structure CollIn where
  dev : Nat
  tree : Nat
  inst : W32
  op : Nat := 0
  nel : Nat := 0
  dkind : Nat := 0
  flags : W64 := 0
  data : FMap W64 := []
  bad : Bool := false
  abort : Option (Nat × Nat) := none
  deriving DecidableEq, Repr

/-- The fabric engine's state (R462). -/
structure Fabric where
  peers : FMap Peer := []
  bursts : List Burst := []
  srcns : FMap SrcId := []             -- source numbers in use (R442)
  srcnDevs : FMap (List Nat) := []     -- devices that received a stream packet of the number
  retiring : FMap (List Nat) := []     -- devices whose acknowledgement of a RETIRE is awaited
  away : FMap Away := []
  guests : FMap Guest := []
  table : Option GroupTable := none
  self : Option Nat := none            -- SELF of the last table that was loaded, when none is in force (R440)
  ports : FMap W32 := []               -- wavelengths in use
  dir : FMap DirEntry := []            -- peer directories by line
  copies : FMap Byte := []             -- bytes of peer lines in the local L2 (R446)
  prefs : List (Nat × Nat) := []       -- peer lines that a `PREF.l1` has asked for, with its core (R252)
  collIn : List CollIn := []
  sent : List Flit := []               -- flits that left in the current cycle
  deriving DecidableEq, Repr

/-! The update units. -/

/-- What an update unit has in its queue (R389, R402): a request of a packet, or an access that its slice forwarded. -/
inductive UnitItem where
  | rmo (pkt idx : Nat)
  | store (pkt : Nat) (bytes : List (Nat × Byte))
  | ste (pkt idx : Nat)
  | atom (pkt idx : Nat)
  | load (load acc : Nat)
  | eng (pkt : Nat) (ws : List EngByte)
  deriving DecidableEq, Repr

/-- The acknowledgement of a remote-opcode request on its way to its core (R398). -/
structure RmoAck where
  src : SrcId
  op : Nat
  load : Option Nat
  lane : Nat
  flags : W64 := 0
  val : List Byte := []
  bad : Option ErrMark := none
  keep : Bool := false
  deriving DecidableEq, Repr

/-- An entry of a context's definition table (R400). -/
structure DefEntry where
  defined : Bool := false
  version : BitVec 8 := 0
  dw0 : W64 := 0
  image : List W32 := []
  deriving DecidableEq, Repr

/-- Ceiling (R525, R526): the power cap, s × 1,280, the window's number and the charge spent in it in pJ, the commands
that wait, oldest first, and the cycle and the quad of the last arrival. -/
structure Ceiling where
  pcap : Nat := 3200
  scale : Nat := 1280
  window : Nat := 0
  spent : Nat := 0
  queue : List Nat := []
  last : Option (Nat × Nat) := none
  deriving DecidableEq, Repr

/-- A voltage-and-frequency region of Stratus (R20 to R23): its level, whether its switches are powered down and since
when, the cycle from which it accepts flits again, since when it forwards nothing, and the start of its governor's
window. -/
structure Region where
  level : Nat := 4
  down : Bool := false
  downAt : Nat := 0
  wake : Option Nat := none
  idleSince : Nat := 0
  windowAt : Nat := 0
  deriving DecidableEq, Repr

/-- What the module is doing (R520, R521): it has no power, it runs, its last start failed, or it is in Dawn mode. -/
inductive Mode where
  | off | running | failed | dawn
  deriving DecidableEq, Repr

/-- Which reset a host asked for (R521, R529). -/
inductive ResetKind where
  | start | recover | dawn
  deriving DecidableEq, Repr

/-- The system controller (R520 to R529): per-host registers by host, the freeze with its sources, the hottest sensor in 1/16 °C
and the cycle of its last reading, the thermal trips since a passed start, the number of the flash image, the copy under way
with the resets that wait for it, the report under way, and the channels that are retired (1) or narrowed (2). -/
structure SysCtl where
  mode : Mode := .running
  frozen : Bool := false
  freezeReq : Bool := false
  freezePin : Bool := false
  trip : Bool := false
  trips : Nat := 0
  temp : Nat := 0
  sampledAt : Nat := 0
  quoteAddr : FMap W64 := []
  nonce : FMap (List W64) := []
  quote : Option (Nat × List W64) := none
  quoteDone : FMap Bool := []
  flashAddr : FMap W64 := []
  flashLen : FMap W32 := []
  flashNo : Nat := 0
  flashBusy : Option Nat := none
  flashErr : FMap Bool := []
  waiting : List ResetKind := []
  channels : FMap Nat := []
  declined : Nat := 0        -- retirements that were not made (R513)
  deriving DecidableEq, Repr

/-- An error of the parts, which no rule brings about: an uncorrectable 8-byte unit of memory, alone or with the whole
512-byte block of a compressed page (R239, R514), a unit that a host port reports as failed or no longer so (R239), an
uncorrectable unit of an accumulator or of a running command's shadow, or a corrected bit of an accumulator (R370). -/
inductive Upset where
  | memory (unit : Nat) (block : Bool)
  | hostPort (unit : Nat) (failed : Bool)
  | accUnit (core unit : Nat)
  | shadowUnit (cmd unit : Nat)
  | accBit (core : Nat)
  deriving DecidableEq, Repr, Inhabited

/-- What the machine does next. -/
inductive Move where
  | opportunity (core sched : Nat)   -- an issue opportunity of a scheduler (R132)
  | leadTurn (core : Nat)            -- a turn of a lead unit (R256)
  | issueAt (id : SrcId) (pc : W64) (lanes : Mask)  -- issue the word at a PC for the lanes that the selection chose (R133)
  | tick                             -- one cycle passes
  | upset (u : Upset)                -- an error of the parts (log 23)
  | recode (core key : Nat) (past : Option Nat)   -- a core's next fetches of a word read it again, or give a value that it had (R530)
  | event (i : Instr)                -- an event of the opcode table
  deriving DecidableEq, Repr, Inhabited

/-- The issue that is being executed: its source, its PC, the lanes chosen for it, the number of code slots of the word
there, and whether the word waited instead of issuing. -/
structure Cur where
  id : SrcId := ⟨0, 0⟩
  pc : W64 := 0
  lanes : Mask := 0xFFFFFFFF
  slots : Nat := 1
  stalled : Bool := false
  deriving DecidableEq, Repr

/-- The state of the machine. -/
structure State where
  -- the model's own fields (log 2)
  agenda : List Move := []
  fresh : Nat := 0
  cur : Cur := {}
  nextId : Nat := 1
  -- the device and its memory
  cycle : Nat := 0
  mem : List Host.Cell := []
  bad : FMap Bool := []              -- 8-byte units with an uncorrectable error (R239)
  portBad : FMap Bool := []          -- units that a CXL port reports as failed (R239)
  owner : FMap Nat := []             -- per 4-byte word: owning core + 1 (R62)
  l2 : FMap Bool := []               -- resident lines of the home slices, true if dirty (R253)
  -- messages in flight and what the slices hold
  pkts : FMap Pkt := []
  windows : FMap (List Nat) := []    -- packets in each slice's ownership-conflict window, in arrival order (R88)
  windowNo : FMap Nat := []          -- the number of the window they arrived in
  commits : List Commit := []
  acks : FMap AckMsg := []
  wms : FMap WmMsg := []
  recs : FMap RecMsg := []
  loads : FMap LoadOp := []
  -- cores and teams
  cores : FMap CoreSt := []
  teams : FMap Team := []
  -- the register gateways (R285, R300): claims by 4 * core + direction
  handles : FMap Handle := []
  claims : FMap Claim := []
  startNo : Nat := 0                 -- starts of the device, each with a key of its own for CHECK (R286)
  -- translation
  walks : FMap Walk := []
  tfaults : FMap TFault := []
  declined : List Declined := []
  l2tlb : FMap (List TlbEntry) := []
  hosts : FMap HostRegs := []
  invals : FMap Inval := []
  chmapId : BitVec 16 := 0
  chanFn : FMap Nat := []            -- hash function of each 2 MiB region (R512)
  lcnt : FMap Cnt := []              -- launches by context and launch id (R483)
  counters : FMap W64 := []          -- the counter window by doubleword offset (R515)
  fab : Fabric := {}
  zen : Zen := {}
  -- the update units (R400, R402): slice unit u, channel unit 1000 + c
  units : FMap (List UnitItem) := []
  defs : FMap DefEntry := []         -- definition tables, by `defKey`: context, its table's address, number (R400, R503)
  images : FMap DefEntry := []       -- images that units hold, by `imageKey`
  rmoAcks : FMap RmoAck := []
  cmds : FMap Cmd := []              -- engine commands
  ceil : Ceiling := {}
  regions : FMap Region := []        -- by 5 * die + region (R20)
  moving : List Nat := []            -- channel groups whose storage moves (R513)
  -- the system controller's registers that words read (R521, R523)
  featAccept : BitVec 8 := 0         -- FEATURE_ACCEPT[7:0]; its other bits read as zero
  startFail : W64 := 0
  dawnWhy : W64 := 0
  sys : SysCtl := {}
  deriving DecidableEq, Repr

/-- The machine right after a passed start (R520), with no work: the values that the spec does not give are those of
log entry 4. -/
def State.reset : State := {}

end Sys2Proof.Machine
end

