-- ==== Sys2Proof/Config.lean ====
section
/-! DEFINITION. What the spec leaves open: free values, which no proof can see, and the model's constants. -/

namespace Sys2Proof.Config
open Sys2Proof.Machine

/-- The next move when the agenda is empty, by the counter of steps (log 2). Free. -/
opaque schedule : Nat → Move

/-- A free number for a choice that the spec leaves open, by the counter of steps and a number within the step. -/
opaque choice : Nat → Nat → Nat

/-- A free 32-bit value (log 16), by the counter of steps and a number within the step. -/
opaque freeW32 : Nat → Nat → W32

/-- The value that a special function returns where the spec gives a bound and not a value (R216, log 6). The first
argument names the function: 0 FRCP, 1 FRSQ, 2 FLOG2, 3 FSIN, 4 FCOS. One value for each input (R204). -/
opaque special : Nat → W32 → W32

/-- The check code of a capability (R286, log 7): by the device's start, whose key it uses, the capability's other
bits, and the context, launch id, team index and group that the handle names. -/
opaque check : Nat → W64 → Nat → Nat → Nat → Nat → BitVec 14

/-- The pseudo-channel, bank group and bank of a channel address, by the channel (R420, log 18). Free. -/
opaque dramPlace : Nat → Nat → Nat × Nat × Nat

/-- The data flits of a multicast to a member: no item of R431 holds its virtual addresses (log 19). Free. -/
opaque mcastFlits : Nat → Nat → List (List W64)

/-- The context, width, lanes, addresses and data of a multicast that a burst without an item of R431 carries, if it carries
one (R452, log 19). Free. -/
opaque mcastOf : List (List W64) → Option (BitVec 16 × Bool × List (Nat × W64 × W64))

/-- The wavelengths in use after link training (R427), by the counter of steps and the port. Free. -/
opaque training : Nat → Nat → W32

/-- Whether a switch folds an operator of a tree as this device does (R441). Free. -/
opaque verified : Nat → Nat → Nat → Bool

/-- The contents of Zenith's own regions of a save area, by the step that wrote them and the offset (log 17). Free. -/
opaque saveByte : Nat → Nat → Byte

/-- A counter of a channel that depends on what the model leaves out (R515): by the counter of steps and the doubleword. Free. -/
opaque counter : Nat → Nat → W64

/-- The temperature that the hottest sensor reads (R527), in 1/16 °C, by the counter of steps. Free. -/
opaque temperature : Nat → Nat

/-- The image in flash: byte k of image n (R520, R529). The host's memory, from which images come, is outside the device.
Free. -/
opaque flashByte : Nat → Nat → Byte
/-- A copy into flash fails. Free. -/
opaque flashFails : Nat → Bool

/-- The cryptography of R520 and R522 (log 8), as functions of its inputs: whether a public key's digest is the fused one, the
fused minimum of SVN, whether a body and a public key bear out a signature, the measurement of a body, the measurement of the
boot ROM, and the signature of a message with the key of a measurement. -/
opaque keyTrusted : List Byte → Bool
opaque minSvn : Nat
opaque signed : List Byte → List Byte → List Byte → Bool
opaque measure : List Byte → Nat → Byte
opaque bootRom : Nat → Byte
opaque signature : List Byte → List Byte → Nat → Byte
/-- A start step that depends on the parts themselves fails (R520): by the counter of steps and the step's code. Free. -/
opaque partFails : Nat → Nat → Bool

/-- This device's number in the fabric group (R14), free. -/
opaque device : Nat

end Sys2Proof.Config
end

