-- ==== Sys2Proof/Machine/Shape.lean ====
section
/-! DEFINITION. The operand shape of each instruction: which fields it reads and writes, at which width, and which
registers it implies. Decoding, the register checks and the reading of operands all rest on it. -/

namespace Sys2Proof.Machine

/-- How a source field is used. -/
inductive SrcUse where
  | none                   -- not read: the field holds ZERO (R97)
  | r32                    -- a 32-bit operand; an immediate is sign-extended
  | r64                    -- a 64-bit operand (R103)
  | f32                    -- an FP32 operand; an immediate is bits [31:14] (R98)
  | pred                   -- a predicate operand (R159)
  | addr                   -- an address pair: a register pair, a latch or V[Xn] (R224)
  | addrReg                -- an address pair that must be a register pair, since SA + 2 is implied (R244)
  | reg32 | reg64          -- a register or a pair and nothing else (R177)
  | off                    -- an address offset or stride: 32 bits sign-extended to 64 (R224)
  | quad                   -- four registers (R244)
  | dyn                    -- decided by the remote-opcode header at issue (R408)
  deriving DecidableEq, Repr

/-- How the DST field is used. -/
inductive DstUse where
  | none | r32 | r64 | quad
  | pred                   -- a predicate destination (R159)
  | dir                    -- a Contrail direction (R308)
  | xdst                   -- zero: the destination is V[Xn] (R172)
  | rmo                    -- the result of `RMO.r`: register or pair, WS and DL zero (R408)
  deriving DecidableEq, Repr

/-- The operand shape of an instruction. -/
structure Shape where
  a : SrcUse := .none
  b : SrcUse := .none
  c : SrcUse := .none
  dst : DstUse := .none
  /-- the instruction reads its destination register, which claims that register's bank -/
  rdDst : Bool := false
  /-- registers SA + 2 .. SA + 1 + implied are read (R244) -/
  implied : Nat := 0
  /-- a predicate destination held in MOD (R162, R183) -/
  pdst : Option (BitVec 3) := .none
  /-- bits of imm18 that are zero, or the word faults with ILLEGAL_ENCODING 2 (R244, R277) -/
  immZero : BitVec 18 := 0
  deriving DecidableEq, Repr

/-- 64 bits if `d`, else 32. -/
def srcW (d : Bool) : SrcUse := if d then .r64 else .r32
def dstW (d : Bool) : DstUse := if d then .r64 else .r32

/-- Two sources and a destination of 32 bits. -/
def sh2 : Shape := { a := .r32, b := .r32, dst := .r32 }
def sh1 : Shape := { a := .r32, dst := .r32 }
def shD2 : Shape := { a := .r64, b := .r64, dst := .r64 }
def shF2 : Shape := { a := .f32, b := .f32, dst := .r32 }

def cvtWideSrc : Cvt → Bool
  | .f32F64 | .f16F64 | .bf16F64 | .f64I64 | .f32I64 | .i32F64 | .u32F64 | .i64F64 => true
  | _ => false
def cvtWideDst : Cvt → Bool
  | .f64F32 | .f64F16 | .f64Bf16 | .f64I32 | .f64U32 | .f64I64 | .i64F64 | .i64F32 => true
  | _ => false

def ldDst : LdSize → DstUse
  | .d => .r64 | .q => .quad | _ => .r32
def stSrc : StSize → SrcUse
  | .d => .r64 | .q => .quad | _ => .r32

/-- The shape of a store-like instruction: in the immediate variant the data is in SA + 2 (R244). -/
def storeShape (w : FWord) (data : SrcUse) : Shape :=
  if w.b.isImm then { a := .addrReg, b := .off, implied := if data = .r64 then 2 else 1 }
  else { a := .addr, b := .off, c := data }

/-- The shape of an atomic (R244). -/
def atomShape (w : FWord) (op : AtOp) (d : Bool) : Shape :=
  if w.b.isImm then { a := .addrReg, b := .off, implied := if d then 2 else 1, dst := dstW d }
  else { a := .addr, b := srcW d, c := if op = .cas then srcW d else .none, dst := dstW d }

/-- The shape of an instruction. -/
def shape : Instr → Shape
  | .iadd _ _ | .isub _ _ | .iaddc _ _ _ | .isubb _ _ _ => sh2
  | .ineg _ _ | .iabs _ _ => sh1
  | .imul _ | .imulh _ _ => sh2
  | .imad _ => { sh2 with c := .r32 }
  | .imadw _ _ => { a := .r32, b := .r32, c := .r64, dst := .r64 }
  | .iadd64 _ _ | .isub64 _ _ => shD2
  | .shf64 _ _ => { a := .r64, b := .r32, dst := .r64 }
  | .imin _ _ | .imax _ _ => sh2
  | .iand _ d | .ior _ d | .ixor _ d => { a := srcW d, b := srcW d, dst := dstW d }
  | .inot _ d => { a := srcW d, dst := dstW d }
  | .ilop3 _ _ _ => { sh2 with c := .r32 }
  | .shl _ | .shr _ | .sar _ | .rot _ | .bfe _ _ => sh2
  | .bfi _ => { sh2 with c := .r32 }
  | .popc _ | .clz _ | .brev _ => sh1
  | .icmp _ _ _ d => { a := srcW d, b := srcW d, dst := .pred }
  | .sel _ _ _ d => { a := srcW d, b := srcW d, dst := dstW d }
  | .mov _ d x => { a := srcW d, dst := if x.isSome then .xdst else dstW d }
  | .movi _ d => { dst := dstW d }
  | .movhi _ => { dst := .r32, rdDst := true }
  | .lea _ _ _ => { a := .r64, b := .r32, dst := .r64 }
  | .pand _ _ | .por _ _ | .pxor _ _ => { a := .pred, b := .pred, dst := .pred }
  | .pnot _ => { a := .pred, dst := .pred }
  | .pset _ _ => { a := .r32, b := .r32, dst := .pred }
  | .fadd _ _ _ | .fsub _ _ _ | .fmul _ _ _ | .fdivs _ _ _ => shF2
  | .dadd _ _ _ | .dsub _ _ _ | .dmul _ _ _ => shD2
  | .ffma _ _ _ _ _ => { shF2 with c := .f32 }
  | .dfma _ _ _ _ _ => { shD2 with c := .r64 }
  | .fmin _ _ | .fmax _ _ => shF2
  | .dmin _ _ | .dmax _ _ => shD2
  | .fcmp _ _ _ _ => { shF2 with dst := .pred }
  | .dcmp _ _ _ _ => { shD2 with dst := .pred }
  | .frnd _ _ => { a := .f32, dst := .r32 }
  | .drnd _ _ => { a := .r64, dst := .r64 }
  | .fclass _ f _ => { a := srcW (f == .fp64), dst := .r32 }
  | .hadd2 _ _ _ | .hmul2 _ _ _ | .badd2 _ _ _ | .bmul2 _ _ _ => sh2
  | .hfma2 _ _ _ | .bfma2 _ _ _ => { sh2 with c := .r32 }
  | .dot4i w _ _ _ _ => if w.b.isImm then { sh2 with rdDst := true } else { sh2 with c := .r32 }
  | .frcp _ | .frsq _ | .fsqrt _ | .fexp2 _ | .flog2 _ | .fsin _ | .fcos _ => sh1
  | .cvt _ k _ =>
    { a := srcW (cvtWideSrc k), b := if k = .f16x2F32 ∨ k = .bf16x2F32 then .r32 else .none, dst := dstW (cvtWideDst k) }
  | .cvt8 _ (.fromF32 _ _ _) => { sh2 with rdDst := true }
  | .cvt8 _ (.from16 _ _ _ _) => { sh1 with rdDst := true }
  | .cvt8 _ (.toF32 _ _) | .cvt8 _ (.to16 _ _ _) => sh1
  | .cvt4E2m1 _ _ | .cvt4Pack _ | .cvt4Fp32 _ _ => sh1
  | .cvtx _ _ _ => sh2
  | .sclxFp32 _ _ | .sclxX8 _ _ _ => sh2
  | .sclxFp64 _ _ => { a := .r64, b := .r32, dst := .r64 }
  | .sclxBlk _ _ => sh1
  | .ld _ sz _ _ | .lds _ sz _ => { a := .addr, b := .off, dst := ldDst sz }
  | .st w sz _ _ | .sts w sz _ _ => storeShape w (stSrc sz)
  | .lde _ _ _ _ => { a := .addr, b := .off, dst := .r32 }
  | .ste w _ _ _ => storeShape w .r32
  | .ldx _ _ _ _ | .stx _ _ _ _ => { a := .addr, b := .off }
  | .atom w op _ _ => atomShape w op false
  | .atomx w op _ _ => atomShape w op true
  | .acq _ | .rel _ => {}
  | .sjoin w => if w.b.isImm then { immZero := 0x3FF00 } else { a := .r32 }
  | .pref _ _ | .cflush _ | .cinv _ => { a := .addr, b := .off }
  | .bra _ => {}
  | .brx _ | .ret _ => { a := .r64 }
  | .call w => if w.b.isImm then { dst := .r64 } else { a := .r64, dst := .r64 }
  | .exit _ | .nop _ | .yield _ | .bkpt _ | .trap _ | .rtt _ => {}
  | .bar w _ _ => if w.b.isImm then {} else { a := .r32 }
  | .pbar w _ k => if w.b.isImm || k == .wait then {} else { a := .r32 }
  | .vote _ m _ => { a := .pred, dst := if m = .mask ∨ m = .count then .r32 else .pred }
  | .lead _ => { a := .pred, dst := .pred }
  | .shfl _ _ d _ => { a := if d then .reg64 else .reg32, b := .r32, dst := dstW d }
  | .xset _ _ => { a := .r32, b := .r32 }
  | .xadd _ _ => { b := .r32 }
  | .xget _ _ _ => { dst := .r32 }
  | .dqtake _ pd => { dst := .r32, pdst := pd }
  | .vgrow w | .vshrink w => if w.b.isImm then {} else { a := .r32 }
  | .krd w => if w.b.isImm then { dst := .r64 } else { a := .r32, dst := .r64 }
  | .kwr w => if w.b.isImm then { a := .r64 } else { a := .r32, b := .r64 }
  | .flagarm _ _ => {}
  | .spawn w => if w.b.isImm then { a := .r64, dst := .r32 } else { a := .r64, b := .r64, dst := .r32 }
  | .grow w => if w.b.isImm then { dst := .r32 } else { a := .r32, dst := .r32 }
  | .launch _ => { a := .r64, b := .r32 }
  | .cancel w _ => if w.b.isImm then {} else { a := .r32 }
  | .cntrd w _ => if w.b.isImm then { dst := .r64 } else { a := .r32, dst := .r64 }
  | .capmk _ _ _ => { a := .r32, b := .r32, dst := .r64 }
  | .caprv _ => {}
  | .rarm _ _ nbr => { a := .r32, b := .r32, dst := if nbr then .dir else .none }
  | .rdisarm _ => { a := .r32, b := .r32 }
  | .rpend _ => sh1
  | .sendr _ d _ => { a := .addr, b := .r32, c := srcW d }
  | .sendn _ _ _ => { b := .r32, c := .r32 }
  | .cpy _ | .cpym _ | .cpypf _ => { a := .r32 }
  | .cpyg _ => { a := .r32, b := .r64 }
  | .twaitany w | .twaitall w => if w.b.isImm then { dst := .r64 } else { a := .r64, dst := .r64 }
  | .tffr w => if w.b.isImm then { dst := .r32 } else { a := .r64, dst := .r32 }
  | .tclr w => if w.b.isImm then {} else { a := .r64 }
  | .mloadb _ | .mma _ _ => { a := .addr, b := .r32 }
  | .mzero _ => { b := .r32 }
  | .mstore _ _ => { a := .addr, b := .r32, c := .r32 }
  | .mread _ d => { b := .r32, dst := dstW d }
  | .mwrite _ d => { b := .r32, c := srcW d }
  | .mres _ => { dst := .pred }
  | .mrel _ _ => {}
  | .mstat _ => { dst := .r64 }
  | .rmoN _ _ _ => { a := .dyn, b := .dyn, c := .dyn }
  | .rmoR _ _ _ => { a := .dyn, b := .dyn, c := .dyn, dst := .rmo }
  | .rmdef _ => { a := .r64 }
  | .rmdrop _ => { a := .r32 }
  | .rmqry _ => { a := .r32, dst := .r64 }
  | .sweep _ => { a := .r32 }
  | .mcast _ d _ => { a := .addr, b := .r32, c := srcW d }
  | .coll _ _ => { a := .r32 }
  | .fgrp _ .info => { dst := .r64 }
  | .fgrp _ .route => { b := .r32, dst := .r32 }
  | .fgrp _ .tree => { b := .r32, dst := .r64 }
  | .sld _ d _ | .slds _ d _ => { a := .addr, b := .off, dst := dstW d }
  | .sst w d _ _ => storeShape w (srcW d)
  | .qpush w d => if w.b.isImm then {} else { a := srcW d }
  | .qpusha _ => { a := .r64, b := .off }
  | .dqpush w all => if w.b.isImm then { a := .r32, immZero := if all then 0x3FFFF else 0 }
      else { a := .r32, b := if all then .none else .r32 }
  | .brc w k => { a := if w.b.isImm then .none else .r64, dst := if k = .call then .r64 else .none }
  | .scmp _ _ _ d _ => { a := srcW d, b := srcW d, dst := .pred }
  | .lwait _ bar => { a := if bar.isSome then .r32 else .r64 }
  | .ltime _ bar => { dst := if bar.isSome then .r32 else .r64 }
  | .dictld _ => { a := .r64, b := .r32, c := .r32 }
  | .lexit _ => {}
  | .tlbinv _ ctx => if ctx then {} else { a := .r64 }
  | .pgacc _ _ => { a := .r64, dst := .r64 }
  | _ => {}

end Sys2Proof.Machine
end

