-- ==== Sys2Proof/Decode.lean ====
section
/-! DEFINITION. Decoding of instruction words (R92 to R123), total and rejecting by name, and the encoder written
from the same tables. -/

namespace Sys2Proof
open Sys2Proof.Machine

/-- A decoding fault: the cause code (1 ILLEGAL_ENCODING, 2 ILLEGAL_OPCODE, 3 ILLEGAL_OPERAND) and its detail (R113). -/
structure DecErr where
  cause : Nat
  detail : Nat
  deriving DecidableEq, Repr

/-- ILLEGAL_ENCODING with a detail (R113). -/
def illegalEncoding (d : Nat) : DecErr := ⟨1, d⟩
/-- ILLEGAL_OPCODE with a detail (R113). -/
def illegalOpcode (d : Nat) : DecErr := ⟨2, d⟩
/-- ILLEGAL_OPERAND with a detail (R113). -/
def illegalOperand (d : Nat) : DecErr := ⟨3, d⟩

/-- The operand selectors of R102; `none` for an unassigned value. -/
def selOf (x : BitVec 9) : Option Sel :=
  if x < 0x100 then some (.v (x.setWidth 8))
  else if x < 0x103 then some (.latch (x.setWidth 2))
  else if x = 0x104 then some .q
  else if x = 0x105 then some .qp
  else if 0x108 ≤ x ∧ x < 0x10C then some (.idx (x.setWidth 2))
  else if x = 0x110 then some .lane
  else if x = 0x111 then some .grp
  else if x = 0x112 then some .teamX
  else if x = 0x113 then some .teamY
  else if x = 0x114 then some .teamZ
  else if x = 0x115 then some .zero
  else if x = 0x116 then some .core
  else if x = 0x117 then some .dev
  else none

/-- The encoding of a selector (R102). -/
def selBits : Sel → BitVec 9
  | .v n => n.setWidth 9
  | .latch k => 0x100 ||| k.setWidth 9
  | .q => 0x104 | .qp => 0x105
  | .idx k => 0x108 ||| k.setWidth 9
  | .lane => 0x110 | .grp => 0x111 | .teamX => 0x112 | .teamY => 0x113 | .teamZ => 0x114
  | .zero => 0x115 | .core => 0x116 | .dev => 0x117

/-- The fields of an F-form word as they stand in its bits (R96). -/
structure RawF where
  maj : BitVec 8
  pn : Bool
  pr : BitVec 3
  dst : BitVec 8
  ws : Bool
  dl : BitVec 2
  a : BitVec 9
  b : BitVec 9
  c : BitVec 9
  imm : BitVec 18
  hsrc : BitVec 2
  hlat : BitVec 2
  mod : BitVec 8
  deriving DecidableEq, Repr

/-- The fields of a word (R96). -/
def rawOf (w : W64) : RawF :=
  { maj := w.extractLsb' 54 8, pn := w.getLsbD 53, pr := w.extractLsb' 50 3, dst := w.extractLsb' 42 8,
    ws := w.getLsbD 41, dl := w.extractLsb' 39 2, a := w.extractLsb' 30 9, b := w.extractLsb' 21 9,
    c := w.extractLsb' 12 9, imm := w.extractLsb' 12 18, hsrc := w.extractLsb' 10 2, hlat := w.extractLsb' 8 2,
    mod := w.extractLsb' 0 8 }

/-- A member of a family: how its instruction is made from the common fields, and the fault of its MOD field, if any. -/
structure Member where
  build : FWord → Instr
  modErr : Option Nat

/-- A member whose MOD is good, or faults with detail 12. -/
def mem (good : Bool) (f : FWord → Instr) : Except DecErr Member :=
  .ok ⟨f, if good then none else some 12⟩
/-- A member of a family outside the order streams: MOD[4:2] that is not zero faults with detail 2 (R121). -/
def memE (m : BitVec 8) (good : Bool) (f : FWord → Instr) : Except DecErr Member :=
  .ok ⟨f, if m.extractLsb' 2 3 ≠ 0 then some 2 else if good then none else some 12⟩
/-- A member that has no immediate variant (R98, R159). -/
def memR (imm : Bool) (good : Bool) (f : FWord → Instr) : Except DecErr Member :=
  if imm then .error (illegalOpcode 2) else mem good f
/-- A value of MOD[7:5] that names no member (R114). -/
def noMember : Except DecErr Member := .error (illegalEncoding 12)

/-- The n-th of a list of names. -/
def nth {α : Type} (l : List α) (n : Nat) (d : α) : α := (l[n]?).getD d

def satOf (x : BitVec 2) : Sat := nth [.wrap, .sat, .usat] x.toNat .wrap
def rmOf (x : BitVec 3) : Rm := nth [.team, .rne, .rz, .ru, .rd, .rs] x.toNat .team
def condOf (x : BitVec 3) : Cond := nth [.eq, .ne, .lt, .le, .gt, .ge] x.toNat .eq
def fcondOf (x : BitVec 3) : FCond := nth [.eq, .lt, .le, .gt, .ge, .ne, .un, .ord] x.toNat .eq
def classFmtOf (x : BitVec 3) : ClassFmt := nth [.fp32, .fp64, .fp16, .bf16, .e4m3, .e5m2] x.toNat .fp32
def ldSizeOf (x : BitVec 3) : LdSize := nth [.w, .d, .q, .ub, .sb, .uh, .sh] x.toNat .w
def stSizeOf (x : BitVec 3) : StSize := nth [.w, .d, .q, .b, .w, .h] x.toNat .w
def polOf (x : BitVec 3) : L1Pol := nth [.normal, .nl1, .lu] x.toNat .normal
def elSelOf (x : BitVec 3) : ElSel := nth [.e, .lo, .hi] x.toNat .e
def atOpOf (x : BitVec 3) : AtOp := nth [.add, .exch, .cas, .and, .or, .xor, .min, .max] x.toNat .add
def dirOf (x : BitVec 2) : Dir := nth [.n, .e, .s, .w] x.toNat .n
def levelOf (x : BitVec 2) : Level := nth [.l, .g, .p, .j] x.toNat .l

/-- The conversions of `CVT` by code; code 15 is not assigned (R217). -/
def cvtCodes : List Cvt :=
  [.f32F64, .f64F32, .f16F32, .f32F16, .bf16F32, .f32Bf16, .tf32F32, .f16F64, .bf16F64, .f64F16, .f64Bf16,
   .f16Bf16, .bf16F16, .f16x2F32, .bf16x2F32, .f32F64,
   .f32I32, .f32U32, .f64I32, .f64U32, .f64I64, .f32I64, .i32F32, .u32F32, .i32F64, .u32F64, .i64F64, .i64F32,
   .i16F32, .u16F32, .i8F32, .u8F32]
/-- Conversions that allow stochastic rounding (R217). -/
def cvtStoch : Cvt → Bool
  | .f32F64 | .f16F32 | .bf16F32 | .tf32F32 | .f16F64 | .bf16F64 | .f16Bf16 | .bf16F16 | .f16x2F32 | .bf16x2F32 => true
  | _ => false

/-- The rounding field is good outside a narrowing conversion (R111). -/
def rmGood (x : BitVec 3) : Bool := x < 5
/-- The rounding field is good in a narrowing conversion (R111). -/
def rmGoodS (x : BitVec 3) : Bool := x < 6

/-- The member of a family, from MOD. `fam` is the register-variant MAJ; `imm` tells the immediate variant
(R116 to R122 and the encoding rule of each family). -/
def memberOf (fam : Nat) (imm : Bool) (m : BitVec 8) : Except DecErr Member :=
  let k := (m.extractLsb' 5 3).toNat     -- MOD[7:5]
  let z (p n : Nat) : Bool := m.extractLsb' p n = 0   -- the n bits from bit p are zero
  let r := m.extractLsb' 2 3             -- MOD[4:2]
  let b (i : Nat) : Bool := m.getLsbD i
  match fam with
  | 0x00 => match k with
    | 0 => mem (z 2 3 && m.extractLsb' 0 2 != 3) (.iadd · (satOf (m.extractLsb' 0 2)))
    | 1 => mem (z 2 3 && m.extractLsb' 0 2 != 3) (.isub · (satOf (m.extractLsb' 0 2)))
    | 2 => mem (z 4 1) (.iaddc · (m.extractLsb' 0 3) (b 3))
    | 3 => mem (z 4 1) (.isubb · (m.extractLsb' 0 3) (b 3))
    | 4 => memR imm (z 1 4) (.ineg · (b 0))
    | 5 => memR imm (z 1 4) (.iabs · (b 0))
    | _ => noMember
  | 0x02 => match k with
    | 0 => mem (z 0 5) .imul
    | 1 => mem (z 1 4) (.imulh · (b 0))
    | 2 => memR imm (z 0 5) .imad
    | 3 => memR imm (z 1 4) (.imadw · (b 0))
    | _ => noMember
  | 0x04 => match k with
    | 0 => mem (z 2 3 && m.extractLsb' 0 2 != 3) (.iadd64 · (satOf (m.extractLsb' 0 2)))
    | 1 => mem (z 2 3 && m.extractLsb' 0 2 != 3) (.isub64 · (satOf (m.extractLsb' 0 2)))
    | 2 => mem (z 2 3) (.shf64 · (nth [.l, .r, .ar, .rot] (m.extractLsb' 0 2).toNat .l))
    | _ => noMember
  | 0x06 => match k with
    | 0 => mem (z 1 4) (.imin · (b 0))
    | 1 => mem (z 1 4) (.imax · (b 0))
    | _ => noMember
  | 0x08 => match k with
    | 0 => mem (z 1 4) (.iand · (b 0))
    | 1 => mem (z 1 4) (.ior · (b 0))
    | 2 => mem (z 1 4) (.ixor · (b 0))
    | 3 => memR imm (z 1 4) (.inot · (b 0))
    | _ => noMember
  | 0x0A => mem true (.ilop3 · (m.extractLsb' 0 4) (m.extractLsb' 4 4))
  | 0x0C => match k with
    | 0 => mem (z 0 5) .shl
    | 1 => mem (z 0 5) .shr
    | 2 => mem (z 0 5) .sar
    | 3 => mem (z 0 5) .rot
    | _ => noMember
  | 0x0E => match k with
    | 0 => mem (z 1 4) (.bfe · (b 0))
    | 1 => memR imm (z 0 5) .bfi
    | 2 => memR imm (z 0 5) .popc
    | 3 => memR imm (z 0 5) .clz
    | 4 => memR imm (z 0 5) .brev
    | _ => noMember
  | 0x10 => mem (k < 6 && z 0 3) (.icmp · (condOf (m.extractLsb' 5 3)) (b 4) (b 3))
  | 0x12 => mem (z 5 3) (.sel · (m.extractLsb' 0 3) (b 3) (b 4))
  | 0x14 =>
    if imm then match k with
      | 0 => mem (z 1 4) (.movi · (b 0))
      | 1 => mem (z 0 5) .movhi
      | _ => noMember
    else match k with
      | 0 => mem (z 1 1 && (b 4 || z 2 2)) (.mov · (b 0) (if b 4 then some (m.extractLsb' 2 2) else none))
      | _ => noMember
  | 0x16 => mem (z 4 4) (.lea · (m.extractLsb' 0 3) (b 3))
  | 0x18 => match k with
    | 0 => mem (z 1 4) (.pand · (b 0))
    | 1 => mem (z 1 4) (.por · (b 0))
    | 2 => mem (z 1 4) (.pxor · (b 0))
    | 3 => mem (z 0 5) .pnot
    | _ => noMember
  | 0x1A => mem (z 1 7) (.pset · (b 0))
  | 0x20 => match k with
    | 0 => mem (rmGood r && z 1 1) (.fadd · (rmOf r) (b 0))
    | 1 => mem (rmGood r && z 1 1) (.fsub · (rmOf r) (b 0))
    | 2 => mem (rmGood r && z 1 1) (.fmul · (rmOf r) (b 0))
    | _ => noMember
  | 0x22 => mem (z 5 1 && rmGood r && z 1 1) (.ffma · (b 7) (b 6) (rmOf r) (b 0))
  | 0x24 => match k with
    | 0 => mem (rmGood r && z 0 2) (.fmin · (rmOf r))
    | 1 => mem (rmGood r && z 0 2) (.fmax · (rmOf r))
    | _ => noMember
  | 0x26 => mem (rmGood r && z 1 1) (.fcmp · (fcondOf (m.extractLsb' 5 3)) (rmOf r) (b 0))
  | 0x28 => mem (z 5 3 && rmGood r && z 0 2) (.frnd · (rmOf r))
  | 0x2A => mem (k < 6 && rmGood r && z 0 2) (.fclass · (classFmtOf (m.extractLsb' 5 3)) (rmOf r))
  | 0x2C => mem (z 5 3 && rmGood r && z 1 1) (.fdivs · (rmOf r) (b 0))
  | 0x40 => match k with
    | 0 => mem (rmGood r && z 1 1) (.dadd · (rmOf r) (b 0))
    | 1 => mem (rmGood r && z 1 1) (.dsub · (rmOf r) (b 0))
    | 2 => mem (rmGood r && z 1 1) (.dmul · (rmOf r) (b 0))
    | _ => noMember
  | 0x42 => mem (z 5 1 && rmGood r && z 1 1) (.dfma · (b 7) (b 6) (rmOf r) (b 0))
  | 0x44 => match k with
    | 0 => mem (rmGood r && z 0 2) (.dmin · (rmOf r))
    | 1 => mem (rmGood r && z 0 2) (.dmax · (rmOf r))
    | _ => noMember
  | 0x46 => mem (rmGood r && z 1 1) (.dcmp · (fcondOf (m.extractLsb' 5 3)) (rmOf r) (b 0))
  | 0x48 => mem (z 5 3 && rmGood r && z 0 2) (.drnd · (rmOf r))
  | 0x4A => match k with
    | 0 => mem (rmGood r && z 1 1) (.hadd2 · (rmOf r) (b 0))
    | 1 => mem (rmGood r && z 1 1) (.hmul2 · (rmOf r) (b 0))
    | 2 => mem (rmGood r && z 1 1) (.badd2 · (rmOf r) (b 0))
    | 3 => mem (rmGood r && z 1 1) (.bmul2 · (rmOf r) (b 0))
    | _ => noMember
  | 0x4C => match k with
    | 0 => mem (rmGood r && z 1 1) (.hfma2 · (rmOf r) (b 0))
    | 1 => mem (rmGood r && z 1 1) (.bfma2 · (rmOf r) (b 0))
    | _ => noMember
  | 0x4E => mem (rmGood r && z 0 2) (.dot4i · (b 7) (b 6) (b 5) (rmOf r))
  | 0x60 => match k with
    | 0 => mem (z 0 5) .frcp
    | 1 => mem (z 0 5) .frsq
    | 2 => mem (z 0 5) .fsqrt
    | 3 => mem (z 0 5) .fexp2
    | 4 => mem (z 0 5) .flog2
    | 5 => mem (z 0 5) .fsin
    | 6 => mem (z 0 5) .fcos
    | _ => noMember
  | 0x62 =>
    let code := k * 4 + (m.extractLsb' 0 2).toNat
    let c := nth cvtCodes code .f32F64
    mem (code != 15 && (if cvtStoch c then rmGoodS r else rmGood r)) (.cvt · c (rmOf r))
  | 0x64 => match (m.extractLsb' 6 2).toNat with
    | 0 => mem (rmGoodS r && z 0 1) (.cvt8 · (.fromF32 (b 5) (rmOf r) (b 1)))
    | 1 => mem (rmGoodS r) (.cvt8 · (.from16 (b 5) (rmOf r) (b 1) (b 0)))
    | 2 => mem (z 2 3) (.cvt8 · (.toF32 (b 5) (m.extractLsb' 0 2)))
    | _ => mem (z 2 3) (.cvt8 · (.to16 (b 5) (b 1) (b 0)))
  | 0x66 => match (m.extractLsb' 6 2).toNat with
    | 0 => mem (z 5 1 && rmGoodS r && z 0 2) (.cvt4E2m1 · (rmOf r))
    | 1 => mem (z 0 6) .cvt4Pack
    | 2 => mem (z 3 3) (.cvt4Fp32 · (m.extractLsb' 0 3))
    | _ => mem false .cvt4Pack
  | 0x68 =>
    let f : StoFmt := nth [.int4, .uint4, .e2m3, .e3m2] (m.extractLsb' 6 2).toNat .int4
    let o := m.extractLsb' 3 3
    mem (z 0 3 && (if b 7 then o < 6 else o < 7)) (.cvtx · f o)
  | 0x6A => match k with
    | 0 => mem (rmGood r && z 0 2) (.sclxFp32 · (rmOf r))
    | 1 => mem (rmGood r && z 0 2) (.sclxFp64 · (rmOf r))
    | 2 => mem (rmGood r && z 1 1) (.sclxX8 · (b 0) (rmOf r))
    | 3 => memR imm (z 2 3) (.sclxBlk · (nth [.e2m1, .e4m3, .e5m2, .int8] (m.extractLsb' 0 2).toNat .e2m1))
    | _ => noMember
  | 0x80 =>
    if b 1 then mem (k < 7 && z 2 3) (.lds · (ldSizeOf (m.extractLsb' 5 3)) (b 0))
    else mem (k < 7 && r < 3) (.ld · (ldSizeOf (m.extractLsb' 5 3)) (polOf r) (b 0))
  | 0x82 =>
    let good := (k < 4 || k == 5) && !(imm && k == 2)
    if b 1 then mem good (.sts · (stSizeOf (m.extractLsb' 5 3)) r (b 0))
    else mem good (.st · (stSizeOf (m.extractLsb' 5 3)) r (b 0))
  | 0x84 => mem (k < 3 && r < 3 && z 1 1) (.lde · (elSelOf (m.extractLsb' 5 3)) (polOf r) (b 0))
  | 0x86 => mem (k < 3 && z 1 1) (.ste · (elSelOf (m.extractLsb' 5 3)) r (b 0))
  | 0x88 => mem (k < 4 && r < 3 && z 1 1) (.ldx · (m.extractLsb' 5 2) (polOf r) (b 0))
  | 0x8A => mem (k < 4 && z 1 1) (.stx · (m.extractLsb' 5 2) r (b 0))
  | 0x8C => memR (imm && k == 2) (z 1 1) (.atom · (atOpOf (m.extractLsb' 5 3)) r (b 0))
  | 0x8E => memR (imm && k == 2) (z 1 1) (.atomx · (atOpOf (m.extractLsb' 5 3)) r (b 0))
  | 0x90 => match k with
    | 0 => memR imm (z 0 5) .acq
    | 1 => memR imm (z 0 5) .rel
    | 2 => mem (z 0 5) .sjoin
    | _ => noMember
  | 0x92 => mem (k < 2 && z 0 5) (.pref · (b 5))
  | 0x94 => match k with
    | 0 => mem (z 0 5) .cflush
    | 1 => mem (z 0 5) .cinv
    | _ => noMember
  | 0xA0 => match k with
    | 0 => mem (z 0 5) (if imm then .bra else .brx)
    | 1 => mem (z 0 5) .call
    | 2 => if imm then noMember else mem (z 0 5) .ret
    | _ => noMember
  | 0xA2 =>
    if imm then (if k = 0 then mem (z 0 5) .trap else noMember)
    else match k with
      | 0 => mem (z 0 5) .exit
      | 1 => mem (z 0 5) .nop
      | 2 => mem (z 0 5) .yield
      | 3 => mem (z 0 5) .bkpt
      | 4 => mem (z 0 5) .rtt
      | _ => noMember
  | 0xA4 => mem (z 5 3) (.bar · (m.extractLsb' 0 4) (b 4))
  | 0xA6 => mem (z 5 3 && m.extractLsb' 3 2 != 3)
      (.pbar · (m.extractLsb' 0 3) (nth [.sync, .arv, .wait] (m.extractLsb' 3 2).toNat .sync))
  | 0xA8 => match k with
    | 0 => mem (z 4 1 && m.extractLsb' 0 3 < 5)
        (.vote · (nth [.every, .some, .same, .mask, .count] (m.extractLsb' 0 3).toNat .every) (b 3))
    | 1 => mem (z 0 5) .lead
    | _ => noMember
  | 0xAA => mem (z 6 2 && m.extractLsb' 3 3 < 5)
      (.shfl · (nth [.from, .back, .fwd, .flip] (m.extractLsb' 0 2).toNat .from) (b 2)
        (nth [.s32, .s16, .s8, .s4, .s2] (m.extractLsb' 3 3).toNat .s32))
  | 0xAC => match k with
    | 0 => mem (z 2 3) (.xset · (m.extractLsb' 0 2))
    | 1 => mem (z 2 3) (.xadd · (m.extractLsb' 0 2))
    | 2 => memR imm (z 4 1 && m.extractLsb' 2 2 != 3)
        (.xget · (m.extractLsb' 0 2) (nth [.index, .base, .limit] (m.extractLsb' 2 2).toNat .index))
    | _ => noMember
  | 0xAE => mem (z 4 4 && (b 3 || z 0 3)) (.dqtake · (if b 3 then some (m.extractLsb' 0 3) else none))
  | 0xB0 => match k with
    | 0 => mem (z 0 5) .vgrow
    | 1 => mem (z 0 5) .vshrink
    | _ => noMember
  | 0xB2 => match k with
    | 0 => mem (z 0 5) .krd
    | 1 => mem (z 0 5) .kwr
    | _ => noMember
  | 0xB4 => mem (z 1 7) (.flagarm · (b 0))
  | 0xB6 => match k with
    | 0 => mem (z 0 5) .spawn
    | 1 => mem (z 0 5) .grow
    | _ => noMember
  | 0xB8 => match k with
    | 0 => mem (z 0 5) .launch
    | 1 => mem (z 2 3) (.cancel · (levelOf (m.extractLsb' 0 2)))
    | 2 => mem (z 2 3) (.cntrd · (levelOf (m.extractLsb' 0 2)))
    | _ => noMember
  | 0xC0 => match k with
    | 0 => memE m true (.capmk · (b 0) (b 1))
    | 1 => memE m (z 0 2) .caprv
    | _ => noMember
  | 0xC2 => match k with
    | 0 => memE m true (.rarm · (b 0) (b 1))
    | 1 => memE m (z 0 2) .rdisarm
    | 2 => if imm then .error (illegalOpcode 2) else memE m (z 0 2) .rpend
    | _ => noMember
  | 0xC4 => match k with
    | 0 => mem (z 1 1) (.sendr · (b 0) r)
    | 1 => mem true (.sendn · (dirOf (m.extractLsb' 0 2)) r)
    | _ => noMember
  | 0xC6 => match k with
    | 0 => memE m (z 0 2) .cpy
    | 1 => memE m (z 0 2) .cpyg
    | 2 => memE m (z 0 2) .cpym
    | 3 => memE m (z 0 2) .cpypf
    | _ => noMember
  | 0xC8 => match k with
    | 0 => memE m (z 0 2) .twaitany
    | 1 => memE m (z 0 2) .twaitall
    | 2 => memE m (z 0 2) .tffr
    | 3 => memE m (z 0 2) .tclr
    | _ => noMember
  | 0xCA => match k with
    | 0 => memE m (z 0 2) .mloadb
    | 1 => memE m (z 1 1) (.mma · (b 0))
    | 2 => memE m (z 0 2) .mzero
    | _ => noMember
  | 0xCC => match k with
    | 0 => mem (z 0 2) (.mstore · r)
    | 1 => mem (z 1 4) (.mread · (b 0))
    | 2 => mem (z 1 4) (.mwrite · (b 0))
    | _ => noMember
  | 0xCE => match k with
    | 0 => memE m (z 0 2) .mres
    | 1 => memE m (z 1 1) (.mrel · (b 0))
    | 2 => memE m (z 0 2) .mstat
    | _ => noMember
  | 0xD0 => mem true (.rmoN · (m.extractLsb' 3 5) (m.extractLsb' 0 3))
  | 0xD2 => mem true (.rmoR · (m.extractLsb' 3 5) (m.extractLsb' 0 3))
  | 0xD4 => match k with
    | 0 => memE m (z 0 2) .rmdef
    | 1 => memE m (z 0 2) .rmdrop
    | 2 => memE m (z 0 2) .rmqry
    | _ => noMember
  | 0xD6 => if k ≠ 0 then mem false .sweep else memE m (z 0 2) .sweep
  | 0xD8 => match k with
    | 0 => mem (z 1 1) (.mcast · (b 0) r)
    | 1 => mem (z 0 2) (.coll · r)
    | 2 => mem (z 2 3 && m.extractLsb' 0 2 != 3) (.fgrp · (nth [.info, .route, .tree] (m.extractLsb' 0 2).toNat .info))
    | _ => noMember
  | 0xE0 => match k with
    | 0 => mem (z 2 3) (.sld · (b 1) (b 0))
    | 1 => mem true (.sst · (b 1) r (b 0))
    | 2 => mem (z 2 3) (.slds · (b 1) (b 0))
    | _ => noMember
  | 0xE2 => match k with
    | 0 => mem (z 1 4 && !(imm && b 0)) (.qpush · (b 0))
    | 1 => mem (z 0 5) .qpusha
    | 2 => mem (z 1 4) (.dqpush · (b 0))
    | _ => noMember
  | 0xE4 => mem (z 2 6 && m.extractLsb' 0 2 != 3 && !(imm && m.extractLsb' 0 2 == 2))
      (.brc · (nth [.jump, .call, .ret] (m.extractLsb' 0 2).toNat .jump))
  | 0xE6 => mem (k < 6 && z 0 1 && m.extractLsb' 1 2 != 3)
      (.scmp · (condOf (m.extractLsb' 5 3)) (b 4) (b 3) (nth [.set, .and, .or] (m.extractLsb' 1 2).toNat .set))
  | 0xE8 => match k with
    | 0 => mem (b 4 || z 0 4) (.lwait · (if b 4 then some (m.extractLsb' 0 4) else none))
    | 1 => mem (b 4 || z 0 4) (.ltime · (if b 4 then some (m.extractLsb' 0 4) else none))
    | _ => noMember
  | 0xEA => mem (z 0 8) .dictld
  | 0xEC => mem (z 0 8) .lexit
  | 0xEE => match k with
    | 0 => mem (z 1 4) (.tlbinv · (b 0))
    | 1 => mem (z 1 4) (.pgacc · (b 0))
    | _ => noMember
  | _ => .error (illegalOpcode 1)

/-- Families without an immediate variant (R116 to R122): their odd MAJ faults with ILLEGAL_OPCODE 1. R115 has 1 or 2 for a dash
and R113 lists an absent immediate variant under 2; the model takes 1 wherever the family's own rule names none (log 26). -/
def noImmFams : List Nat :=
  [0x04, 0x0A, 0x18, 0x22, 0x28, 0x2A, 0x2C, 0x40, 0x42, 0x44, 0x46, 0x48, 0x4A, 0x4C, 0x60, 0x62, 0x64, 0x66, 0x68,
   0x94, 0xA8, 0xAE, 0xB4, 0xC0, 0xC4, 0xC6, 0xCA, 0xCC, 0xCE, 0xD4, 0xD6, 0xD8, 0xE8, 0xEA, 0xEC, 0xEE]

/-- The families of the opcode map (R116 to R122). -/
def allFams : List Nat :=
  [0x00, 0x02, 0x04, 0x06, 0x08, 0x0A, 0x0C, 0x0E, 0x10, 0x12, 0x14, 0x16, 0x18, 0x1A,
   0x20, 0x22, 0x24, 0x26, 0x28, 0x2A, 0x2C, 0x40, 0x42, 0x44, 0x46, 0x48, 0x4A, 0x4C, 0x4E,
   0x60, 0x62, 0x64, 0x66, 0x68, 0x6A, 0x80, 0x82, 0x84, 0x86, 0x88, 0x8A, 0x8C, 0x8E, 0x90, 0x92, 0x94,
   0xA0, 0xA2, 0xA4, 0xA6, 0xA8, 0xAA, 0xAC, 0xAE, 0xB0, 0xB2, 0xB4, 0xB6, 0xB8,
   0xC0, 0xC2, 0xC4, 0xC6, 0xC8, 0xCA, 0xCC, 0xCE, 0xD0, 0xD2, 0xD4, 0xD6, 0xD8,
   0xE0, 0xE2, 0xE4, 0xE6, 0xE8, 0xEA, 0xEC, 0xEE]

/-- Lead code accepts the family, or some members of it (R123). -/
def leadFam (fam : Nat) : Bool :=
  fam < 0x20 || fam == 0xA2 || fam == 0xB2 || fam == 0xB6 || fam == 0xB8 ||
  (0xC6 ≤ fam && fam < 0xD0) || 0xD4 ≤ fam

/-- Lead code accepts the member (R123): of family 0xA2 only NOP, BKPT, RTT and TRAP. -/
def leadMember (fam : Nat) (imm : Bool) (m : BitVec 8) : Bool :=
  fam != 0xA2 || imm || m.extractLsb' 5 3 == 1 || m.extractLsb' 5 3 == 3 || m.extractLsb' 5 3 == 4

/-- Steps 3 and 4 of R114: the family, its acceptance in the code section and the member. -/
def opcodeOf (lead : Bool) (maj m : BitVec 8) : Except DecErr Member :=
  let imm := maj.getLsbD 0
  let fam := maj.toNat - maj.toNat % 2
  if ¬ allFams.contains fam then .error (illegalOpcode 1)
  else if imm && noImmFams.contains fam then .error (illegalOpcode 1)
  else if lead && !leadFam fam then .error (illegalOpcode 4)
  else if !lead && 0xE0 ≤ fam && fam ≤ 0xEC then .error (illegalOpcode 3)
  else match memberOf fam imm m with
    | .error e => .error e
    | .ok mb => if lead && !leadMember fam imm m then .error (illegalOpcode 4) else .ok mb

/-- The register bank claims made so far: the registers already claimed (R104). -/
abbrev Claims := List Nat

/-- Claim registers n .. n + k - 1 (modulo 256); `none` when a claim meets another register of the same bank. -/
def claim (cs : Claims) (n k : Nat) : Option Claims :=
  match k with
  | 0 => some cs
  | k + 1 =>
    if cs.contains (n % 256) then claim cs (n + 1) k
    else if cs.any (fun x => x % 4 = n % 4) then none
    else claim (n % 256 :: cs) (n + 1) k

/-- The number of registers that a use of a register claims the banks of. A quad is read in a cycle of its own (R244). -/
def claimWidth : SrcUse → Nat
  | .none | .pred | .quad | .dyn => 0
  | .r32 | .f32 | .reg32 | .off => 1
  | .r64 | .addr | .addrReg | .reg64 => 2

/-- The field names a lane register, so that a D-form offset applies and a bank is claimed. -/
def namesReg (u : SrcUse) (x : BitVec 9) : Bool :=
  x < 0x100 && u != .none && u != .pred

/-- Field check of a source field (R97, R104): unused content, then the banks. -/
def checkField (lead : Bool) (u : SrcUse) (x : BitVec 9) (extra : Nat) (cs : Claims) : Except DecErr Claims :=
  if u = .none ∧ x ≠ 0x115 then .error (illegalEncoding 5)
  else if lead || !namesReg u x then .ok cs
  else match claim cs x.toNat (claimWidth u) with
    | none => .error (illegalEncoding 4)
    | some cs => match claim cs (x.toNat + 2) extra with
      | none => .error (illegalEncoding 4)
      | some cs => .ok cs

/-- Operand check of a source field (R102, R103, R159, R177, R224, R244, R261), after the field checks: any value but P0-P7 in a
predicate field has detail 2 (R159), and an unassigned value anywhere else detail 1 (R102), `SHFL`'s SA included (log 26). -/
def checkSel (lead : Bool) (u : SrcUse) (x : BitVec 9) (extra : Nat) : Except DecErr Sel :=
  if u = .pred ∧ ¬ x < 8 then .error (illegalOperand 2)
  else match selOf x with
  | none => .error (illegalOperand 1)
  | some s =>
    if u = .none ∨ u = .dyn ∨ u = .pred then .ok s
    else match s with
      | .v n =>
        if lead ∧ 64 ≤ n.toNat then .error (illegalOperand 4)
        else if (u = .r64 ∨ u = .addr ∨ u = .addrReg ∨ u = .reg64) ∧ n.toNat % 2 = 1 then .error (illegalOperand 3)
        else if u = .quad ∧ n.toNat % 4 ≠ 0 then .error (illegalOperand 3)
        else if lead ∧ 0 < extra ∧ 64 < n.toNat + 2 + extra then .error (illegalOperand 4)
        else .ok s
      | .latch _ | .idx _ =>
        if lead then .error (illegalOperand 2)
        else if u = .addrReg ∨ u = .reg32 ∨ u = .reg64 then .error (illegalOperand 2)
        else .ok s
      | .q | .qp | .lane | .grp =>
        if lead then .error (illegalOperand 2)
        else if u = .addr ∨ u = .addrReg ∨ u = .reg32 ∨ u = .reg64 then .error (illegalOperand 2)
        else .ok s
      | .teamX | .teamY | .teamZ | .zero | .core | .dev =>
        if u = .addr ∨ u = .addrReg ∨ u = .reg32 ∨ u = .reg64 then .error (illegalOperand 2)
        else .ok s

/-- The D-form offset of a source field (R110): added modulo 256 where the field names a register. -/
def offSrc (off : BitVec 8) (u : SrcUse) (x : BitVec 9) : BitVec 9 :=
  if namesReg u x then (x.setWidth 8 + off).setWidth 9 else x

/-- DST names a register (R110). -/
def dstNames (d : DstUse) (ws : Bool) : Bool :=
  !ws && (d == .r32 || d == .r64 || d == .quad || d == .rmo)

/-- Step 5 of R114 for the fields DST, WS and DL (R97, R100, R159, R261, R308, R408). -/
def checkDst (lead : Bool) (sh : Shape) (r : RawF) : Except DecErr Unit :=
  let bad : Bool := match sh.dst with
    | .none | .xdst => r.dst ≠ 0
    | .pred => r.dst.toNat ≥ 8
    | .dir => r.dst.toNat ≥ 4
    | .r32 | .r64 | .quad | .rmo => r.ws && r.dl != 0 && r.dst != 0
  let noRes : Bool := sh.dst == .none || sh.dst == .pred || sh.dst == .dir || sh.dst == .rmo
  if bad then .error (illegalEncoding 5)
  else if lead && (r.ws || r.dl != 0) then .error (illegalEncoding 11)
  else if noRes && (r.ws || r.dl != 0) then .error (illegalEncoding 5)
  else .ok ()

/-- Step 5 of R114 for HSRC and HLAT (R97, R101, R261). -/
def checkHold (lead imm : Bool) (sh : Shape) (r : RawF) : Except DecErr Unit :=
  if lead then (if r.hsrc ≠ 0 ∨ r.hlat ≠ 0 then .error (illegalEncoding 11) else .ok ())
  else if r.hsrc = 0 then (if r.hlat ≠ 0 then .error (illegalEncoding 5) else .ok ())
  else if (r.hsrc = 1 ∧ sh.a = .none) ∨ (r.hsrc = 2 ∧ !imm ∧ sh.b = .none) ∨ (r.hsrc = 3 ∧ (imm ∨ sh.c = .none)) then
    .error (illegalEncoding 5)
  else if r.hlat = 3 then .error (illegalEncoding 3)
  else if r.dl ≠ 0 ∧ r.dl = r.hlat + 1 then .error (illegalEncoding 6)
  else .ok ()

/-- Step 6 of R114 for the destination (R103, R244, R261). -/
def checkDstOperand (lead : Bool) (d : DstUse) (ws : Bool) (x : BitVec 8) : Except DecErr Unit :=
  if lead ∧ d = .xdst then .error (illegalOperand 2)
  else if !dstNames d ws then .ok ()
  else if lead ∧ 64 ≤ x.toNat then .error (illegalOperand 4)
  else if d = .r64 ∧ x.toNat % 2 = 1 then .error (illegalOperand 3)
  else if d = .quad ∧ x.toNat % 4 ≠ 0 then .error (illegalOperand 3)
  else .ok ()

/-- At most one field reads Q (R152). -/
def oneQ (u : SrcUse) (s : Sel) (seen : Bool) : Except DecErr Bool :=
  if s = .q ∧ u ≠ .none then (if seen then .error (illegalOperand 2) else .ok true) else .ok seen

/-- The operand fields after their checks: steps 5 and 6 of R114 on the raw fields of a word with a known shape. -/
def checkFields (lead imm : Bool) (sh : Shape) (modErr : Option Nat) (r : RawF) : Except DecErr FWord := do
  checkDst lead sh r
  let cs : Claims := if sh.rdDst && dstNames sh.dst r.ws then [r.dst.toNat] else []
  let cs ← checkField lead sh.a r.a sh.implied cs
  if imm then
    if r.imm &&& sh.immZero ≠ 0 then throw (illegalEncoding 2)
    checkHold lead imm sh r
  else
    let cs ← checkField lead sh.b r.b 0 cs
    let _ ← checkField lead sh.c r.c 0 cs
    checkHold lead imm sh r
  match modErr with
  | some d => throw (illegalEncoding d)
  | none => pure ()
  checkDstOperand lead sh.dst r.ws r.dst
  let a ← checkSel lead sh.a r.a sh.implied
  let q ← oneQ sh.a a false
  if imm then
    pure { pn := r.pn, pr := r.pr, dst := r.dst, ws := r.ws, dl := r.dl, a, b := .imm r.imm, c := .zero,
           hsrc := r.hsrc, hlat := r.hlat }
  else
    let b ← checkSel lead sh.b r.b 0
    let q ← oneQ sh.b b q
    let c ← checkSel lead sh.c r.c 0
    let _ ← oneQ sh.c c q
    pure { pn := r.pn, pr := r.pr, dst := r.dst, ws := r.ws, dl := r.dl, a, b := .sel b, c,
           hsrc := r.hsrc, hlat := r.hlat }

/-- The shape of a member does not depend on its operands, only on whether the variant is the immediate one. -/
def blank (imm : Bool) : FWord := { b := if imm then .imm 0 else .sel .zero }

/-- Decode an F-form word, with a D-form offset (0 outside a dictionary entry). -/
def decodeF (lead : Bool) (off : BitVec 8) (w : W64) : Except DecErr Instr := do
  let r := rawOf w
  let imm := r.maj.getLsbD 0
  let mb ← opcodeOf lead r.maj r.mod
  let sh := shape (mb.build (blank imm))
  let r := { r with
    dst := if dstNames sh.dst r.ws then r.dst + off else r.dst
    a := offSrc off sh.a r.a
    b := if imm then r.b else offSrc off sh.b r.b
    c := if imm then r.c else offSrc off sh.c r.c }
  let f ← checkFields lead imm sh mb.modErr r
  pure (mb.build f)

/-- The operation of a P-form half (R108): half A if `isA`. `ok` tells that MOD4 is in the table. -/
def popOf (isA : Bool) (op : BitVec 7) (m : BitVec 4) : Option (POp × Bool) :=
  let z : Bool := m == 0
  let u : Bool := m.extractLsb' 1 3 == 0
  let f : Bool := m < 5
  let rm := rmOf (m.extractLsb' 0 3)
  match op.toNat with
  | 0x00 => some (.iadd, z) | 0x01 => some (.isub, z)
  | 0x02 => if isA then some (.imul, z) else none
  | 0x03 => some (.imin (m.getLsbD 0), u) | 0x04 => some (.imax (m.getLsbD 0), u)
  | 0x05 => some (.iand, z) | 0x06 => some (.ior, z) | 0x07 => some (.ixor, z)
  | 0x08 => some (.shl, z) | 0x09 => some (.shr, z) | 0x0A => some (.sar, z) | 0x0B => some (.rot, z)
  | 0x0C => some (.mov, z)
  | 0x0D => if isA then none else some (.popc, z)
  | 0x0E => if isA then none else some (.clz, z)
  | 0x0F => if isA then none else some (.brev, z)
  | 0x10 => if isA then some (.fadd rm, f) else none
  | 0x11 => if isA then some (.fsub rm, f) else none
  | 0x12 => if isA then some (.fmul rm, f) else none
  | 0x13 => if isA then some (.fmin rm, f) else none
  | 0x14 => if isA then some (.fmax rm, f) else none
  | 0x18 => if isA then some (.hadd2 rm, f) else none
  | 0x19 => if isA then some (.hmul2 rm, f) else none
  | 0x1A => if isA then some (.badd2 rm, f) else none
  | 0x1B => if isA then some (.bmul2 rm, f) else none
  | 0x20 => if isA then none else some (.frcp, z)
  | 0x21 => if isA then none else some (.frsq, z)
  | 0x22 => if isA then none else some (.fsqrt, z)
  | 0x23 => if isA then none else some (.fexp2, z)
  | 0x24 => if isA then none else some (.flog2, z)
  | 0x25 => if isA then none else some (.fsin, z)
  | 0x26 => if isA then none else some (.fcos, z)
  | _ => none

/-- A unary P-form operation does not read its destination (R108). -/
def unaryP : POp → Bool
  | .mov | .popc | .clz | .brev | .frcp | .frsq | .fsqrt | .fexp2 | .flog2 | .fsin | .fcos => true
  | _ => false

/-- Decode one P-form half after the claims `cs` (R106 to R108); `other` is half A's destination and whether half A
reads Q, while half B is decoded. -/
def decodeHalf (isA : Bool) (off : BitVec 8) (h : BitVec 31) (cs : Claims) (other : Option (BitVec 8 × Bool)) :
    Except DecErr (PHalf × Claims) := do
  let (op, good) ← match popOf isA (h.extractLsb' 24 7) (h.extractLsb' 0 4) with
    | none => throw (illegalOpcode 5)
    | some x => pure x
  let dst := h.extractLsb' 13 8 + off
  let src := offSrc off .r32 (h.extractLsb' 4 9)
  if (other.map (·.1)) = some dst then throw (illegalEncoding 10)
  let cs ← if unaryP op then pure cs else match claim cs dst.toNat 1 with
    | none => throw (illegalEncoding 4)
    | some cs => pure cs
  let cs ← checkField false .r32 src 0 cs
  if !good then throw (illegalEncoding 12)
  let s ← checkSel false .r32 src 0
  if s = .q ∧ (other.map (·.2)) = some true then throw (illegalOperand 2)
  pure ({ op, pr := h.extractLsb' 21 3, dst, src := s }, cs)

/-- Decode a P-form word. A fault in half B carries DETAIL[7] (R113). -/
def decodeP (off : BitVec 8) (w : W64) : Except DecErr Instr := do
  let (a, cs) ← decodeHalf true off (w.extractLsb' 31 31) [] none
  match decodeHalf false off (w.extractLsb' 0 31) cs (some (a.dst, a.src = .q)) with
  | .ok (b, _) => pure (.pFormWord a b)
  | .error e => throw { e with detail := e.detail + 128 }

/-- A code of a D-form word (R109). -/
def dcodeOf (x : BitVec 16) : DCode := { index := x.extractLsb' 6 10, off := x.extractLsb' 0 6 }

/-- Decode a D-form word (R109). -/
def decodeD (w : W64) : Except DecErr Instr :=
  let n := (w.extractLsb' 60 2).toNat
  let c0 := w.extractLsb' 32 16
  let c1 := w.extractLsb' 16 16
  let c2 := w.extractLsb' 0 16
  if n = 0 ∨ w.extractLsb' 48 12 ≠ 0 ∨ (n < 2 ∧ c1 ≠ 0) ∨ (n < 3 ∧ c2 ≠ 0) then .error (illegalEncoding 7)
  else .ok (.dFormSlot (dcodeOf c0) (if 2 ≤ n then some (dcodeOf c1) else none) (if 3 ≤ n then some (dcodeOf c2) else none))

/-- The number of slots of a word (R93). -/
def slotsOf : Instr → Nat
  | .dFormSlot _ c1 c2 => 1 + (if c1.isSome then 1 else 0) + (if c2.isSome then 1 else 0)
  | _ => 1

/-- Decode the word at a PC with code slot `slot` (R92 to R94, R107, R109). -/
def decode (lead : Bool) (slot : Nat) (w : W64) : Except DecErr Instr :=
  match (w.extractLsb' 62 2).toNat with
  | 0 => if slot ≠ 0 then .error (illegalEncoding 9) else decodeF lead 0 w
  | 1 => if slot ≠ 0 then .error (illegalEncoding 9)
    else if lead then .error (illegalEncoding 11) else decodeP 0 w
  | 2 => .error (illegalEncoding 1)
  | _ =>
    if lead then .error (illegalEncoding 11)
    else match decodeD w with
      | .error e => .error e
      | .ok i => if slotsOf i ≤ slot then .error (illegalEncoding 9) else .ok i

/-- Decode a dictionary entry after its offset is applied (R110, R112). -/
def decodeEntry (off : BitVec 6) (w : W64) : Except DecErr Instr :=
  match (w.extractLsb' 62 2).toNat with
  | 0 => decodeF false (off.setWidth 8) w
  | 1 => decodeP (off.setWidth 8) w
  | 2 => .error (illegalEncoding 1)
  | _ => .error (illegalEncoding 8)

/-- The instruction that the decoder reads from a word given as bits: as lane code, else as lead code. -/
def decodeTableWord (nbits w : Nat) : Option Instr :=
  if 64 < nbits then none
  else match decode false 0 (BitVec.ofNat 64 w) with
    | .ok i => some i
    | .error _ => match decode true 0 (BitVec.ofNat 64 w) with
      | .ok i => some i
      | .error _ => none

/-! The encoder, from the same tables. -/

/-- A MOD field: the member in MOD[7:5] and five modifier bits. -/
def mod5 (k : Nat) (low : BitVec 5) : BitVec 8 := BitVec.ofNat 3 k ++ low
/-- A MOD field with the member, a three-bit field in MOD[4:2] and two bits below it. -/
def mod32 (k : Nat) (r : BitVec 3) (b1 b0 : Bool) : BitVec 8 := BitVec.ofNat 3 k ++ r ++ BitVec.ofBool b1 ++ BitVec.ofBool b0
/-- Five modifier bits, the highest first. -/
def bits5 (b4 b3 b2 b1 b0 : Bool) : BitVec 5 :=
  BitVec.ofBool b4 ++ BitVec.ofBool b3 ++ BitVec.ofBool b2 ++ BitVec.ofBool b1 ++ BitVec.ofBool b0

def rmBits (r : Rm) : BitVec 3 := BitVec.ofNat 3 r.ctorIdx
def satBits (m : Sat) : BitVec 5 := BitVec.ofNat 5 m.ctorIdx
def stSizeCode : StSize → Nat
  | .w => 0 | .d => 1 | .q => 2 | .b => 3 | .h => 5
/-- The code of a conversion (R217): 15 is not assigned. -/
def cvtCode (c : Cvt) : Nat := if c.ctorIdx < 15 then c.ctorIdx else c.ctorIdx + 1
/-- A `PBAR` or bit-packed option: present bit and value. -/
def optBits (o : Option (BitVec 4)) : BitVec 5 := match o with
  | none => 0
  | some n => 1#1 ++ n

/-- The register-variant MAJ, the MOD field and the common fields of an F-form instruction; `none` for the other forms
and for the events. -/
def encF : Instr → Option (Nat × BitVec 8 × FWord)
  | .iadd w m => some (0x00, mod5 0 (satBits m), w)
  | .isub w m => some (0x00, mod5 1 (satBits m), w)
  | .iaddc w p c0 => some (0x00, mod5 2 (0#1 ++ BitVec.ofBool c0 ++ p), w)
  | .isubb w p c0 => some (0x00, mod5 3 (0#1 ++ BitVec.ofBool c0 ++ p), w)
  | .ineg w s => some (0x00, mod5 4 (bits5 false false false false s), w)
  | .iabs w s => some (0x00, mod5 5 (bits5 false false false false s), w)
  | .imul w => some (0x02, mod5 0 0, w)
  | .imulh w u => some (0x02, mod5 1 (bits5 false false false false u), w)
  | .imad w => some (0x02, mod5 2 0, w)
  | .imadw w u => some (0x02, mod5 3 (bits5 false false false false u), w)
  | .iadd64 w m => some (0x04, mod5 0 (satBits m), w)
  | .isub64 w m => some (0x04, mod5 1 (satBits m), w)
  | .shf64 w d => some (0x04, mod5 2 (BitVec.ofNat 5 d.ctorIdx), w)
  | .imin w u => some (0x06, mod5 0 (bits5 false false false false u), w)
  | .imax w u => some (0x06, mod5 1 (bits5 false false false false u), w)
  | .iand w d => some (0x08, mod5 0 (bits5 false false false false d), w)
  | .ior w d => some (0x08, mod5 1 (bits5 false false false false d), w)
  | .ixor w d => some (0x08, mod5 2 (bits5 false false false false d), w)
  | .inot w d => some (0x08, mod5 3 (bits5 false false false false d), w)
  | .ilop3 w f0 f1 => some (0x0A, f1 ++ f0, w)
  | .shl w => some (0x0C, mod5 0 0, w)
  | .shr w => some (0x0C, mod5 1 0, w)
  | .sar w => some (0x0C, mod5 2 0, w)
  | .rot w => some (0x0C, mod5 3 0, w)
  | .bfe w s => some (0x0E, mod5 0 (bits5 false false false false s), w)
  | .bfi w => some (0x0E, mod5 1 0, w)
  | .popc w => some (0x0E, mod5 2 0, w)
  | .clz w => some (0x0E, mod5 3 0, w)
  | .brev w => some (0x0E, mod5 4 0, w)
  | .icmp w c u d => some (0x10, mod5 c.ctorIdx (bits5 u d false false false), w)
  | .sel w p n d => some (0x12, mod5 0 (BitVec.ofBool d ++ BitVec.ofBool n ++ p), w)
  | .mov w d x => some (0x14, mod5 0 ((match x with
      | some k => 1#1 ++ k
      | none => 0#3) ++ 0#1 ++ BitVec.ofBool d), w)
  | .movi w d => some (0x14, mod5 0 (bits5 false false false false d), w)
  | .movhi w => some (0x14, mod5 1 0, w)
  | .lea w sh s => some (0x16, mod5 0 (0#1 ++ BitVec.ofBool s ++ sh), w)
  | .pand w n => some (0x18, mod5 0 (bits5 false false false false n), w)
  | .por w n => some (0x18, mod5 1 (bits5 false false false false n), w)
  | .pxor w n => some (0x18, mod5 2 (bits5 false false false false n), w)
  | .pnot w => some (0x18, mod5 3 0, w)
  | .pset w z => some (0x1A, mod5 0 (bits5 false false false false z), w)
  | .fadd w r s => some (0x20, mod32 0 (rmBits r) false s, w)
  | .fsub w r s => some (0x20, mod32 1 (rmBits r) false s, w)
  | .fmul w r s => some (0x20, mod32 2 (rmBits r) false s, w)
  | .fdivs w r s => some (0x2C, mod32 0 (rmBits r) false s, w)
  | .dadd w r s => some (0x40, mod32 0 (rmBits r) false s, w)
  | .dsub w r s => some (0x40, mod32 1 (rmBits r) false s, w)
  | .dmul w r s => some (0x40, mod32 2 (rmBits r) false s, w)
  | .ffma w nab nc r s => some (0x22, BitVec.ofBool nab ++ BitVec.ofBool nc ++ 0#1 ++ rmBits r ++ 0#1 ++ BitVec.ofBool s, w)
  | .dfma w nab nc r s => some (0x42, BitVec.ofBool nab ++ BitVec.ofBool nc ++ 0#1 ++ rmBits r ++ 0#1 ++ BitVec.ofBool s, w)
  | .fmin w r => some (0x24, mod32 0 (rmBits r) false false, w)
  | .fmax w r => some (0x24, mod32 1 (rmBits r) false false, w)
  | .dmin w r => some (0x44, mod32 0 (rmBits r) false false, w)
  | .dmax w r => some (0x44, mod32 1 (rmBits r) false false, w)
  | .fcmp w c r s => some (0x26, mod32 c.ctorIdx (rmBits r) false s, w)
  | .dcmp w c r s => some (0x46, mod32 c.ctorIdx (rmBits r) false s, w)
  | .frnd w r => some (0x28, mod32 0 (rmBits r) false false, w)
  | .drnd w r => some (0x48, mod32 0 (rmBits r) false false, w)
  | .fclass w f r => some (0x2A, mod32 f.ctorIdx (rmBits r) false false, w)
  | .hadd2 w r s => some (0x4A, mod32 0 (rmBits r) false s, w)
  | .hmul2 w r s => some (0x4A, mod32 1 (rmBits r) false s, w)
  | .badd2 w r s => some (0x4A, mod32 2 (rmBits r) false s, w)
  | .bmul2 w r s => some (0x4A, mod32 3 (rmBits r) false s, w)
  | .hfma2 w r s => some (0x4C, mod32 0 (rmBits r) false s, w)
  | .bfma2 w r s => some (0x4C, mod32 1 (rmBits r) false s, w)
  | .dot4i w ua ub s r => some (0x4E, BitVec.ofBool ua ++ BitVec.ofBool ub ++ BitVec.ofBool s ++ rmBits r ++ 0#2, w)
  | .frcp w => some (0x60, mod5 0 0, w)
  | .frsq w => some (0x60, mod5 1 0, w)
  | .fsqrt w => some (0x60, mod5 2 0, w)
  | .fexp2 w => some (0x60, mod5 3 0, w)
  | .flog2 w => some (0x60, mod5 4 0, w)
  | .fsin w => some (0x60, mod5 5 0, w)
  | .fcos w => some (0x60, mod5 6 0, w)
  | .cvt w k r => some (0x62, BitVec.ofNat 3 (cvtCode k / 4) ++ rmBits r ++ BitVec.ofNat 2 (cvtCode k), w)
  | .cvt8 w (.fromF32 e5 r h) => some (0x64, 0#2 ++ BitVec.ofBool e5 ++ rmBits r ++ BitVec.ofBool h ++ 0#1, w)
  | .cvt8 w (.from16 e5 r h bf) => some (0x64, 1#2 ++ BitVec.ofBool e5 ++ rmBits r ++ BitVec.ofBool h ++ BitVec.ofBool bf, w)
  | .cvt8 w (.toF32 e5 k) => some (0x64, 2#2 ++ BitVec.ofBool e5 ++ 0#3 ++ k, w)
  | .cvt8 w (.to16 e5 h bf) => some (0x64, 3#2 ++ BitVec.ofBool e5 ++ 0#3 ++ BitVec.ofBool h ++ BitVec.ofBool bf, w)
  | .cvt4E2m1 w r => some (0x66, 0#3 ++ rmBits r ++ 0#2, w)
  | .cvt4Pack w => some (0x66, 0x40, w)
  | .cvt4Fp32 w n => some (0x66, 0x10#5 ++ n, w)
  | .cvtx w f o => some (0x68, BitVec.ofNat 2 f.ctorIdx ++ o ++ 0#3, w)
  | .sclxFp32 w r => some (0x6A, mod32 0 (rmBits r) false false, w)
  | .sclxFp64 w r => some (0x6A, mod32 1 (rmBits r) false false, w)
  | .sclxX8 w i r => some (0x6A, mod32 2 (rmBits r) false i, w)
  | .sclxBlk w f => some (0x6A, mod5 3 (BitVec.ofNat 5 f.ctorIdx), w)
  | .ld w z p a => some (0x80, mod32 z.ctorIdx (BitVec.ofNat 3 p.ctorIdx) false a, w)
  | .lds w z a => some (0x80, mod32 z.ctorIdx 0 true a, w)
  | .st w z o r => some (0x82, mod32 (stSizeCode z) o false r, w)
  | .sts w z o r => some (0x82, mod32 (stSizeCode z) o true r, w)
  | .lde w el p a => some (0x84, mod32 el.ctorIdx (BitVec.ofNat 3 p.ctorIdx) false a, w)
  | .ste w el o r => some (0x86, mod32 el.ctorIdx o false r, w)
  | .ldx w x p a => some (0x88, mod32 x.toNat (BitVec.ofNat 3 p.ctorIdx) false a, w)
  | .stx w x o r => some (0x8A, mod32 x.toNat o false r, w)
  | .atom w op o ar => some (0x8C, mod32 op.ctorIdx o false ar, w)
  | .atomx w op o ar => some (0x8E, mod32 op.ctorIdx o false ar, w)
  | .acq w => some (0x90, mod5 0 0, w)
  | .rel w => some (0x90, mod5 1 0, w)
  | .sjoin w => some (0x90, mod5 2 0, w)
  | .pref w l2 => some (0x92, mod5 (if l2 then 1 else 0) 0, w)
  | .cflush w => some (0x94, mod5 0 0, w)
  | .cinv w => some (0x94, mod5 1 0, w)
  | .bra w => some (0xA0, mod5 0 0, w)
  | .brx w => some (0xA0, mod5 0 0, w)
  | .call w => some (0xA0, mod5 1 0, w)
  | .ret w => some (0xA0, mod5 2 0, w)
  | .exit w => some (0xA2, mod5 0 0, w)
  | .nop w => some (0xA2, mod5 1 0, w)
  | .yield w => some (0xA2, mod5 2 0, w)
  | .bkpt w => some (0xA2, mod5 3 0, w)
  | .rtt w => some (0xA2, mod5 4 0, w)
  | .trap w => some (0xA2, mod5 0 0, w)
  | .bar w n a => some (0xA4, mod5 0 (BitVec.ofBool a ++ n), w)
  | .pbar w n k => some (0xA6, 0#3 ++ BitVec.ofNat 2 k.ctorIdx ++ n, w)
  | .vote w m i => some (0xA8, mod5 0 (0#1 ++ BitVec.ofBool i ++ BitVec.ofNat 3 m.ctorIdx), w)
  | .lead w => some (0xA8, mod5 1 0, w)
  | .shfl w m d q => some (0xAA, 0#2 ++ BitVec.ofNat 3 q.ctorIdx ++ BitVec.ofBool d ++ BitVec.ofNat 2 m.ctorIdx, w)
  | .xset w x => some (0xAC, mod5 0 (0#3 ++ x), w)
  | .xadd w x => some (0xAC, mod5 1 (0#3 ++ x), w)
  | .xget w x f => some (0xAC, mod5 2 (0#1 ++ BitVec.ofNat 2 f.ctorIdx ++ x), w)
  | .dqtake w pd => some (0xAE, 0#4 ++ (match pd with
      | some p => 1#1 ++ p
      | none => 0#4), w)
  | .vgrow w => some (0xB0, mod5 0 0, w)
  | .vshrink w => some (0xB0, mod5 1 0, w)
  | .krd w => some (0xB2, mod5 0 0, w)
  | .kwr w => some (0xB2, mod5 1 0, w)
  | .flagarm w o => some (0xB4, mod5 0 (bits5 false false false false o), w)
  | .spawn w => some (0xB6, mod5 0 0, w)
  | .grow w => some (0xB6, mod5 1 0, w)
  | .launch w => some (0xB8, mod5 0 0, w)
  | .cancel w lv => some (0xB8, mod5 1 (BitVec.ofNat 5 lv.ctorIdx), w)
  | .cntrd w lv => some (0xB8, mod5 2 (BitVec.ofNat 5 lv.ctorIdx), w)
  | .capmk w s e => some (0xC0, mod32 0 0 e s, w)
  | .caprv w => some (0xC0, mod5 1 0, w)
  | .rarm w a n => some (0xC2, mod32 0 0 n a, w)
  | .rdisarm w => some (0xC2, mod5 1 0, w)
  | .rpend w => some (0xC2, mod5 2 0, w)
  | .sendr w d o => some (0xC4, mod32 0 o false d, w)
  | .sendn w d o => some (0xC4, 1#3 ++ o ++ BitVec.ofNat 2 d.ctorIdx, w)
  | .cpy w => some (0xC6, mod5 0 0, w)
  | .cpyg w => some (0xC6, mod5 1 0, w)
  | .cpym w => some (0xC6, mod5 2 0, w)
  | .cpypf w => some (0xC6, mod5 3 0, w)
  | .twaitany w => some (0xC8, mod5 0 0, w)
  | .twaitall w => some (0xC8, mod5 1 0, w)
  | .tffr w => some (0xC8, mod5 2 0, w)
  | .tclr w => some (0xC8, mod5 3 0, w)
  | .mloadb w => some (0xCA, mod5 0 0, w)
  | .mma w z => some (0xCA, mod5 1 (bits5 false false false false z), w)
  | .mzero w => some (0xCA, mod5 2 0, w)
  | .mstore w o => some (0xCC, mod32 0 o false false, w)
  | .mread w d => some (0xCC, mod5 1 (bits5 false false false false d), w)
  | .mwrite w d => some (0xCC, mod5 2 (bits5 false false false false d), w)
  | .mres w => some (0xCE, mod5 0 0, w)
  | .mrel w a => some (0xCE, mod5 1 (bits5 false false false false a), w)
  | .mstat w => some (0xCE, mod5 2 0, w)
  | .rmoN w n o => some (0xD0, n ++ o, w)
  | .rmoR w n o => some (0xD2, n ++ o, w)
  | .rmdef w => some (0xD4, mod5 0 0, w)
  | .rmdrop w => some (0xD4, mod5 1 0, w)
  | .rmqry w => some (0xD4, mod5 2 0, w)
  | .sweep w => some (0xD6, 0, w)
  | .mcast w d o => some (0xD8, mod32 0 o false d, w)
  | .coll w o => some (0xD8, mod32 1 o false false, w)
  | .fgrp w k => some (0xD8, mod5 2 (BitVec.ofNat 5 k.ctorIdx), w)
  | .sld w d a => some (0xE0, mod32 0 0 d a, w)
  | .sst w d o r => some (0xE0, mod32 1 o d r, w)
  | .slds w d a => some (0xE0, mod32 2 0 d a, w)
  | .qpush w d => some (0xE2, mod5 0 (bits5 false false false false d), w)
  | .qpusha w => some (0xE2, mod5 1 0, w)
  | .dqpush w a => some (0xE2, mod5 2 (bits5 false false false false a), w)
  | .brc w k => some (0xE4, BitVec.ofNat 8 k.ctorIdx, w)
  | .scmp w c u d k => some (0xE6, BitVec.ofNat 3 c.ctorIdx ++ BitVec.ofBool u ++ BitVec.ofBool d ++ BitVec.ofNat 2 k.ctorIdx ++ 0#1, w)
  | .lwait w b => some (0xE8, mod5 0 (optBits b), w)
  | .ltime w b => some (0xE8, mod5 1 (optBits b), w)
  | .dictld w => some (0xEA, 0, w)
  | .lexit w => some (0xEC, 0, w)
  | .tlbinv w c => some (0xEE, mod5 0 (bits5 false false false false c), w)
  | .pgacc w c => some (0xEE, mod5 1 (bits5 false false false false c), w)
  | _ => none

/-- The bits [29:12] of a word: SB and SC, or the immediate (R96). -/
def sourceBits (w : FWord) : BitVec 18 :=
  match w.b with
  | .sel b => selBits b ++ selBits w.c
  | .imm i => i

/-- Assemble an F-form word (R96). -/
def assemble (fam : Nat) (m : BitVec 8) (w : FWord) : W64 :=
  0#2 ++ BitVec.ofNat 7 (fam / 2) ++ BitVec.ofBool w.b.isImm ++ BitVec.ofBool w.pn ++ w.pr ++ w.dst ++
    BitVec.ofBool w.ws ++ w.dl ++ selBits w.a ++ sourceBits w ++ w.hsrc ++ w.hlat ++ m

/-- OP7 and MOD4 of a P-form operation (R108). -/
def popBits : POp → BitVec 7 × BitVec 4
  | .iadd => (0x00, 0) | .isub => (0x01, 0) | .imul => (0x02, 0)
  | .imin u => (0x03, 0#3 ++ BitVec.ofBool u) | .imax u => (0x04, 0#3 ++ BitVec.ofBool u)
  | .iand => (0x05, 0) | .ior => (0x06, 0) | .ixor => (0x07, 0)
  | .shl => (0x08, 0) | .shr => (0x09, 0) | .sar => (0x0A, 0) | .rot => (0x0B, 0)
  | .mov => (0x0C, 0) | .popc => (0x0D, 0) | .clz => (0x0E, 0) | .brev => (0x0F, 0)
  | .fadd r => (0x10, 0#1 ++ rmBits r) | .fsub r => (0x11, 0#1 ++ rmBits r) | .fmul r => (0x12, 0#1 ++ rmBits r)
  | .fmin r => (0x13, 0#1 ++ rmBits r) | .fmax r => (0x14, 0#1 ++ rmBits r)
  | .hadd2 r => (0x18, 0#1 ++ rmBits r) | .hmul2 r => (0x19, 0#1 ++ rmBits r)
  | .badd2 r => (0x1A, 0#1 ++ rmBits r) | .bmul2 r => (0x1B, 0#1 ++ rmBits r)
  | .frcp => (0x20, 0) | .frsq => (0x21, 0) | .fsqrt => (0x22, 0) | .fexp2 => (0x23, 0) | .flog2 => (0x24, 0)
  | .fsin => (0x25, 0) | .fcos => (0x26, 0)

/-- Assemble a P-form half (R106). -/
def halfBits (h : PHalf) : BitVec 31 :=
  (popBits h.op).1 ++ h.pr ++ h.dst ++ selBits h.src ++ (popBits h.op).2

/-- Assemble a D-form code (R109). -/
def dcodeBits (c : DCode) : BitVec 16 := c.index ++ c.off

/-- The word of an instruction; `none` for an event. -/
def encode (i : Instr) : Option W64 :=
  match i with
  | .pFormWord a b => some (1#2 ++ halfBits a ++ halfBits b)
  | .dFormSlot c0 c1 c2 =>
    some (3#2 ++ BitVec.ofNat 2 (slotsOf i) ++ 0#12 ++ dcodeBits c0 ++ (c1.map dcodeBits).getD 0 ++ (c2.map dcodeBits).getD 0)
  | i => (encF i).map fun (f, m, w) => assemble f m w

end Sys2Proof
end

