-- ==== Sys2Proof/Machine/Phys.lean ====
section
/-! DEFINITION. The physical address map, home slices and channels (R501, R512), and the count of a channel's uncorrectable
errors (R239, R515). -/

namespace Sys2Proof.Machine

/-! The physical address map (R501). -/

/-- The tier of a physical address; nothing in a hole. -/
def tierOf (pa : Nat) : Option Nat :=
  if pa < 0x00C000000000 then some 0
  else if 0x010000000000 ≤ pa ∧ pa < 0x020000000000 then some 1
  else if 0x0004000000000000 ≤ pa ∧ pa < 0x0008000000000000 then some 2
  else if 0x0008000000000000 ≤ pa ∧ pa < 0x0010000000000000 then some 3
  else none

/-- The device and the local address of a peer address (R501). -/
def peerDev (pa : Nat) : Nat := pa / 2 ^ 41 % 1024
def peerAddr (pa : Nat) : Nat := pa % 2 ^ 41
/-- An address of tier 0 or 1. -/
def local01 (pa : Nat) : Bool := tierOf pa == some 0 || tierOf pa == some 1

/-- The home slice of a physical address (R512). -/
def homeSlice (pa : Nat) : Nat :=
  let f (n : Nat) : Nat := pa / 2 ^ n % 256
  f 9 ^^^ f 17 ^^^ f 25 ^^^ f 33 ^^^ f 41 ^^^ (pa / 2 ^ 49 % 8)

/-- The bit-reversal of 7 bits. -/
def rev7 (x : Nat) : Nat := ((List.range 7).map (fun i => if x.testBit i then 2 ^ (6 - i) else 0)).sum

/-- The channel-hash functions (R512). -/
def chanHash (fn j w : Nat) : Nat :=
  match fn with
  | 0 => 0
  | 1 => j % 128
  | 2 => w % 128
  | 3 => (w % 128) ^^^ (w / 128 % 128)
  | 4 => (j % 128) ^^^ (w % 128)
  | 5 => (w % 128) ^^^ (w / 128 % 128) ^^^ (w / 16384 % 32)
  | 6 => rev7 (w % 128) ^^^ (j % 128)
  | _ => (37 * w + 5 * j) % 128

/-- The hash function of the 2 MiB region of an address. -/
def regionFn (s : State) (pa : Nat) : Nat := get 0 s.chanFn (pa / 2 ^ 21)

/-- The channel of an address of tier 0 or 1, and its channel address (R512). -/
def channelOf (s : State) (pa : Nat) : Nat × Nat :=
  let fn := regionFn s pa
  if tierOf pa = some 1 then
    let p := pa - 0x010000000000
    let rg := p / 2 ^ 21 % 2 ^ 19
    let v := pa / 2 ^ 9 % 2 ^ 12
    let j := v / 64
    (384 + ((v % 64) ^^^ (chanHash fn j rg % 64)), rg * 32768 + j * 512 + pa % 512)
  else
    let rg := pa / 2 ^ 21 % 2 ^ 19
    let w := rg / 3
    let v := pa / 2 ^ 9 % 2 ^ 12
    let j := v / 128
    (3 * ((v % 128) ^^^ chanHash fn j w) + rg % 3, w * 16384 + j * 512 + pa % 512)

/-- An access has met an uncorrectable unit at an address: the channel's counter of uncorrectable errors rises (R239,
R515); a unit of another tier has no channel. -/
def countError (s : State) (pa : Nat) : State :=
  if local01 pa then
    let dw := 8 * (channelOf s pa).1 + 4
    { s with counters := set 0 s.counters dw (get 0 s.counters dw + 1) }
  else s

end Sys2Proof.Machine
end

