-- ==== Sys2Proof/Machine/Ops.lean ====
section
/-! DEFINITION. The named operations over memory, registers, lanes and traps, on which every meaning rests. -/

namespace Sys2Proof.Machine

/-! Masks of lanes. -/

/-- The lanes that meet a condition. -/
def maskOf (f : Nat → Bool) : Mask :=
  (List.range 32).foldl (fun m l => if f l then m ||| (1#32 <<< l) else m) 0

/-- The lanes of a mask, lowest first. -/
def lanesOf (m : Mask) : List Nat := (List.range 32).filter (fun l => m.getLsbD l)

/-- One lane. -/
def oneLane (l : Nat) : Mask := 1#32 <<< l

/-- The lowest lane of a mask. -/
def lowest (m : Mask) : Nat := ((lanesOf m).head?).getD 0
/-- The highest lane of a mask. -/
def highest (m : Mask) : Nat := ((lanesOf m).getLast?).getD 0
/-- The number of lanes of a mask. -/
def laneCount (m : Mask) : Nat := (lanesOf m).length

/-! Memory: bytes at physical addresses. An unlisted byte reads as zero, which the start steps leave (R520). -/

/-- The memory is in canonical form. -/
def memWf (m : List Host.Cell) : Bool := canon (0 : Byte) m

/-- Read a byte. -/
def readByte (s : State) (pa : Nat) : Byte := get 0 s.mem pa
/-- Write a byte. -/
def writeByte (s : State) (pa : Nat) (b : Byte) : State := { s with mem := set 0 s.mem pa b }
/-- The n bytes from an address. -/
def readBytes (s : State) (pa n : Nat) : List Byte := (List.range n).map (fun k => readByte s (pa + k))
/-- Write bytes from an address upward. -/
def writeBytes (s : State) (pa : Nat) : List Byte → State
  | [] => s
  | b :: bs => writeBytes (writeByte s pa b) (pa + 1) bs

/-- The little-endian value of a list of bytes (R6). -/
def leNat : List Byte → Nat
  | [] => 0
  | b :: bs => b.toNat + 256 * leNat bs
/-- The n bytes of a value, little-endian (R6). -/
def leBytes : Nat → Nat → List Byte
  | 0, _ => []
  | n + 1, v => BitVec.ofNat 8 v :: leBytes n (v / 256)
/-- A 64-bit word of memory. -/
def read64 (s : State) (pa : Nat) : W64 := BitVec.ofNat 64 (leNat (readBytes s pa 8))
/-- Write a 64-bit word of memory. -/
def write64 (s : State) (pa : Nat) (v : W64) : State := writeBytes s pa (leBytes 8 v.toNat)

/-! Teams, groups and cores. -/

/-- The team with a number. -/
def team (s : State) (t : Nat) : Option Team := look s.teams t
/-- Change a team. -/
def updTeam (s : State) (t : Nat) (f : Team → Team) : State := { s with teams := upd s.teams t f }
/-- Change a group, or the lead, of a team. -/
def updGroup (s : State) (id : SrcId) (f : Group → Group) : State :=
  updTeam s id.team (fun t => { t with groups := upd t.groups id.g f })
/-- A group, or the lead, of a team. -/
def group (s : State) (id : SrcId) : Option Group := (look s.teams id.team).bind (fun t => look t.groups id.g)
/-- A core. -/
def core (s : State) (c : Nat) : CoreSt := (look s.cores c).getD {}
/-- Change a core. -/
def updCore (s : State) (c : Nat) (f : CoreSt → CoreSt) : State := { s with cores := put s.cores c (f (core s c)) }
/-- The number of groups of a team. -/
def groupCount (t : Team) : Nat := t.launch.grpm1 + 1
/-- The groups of a team that have a live lane. -/
def liveGroups (t : Team) : List Nat := (List.range (groupCount t)).filter (fun g => ((look t.groups g).map (·.live)).getD 0 ≠ 0)
/-- The source is a lead thread. -/
def isLead (id : SrcId) : Bool := id.g == 32

/-- A fresh name, and the state that has used it (log 2). -/
def newId (s : State) : Nat × State := (s.nextId, { s with nextId := s.nextId + 1 })

/-! Registers. -/

/-- A register of a lane: Vn, or Sn of a lead. -/
def readV (gr : Group) (n l : Nat) : W32 := get 0 gr.v (32 * n + l)
/-- Write a register of a lane; any write clears its ERR mark (R239). -/
def writeV (gr : Group) (n l : Nat) (x : W32) : Group :=
  { gr with v := set 0 gr.v (32 * n + l) x, err := del gr.err (32 * n + l) }
/-- A register pair of a lane (R191). -/
def readPair (gr : Group) (n l : Nat) : W64 := pair64 (readV gr n l) (readV gr (n + 1) l)
/-- A predicate register: P0 (C0) always reads true (R99, R130). -/
def readP (gr : Group) (n : Nat) : Mask := if n = 0 then 0xFFFFFFFF else get 0 gr.p n
/-- Write a predicate of some lanes; a write to P0 is discarded (R159). -/
def writeP (gr : Group) (n : Nat) (lanes vals : Mask) : Group :=
  if n = 0 then gr else { gr with p := set 0 gr.p n ((get 0 gr.p n &&& ~~~lanes) ||| (vals &&& lanes)) }
/-- The PC of a lane. -/
def pcOf (gr : Group) (l : Nat) : W64 := get 0 gr.pc l
/-- Set the PC of some lanes. -/
def setPc (gr : Group) (lanes : Mask) (pc : W64) : Group :=
  { gr with pc := (lanesOf lanes).foldl (fun m l => set 0 m l pc) gr.pc }
/-- Set the PC of each lane of a mask by a function. -/
def setPcs (gr : Group) (lanes : Mask) (pc : Nat → W64) : Group :=
  { gr with pc := (lanesOf lanes).foldl (fun m l => set 0 m l (pc l)) gr.pc }
/-- The lanes that are live, hold a PC and do not wait. -/
def lanesAt (gr : Group) (pc : W64) : Mask :=
  maskOf (fun l => gr.live.getLsbD l && pcOf gr l == pc && (look gr.wait l).isNone)
/-- The PC that follows a PC in a word of some code slots (R93). -/
def nextPc (pc : W64) (slots : Nat) : W64 :=
  if (pc &&& 3).toNat + 1 < slots then pc + 1 else (pc &&& ~~~7#64) + 8

/-! Chains (R138 to R142). -/

/-- Undo what the words of a chain wrote (R140). -/
def undoChain (gr : Group) (c : Chain) : Group :=
  { gr with
    v := c.vUndo.foldl (fun m e => set 0 m e.1 e.2) gr.v
    p := c.pUndo.foldl (fun m e => set 0 m e.1 ((get 0 m e.1 &&& ~~~e.2.1) ||| (e.2.2 &&& e.2.1))) gr.p
    sr := c.srUndo.foldl (fun m e => set 0 m e.1 e.2) gr.sr
    err := c.errUndo.foldl (fun m e => match e.2 with
      | none => del m e.1
      | some x => put m e.1 x) gr.err }

/-- Discard the chain in progress: its lanes return to its first word with the state they had there, and the latches
are invalid (R139, R140, R142). -/
def discardChain (gr : Group) : Group :=
  match gr.chain with
  | none => { gr with latchLeft := [] }
  | some c => { setPc (undoChain gr c) c.lanes c.first with chain := none, latchLeft := [] }

/-- Note the old value of a register before a chain word writes it. -/
def noteV (gr : Group) (n l : Nat) : Group :=
  match gr.chain with
  | none => gr
  | some c => { gr with chain := some { c with vUndo := (32 * n + l, readV gr n l) :: c.vUndo,
                                               errUndo := (32 * n + l, look gr.err (32 * n + l)) :: c.errUndo } }

/-- Write a register of a lane, inside a chain or outside one. -/
def writeReg (gr : Group) (n l : Nat) (x : W32) : Group := writeV (noteV gr n l) n l x
/-- Write a register pair of a lane. -/
def writeRegPair (gr : Group) (n l : Nat) (x : W64) : Group := writeReg (writeReg gr n l (lo x)) (n + 1) l (hi x)
/-- Write a predicate of some lanes, inside a chain or outside one. -/
def writePred (gr : Group) (n : Nat) (lanes vals : Mask) : Group :=
  let gr := match gr.chain with
    | none => gr
    | some c => { gr with chain := some { c with pUndo := (n, lanes, get 0 gr.p n) :: c.pUndo } }
  writeP gr n lanes vals
/-- Write a lane's SRSTATE, inside a chain or outside one (R205). -/
def writeSr (gr : Group) (l : Nat) (x : W32) : Group :=
  let gr := match gr.chain with
    | none => gr
    | some c => { gr with chain := some { c with srUndo := (l, get 0 gr.sr l) :: c.srUndo } }
  { gr with sr := set 0 gr.sr l x }

/-! Asynchronous fault records (R49 to R53) and the host fault queue (R511). -/

/-- The first doubleword of an asynchronous fault record (R49). -/
def recHead (lead : Bool) (grp : Nat) (seq : BitVec 24) (stream detail cause : Nat) : W64 :=
  BitVec.ofNat 64 ((if lead then 2 ^ 49 else 0) + (grp % 32) * 2 ^ 44 + seq.toNat * 2 ^ 20 + (stream % 8) * 2 ^ 16 +
    (detail % 256) * 2 ^ 8 + cause % 256)

/-- Send a record towards its team's ring; it arrives as an event of its own (R53). -/
def sendRec (s : State) (tm : Nat) (ws : List W64) (lane : Option Nat) (origin : Option Origin := none) : State :=
  let (n, s) := newId s
  { s with recs := put s.recs n { team := tm, words := ws, lane, origin } }

/-- Report an asynchronous fault of an operation of a source, and of one of its lanes. GROUP of a record that the lead issued is
0 (log 26). -/
def asyncFault (s : State) (id : SrcId) (lane : Option Nat) (seq : BitVec 24) (stream cause detail : Nat) (addr ident extra : W64)
    (origin : Option Origin := none) : State :=
  sendRec s id.team [recHead (isLead id) (if isLead id then 0 else id.g) seq stream detail cause, addr, ident, extra] lane origin

/-- The host port of a context (R503). -/
def hostOf (ctx : Nat) : Nat := if ctx < 32768 then 0 else 1

/-- The registers of a host. -/
def host (s : State) (h : Nat) : HostRegs := (look s.hosts h).getD {}
/-- Change the registers of a host. -/
def updHost (s : State) (h : Nat) (f : HostRegs → HostRegs) : State := { s with hosts := put s.hosts h (f (host s h)) }

/-- The number of records of a host's ring: values of LOG2N outside 6 to 16 act as 6 (R510). -/
def ringSize (h : HostRegs) : Nat := if 6 ≤ h.fqLog2n ∧ h.fqLog2n ≤ 16 then 2 ^ h.fqLog2n else 64

/-- Write a record's doublewords at an address. -/
def writeWords (s : State) (pa : Nat) : List W64 → State
  | [] => s
  | w :: ws => writeWords (write64 s pa w) (pa + 8) ws

/-- Write the waiting records that the host's ring has room for (R511): `n` bounds how many. -/
def drainHost (n : Nat) (s : State) (h : Nat) : State :=
  match n with
  | 0 => s
  | n + 1 =>
    let r := host s h
    match r.waiting with
    | [] => s
    | w :: ws =>
      if r.fqEnable ∧ (r.fqTail - r.fqHead).toNat < ringSize r then
        let s := writeWords s (r.fqbase.toNat + 32 * (r.fqTail.toNat % ringSize r)) w
        drainHost n (updHost s h (fun r => { r with waiting := ws, fqTail := r.fqTail + 1 })) h
      else s

/-- Send a record to a host's fault queue: a full or disabled ring keeps it waiting (R511). -/
def hostPut (s : State) (h : Nat) (w : List W64) : State :=
  drainHost 1 (updHost s h (fun r => { r with waiting := r.waiting ++ [w] })) h
/-- Send a record to the host fault queue of a context. -/
def hostRecord (s : State) (ctx : Nat) (w : List W64) : State := hostPut s (hostOf ctx) w

/-- A host fault record's words (R511). -/
def hostWords (ctx kind detail cause : Nat) (replay : Bool) (addr ident extra : W64) : List W64 :=
  [BitVec.ofNat 64 (ctx * 2 ^ 48 + (if replay then 2 ^ 23 else 0) + kind * 2 ^ 20 + (detail % 256) * 2 ^ 8 + cause % 256),
   addr, ident, extra]

/-! Taking an exception (R43 to R48) and returning from one (R181). -/

/-- The key of a launch in the counter table: context and launch id. -/
def lcntKey (ctx lid : Nat) : Nat := ctx * 2 ^ 32 + lid

/-- The place of a team. -/
def originOf (t : Team) : Origin := { ctx := t.launch.ctx, lid := t.launch.lid, index := t.index, run := t.run }

/-- The entry of a launch completes with status "faulted" (R47, R52, R485); the first cause stays. -/
def faultLaunch (s : State) (o : Origin) (cause detail : Nat) : State :=
  { s with lcnt := upd s.lcnt (lcntKey o.ctx o.lid) (fun c =>
      if c.seq ≠ o.run then c else if c.state = 1 then { c with state := 5, cause, detail, fault := true } else { c with fault := true }) }
/-- The entry of a team's launch does. -/
def launchFaulted (s : State) (t : Team) (cause detail : Nat) : State := faultLaunch s (originOf t) cause detail

/-- End a group: no lane is live any longer. -/
def endGroup (gr : Group) : Group :=
  { gr with live := 0, wait := [], mark := [], chain := none, latchLeft := [], arm := [], heldTraps := [] }

/-- The moves that remain once a source has taken a trap: its second word does not issue (R45). -/
def dropIssues (id : SrcId) (ms : List Move) : List Move :=
  ms.filter (fun m => match m with
    | .issueAt j _ _ => j ≠ id
    | _ => true)

/-- What a group gives back when it ends: its handle, whose entry keeps its generation (R285), and its Contrail claims
(R300). -/
def releaseGroup (s : State) (id : SrcId) : State :=
  { s with
    handles := s.handles.map (fun e => (e.1, if e.2.holder = some id then { e.2 with holder := none } else e.2))
    claims := s.claims.filter (fun e => e.2.id ≠ id) }

/-- End every group and the lead of a team at once. -/
def endGroups (s : State) (tm : Nat) : State :=
  match team s tm with
  | none => s
  | some t =>
    let s := updTeam s tm (fun t => { t with status := .ending, groups := t.groups.map (fun e => (e.1, endGroup e.2)) })
    { t.groups.foldl (fun s e => releaseGroup s ⟨tm, e.1⟩) s with
      agenda := t.groups.foldl (fun ms e => dropIssues ⟨tm, e.1⟩ ms) s.agenda }

/-- A team ends at once by a fault that cannot be taken (R47, R48): its threads stop, its launch is reported to the
host fault queue with the causes, and its entry completes with status "faulted". -/
def endTeamFault (s : State) (tm cause detail second : Nat) (addr : W64) : State :=
  match team s tm with
  | none => s
  | some t =>
    let s := endGroups s tm
    let s := launchFaulted s t cause detail
    hostRecord s t.launch.ctx
      (hostWords t.launch.ctx 7 detail cause false addr (BitVec.ofNat 64 (t.launch.lid * 2 ^ 32 + t.index)) (BitVec.ofNat 64 second))

/-- The trap's cause register (R54). -/
def causeWord (async : Bool) (cause detail : Nat) : W64 :=
  BitVec.ofNat 64 ((if async then 2 ^ 16 else 0) + (detail % 256) * 2 ^ 8 + cause % 256)

/-- A wait that a trap turns into a resume mark (R44). -/
def resumes : LaneWait → Bool
  | .bar _ _ _ | .pbar _ _ | .held _ _ _ => true
  | .vgrow _ _ _ | .timer _ _ | .rtt => false

/-- The copy issues that are broken off (R323): the lanes that have enqueued stand behind their word. -/
def settleEnq (gr : Group) : Group :=
  { gr.enq.foldl (fun gr e => setPc gr (maskOf (fun l => e.act.getLsbD l && !e.left.any (fun c => c.lane == l))) e.next) gr with enq := [] }

/-- The group's state as its trap routine begins (R43, R44): the chain is undone, barrier waits become resume marks,
other waits are abandoned, every live lane's PC goes to its shadow and the routine's address is the new PC. A restart PC is
kept only for a fault of lanes that were in the chain (R46). -/
def trapGroup (lead async : Bool) (base : W64) (gr : Group) (cause : W64) (tpc taddr : W64) (lanes : Mask) (rec : List W64) : Group :=
  let restart := if async then none else gr.chain.bind (fun c => if lead || lanes &&& c.lanes != 0 then some c.first else none)
  let gr := settleEnq (discardChain gr)
  { gr with
    shadow := gr.pc
    mark := gr.wait.filter (fun e => resumes e.2)
    wait := []
    pc := (lanesOf gr.live).foldl (fun m l => set 0 m l (if lead then base + 64 else base)) gr.pc
    inTrap := true, restart, tpcWritten := false, tcause := cause, tpc, taddr, tlanes := zx lanes, trec := rec
    defWait := none, dropVer := none }

/-- Take a trap that is due for a source (R43, R47, R48, R263): `rec` holds the delivered record, or zeros. -/
def enterTrapWith (s : State) (id : SrcId) (async : Bool) (cause detail : Nat) (lanes : Mask) (tpc taddr : W64)
    (rec : List W64) : State :=
  match team s id.team, group s id with
  | some t, some gr =>
    let s := { s with declined := s.declined.filter (fun d => d.waiter ≠ .src id), agenda := dropIssues id s.agenda }
    if gr.inTrap then endTeamFault s id.team 0x1E 0 cause taddr
    else if t.trapBase = 0 then endTeamFault s id.team cause detail 0 taddr
    else
      let s := if isLead id then updTeam s id.team (fun t => { t with dictBusy := none }) else s
      updGroup s id (fun gr => trapGroup (isLead id) async t.trapBase gr (causeWord async cause detail) tpc taddr lanes rec)
  | _, _ => s

/-- Take a precise fault at a PC (R43): the records of an earlier delivery read as zero (R54), and TLANES is 0 for a
lead (R263). -/
def enterTrap (s : State) (id : SrcId) (cause detail : Nat) (lanes : Mask) (tpc taddr : W64) : State :=
  enterTrapWith s id false cause detail (if isLead id then 0 else lanes) tpc taddr [0, 0, 0, 0]

/-- The PC to which `RTT` returns a lane (R181): TPC or the restart PC for the lanes of TLANES (and for the lead, R263),
its shadow PC otherwise. A delivered record returns every lane to its shadow PC while TPC is not written (R50, R55). -/
def rttPc (lead : Bool) (gr : Group) (l : Nat) : W64 :=
  if (lead || gr.tlanes.getLsbD l) && (gr.tpcWritten || !gr.tcause.getLsbD 16) then gr.restart.getD gr.tpc
  else get 0 gr.shadow l

/-- Return from the trap routine (R181): every live lane gets its PC back, and a lane with a resume mark waits again
at its barrier (R44). -/
def returnFromTrap (lead : Bool) (gr : Group) : Group :=
  let gr' := setPcs gr gr.live (rttPc lead gr)
  { gr' with inTrap := false, restart := none, mark := []
             wait := gr.mark.filter (fun e => rttPc lead gr e.1 == get 0 gr.shadow e.1) }

/-! How an issue can end without its effect. -/

/-- What keeps a word from having its effect. -/
inductive Stop where
  | wait                                                        -- its lanes stay at it and it is tried again
  | brk                                                         -- an outside wait breaks the chain (R142)
  | trap (cause detail : Nat) (lanes : Mask) (addr : W64)       -- a precise fault (R43)
  | walk (core ctx : Nat) (va : W64) (kind : AccKind) (w : Waiter)   -- a TLB miss: the word is replayed after the walk
  | dataError (lanes : Mask) (addr : W64)                       -- the word itself reads an uncorrectable unit (R239)
  deriving DecidableEq, Repr

/-- The 64 KiB page of an address. -/
def pageOf (va : W64) : Nat := va.toNat / 65536

/-- Ask the walker for a page: a walk or a fault of the same context and page is joined (R508, R510). -/
def requestWalk (s : State) (c ctx : Nat) (va : W64) (kind : AccKind) (w : Waiter) : State :=
  match s.walks.find? (fun e => e.2.ctx = ctx ∧ pageOf e.2.va = pageOf va ∧ e.2.kind = kind) with
  | some (n, k) => { s with walks := put s.walks n { k with waiters := if w ∈ k.waiters then k.waiters else k.waiters ++ [w] } }
  | none =>
    match s.tfaults.find? (fun e => e.2.ctx = ctx ∧ e.2.page = pageOf va ∧ e.2.kind = kind) with
    | some (n, f) => { s with tfaults := put s.tfaults n { f with waiters := if w ∈ f.waiters then f.waiters else f.waiters ++ [w] } }
    | none =>
      let (n, s) := newId s
      { s with walks := put s.walks n { ctx, va, kind, core := c, waiters := [w] } }

/-- A requester waits already for a walk or a fault of a page. -/
def waitsFor (s : State) (ctx : Nat) (va : W64) (kind : AccKind) (w : Waiter) : Bool :=
  s.walks.any (fun e => e.2.ctx == ctx && pageOf e.2.va == pageOf va && e.2.kind == kind && e.2.waiters.contains w) ||
  s.tfaults.any (fun e => e.2.ctx == ctx && e.2.page == pageOf va && e.2.kind == kind && e.2.waiters.contains w)

/-- The outcome of an issue: the new state, or what R43, R142 and R510 make of a word that had no effect. -/
def finish (s : State) (r : Except Stop State) : Host.Outcome State Fault Refusal :=
  match r with
  | .ok s' => .next s'
  | .error .wait => .next { s with cur := { s.cur with stalled := true } }
  | .error .brk => .next (updGroup s s.cur.id discardChain)
  | .error (.trap cause detail lanes addr) => .next (enterTrap s s.cur.id cause detail lanes s.cur.pc addr)
  | .error (.dataError lanes addr) => .next (enterTrap (countError s addr.toNat) s.cur.id 0x42 0 lanes s.cur.pc addr)
  | .error (.walk c ctx va kind w) =>
    if waitsFor s ctx va kind w then .next { s with cur := { s.cur with stalled := true } }
    else .next (requestWalk s c ctx va kind w)

/-- The core quad of a core: two by two cores of a die (R482). -/
def quadOf (c : Nat) : Nat := c / 144 * 36 + c % 144 / 24 * 6 + c % 12 / 2

end Sys2Proof.Machine
end

