-- ==== Sys2Proof/Machine/Operands.lean ====
section
/-! DEFINITION. Operand forms: reading the selectors of R102 and writing results (R100), the checks that come before
an effect, and the chain bookkeeping that every word shares. -/

namespace Sys2Proof.Machine

/-- What an issue sees: its team and group as they stand, the lanes at the word, the lanes whose predicate holds, and
the PCs of the word and of the word after it. -/
structure Ctx where
  id : SrcId
  t : Team
  gr : Group
  at_ : Mask
  act : Mask
  pc : W64
  next : W64
  dev : Nat := 0
  deriving DecidableEq, Repr

/-- This device's identifier: the group table's SELF (R14), that of the last table after one has failed to load (log 24), and
a free constant before the first. -/
def deviceId (s : State) : Nat :=
  match s.fab.table with
  | some t => t.self
  | none => s.fab.self.getD (Config.device % 1024)

/-- The lanes of an issue: the chain's lanes inside a chain (R138), else the chosen lanes that hold the PC (R133). -/
def issueLanes (gr : Group) (pc : W64) (chosen : Mask) : Mask :=
  match gr.chain with
  | some c => c.lanes
  | none => lanesAt gr pc &&& chosen

/-- The lanes that execute a word: those whose predicate holds (R99). -/
def predLanes (gr : Group) (w : FWord) (m : Mask) : Mask :=
  let p := readP gr w.pr.toNat
  m &&& (if w.pn then ~~~p else p)

/-- A `SPAWN` of a source is raising COUNTs in other devices' memory, and its lanes stall until that is done (R496). -/
def spawning (s : State) (id : SrcId) : Bool :=
  s.fab.away.any (fun e => e.2.src == id && (match e.2.kind with
    | .raise _ => true
    | _ => false))

/-- What the current issue sees; nothing when no lane is at the word, or while the source waits for a `TLBINV` (R517), for a
`SPAWN` (R496) or inside an `RMDEF` or `RMDROP` elsewhere (R411, R412). -/
def ctxOf (s : State) (w : FWord) : Except Stop Ctx :=
  match team s s.cur.id.team, group s s.cur.id with
  | some t, some gr =>
    let m := issueLanes gr s.cur.pc s.cur.lanes
    if m = 0 ∨ t.status ≠ .resident ∨ s.invals.any (fun e => e.2.src = some s.cur.id) ∨ spawning s s.cur.id ∨ gr.defWait.any (· ≠ s.cur.pc) then .error .wait
    else .ok { id := s.cur.id, t, gr, at_ := m, act := predLanes gr w m, pc := s.cur.pc, next := nextPc s.cur.pc s.cur.slots, dev := deviceId s }
  | _, _ => .error .wait

/-- The number of registers that a use reads. -/
def useWidth : SrcUse → Nat
  | .none | .pred | .dyn => 0
  | .r32 | .f32 | .reg32 | .off => 1
  | .r64 | .addr | .addrReg | .reg64 => 2
  | .quad => 4

/-- The register that V[Xn] names in a lane (R143). -/
def idxReg (gr : Group) (k : BitVec 2) (l : Nat) : Nat :=
  let x := get {} gr.x (32 * k.toNat + l)
  (x.base.toNat + x.index.toInt).toNat

/-- The registers that a source field reads in a lane. -/
def selRegs (gr : Group) (u : SrcUse) (s : Sel) (l : Nat) : List Nat :=
  match s with
  | .v n => (List.range (useWidth u)).map (n.toNat + ·)
  | .idx k => (List.range (useWidth u)).map (idxReg gr k l + ·)
  | _ => []

/-- The entry of the uniform queue that a group reads next (R152). -/
def uqEntry (t : Team) (gr : Group) : UqEntry := (look t.uq (gr.uqRead.toNat % 64)).getD (.uniform 0)
/-- The value that a lane reads from the uniform queue (R152). -/
def uqValue (t : Team) (gr : Group) (l : Nat) : W64 :=
  match uqEntry t gr with
  | .uniform v => v
  | .affine b st => b + BitVec.ofNat 64 l * st
/-- The lead thread has ended (R272). -/
def leadEnded (t : Team) : Bool := ((look t.groups 32).map (·.live)).getD 0 = 0

/-- The coordinates of a team (R29). -/
def teamX (t : Team) : Nat := t.index % t.launch.extx
def teamY (t : Team) : Nat := t.index / t.launch.extx % t.launch.exty
def teamZ (t : Team) : Nat := t.index / (t.launch.extx * t.launch.exty)

/-- SRSTATE of a thread at dispatch (R199), from its identifier (R29). -/
def resetSr (index groups g l : Nat) : W32 :=
  let id := ((index * groups + g) * 32 + l) % 2 ^ 32
  let x := (id * 0x2545F491 + 0x9E3779B9) % 2 ^ 32
  if x = 0 then 1 else BitVec.ofNat 32 x

/-- The value of a selector in a lane, as 64 bits: a 32-bit use reads the low half only (R102, R103). -/
def readSel (c : Ctx) (u : SrcUse) (s : Sel) (l : Nat) : W64 :=
  let wide := decide (2 ≤ useWidth u)
  let cut (x : W64) : W64 := if wide then x else zx (lo x)
  match s with
  | .v n => if u = .pred then (if (readP c.gr n.toNat).getLsbD l then 1 else 0)
    else if wide then readPair c.gr n.toNat l else zx (readV c.gr n.toNat l)
  | .latch k => cut (get 0 c.gr.latch (32 * k.toNat + l))
  | .q | .qp => cut (uqValue c.t c.gr l)
  | .idx k => if wide then readPair c.gr (idxReg c.gr k l) l else zx (readV c.gr (idxReg c.gr k l) l)
  | .lane => BitVec.ofNat 64 l
  | .grp => BitVec.ofNat 64 c.id.g
  | .teamX => BitVec.ofNat 64 (teamX c.t)
  | .teamY => BitVec.ofNat 64 (teamY c.t)
  | .teamZ => BitVec.ofNat 64 (teamZ c.t)
  | .zero => 0
  | .core => BitVec.ofNat 64 c.t.core
  | .dev => BitVec.ofNat 64 c.dev

/-- The extended immediate (R98, R224): FP32 families take it as bits [31:14], 32-bit uses sign-extend it to 32 bits. -/
def immVal (u : SrcUse) (i : BitVec 18) : W64 :=
  match u with
  | .f32 => zx (i.setWidth 32 <<< 14)
  | .r64 | .off | .none => i.signExtend 64
  | _ => zx (i.signExtend 32)

/-- The value of the SB field or of the immediate that stands for it. -/
def readSelB (c : Ctx) (u : SrcUse) (b : SelB) (l : Nat) : W64 :=
  match b with
  | .imm i => immVal u i
  | .sel x => if u = .off then sx (lo (readSel c u x l)) else readSel c u x l

/-- The four words of a quad source (R244); any selector but a register is read once, zero-extended. -/
def readQuad (c : Ctx) (s : Sel) (l : Nat) : List W32 :=
  match s with
  | .v n => (List.range 4).map (fun k => readV c.gr (n.toNat + k) l)
  | .idx k => (List.range 4).map (fun j => readV c.gr (idxReg c.gr k l + j) l)
  | s => let x := readSel c .r64 s l; [lo x, hi x, 0, 0]

/-- The source fields that a word reads, in order, with their uses. -/
def sources (sh : Shape) (w : FWord) : List (SrcUse × Sel) :=
  [(sh.a, w.a)] ++ (match w.b with
    | .sel b => [(sh.b, b)]
    | .imm _ => []) ++ [(sh.c, w.c)]

/-- A word reads the uniform queue through some field (R152). -/
def readsQ (sh : Shape) (w : FWord) : Bool := (sources sh w).any (fun e => e.1 != .none && (e.2 == .q))
/-- A word reads or peeks at the uniform queue. -/
def readsQp (sh : Shape) (w : FWord) : Bool := (sources sh w).any (fun e => e.1 != .none && (e.2 == .q || e.2 == .qp))

/-- A word opens or extends a chain (R138). -/
def usesLatch (w : FWord) : Bool := w.dl != 0 || w.hsrc != 0

/-- Loads that may open a chain (R141). -/
def isChainLoad : Instr → Bool
  | .ld _ _ _ _ | .lds _ _ _ | .lde _ _ _ _ | .ldx _ _ _ _ => true
  | _ => false
/-- Classes 000 to 011 (R141). -/
def isArith (i : Instr) : Bool :=
  match encF i with
  | some (f, _, _) => f < 0x80
  | none => false

/-- The rules of chains at a word (R141, R142): CHAIN_ILLEGAL, and the wait for the load that opened the chain. -/
def chainCheck (i : Instr) (w : FWord) (sh : Shape) (s : State) (c : Ctx) : Except Stop Unit :=
  match c.gr.chain with
  | some ch =>
    if ch.load.any (fun n => (look s.loads n).isSome) then .error .wait
    else if !isArith i || readsQp sh w then .error (.trap 0x11 1 c.act 0)
    else if 16 ≤ ch.len then .error (.trap 0x11 2 c.act 0)
    else .ok ()
  | none =>
    if usesLatch w && (!(isArith i || isChainLoad i) || readsQp sh w) then .error (.trap 0x11 1 c.act 0) else .ok ()

/-- While the load that opened a chain is outstanding, no word of its lanes issues (R142). -/
def chainWait (s : State) (c : Ctx) : Except Stop Unit :=
  if c.gr.chain.any (fun ch => ch.load.any (fun n => (look s.loads n).isSome)) then .error .wait else .ok ()

/-- A word that takes an operand from the lowest active lane, or acts once per issue (R161). -/
def onceWord : Instr → Bool
  | .mloadb _ | .mma _ _ | .mzero _ | .mstore _ _ | .mread _ _ | .mwrite _ _ | .mres _ | .mrel _ _ | .mstat _
  | .vgrow _ | .vshrink _ | .bar _ _ _ | .pbar _ _ _ | .krd _ | .kwr _ | .flagarm _ _ | .acq _ | .rel _ | .sjoin _
  | .rmdef _ | .rmdrop _ | .rmqry _ | .launch _ | .grow _ | .cancel _ _ | .cntrd _ _ | .coll _ _ | .tlbinv _ _
  | .twaitany _ | .twaitall _ | .tffr _ | .tclr _ => true
  | _ => false

/-- The uniform queue at a word that reads it (R153). -/
def queueCheck (w : FWord) (sh : Shape) (c : Ctx) : Except Stop Unit :=
  if readsQp sh w && c.gr.uqRead == c.t.uqWrite then
    (if leadEnded c.t then .error (.trap 0x0D 0 c.act 0) else .error .wait)
  else .ok ()

/-- A register of a lane is ready: no return is pending and no gateway arm (R132, R289). -/
def regReady (gr : Group) (n l : Nat) : Bool :=
  !(get 0 gr.sb n).getLsbD l && !(get {} gr.arm (32 * n + l)).armed

/-- The registers that a word writes in a lane; with WS = 1 it writes none (R100). -/
def dstRegs (gr : Group) (sh : Shape) (w : FWord) (xdst : Option (BitVec 2)) (wide : Bool) (l : Nat) : List Nat :=
  match sh.dst with
  | .r32 => if w.ws then [] else [w.dst.toNat]
  | .r64 => if w.ws then [] else [w.dst.toNat, w.dst.toNat + 1]
  | .quad => if w.ws then [] else (List.range 4).map (w.dst.toNat + ·)
  | .xdst => match xdst with
    | some k => if w.ws then [] else (List.range (if wide then 2 else 1)).map (idxReg gr k l + ·)
    | none => []
  | _ => []

/-- The registers that an immediate-variant store or atomic implies (R244). -/
def impliedRegs (sh : Shape) (w : FWord) : List Nat :=
  match w.a with
  | .v n => (List.range sh.implied).map (n.toNat + 2 + ·)
  | _ => []

/-- The indexed destination of a `MOV` (R172). -/
def xdstOf : Instr → Option (BitVec 2) × Bool
  | .mov _ d x => (x, d)
  | _ => (none, false)

/-- All registers that a word reads in a lane. -/
def readRegs (gr : Group) (sh : Shape) (w : FWord) (l : Nat) : List Nat :=
  (sources sh w).flatMap (fun e => selRegs gr e.1 e.2 l) ++ impliedRegs sh w ++
    (if sh.rdDst && !w.ws then [w.dst.toNat] else [])

/-- The bounds of an index register for an operand of some width (R143). -/
def idxBad (gr : Group) (k : BitVec 2) (width l : Nat) : Bool :=
  let x := get {} gr.x (32 * k.toNat + l)
  x.index.toInt < 0 || (x.limit.toNat : Int) < x.index.toInt + width

/-- The check of one indexed operand over the executing lanes (R143, R103). -/
def idxCheck (c : Ctx) (k : BitVec 2) (width : Nat) : Except Stop Unit :=
  let ls := lanesOf c.act
  if ls.any (fun l => idxBad c.gr k width l) then .error (.trap 0x05 3 c.act 0)
  else if 2 ≤ width ∧ ls.any (fun l => idxReg c.gr k l % (if width = 4 then 4 else 2) ≠ 0) then .error (.trap 0x03 3 c.act 0)
  else .ok ()

/-- The range check of registers that some lanes name (R131): DETAIL is the first register out of range. -/
def rangeCheck (c : Ctx) (f : Nat → List Nat) : Except Stop Unit :=
  match (lanesOf c.act).findSome? (fun l => (f l).find? (fun n => c.gr.alloc ≤ n)) with
  | some n => .error (.trap 0x08 n c.act 0)
  | none => .ok ()

/-- The checks of one source field (R139, R143, R131). -/
def fieldCheck (c : Ctx) (u : SrcUse) (x : Sel) : Except Stop Unit :=
  if u = .none ∨ u = .dyn then .ok ()
  else match x with
    | .latch k => if c.gr.chain.isNone || get 0 c.gr.latchLeft k.toNat == 0 then .error (.trap 0x04 k.toNat c.act 0) else .ok ()
    | .idx k => do
      idxCheck c k (useWidth u)
      rangeCheck c (fun l => selRegs c.gr u x l)
    | .v n => if u = .pred then .ok () else rangeCheck c (fun l => selRegs c.gr u (.v n) l)
    | _ => .ok ()

/-- Registers marked ERR that a word reads (R239, R241): the lowest register in the lowest lane is reported. -/
def errCheck (c : Ctx) (f : Nat → List Nat) : Except Stop Unit :=
  match (lanesOf c.act).findSome? (fun l => (f l).findSome? (fun n => (look c.gr.err (32 * n + l)).map (fun e => (n, e)))) with
  | some (n, e) =>
    .error (.trap e.cause n (maskOf (fun l => c.act.getLsbD l && (f l).contains n && (look c.gr.err (32 * n + l)).isSome)) e.addr)
  | none => .ok ()

/-- The check of a `MOV`'s indexed destination (R172), where the word writes it (R100). -/
def xdstCheck (ws : Bool) (xd : Option (BitVec 2) × Bool) (c : Ctx) : Except Stop Unit :=
  match xd with
  | (some k, d) => if ws then .ok () else idxCheck c k (if d then 2 else 1)
  | (none, _) => .ok ()

/-- The checks of the registers that the executing lanes name: pending registers, latches, index registers, register
range (sources, implied registers, destination) and ERR marks. -/
def regChecks (w : FWord) (sh : Shape) (xd : Option (BitVec 2) × Bool) (c : Ctx) : Except Stop Unit := do
  let used (l : Nat) : List Nat := readRegs c.gr sh w l ++ dstRegs c.gr sh w xd.1 xd.2 l
  if (lanesOf c.act).any (fun l => (used l).any (fun n => !regReady c.gr n l)) then
    throw (if c.gr.chain.isSome then .brk else .wait)
  (sources sh w).forM (fun e => fieldCheck c e.1 e.2)
  rangeCheck c (fun _ => impliedRegs sh w)
  xdstCheck w.ws xd c
  rangeCheck c (fun l => dstRegs c.gr sh w xd.1 xd.2 l)
  errCheck c (fun l => readRegs c.gr sh w l)

/-- Everything checked before a word's own effect, once its lanes are known: the chain rules, the queue and the registers. A
word of R161 that no lane executes meets none of these. -/
def operandChecks (i : Instr) (w : FWord) (s : State) (c : Ctx) : Except Stop Ctx := do
  if c.act = 0 ∧ onceWord i then
    chainWait s c
    pure c
  else
    chainCheck i w (shape i) s c
    queueCheck w (shape i) c
    if c.act = 0 then pure c
    else
      regChecks w (shape i) (xdstOf i) c
      pure c

/-- The rounding field of a conversion. -/
def roundingOf : Instr → Rm
  | .cvt _ _ rm | .cvt4E2m1 _ rm => rm
  | .cvt8 _ (.fromF32 _ rm _) | .cvt8 _ (.from16 _ rm _ _) => rm
  | _ => .team

/-- The feature that a word uses, as the bit number of FEATURE_ACCEPT (R524). -/
def featureOf : Instr → Option Nat
  | .mres _ => some 7
  | .mrel _ all => if all then none else some 7
  | .sendn _ _ _ => some 5
  | .rarm _ _ nbr => if nbr then some 5 else none
  | .mcast _ _ _ | .coll _ _ => some 4
  | .sweep _ => some 1
  | .rmdef _ | .rmdrop _ => some 0
  | i => if roundingOf i = .rs then some 6 else none

/-- A feature is on (R523). -/
def featureOn (s : State) (n : Nat) : Bool := s.featAccept.getLsbD n

/-- A word that uses a feature which is off faults with FEATURE_OFF (R524). -/
def featureCheck (i : Instr) (s : State) (c : Ctx) : Except Stop Unit :=
  match featureOf i with
  | some n => if c.act = 0 ∨ featureOn s n then .ok () else .error (.trap 0xD0 n c.act 0)
  | none => .ok ()

/-- The beginning of every word's meaning. -/
def prologue (i : Instr) (w : FWord) (s : State) : Except Stop Ctx := do
  let c ← ctxOf s w
  let c ← operandChecks i w s c
  featureCheck i s c
  pure c

/-- What a lane's computation sees. -/
structure LaneIn where
  a : W64
  b : W64
  c : W64
  old : W32          -- the destination register, where it is read
  preds : BitVec 8   -- the lane's predicates
  flags : W64        -- FLAGS with the settings of the chain's earlier words
  sr : W32           -- SRSTATE
  deriving DecidableEq, Repr

/-- What a lane's computation gives. -/
structure LaneOut where
  val : W64 := 0
  pd : Option Bool := none     -- value of a predicate destination
  flags : W64 := 0
  sr : Option W32 := none
  deriving DecidableEq, Repr

/-- The destination's old value, for the words that read it: the kept part of a `CVT8` reads as zero where WS = 1
(R218); for the others the spec states no value there, and it is free (log 16). -/
def oldDst (i : Instr) (w : FWord) (s : State) (c : Ctx) (l : Nat) : W32 :=
  if !w.ws then readV c.gr w.dst.toNat l
  else match i with
    | .cvt8 _ _ => 0
    | _ => Config.freeW32 s.fresh l

/-- What a lane's computation sees of the state. -/
def laneIn (i : Instr) (w : FWord) (s : State) (c : Ctx) (l : Nat) : LaneIn :=
  let sh := shape i
  { a := readSel c sh.a w.a l, b := readSelB c sh.b w.b l, c := readSel c sh.c w.c l
    old := oldDst i w s c l
    preds := (List.range 8).foldl (fun m k => if (readP c.gr k).getLsbD l then m ||| (1#8 <<< k) else m) 0
    flags := c.t.flags
    sr := get 0 c.gr.sr l }

/-- Begin a chain at a word that uses a latch (R138). -/
def openChain (w : FWord) (c : Ctx) (load : Option Nat) (gr : Group) : Group :=
  match gr.chain with
  | some ch => { gr with chain := some { ch with len := ch.len + 1 } }
  | none => if usesLatch w then { gr with chain := some { first := c.pc, lanes := c.at_, len := 1, load } } else gr

/-- The extended immediate that HSRC = 2 holds (R101): of 32 bits in `MOVI` without `.d` and in `MOVHI` (R98). -/
def heldImm (i : Instr) (k : BitVec 18) : W64 :=
  match i with
  | .movi _ false | .movhi _ => zx (k.signExtend 32)
  | i => immVal (shape i).b k

/-- The value that HSRC holds, read as the field reads it, before an offset is extended (R101). -/
def heldVal (i : Instr) (w : FWord) (s : State) (c : Ctx) (l : Nat) : W64 :=
  let x := laneIn i w s c l
  if w.hsrc = 1 then x.a
  else if w.hsrc = 2 then
    match w.b with
    | .imm k => heldImm i k
    | .sel b => readSel c (shape i).b b l
  else x.c

/-- Write a latch of some lanes. -/
def writeLatch (gr : Group) (k : Nat) (lanes : Mask) (f : Nat → W64) : Group :=
  { gr with latch := (lanesOf lanes).foldl (fun m l => set 0 m (32 * k + l) (f l)) gr.latch }

/-- The held source goes to its latch (R101). -/
def holdSource (i : Instr) (w : FWord) (s : State) (c : Ctx) (gr : Group) : Group :=
  if w.hsrc = 0 then gr else writeLatch gr w.hlat.toNat c.act (heldVal i w s c)

/-- A word with a result of 64 bits. -/
def wideResult (i : Instr) : Bool := (shape i).dst == .r64 || ((shape i).dst == .xdst && (xdstOf i).2)

/-- Write one lane's result (R100): to DST or to V[Xn], unless WS = 1, and to the latch. -/
def writeResult (i : Instr) (w : FWord) (c : Ctx) (gr : Group) (l : Nat) (x : W64) : Group :=
  let sh := shape i
  let gr := match sh.dst with
    | .r32 => if w.ws then gr else writeReg gr w.dst.toNat l (lo x)
    | .r64 => if w.ws then gr else writeRegPair gr w.dst.toNat l x
    | .xdst => match xdstOf i with
      | (some k, true) => if w.ws then gr else writeRegPair gr (idxReg c.gr k l) l x
      | (some k, false) => if w.ws then gr else writeReg gr (idxReg c.gr k l) l (lo x)
      | (none, _) => gr
    | _ => gr
  if w.dl = 0 then gr
  else writeLatch gr (w.dl.toNat - 1) (oneLane l) (fun _ => if wideResult i then x else zx (lo x))

/-- The predicate that a word writes beside or instead of a register: DST[2:0], or the one in MOD. -/
def predDst (i : Instr) (w : FWord) : Option Nat :=
  match (shape i).dst, (shape i).pdst, i with
  | .pred, _, _ => some (w.dst.toNat % 8)
  | _, some p, _ => some p.toNat
  | _, none, .iaddc _ p _ => some p.toNat
  | _, none, .isubb _ p _ => some p.toNat
  | _, none, _ => none

/-- Count down the validity of the latches after a word, and give two words to those it wrote (R138). -/
def stepLatches (w : FWord) (gr : Group) : Group :=
  let left (k : Nat) : Nat :=
    if (w.dl != 0 && w.dl.toNat == k + 1) || (w.hsrc != 0 && w.hlat.toNat == k) then 2 else get 0 gr.latchLeft k - 1
  { gr with latchLeft := set 0 (set 0 (set 0 [] 0 (left 0)) 1 (left 1)) 2 (left 2) }

/-- The latency of an F-form word whose result it writes at issue (R206); the others keep their destination pending. -/
def latencyOf (i : Instr) : Option Nat :=
  match i with
  | .fdivs _ _ _ => some 24
  | .dadd _ _ _ | .dsub _ _ _ | .dmul _ _ _ | .dfma _ _ _ _ _ | .dmin _ _ | .dmax _ _ | .dcmp _ _ _ _ | .drnd _ _ => some 6
  | .frcp _ | .frsq _ | .fsqrt _ | .fexp2 _ | .flog2 _ | .fsin _ | .fcos _ => some 12
  | .cvt4E2m1 _ _ | .cvt4Pack _ | .cvt4Fp32 _ _ | .sclxBlk _ _ => some 8
  | .cvt _ _ _ | .cvt8 _ _ | .cvtx _ _ _ | .sclxFp32 _ _ | .sclxFp64 _ _ | .sclxX8 _ _ _ => some 4
  | .vote _ _ _ | .lead _ | .shfl _ _ _ _ | .xget _ _ _ | .dqtake _ _ | .krd _ | .call _ => some 2
  | .capmk _ _ _ | .rpend _ | .tffr _ | .mres _ | .mstat _ | .rmqry _ => some 2
  | i => match encF i with
    | some (f, _, _) => if f / 32 = 0 then some 2 else if f / 32 ≤ 2 then some 4 else none
    | none => none

/-- Note a setting of FLAGS that is due in a cycle (R155). -/
def dueFlags (t : Team) (at_ : Nat) (f : W64) : Team := if f = 0 then t else { t with due := t.due ++ [(at_, f)] }

/-- A setting of an operation that completes now stands in FLAGS at once, and a `KWR` of the same cycle does not clear it (R155). -/
def raiseFlags (t : Team) (now : Nat) (f : W64) : Team := { dueFlags t now f with flags := t.flags ||| f }

/-- FLAGS with every setting that is due by a cycle (R155). -/
def flagsAt (t : Team) (now : Nat) : W64 := t.due.foldl (fun f e => if e.1 ≤ now then f ||| e.2 else f) t.flags

/-- Set sticky FLAGS bits with the cycle in which the word completes: held for the chain inside one (R140, R155). -/
def setFlags (t : Team) (g at_ : Nat) (f : W64) : Team :=
  match (look t.groups g).bind (·.chain) with
  | some _ => { t with groups := upd t.groups g (fun gr => { gr with chain := gr.chain.map (fun ch => { ch with flags := ch.flags ||| f }) }) }
  | none => dueFlags t at_ f

/-- End the chain when no latch is valid any longer: its writes stand and its flags are set as its last word completes (R138,
R140). That is right after the last word at which a latch is valid (log 26). -/
def endChain (t : Team) (g at_ : Nat) : Team :=
  match look t.groups g with
  | some gr => match gr.chain with
    | some ch =>
      if gr.latchLeft = [] then dueFlags { t with groups := put t.groups g { gr with chain := none, latchLeft := [] } } at_ ch.flags
      else t
    | none => { t with groups := put t.groups g { gr with latchLeft := [] } }
  | none => t

/-- A pop of the uniform queue at an issue that reads Q (R152); a word of R161 that no lane executes finds perhaps no entry. -/
def popQ (w : FWord) (sh : Shape) (t : Team) (gr : Group) : Group :=
  if readsQ sh w && gr.uqRead != t.uqWrite then { gr with uqRead := gr.uqRead + 1 } else gr

/-- The bookkeeping of an issue before its results: group order, the queue, the chain and the held source, and the
PC of its lanes moved to the word after it. -/
def beginIssue (i : Instr) (w : FWord) (s : State) (c : Ctx) (load : Option Nat) : Group :=
  let gr := openChain w c load (popQ w (shape i) c.t c.gr)
  let gr := holdSource i w s c gr
  { setPc gr c.at_ c.next with ord := gr.ord + 1 }

/-- The end of an issue whose word completes after some cycles: the latches count down and a chain that has none left ends. -/
def endIssue (w : FWord) (s : State) (c : Ctx) (gr : Group) (latency : Nat) (flags : W64) : State :=
  let gr := stepLatches w gr
  let at_ := s.cycle + latency
  updTeam s c.id.team (fun t => endChain (setFlags { t with groups := put t.groups c.id.g gr } c.id.g at_ flags) c.id.g at_)

/-- Write the results of all executing lanes. -/
def writeResults (i : Instr) (w : FWord) (c : Ctx) (out : Nat → LaneOut) (gr : Group) : Group :=
  let ls := lanesOf c.act
  let gr := if (shape i).dst = .none ∨ (shape i).dst = .pred then gr
    else ls.foldl (fun g l => writeResult i w c g l (out l).val) gr
  let gr := match predDst i w with
    | none => gr
    | some p =>
      let sel := maskOf (fun l => c.act.getLsbD l && (out l).pd.isSome)
      writePred gr p sel (maskOf (fun l => (out l).pd = some true))
  ls.foldl (fun g l => match (out l).sr with
    | some x => writeSr g l x
    | none => g) gr

/-- The FLAGS bits that the executing lanes set. -/
def orFlags (c : Ctx) (out : Nat → LaneOut) : W64 := (lanesOf c.act).foldl (fun f l => f ||| (out l).flags) 0

/-- The state after a word that only computes: results, flags, SRSTATE, queue, chain and PC. -/
def commitWord (i : Instr) (w : FWord) (s : State) (c : Ctx) (out : Nat → LaneOut) : State :=
  endIssue w s c (writeResults i w c out (beginIssue i w s c none)) ((latencyOf i).getD 0) (orFlags c out)

/-- The meaning of a word whose lanes compute each from its own operands. -/
def runLanes (i : Instr) (w : FWord) (f : LaneIn → LaneOut) (s : State) : Host.Outcome State Fault Refusal :=
  finish s (do
    let c ← prologue i w s
    pure (commitWord i w s c (fun l => f (laneIn i w s c l))))

/-- The meaning of a word whose lanes compute from all executing lanes' operands. -/
def runGroup (i : Instr) (w : FWord) (f : Mask → (Nat → LaneIn) → Nat → LaneOut) (s : State) :
    Host.Outcome State Fault Refusal :=
  finish s (do
    let c ← prologue i w s
    pure (commitWord i w s c (f c.act (laneIn i w s c))))

/-- The meaning of a word with a check and an effect of its own beside its results: a word that no lane executes has
neither (R161). -/
def runEff (i : Instr) (w : FWord) (check : Ctx → Except Stop Unit) (out : Ctx → Nat → LaneOut) (eff : Ctx → State → State)
    (s : State) : Host.Outcome State Fault Refusal :=
  finish s (do
    let c ← prologue i w s
    if c.act = 0 then pure (commitWord i w s c (fun _ => {}))
    else
      check c
      pure (eff c (commitWord i w s c (out c))))

/-- No check. -/
def noCheck (_ : Ctx) : Except Stop Unit := .ok ()
/-- No result. -/
def noOut (_ : Ctx) (_ : Nat) : LaneOut := {}
/-- No effect. -/
def noEff (_ : Ctx) (s : State) : State := s

/-- A precise fault of the executing lanes. -/
def trapIf (b : Bool) (c : Ctx) (cause detail : Nat) (addr : W64 := 0) : Except Stop Unit :=
  if b then .error (.trap cause detail c.act addr) else .ok ()

end Sys2Proof.Machine
end

