-- ==== Sys2Proof/Machine/Flags.lean ====
section
/-! DEFINITION. Flag computations: the bits of FLAGS (R154), saturation (R160), carry and borrow (R162). -/

namespace Sys2Proof.Machine

def flagSAT : W64 := 1
def flagNV : W64 := 2
def flagDZ : W64 := 4
def flagOF : W64 := 8
def flagUF : W64 := 16
def flagNX : W64 := 32
/-- FLAGS.ARMED (R186). -/
def flagARMED : W64 := 0x8000
/-- FLAGS.FTZ and RMODE (R154). -/
def ftzOf (f : W64) : Bool := f.getLsbD 11
def rmodeOf (f : W64) : BitVec 2 := f.extractLsb' 9 2
/-- FLAGS as a launch record starts it (R154). -/
def launchFlags (l : Launch) : W64 := (if l.ftz then 0x800 else 0) ||| (l.rmode.setWidth 64 <<< 9)
/-- The bits of FLAGS that `KWR` writes (R154). -/
def flagsWritable : W64 := 0xE3F

/-- Clamp an exact result into a range; the flag tells whether it lay outside (R160). -/
def clamp (x lo hi : Int) : Int × Bool :=
  if x < lo then (lo, true) else if hi < x then (hi, true) else (x, false)

/-- An exact integer result brought into a register of n bits: wrapped, or clamped as signed or unsigned (R160). -/
def satInt (n : Nat) (m : Sat) (x : Int) : W64 × W64 :=
  match m with
  | .wrap => (BitVec.ofInt 64 (x % 2 ^ n), 0)
  | .sat =>
    let (y, o) := clamp x (-2 ^ (n - 1)) (2 ^ (n - 1) - 1)
    (BitVec.ofInt 64 (y % 2 ^ n), if o then flagSAT else 0)
  | .usat =>
    let (y, o) := clamp x 0 (2 ^ n - 1)
    (BitVec.ofInt 64 y, if o then flagSAT else 0)

/-- An operand as an exact integer: unsigned for `.usat`, signed otherwise (R160, R162). -/
def satOperand (n : Nat) (m : Sat) (x : W64) : Int :=
  match m with
  | .usat => (x.toNat % 2 ^ n : Nat)
  | _ => if n = 32 then (lo x).toInt else x.toInt

/-- A condition on two operands of 32 or 64 bits, signed or unsigned (R170). -/
def condHolds (c : Cond) (u d : Bool) (a b : W64) : Bool :=
  let x : Int := if u then (if d then a.toNat else (lo a).toNat) else if d then a.toInt else (lo a).toInt
  let y : Int := if u then (if d then b.toNat else (lo b).toNat) else if d then b.toInt else (lo b).toInt
  match c with
  | .eq => x == y
  | .ne => x != y
  | .lt => x < y
  | .le => x ≤ y
  | .gt => y < x
  | .ge => y ≤ x

end Sys2Proof.Machine
end

