-- ==== Sys2Proof/Machine/Barrier.lean ====
section
/-! DEFINITION. Counting and phase-bit barriers: arrival, completion, time-out and the traps held for a routine
(R44, R67, R147 to R151, R156). -/

namespace Sys2Proof.Machine

/-- A lane of a team by one number. -/
def laneKey (g l : Nat) : Nat := 32 * g + l

/-- The live lanes of a group of a team. -/
def liveMask (t : Team) (g : Nat) : Mask :=
  match look t.groups g with
  | some gr => gr.live
  | none => 0

/-- The lanes of a team that have exited. -/
def exited (t : Team) : List Nat :=
  (List.range (groupCount t)).flatMap (fun g =>
    ((List.range 32).filter (fun l => !(liveMask t g).getLsbD l)).map (laneKey g))

/-- Arrivals and exits together reach a target (R147). -/
def met (t : Team) (target : Option Nat) (arrived : FMap Arr) : Bool :=
  match target with
  | none => false
  | some n => n ≤ arrived.length + ((exited t).filter (fun k => (look arrived k).isNone)).length

/-- Close each counting barrier whose target is met: its timer stops (R147). -/
def closeBars (t : Team) : Team :=
  { t with bars := t.bars.map (fun e => (e.1,
      if met t e.2.target e.2.arrived && !e.2.closed then { e.2 with closed := true, timer := none } else e.2)) }

/-- An arrival at a counting barrier of some lanes with a count (R147). A lane in the arrived set is not added again. -/
def arriveBar (t : Team) (n count : Nat) (g : Nat) (lanes : Mask) (a : Arr) : Team :=
  let b := (look t.bars n).getD {}
  let add (m : FMap Arr) : FMap Arr :=
    (lanesOf lanes).foldl (fun m l => if (look m (laneKey g l)).isSome then m else put m (laneKey g l) a) m
  let b :=
    if b.closed then { b with next := add b.next, nextTarget := some (b.nextTarget.getD count) }
    else { b with arrived := add b.arrived, target := some (b.target.getD count), timer := some (b.timer.getD a.at_) }
  closeBars { t with bars := put t.bars n b }

/-- The target against which an arrival at a counting barrier is judged (R148). -/
def barTarget (t : Team) (n : Nat) : Option Nat :=
  let b := (look t.bars n).getD {}
  if b.closed then b.nextTarget else b.target

/-- Make lanes of a group wait. -/
def waitLanes (gr : Group) (lanes : Mask) (pc : W64) (w : LaneWait) : Group :=
  { setPc gr lanes pc with wait := (lanesOf lanes).foldl (fun m l => put m l w) gr.wait }

/-- Every earlier store, atomic and remote opcode of a lane is performed, and every earlier load has bound (R67). -/
def laneDone (s : State) (id : SrcId) (l ord : Nat) : Bool :=
  (match group s id with
   | none => true
   | some gr => gr.ops.all (fun e => ord ≤ e.2.ord || !e.2.lanes.getLsbD l ||
      !(e.2.kind = .store ∨ e.2.kind = .atomic ∨ e.2.kind = .rmo))) &&
  s.loads.all (fun e => e.2.src ≠ id || ord ≤ e.2.ord || !e.2.lanes.getLsbD l)

/-- The operations of all arrivals are performed (R67). -/
def arrivalsDone (s : State) (tm : Nat) (m : FMap Arr) : Bool :=
  m.all (fun e => laneDone s ⟨tm, e.1 / 32⟩ (e.1 % 32) e.2.ord)

/-- Release the waits and the resume marks that a function releases, to the PC it gives, and change the others. -/
def release (f : Nat → LaneWait → Option W64) (keepW : Nat → LaneWait → LaneWait) (gr : Group) : Group :=
  { gr with
    pc := gr.wait.foldl (fun m e => match f e.1 e.2 with
      | some x => set 0 m e.1 x
      | none => m) gr.pc
    shadow := gr.mark.foldl (fun m e => match f e.1 e.2 with
      | some x => set 0 m e.1 x
      | none => m) gr.shadow
    wait := (gr.wait.filter (fun e => (f e.1 e.2).isNone)).map (fun e => (e.1, keepW e.1 e.2))
    mark := (gr.mark.filter (fun e => (f e.1 e.2).isNone)).map (fun e => (e.1, keepW e.1 e.2)) }

/-- Some lane of a group is released. -/
def releases (f : Nat → LaneWait → Option W64) (gr : Group) : Bool :=
  gr.wait.any (fun e => (f e.1 e.2).isSome) || gr.mark.any (fun e => (f e.1 e.2).isSome)

/-- Invalidate every word of a core's L1 that the core does not own (R63 step 2). -/
def acquireL1 (s : State) (c : Nat) : State :=
  updCore s c (fun k => { k with l1 := k.l1.filter (fun e => (look k.owned (e.1 / 4)).isSome) })

/-- A source is inside a word that it has begun: it waits for an invalidation (R517), for a `SPAWN` in other devices' memory
(R496), inside an `RMDEF` or `RMDROP` (R411, R412), or for copy commands to be enqueued (R323). -/
def insideWord (s : State) (id : SrcId) (gr : Group) : Bool :=
  s.invals.any (fun e => e.2.src == some id) || spawning s id || gr.defWait.isSome || !gr.enq.isEmpty

/-- SAT_AT_BARRIER in a group: taken at once, or held while the group is in its routine or inside a word (R156, R44). -/
def satTrap (s : State) (id : SrcId) (bar : Nat) : State :=
  match group s id with
  | none => s
  | some gr =>
    if gr.inTrap || insideWord s id gr then updGroup s id (fun gr => { gr with heldTraps := gr.heldTraps ++ [.satAtBarrier bar] })
    else enterTrap s id 0x0B 0 0 0 (BitVec.ofNat 64 bar)

/-- The test of SAT at a completion (R156): `rel` are the groups with released lanes. -/
def satTest (s : State) (tm bar : Nat) (rel : List Nat) : State :=
  match team s tm with
  | none => s
  | some t =>
    if t.flags &&& flagARMED ≠ 0 ∧ flagsAt t s.cycle &&& flagSAT ≠ 0 then
      let s := updTeam s tm (fun t => { t with flags := t.flags &&& ~~~flagARMED })
      match (rel ++ liveGroups t).head? with
      | some g => satTrap s ⟨tm, g⟩ bar
      | none => s
    else s

/-- The earliest arrival of a set. -/
def earliest (m : FMap Arr) : Option Nat := (m.map (fun e => e.2.at_)).min?

/-- The next PC of a lane that a completion of counting barrier n releases. -/
def barFreed (n : Nat) (_ : Nat) (w : LaneWait) : Option W64 :=
  match w with
  | .bar m false nx => if m = n then some nx else none
  | _ => none
/-- A wait for the next generation becomes a wait for the current one. -/
def barKept (n : Nat) (_ : Nat) (w : LaneWait) : LaneWait :=
  match w with
  | .bar m true nx => if m = n then .bar m false nx else w
  | w => w

/-- A counting barrier with the next generation moved up (R147, R260). -/
def turnBar (b : Bar) : Bar :=
  { arrived := b.next, target := b.nextTarget, timer := earliest b.next, gen := b.gen + 1 }

/-- The completion of a counting barrier of a team (R147, R67, R156, R260). -/
def completeBar (s : State) (tm n : Nat) : State :=
  match team s tm with
  | none => s
  | some t =>
    let b := (look t.bars n).getD {}
    if b.closed ∧ arrivalsDone s tm b.arrived then
      let rel := (List.range 32).filter (fun g => ((look t.groups g).map (releases (barFreed n))).getD false)
      let t' := { t with bars := put t.bars n (turnBar b)
                         groups := t.groups.map (fun e => (e.1, release (barFreed n) (barKept n) e.2)) }
      let s := acquireL1 { s with teams := put s.teams tm (closeBars t') } t.core
      satTest s tm n rel
    else s

/-! Phase-bit barriers. -/

/-- AHEAD of a lane. -/
def aheadOf (b : PBar) (k : Nat) : Nat := get 0 b.ahead k

/-- One lane's arrival at a phase-bit barrier (R150). -/
def arrivePLane (b : PBar) (count k : Nat) (a : Arr) : PBar :=
  match aheadOf b k with
  | 0 => { b with cnt0 := put b.cnt0 k a, target0 := some (b.target0.getD count), ahead := set 0 b.ahead k 1
                  timer := some (b.timer.getD a.at_) }
  | 1 => { b with cnt1 := put b.cnt1 k a, target1 := some (b.target1.getD count), ahead := set 0 b.ahead k 2 }
  | _ => { b with held := put b.held k (count, a) }

/-- The targets against which some lanes' arrivals at a phase-bit barrier are judged (R150, R148). -/
def pbarTargets (b : PBar) (ks : List Nat) : List Nat :=
  (if ks.any (fun k => aheadOf b k == 0) then b.target0.toList else []) ++
  (if ks.any (fun k => aheadOf b k == 1) then b.target1.toList else [])

/-- The current phase of a phase-bit barrier is over: its target is met and the named operations are performed. -/
def phaseDue (s : State) (tm : Nat) (t : Team) (b : PBar) : Bool := met t b.target0 b.cnt0 && arrivalsDone s tm b.cnt0

/-- The turn of a phase (R151): a lane whose held arrival is counted has AHEAD 2 again. The held arrivals are counted in the order
in which they came, those of one cycle by their lanes (log 26). -/
def turnPhase (b : PBar) : PBar :=
  let b1 : PBar :=
    { phase := !b.phase, cnt0 := b.cnt1, target0 := b.target1, cnt1 := [], target1 := none
      ahead := (b.ahead.filter (fun e => 2 ≤ e.2)).map (fun e => (e.1, e.2 - 1)), held := [], timer := earliest b.cnt1 }
  (sortBy (·.2.2.at_) b.held).foldl (fun b e =>
    { b with cnt1 := put b.cnt1 e.1 e.2.2, target1 := some (b.target1.getD e.2.1), ahead := set 0 b.ahead e.1 2 }) b1

/-- The next PC of a lane that a turned phase-bit barrier n releases: a held `arv`, and a wait whose AHEAD is 0. -/
def pbarFreed (n : Nat) (b : PBar) (g l : Nat) (w : LaneWait) : Option W64 :=
  match w with
  | .held m false nx => if m = n then some nx else none
  | .pbar m nx => if m = n ∧ aheadOf b (laneKey g l) = 0 then some nx else none
  | _ => none
/-- A held `sync` waits as `sync` does (R151). -/
def pbarKept (n : Nat) (_ : Nat) (w : LaneWait) : LaneWait :=
  match w with
  | .held m true nx => if m = n then .pbar m nx else w
  | w => w

/-- The completion of the current phase of a phase-bit barrier (R151, R67, R156). -/
def completePhase (s : State) (tm n : Nat) : State :=
  match team s tm with
  | none => s
  | some t =>
    let b := (look t.pbars n).getD {}
    if phaseDue s tm t b then
      let b' := turnPhase b
      let rel := (List.range 32).filter (fun g => ((look t.groups g).map (releases (pbarFreed n b' g))).getD false)
      let t' := { t with pbars := put t.pbars n b'
                         groups := t.groups.map (fun e => (e.1, release (pbarFreed n b' e.1) (pbarKept n) e.2)) }
      satTest (acquireL1 { s with teams := put s.teams tm t' } t.core) tm (16 + n) rel
    else s

/-! Time-outs (R149). Barriers 16 to 23 are the phase-bit barriers. -/

/-- A wait at a barrier by its number. -/
def waitsAt (bar : Nat) (w : LaneWait) : Bool :=
  match w with
  | .bar n _ _ => n == bar
  | .pbar n _ | .held n _ _ => 16 + n == bar
  | _ => false

/-- The lanes of a list of waits at a barrier. -/
def lanesWaiting (bar : Nat) (ws : FMap LaneWait) : Mask :=
  maskOf (fun l => ((look ws l).map (waitsAt bar)).getD false)

/-- The arrivals at a barrier. -/
def arrivedAt (t : Team) (bar : Nat) : FMap Arr :=
  if bar < 16 then ((look t.bars bar).getD {}).arrived
  else
    let b := (look t.pbars (bar - 16)).getD {}
    b.cnt0

/-- TADDR of a BARRIER_TIMEOUT (R149): the group's arrived lanes, and the groups with arrived lanes. -/
def timeoutAddr (t : Team) (bar g : Nat) : W64 :=
  let a := arrivedAt t bar
  pair64 (maskOf (fun l => (look a (laneKey g l)).isSome)) (maskOf (fun h => a.any (fun e => e.1 / 32 == h)))

/-- Withdraw the most recent arrival of a lane at a barrier (R149, R151). -/
def withdraw (t : Team) (bar k : Nat) : Team :=
  if bar < 16 then { t with bars := upd t.bars bar (fun b => { b with arrived := del b.arrived k }) }
  else { t with pbars := upd t.pbars (bar - 16) (fun b =>
    if (look b.held k).isSome then { b with held := del b.held k }
    else match aheadOf b k with
      | 0 => b
      | 1 => { b with cnt0 := del b.cnt0 k, ahead := set 0 b.ahead k 0 }
      | n => { b with cnt1 := del b.cnt1 k, ahead := set 0 b.ahead k (n - 1) }) }

/-- BARRIER_TIMEOUT with a TADDR in a group that is not in its routine, for its lanes that wait at the barrier (R149). TPC is the
PC of the lowest of them (log 16). -/
def timeoutTrap (s : State) (id : SrcId) (bar : Nat) (addr : W64) : State :=
  match group s id with
  | some gr =>
    let lanes := lanesWaiting bar gr.wait
    if lanes = 0 then s
    else
      let s1 := updTeam s id.team (fun t => (lanesOf lanes).foldl (fun t l => withdraw t bar (laneKey id.g l)) t)
      let s1 := updGroup s1 id (fun gr => { gr with wait := gr.wait.filter (fun e => !lanes.getLsbD e.1) })
      enterTrap s1 id 0x06 bar lanes (pcOf gr (lowest lanes)) addr
  | none => s

/-- Take the first held trap of a group at its instruction boundary (R44, R156): time-outs before SAT_AT_BARRIER. -/
def takeHeld (s : State) (id : SrcId) : State :=
  match group s id with
  | none => s
  | some gr =>
    if gr.inTrap then s
    else
      let isT (h : HeldTrap) : Bool := match h with
        | .barrierTimeout b => lanesWaiting b gr.wait ≠ 0
        | .satAtBarrier _ => true
      let late := gr.heldTraps.filter isT
      let ts := late.filter (fun h => match h with
        | .barrierTimeout _ => true
        | .satAtBarrier _ => false)
      match ts ++ late with
      | [] => updGroup s id (fun gr => { gr with heldTraps := [] })
      | h :: _ =>
        let s := updGroup s id (fun gr => { gr with heldTraps := late.erase h })
        match h with
        | .barrierTimeout b => timeoutTrap s id b (((team s id.team).map (fun t => timeoutAddr t b id.g)).getD 0)
        | .satAtBarrier b => enterTrap s id 0x0B 0 0 0 (BitVec.ofNat 64 b)

/-- The timer of a barrier, and the timer's new start. -/
def timerOf (t : Team) (bar : Nat) : Option Nat :=
  if bar < 16 then ((look t.bars bar).getD {}).timer else ((look t.pbars (bar - 16)).getD {}).timer
def setTimer (t : Team) (bar : Nat) (x : Option Nat) : Team :=
  if bar < 16 then { t with bars := upd t.bars bar (fun b => { b with timer := x }) }
  else { t with pbars := upd t.pbars (bar - 16) (fun b => { b with timer := x }) }

/-- The expiry of a barrier's timer (R149), once the cycle in which it reaches its end is over, so that a completion of that cycle
wins: every group with lanes waiting there takes the trap, or holds it while in its routine, each with the arrivals as they were
at the expiry; the timer restarts from the earliest arrival that is left, and with nobody waiting it stops. -/
def barTimeout (s : State) (tm bar : Nat) : State :=
  match team s tm with
  | none => s
  | some t =>
    match timerOf t bar with
    | none => s
    | some t0 =>
      let isOver := 16 ≤ bar ∧ (let b := (look t.pbars (bar - 16)).getD {}; met t b.target0 b.cnt0)
      if t.timer ≤ t0 + 2 ^ t.barLog ∨ t.status ≠ .resident ∨ isOver then s
      else
        let gs := (liveGroups t).filter (fun g => match look t.groups g with
          | some gr => lanesWaiting bar gr.wait ≠ 0 ∨ lanesWaiting bar gr.mark ≠ 0
          | none => false)
        let s1 := gs.foldl (fun s g =>
          if ((look t.groups g).map (·.inTrap)).getD false then
            updGroup s ⟨tm, g⟩ (fun gr => { gr with heldTraps := (gr.heldTraps.filter (· ≠ .barrierTimeout bar)) ++ [.barrierTimeout bar] })
          else timeoutTrap s ⟨tm, g⟩ bar (timeoutAddr t bar g)) s
        updTeam s1 tm (fun t => setTimer t bar (if gs = [] then none else earliest (arrivedAt t bar)))

/-! The meanings of the barrier events. -/

def execBarrierComplete (tm bar : Nat) (s : State) : Host.Outcome State Fault Refusal := .next (completeBar s tm bar)
def execPhaseComplete (tm bar : Nat) (s : State) : Host.Outcome State Fault Refusal := .next (completePhase s tm bar)
def execBarrierTimeout (tm bar : Nat) (s : State) : Host.Outcome State Fault Refusal := .next (barTimeout s tm bar)

end Sys2Proof.Machine
end

