-- ==== Sys2Proof/Machine/IntAlu.lean ====
section
/-! DEFINITION. Class 000: integer, logic, shift, bit-field, compare, select, move and predicate words (R162 to R175). -/

namespace Sys2Proof.Machine

/-- A lane result without flags. -/
def val (x : W64) : LaneOut := { val := x }
/-- A 32-bit lane result without flags. -/
def val32 (x : W32) : LaneOut := { val := zx x }
/-- A predicate result. -/
def predVal (b : Bool) : LaneOut := { pd := some b }

/-- IADD and ISUB on n bits (R162, R164). -/
def addR (n : Nat) (m : Sat) (sub : Bool) (x : LaneIn) : LaneOut :=
  let a := satOperand n m x.a
  let b := satOperand n m x.b
  let (v, f) := satInt n m (if sub then a - b else a + b)
  { val := v, flags := f }

/-- IADDC: the carry out is bit 32 of the sum (R162). -/
def addcR (p : BitVec 3) (c0 : Bool) (x : LaneIn) : LaneOut :=
  let c := if c0 then 0 else if x.preds.getLsbD p.toNat then 1 else 0
  let r := (lo x.a).toNat + (lo x.b).toNat + c
  { val := zx (BitVec.ofNat 32 r), pd := some (2 ^ 32 ≤ r) }

/-- ISUBB: the borrow out is the sign of the difference (R162). -/
def subbR (p : BitVec 3) (c0 : Bool) (x : LaneIn) : LaneOut :=
  let c : Int := if c0 then 0 else if x.preds.getLsbD p.toNat then 1 else 0
  let r : Int := (lo x.a).toNat - (lo x.b).toNat - c
  { val := zx (BitVec.ofInt 32 r), pd := some (r < 0) }

/-- INEG and IABS (R162). -/
def negR (abs sat : Bool) (x : LaneIn) : LaneOut :=
  let a := (lo x.a).toInt
  let (v, f) := satInt 32 (if sat then .sat else .wrap) (if abs && 0 ≤ a then a else -a)
  { val := v, flags := f }

/-- The exact product of two registers (R163). -/
def product (u : Bool) (a b : W64) : Int :=
  if u then ((lo a).toNat * (lo b).toNat : Nat) else (lo a).toInt * (lo b).toInt

/-- IMULH (R163). -/
def mulhR (u : Bool) (x : LaneIn) : LaneOut := val (zx (hi (BitVec.ofInt 64 (product u x.a x.b))))
/-- IMADW (R163). -/
def madwR (u : Bool) (x : LaneIn) : LaneOut := val (BitVec.ofInt 64 (product u x.a x.b) + x.c)

/-- SHF64 (R164). -/
def shf64R (d : ShfDir) (x : LaneIn) : LaneOut :=
  let n := (lo x.b).toNat
  val (match d with
    | .l => if 64 ≤ n then 0 else x.a <<< n
    | .r => if 64 ≤ n then 0 else x.a >>> n
    | .ar => x.a.sshiftRight (min n 64)
    | .rot => x.a.rotateRight (n % 64))

/-- IMIN and IMAX (R165). -/
def minmaxR (u max : Bool) (x : LaneIn) : LaneOut :=
  let less := condHolds .lt u false x.a x.b
  val (zx (lo (if less != max then x.a else x.b)))

/-- ILOP3 (R167). -/
def ilop3R (f0 f1 : BitVec 4) (x : LaneIn) : LaneOut :=
  let bit (i : Nat) : Bool :=
    let k := (if x.b.getLsbD i then 2 else 0) + (if x.a.getLsbD i then 1 else 0)
    if x.c.getLsbD i then f1.getLsbD k else f0.getLsbD k
  val32 (maskOf bit)

/-- SHL, SHR, SAR and ROT by an unsigned 32-bit amount (R168). -/
def shlR (x : LaneIn) : LaneOut := let n := (lo x.b).toNat; val32 (if 32 ≤ n then 0 else lo x.a <<< n)
def shrR (x : LaneIn) : LaneOut := let n := (lo x.b).toNat; val32 (if 32 ≤ n then 0 else lo x.a >>> n)
def sarR (x : LaneIn) : LaneOut := val32 ((lo x.a).sshiftRight (min (lo x.b).toNat 32))
def rotR (x : LaneIn) : LaneOut := val32 ((lo x.a).rotateLeft ((lo x.b).toNat % 32))

/-- The position and the width that BFE and BFI use (R169). -/
def fieldPos (b : W64) : Nat × Nat :=
  let p := b.toNat % 256
  let w := min (b.toNat / 256 % 256) 32
  (p, min w (32 - p))

/-- BFE (R169). -/
def bfeR (s : Bool) (x : LaneIn) : LaneOut :=
  let (p, w) := fieldPos x.b
  let v := (lo x.a).toNat / 2 ^ p % 2 ^ w
  val32 (if w = 0 then 0 else if s && decide (2 ^ (w - 1) ≤ v) then BitVec.ofInt 32 ((v : Int) - 2 ^ w) else BitVec.ofNat 32 v)

/-- BFI (R169). -/
def bfiR (x : LaneIn) : LaneOut :=
  let (p, w) := fieldPos x.b
  let m : W32 := BitVec.ofNat 32 ((2 ^ w - 1) * 2 ^ p)
  val32 (if w = 0 then lo x.c else (lo x.c &&& ~~~m) ||| ((lo x.a <<< p) &&& m))

/-- POPC, CLZ and BREV (R169). -/
def popcR (x : LaneIn) : LaneOut := val (BitVec.ofNat 64 (laneCount (lo x.a)))
def clzR (x : LaneIn) : LaneOut :=
  val (BitVec.ofNat 64 (if lo x.a = 0 then 32 else 31 - highest (lo x.a)))
def brevR (x : LaneIn) : LaneOut := val32 (maskOf (fun i => x.a.getLsbD (31 - i)))

/-- SEL (R171). -/
def selR (p : BitVec 3) (neg d : Bool) (x : LaneIn) : LaneOut :=
  val (if x.preds.getLsbD p.toNat != neg then (if d then x.a else zx (lo x.a)) else (if d then x.b else zx (lo x.b)))

/-- MOVHI (R172). -/
def movhiR (i : SelB) (x : LaneIn) : LaneOut :=
  match i with
  | .imm n => val32 ((n.setWidth 32 <<< 14) ||| (x.old &&& 0x3FFF))
  | .sel _ => val32 x.old

/-- LEA (R173). -/
def leaR (sh : BitVec 3) (s imm : Bool) (x : LaneIn) : LaneOut :=
  val (x.a + ((if s || imm then sx (lo x.b) else zx (lo x.b)) <<< sh.toNat))

def pandR (neg : Bool) (x : LaneIn) : LaneOut := predVal ((x.a == 1) && ((x.b == 1) != neg))
def porR (neg : Bool) (x : LaneIn) : LaneOut := predVal ((x.a == 1) || ((x.b == 1) != neg))
def pxorR (neg : Bool) (x : LaneIn) : LaneOut := predVal ((x.a == 1) != ((x.b == 1) != neg))
def psetR (z : Bool) (x : LaneIn) : LaneOut := predVal (((lo x.a &&& lo x.b) == 0) == z)

def imulR (x : LaneIn) : LaneOut := val32 (lo x.a * lo x.b)
def imadR (x : LaneIn) : LaneOut := val32 (lo x.a * lo x.b + lo x.c)
def iandR (d : Bool) (x : LaneIn) : LaneOut := val (if d then x.a &&& x.b else zx (lo (x.a &&& x.b)))
def iorR (d : Bool) (x : LaneIn) : LaneOut := val (if d then x.a ||| x.b else zx (lo (x.a ||| x.b)))
def ixorR (d : Bool) (x : LaneIn) : LaneOut := val (if d then x.a ^^^ x.b else zx (lo (x.a ^^^ x.b)))
def inotR (d : Bool) (x : LaneIn) : LaneOut := val (if d then ~~~x.a else zx (~~~(lo x.a)))
def icmpR (c : Cond) (u d : Bool) (x : LaneIn) : LaneOut := predVal (condHolds c u d x.a x.b)
def movR (d : Bool) (x : LaneIn) : LaneOut := val (if d then x.a else zx (lo x.a))
def moviR (i : SelB) (d : Bool) (_ : LaneIn) : LaneOut :=
  match i with
  | .imm n => val (if d then n.signExtend 64 else zx (n.signExtend 32))
  | .sel _ => val 0

/-! The meanings. -/

def execIadd (w : FWord) (m : Sat) (s : State) := runLanes (.iadd w m) w (addR 32 m false) s
def execIsub (w : FWord) (m : Sat) (s : State) := runLanes (.isub w m) w (addR 32 m true) s
def execIaddc (w : FWord) (p : BitVec 3) (c0 : Bool) (s : State) := runLanes (.iaddc w p c0) w (addcR p c0) s
def execIsubb (w : FWord) (p : BitVec 3) (c0 : Bool) (s : State) := runLanes (.isubb w p c0) w (subbR p c0) s
def execIneg (w : FWord) (sat : Bool) (s : State) := runLanes (.ineg w sat) w (negR false sat) s
def execIabs (w : FWord) (sat : Bool) (s : State) := runLanes (.iabs w sat) w (negR true sat) s
def execImul (w : FWord) (s : State) := runLanes (.imul w) w imulR s
def execImulh (w : FWord) (u : Bool) (s : State) := runLanes (.imulh w u) w (mulhR u) s
def execImad (w : FWord) (s : State) := runLanes (.imad w) w imadR s
def execImadw (w : FWord) (u : Bool) (s : State) := runLanes (.imadw w u) w (madwR u) s
def execIadd64 (w : FWord) (m : Sat) (s : State) := runLanes (.iadd64 w m) w (addR 64 m false) s
def execIsub64 (w : FWord) (m : Sat) (s : State) := runLanes (.isub64 w m) w (addR 64 m true) s
def execShf64 (w : FWord) (d : ShfDir) (s : State) := runLanes (.shf64 w d) w (shf64R d) s
def execImin (w : FWord) (u : Bool) (s : State) := runLanes (.imin w u) w (minmaxR u false) s
def execImax (w : FWord) (u : Bool) (s : State) := runLanes (.imax w u) w (minmaxR u true) s
def execIand (w : FWord) (d : Bool) (s : State) := runLanes (.iand w d) w (iandR d) s
def execIor (w : FWord) (d : Bool) (s : State) := runLanes (.ior w d) w (iorR d) s
def execIxor (w : FWord) (d : Bool) (s : State) := runLanes (.ixor w d) w (ixorR d) s
def execInot (w : FWord) (d : Bool) (s : State) := runLanes (.inot w d) w (inotR d) s
def execIlop3 (w : FWord) (f0 f1 : BitVec 4) (s : State) := runLanes (.ilop3 w f0 f1) w (ilop3R f0 f1) s
def execShl (w : FWord) (s : State) := runLanes (.shl w) w shlR s
def execShr (w : FWord) (s : State) := runLanes (.shr w) w shrR s
def execSar (w : FWord) (s : State) := runLanes (.sar w) w sarR s
def execRot (w : FWord) (s : State) := runLanes (.rot w) w rotR s
def execBfe (w : FWord) (sg : Bool) (s : State) := runLanes (.bfe w sg) w (bfeR sg) s
def execBfi (w : FWord) (s : State) := runLanes (.bfi w) w bfiR s
def execPopc (w : FWord) (s : State) := runLanes (.popc w) w popcR s
def execClz (w : FWord) (s : State) := runLanes (.clz w) w clzR s
def execBrev (w : FWord) (s : State) := runLanes (.brev w) w brevR s
def execIcmp (w : FWord) (c : Cond) (u d : Bool) (s : State) := runLanes (.icmp w c u d) w (icmpR c u d) s
def execSel (w : FWord) (p : BitVec 3) (neg d : Bool) (s : State) := runLanes (.sel w p neg d) w (selR p neg d) s
def execMov (w : FWord) (d : Bool) (x : Option (BitVec 2)) (s : State) := runLanes (.mov w d x) w (movR d) s
def execMovi (w : FWord) (d : Bool) (s : State) := runLanes (.movi w d) w (moviR w.b d) s
def execMovhi (w : FWord) (s : State) := runLanes (.movhi w) w (movhiR w.b) s
def execLea (w : FWord) (sh : BitVec 3) (sg : Bool) (s : State) := runLanes (.lea w sh sg) w (leaR sh sg w.b.isImm) s
def execPand (w : FWord) (neg : Bool) (s : State) := runLanes (.pand w neg) w (pandR neg) s
def execPor (w : FWord) (neg : Bool) (s : State) := runLanes (.por w neg) w (porR neg) s
def execPxor (w : FWord) (neg : Bool) (s : State) := runLanes (.pxor w neg) w (pxorR neg) s
def execPnot (w : FWord) (s : State) := runLanes (.pnot w) w (fun x => predVal (x.a != 1)) s
def execPset (w : FWord) (z : Bool) (s : State) := runLanes (.pset w z) w (psetR z) s

end Sys2Proof.Machine
end

