-- ==== Sys2Proof/Machine/Control.lean ====
section
/-! DEFINITION. Class 101: votes, shuffles, index registers, branches, lane end, traps, barriers, allocation and control
registers (R144 to R147, R176 to R186). -/

namespace Sys2Proof.Machine

/-! Votes and shuffles (R176, R177). -/

/-- The source predicates of the executing lanes. -/
def votes (inv : Bool) (act : Mask) (ins : Nat → LaneIn) : Mask :=
  maskOf (fun l => act.getLsbD l && (((ins l).a == 1) != inv))

/-- VOTE (R176). -/
def voteR (m : VoteMode) (inv : Bool) (act : Mask) (ins : Nat → LaneIn) (_ : Nat) : LaneOut :=
  let v := votes inv act ins
  match m with
  | .every => predVal (v == act)
  | .some => predVal (v != 0)
  | .same => predVal (v == 0 || v == act)
  | .mask => val32 v
  | .count => val (BitVec.ofNat 64 (laneCount v))

/-- LEAD (R176). -/
def leadR (act : Mask) (ins : Nat → LaneIn) (l : Nat) : LaneOut :=
  let v := votes false act ins
  predVal (v != 0 && l == lowest v)

/-- The source lane of a shuffle, if it lies in the lane's segment of z lanes (R177). -/
def shflFrom (m : ShflMode) (z k l : Nat) : Option Nat :=
  let r := l % z
  let p : Int := match m with
    | .from => (k % z : Nat)
    | .back => (r : Int) - k
    | .fwd => (r + k : Nat)
    | .flip => (r ^^^ (k % z) : Nat)
  if 0 ≤ p ∧ p < z then some (l - r + p.toNat) else none

/-- The number of lanes of a segment. -/
def segLanes : Seg → Nat
  | .s32 => 32
  | .s16 => 16
  | .s8 => 8
  | .s4 => 4
  | .s2 => 2

/-- SHFL (R177): every lane reads before any lane writes (R11). -/
def shflR (m : ShflMode) (seg : Seg) (act : Mask) (ins : Nat → LaneIn) (l : Nat) : LaneOut :=
  match shflFrom m (segLanes seg) (lo (ins l).b).toNat l with
  | some j => if act.getLsbD j then val (ins j).a else val (ins l).a
  | none => val (ins l).a

def execVote (w : FWord) (m : VoteMode) (inv : Bool) (s : State) := runGroup (.vote w m inv) w (voteR m inv) s
def execLead (w : FWord) (s : State) := runGroup (.lead w) w leadR s
def execShfl (w : FWord) (m : ShflMode) (d : Bool) (seg : Seg) (s : State) := runGroup (.shfl w m d seg) w (shflR m seg) s

/-! Index registers (R178). -/

/-- Change the group of an issue. -/
def onGroup (c : Ctx) (f : Group → Group) (s : State) : State := updGroup s c.id f
/-- Change the team of an issue. -/
def onTeam (c : Ctx) (f : Team → Team) (s : State) : State := updTeam s c.id.team f

/-- Write index registers of some lanes. -/
def writeX (gr : Group) (x : BitVec 2) (lanes : Mask) (f : Nat → XReg) : Group :=
  { gr with x := (lanesOf lanes).foldl (fun m l => set {} m (32 * x.toNat + l) (f l)) gr.x }

/-- The fault of an `XSET` in a lane: 1 for the limit, 2 for the base (R178). Where both are bad the limit is reported (log 26). -/
def xsetFault (alloc : Nat) (x : LaneIn) : Option Nat :=
  let a := (lo x.a).toNat
  let b := (lo x.b).toNat
  if b = 0 ∨ 64 < b then some 1 else if 255 < a ∨ alloc < a + b then some 2 else none

def execXset (w : FWord) (x : BitVec 2) (s : State) :=
  let i := Instr.xset w x
  runEff i w
    (fun c => match (lanesOf c.act).findSome? (fun l => xsetFault c.gr.alloc (laneIn i w s c l)) with
      | some d => .error (.trap 0x05 d c.act 0)
      | none => .ok ())
    noOut
    (fun c => onGroup c (fun gr => writeX gr x c.act (fun l =>
      let y := laneIn i w s c l
      { base := y.a.setWidth 8, limit := y.b.setWidth 7, index := 0 }))) s
def execXadd (w : FWord) (x : BitVec 2) (s : State) :=
  let i := Instr.xadd w x
  runEff i w noCheck noOut
    (fun c => onGroup c (fun gr => writeX gr x c.act (fun l =>
      let y := get {} c.gr.x (32 * x.toNat + l)
      { y with index := y.index + lo (laneIn i w s c l).b }))) s

/-- A field of an index register (R178). -/
def xfield (f : XField) (x : XReg) : W32 :=
  match f with
  | .index => x.index
  | .base => x.base.setWidth 32
  | .limit => x.limit.setWidth 32
def execXget (w : FWord) (x : BitVec 2) (f : XField) (s : State) :=
  runEff (.xget w x f) w noCheck (fun c l => val32 (xfield f (get {} c.gr.x (32 * x.toNat + l)))) noEff s

/-! Branches and calls (R95, R179). -/

/-- The target of an immediate branch (R95). -/
def immTarget (pc : W64) (b : SelB) : W64 :=
  match b with
  | .imm i => ((pc &&& ~~~7#64) + (i.signExtend 64 <<< 3)) &&& 0x1FFFFFFFFFFFFFF
  | .sel _ => pc

/-- A register target that is no PC (R179). -/
def badTarget (x : W64) : Bool := x >>> 57 != 0 || x.getLsbD 2

/-- Send the executing lanes to their targets. -/
def branch (c : Ctx) (f : Nat → W64) (s : State) : State := onGroup c (fun gr => setPcs gr c.act f) s

/-- The check of the register targets (R179). -/
def targetCheck (f : Ctx → Nat → W64) (c : Ctx) : Except Stop Unit :=
  trapIf ((lanesOf c.act).any (fun l => badTarget (f c l))) c 0x0E 0

/-- A branch to a register pair. -/
def branchReg (i : Instr) (w : FWord) (out : Ctx → Nat → LaneOut) (s : State) : Host.Outcome State Fault Refusal :=
  let tgt (c : Ctx) (l : Nat) : W64 := (laneIn i w s c l).a
  runEff i w (targetCheck tgt) out (fun c => branch c (tgt c)) s

def execBra (w : FWord) (s : State) :=
  runEff (.bra w) w noCheck noOut (fun c => branch c (fun _ => immTarget c.pc w.b)) s
def execBrx (w : FWord) (s : State) := branchReg (.brx w) w noOut s
def execRet (w : FWord) (s : State) := branchReg (.ret w) w noOut s
def execCall (w : FWord) (s : State) :=
  let out (c : Ctx) (_ : Nat) : LaneOut := val c.next
  if w.b.isImm then runEff (.call w) w noCheck out (fun c => branch c (fun _ => immTarget c.pc w.b)) s
  else branchReg (.call w) w out s

/-! Lane end and trap control (R180, R181). -/

/-- After a return the first held trap is taken, and with none a due fault record is delivered before another word of the group
issues (R44, R181). -/
def afterReturn (s : State) (id : SrcId) : State :=
  let s := takeHeld s id
  if ((group s id).map (·.inTrap)).getD false then s
  else { s with agenda := .event (.asyncFaultDelivery id.team id.g) :: s.agenda }

/-- The return of a group whose live lanes all stand at an `RTT` (R181). -/
def rttCheck (s : State) (id : SrcId) : State :=
  match group s id with
  | none => s
  | some gr =>
    if gr.inTrap && gr.live != 0 && (lanesOf gr.live).all (fun l => look gr.wait l == some .rtt) then
      afterReturn (updGroup s id (returnFromTrap (isLead id))) id
    else s

/-- Lanes end (R180, R291): a group with no live lane ends, and its exited lanes count at every barrier (R147). -/
def exitLanes (c : Ctx) (s : State) : State :=
  let s := onGroup c (fun gr => { gr with live := gr.live &&& ~~~c.act
                                          arm := gr.arm.filter (fun e => !c.act.getLsbD (e.1 % 32)) }) s
  let ended := ((group s c.id).map (·.live)).getD 0 = 0
  let s := if ended then releaseGroup (onGroup c endGroup s) c.id else s
  rttCheck (onTeam c closeBars s) c.id

def execExit (w : FWord) (s : State) := runEff (.exit w) w noCheck noOut exitLanes s
def execNop (w : FWord) (s : State) := runEff (.nop w) w noCheck noOut noEff s
def execYield (w : FWord) (s : State) :=
  runEff (.yield w) w noCheck noOut (fun c => onGroup c (fun gr => { gr with yieldUntil := s.cycle + 9 })) s
def execBkpt (w : FWord) (s : State) := runEff (.bkpt w) w (fun c => trapIf true c 0x09 0) noOut noEff s

/-- The code of a `TRAP`. -/
def trapCode : SelB → BitVec 18
  | .imm i => i
  | .sel _ => 0
def execTrap (w : FWord) (s : State) :=
  runEff (.trap w) w (fun c => trapIf true c 0x0A ((trapCode w.b).toNat % 256) ((trapCode w.b).setWidth 64)) noOut noEff s

def execRtt (w : FWord) (s : State) :=
  runEff (.rtt w) w (fun c => trapIf (!c.gr.inTrap) c 0x0F 0) noOut
    (fun c s => rttCheck (onGroup c (fun gr => waitLanes gr c.act c.pc .rtt) s) c.id) s

/-! Barriers (R147 to R151, R182). -/

/-- The count of an arrival: from the immediate or from SA of the lowest executing lane; 0 means every lane (R147). -/
def barCount (i : Instr) (w : FWord) (s : State) (c : Ctx) : Nat :=
  let n := match w.b with
    | .imm k => k.toNat
    | .sel _ => (lo (laneIn i w s c (lowest c.act)).a).toNat
  if n = 0 then groupCount c.t * 32 else n

/-- The checks of a count against the targets it meets (R148). -/
def countCheck (n : Nat) (targets : List Nat) (c : Ctx) : Except Stop Unit :=
  if groupCount c.t * 32 < n then .error (.trap 0x10 2 c.act 0)
  else if targets.any (· ≠ n) then .error (.trap 0x10 1 c.act 0)
  else .ok ()

/-- The stamp of an arrival. -/
def stamp (c : Ctx) : Arr := { ord := c.gr.ord, at_ := c.t.timer }

def execBar (w : FWord) (n : BitVec 4) (arv : Bool) (s : State) :=
  let i := Instr.bar w n arv
  let k := n.toNat
  runEff i w (fun c => countCheck (barCount i w s c) (barTarget c.t k).toList c) noOut
    (fun c s' =>
      let later := ((look c.t.bars k).map (·.closed)).getD false
      let s1 := if arv then s' else onGroup c (fun gr => waitLanes gr c.act c.pc (.bar k later c.next)) s'
      onTeam c (fun t => arriveBar t k (barCount i w s c) c.id.g c.act (stamp c)) s1) s

/-- The arrivals of some lanes at a phase-bit barrier, in ascending lane order. -/
def arrivePbar (t : Team) (k count g : Nat) (lanes : Mask) (a : Arr) : Team :=
  { t with pbars := put t.pbars k ((lanesOf lanes).foldl (fun b l => arrivePLane b count (laneKey g l) a) ((look t.pbars k).getD {})) }

/-- Which lanes of a `PBAR` wait, and how: a held arrival waits at its word, `sync` and `wait` until AHEAD is 0. -/
def pbarWaits (k : Nat) (kind : PbarKind) (c : Ctx) (b : PBar) (gr : Group) : Group :=
  (lanesOf c.act).foldl (fun gr l =>
    let a := aheadOf b (laneKey c.id.g l)
    if kind ≠ .wait ∧ 2 ≤ a then waitLanes gr (oneLane l) c.pc (.held k (kind = .sync) c.next)
    else if kind = .sync ∨ (kind = .wait ∧ a ≠ 0) then waitLanes gr (oneLane l) c.pc (.pbar k c.next)
    else gr) gr

def execPbar (w : FWord) (n : BitVec 3) (kind : PbarKind) (s : State) :=
  let i := Instr.pbar w n kind
  let k := n.toNat
  runEff i w
    (fun c => if kind = .wait then .ok ()
      else countCheck (barCount i w s c) (pbarTargets ((look c.t.pbars k).getD {}) ((lanesOf c.act).map (laneKey c.id.g))) c)
    noOut
    (fun c s' =>
      let s1 := onGroup c (pbarWaits k kind c ((look c.t.pbars k).getD {})) s'
      if kind = .wait then s1
      else onTeam c (fun t => arrivePbar t k (barCount i w s c) c.id.g c.act (stamp c)) s1) s

/-! The decision queue (R152, R153, R183). -/

def execDqtake (w : FWord) (pd : Option (BitVec 3)) (s : State) : Host.Outcome State Fault Refusal :=
  let i := Instr.dqtake w pd
  finish s (do
    let c ← prologue i w s
    match c.gr.dq with
    | [] => .error (if leadEnded c.t then .trap 0x0D 1 c.act 0 else .wait)
    | x :: rest =>
      pure (onGroup c (fun gr => { gr with dq := rest }) (commitWord i w s c (fun _ => { val := zx x, pd := some (x != 0) }))))

/-! Register allocation (R144, R146, R184). -/

/-- The registers that the resident groups of a core hold, per lane position. -/
def regsUsed (s : State) (core : Nat) : Nat :=
  (s.teams.map (fun e => if e.2.core = core ∧ e.2.status ≠ .saved then
    (e.2.groups.map (fun g => if g.1 < 32 ∧ g.2.live ≠ 0 then g.2.alloc else 0)).sum else 0)).sum
/-- The team's sum of per-group allocations. -/
def teamRegs (t : Team) : Nat := (t.groups.map (fun g => if g.1 < 32 ∧ g.2.live ≠ 0 then g.2.alloc else 0)).sum

/-- A count of registers, rounded up to a multiple of 8. -/
def regCount (i : Instr) (w : FWord) (s : State) (c : Ctx) : Nat :=
  let n := match w.b with
    | .imm k => (k.signExtend 32).toNat
    | .sel _ => (lo (laneIn i w s c (lowest c.act)).a).toNat
  (n + 7) / 8 * 8

def execVgrow (w : FWord) (s : State) :=
  let i := Instr.vgrow w
  runEff i w
    (fun c =>
      let n := regCount i w s c
      if n ≤ c.gr.alloc then .ok ()
      else if 256 < n then .error (.trap 0x07 1 c.act 0)
      else if 4096 < teamRegs c.t - c.gr.alloc + n then .error (.trap 0x07 2 c.act 0)
      else .ok ())
    noOut
    (fun c s' =>
      let n := regCount i w s c
      if n ≤ c.gr.alloc then s'
      else if regsUsed s' c.t.core + (n - c.gr.alloc) ≤ 4096 then onGroup c (fun gr => { gr with alloc := n }) s'
      else onGroup c (fun gr => waitLanes gr c.act c.pc (.vgrow n s.cycle c.next)) s') s

/-- Give up the registers from number n (R146): their values and arms are lost (R291). -/
def shrinkTo (n : Nat) (gr : Group) : Group :=
  { gr with alloc := n, v := gr.v.filter (fun e => e.1 < 32 * n), err := gr.err.filter (fun e => e.1 < 32 * n)
            arm := gr.arm.filter (fun e => e.1 < 32 * n), sb := gr.sb.filter (fun e => e.1 < n) }

def execVshrink (w : FWord) (s : State) :=
  let i := Instr.vshrink w
  runEff i w noCheck noOut
    (fun c => onGroup c (fun gr =>
      let n := max 8 (regCount i w s c)
      if n < gr.alloc then shrinkTo n gr else gr)) s

/-- The first wait in `VGROW` of a group: its count and the cycle it waits since. -/
def vgrowWait (gr : Group) : Option (Nat × Nat) :=
  gr.wait.findSome? (fun e => match e.2 with
    | .vgrow n t _ => some (n, t)
    | _ => none)

/-- The next PC of a lane whose `VGROW` of n registers is granted. -/
def vgrowFreed (n : Nat) (_ : Nat) (w : LaneWait) : Option W64 :=
  match w with
  | .vgrow m _ nx => if m = n then some nx else none
  | _ => none

/-- The waits in `VGROW` on a core, as the cycle of the issue, the group slot and the group, earliest first (R145). -/
def vgrowsOn (s : State) (c : Nat) : List (Nat × Nat × SrcId) :=
  sortBy (·.1) (sortBy (·.2.1) (s.teams.flatMap (fun e => if e.2.core = c ∧ e.2.status = .resident then
    e.2.groups.filterMap (fun g => (vgrowWait g.2).map (fun w => (w.2, e.2.slots.getD g.1 g.1, (⟨e.1, g.1⟩ : SrcId)))) else [])))

/-- The pool has room for a group that waits in `VGROW` (R144). While the allocator breaks a wait, the group that issued earliest
comes first (R145). -/
def grantVgrow (s : State) (id : SrcId) : State :=
  match team s id.team, group s id with
  | some t, some gr => match vgrowWait gr with
    | some (n, _) =>
      if regsUsed s t.core + (n - gr.alloc) ≤ 4096 ∧ (!(core s t.core).breaking || ((vgrowsOn s t.core).head?).any (·.2.2 == id)) then
        updCore (updGroup s id (fun gr => release (vgrowFreed n) (fun _ w => w) { gr with alloc := max gr.alloc n })) t.core
          (fun k => { k with breaking := false })
      else s
    | none => s
  | _, _ => s
def execVgrowGrant (tm g : Nat) (s : State) : Host.Outcome State Fault Refusal := .next (grantVgrow s ⟨tm, g⟩)

/-! Control registers (R157, R158, R185, R262). -/

/-- FEATURE_OFFER: the features that the firmware supports (R523). -/
def featOffer : W64 := 0xFF

/-- Whether lanes may write a control register; nothing for a number that names none (R157, R262). -/
def cregAccess (lead : Bool) (n : Nat) : Option Bool :=
  if n = 0x000 ∨ n = 0x002 ∨ n = 0x010 ∨ n = 0x011 then some true
  else if n = 0x012 then (if lead then none else some true)
  else if n = 0x001 ∨ (0x003 ≤ n ∧ n ≤ 0x008) ∨ n = 0x020 ∨ (0x030 ≤ n ∧ n ≤ 0x035) then some false
  else none

/-- The value of a control register in a lane (R54, R154, R157). -/
def cregRead (s : State) (c : Ctx) (n l : Nat) : W64 :=
  if n = 0x000 then c.t.trapBase
  else if n = 0x001 then c.gr.tcause
  else if n = 0x002 then c.gr.tpc
  else if n = 0x003 then c.gr.taddr
  else if n = 0x004 then c.gr.tlanes
  else if 0x005 ≤ n ∧ n ≤ 0x008 then c.gr.trec.getD (n - 5) 0
  else if n = 0x010 then flagsAt c.t s.cycle
  else if n = 0x011 then BitVec.ofNat 64 c.t.barLog
  else if n = 0x012 then zx (get 0 c.gr.sr l)
  else if n = 0x020 then s.chmapId.setWidth 64
  else if n = 0x030 then featOffer
  else if n = 0x032 then s.featAccept.setWidth 64
  else if n = 0x034 then s.startFail
  else if n = 0x035 then s.dawnWhy
  else 0

/-- The number of a control register: from imm18, or from SA of the lowest executing lane. -/
def cregNum (i : Instr) (w : FWord) (s : State) (c : Ctx) : Nat :=
  match w.b with
  | .imm k => k.toNat
  | .sel _ => (lo (laneIn i w s c (lowest c.act)).a).toNat

def execKrd (w : FWord) (s : State) :=
  let i := Instr.krd w
  runEff i w
    (fun c => trapIf (cregAccess (isLead c.id) (cregNum i w s c)).isNone c 0x0C 1)
    (fun c l => val (cregRead s c (cregNum i w s c) l)) noEff s

/-- The value that a `KWR` writes in a lane. -/
def kwrVal (i : Instr) (w : FWord) (s : State) (c : Ctx) (l : Nat) : W64 :=
  let x := laneIn i w s c l
  if w.b.isImm then x.a else x.b

/-- The checks of a `KWR` (R157, R158). -/
def kwrCheck (n : Nat) (v : W64) (c : Ctx) : Except Stop Unit :=
  match cregAccess (isLead c.id) n with
  | none => .error (.trap 0x0C 1 c.act 0)
  | some false => .error (.trap 0x0C 2 c.act 0)
  | some true =>
    let k := v.toNat % 32
    trapIf (n == 0x011 && decide (1 ≤ k) && decide (k ≤ 9)) c 0x0C 3

/-- TPC as it is written: slot 3 is written as 2 (R54). -/
def tpcWord (v : W64) : W64 :=
  (v &&& 0x1FFFFFFFFFFFFF8) ||| (if v &&& 3 = 3 then 2 else v &&& 3)

/-- The effect of a `KWR` of a value (R54, R55, R154, R158). -/
def kwrApply (n : Nat) (v : W64) (laneVal : Nat → W64) (c : Ctx) (s : State) : State :=
  if n = 0x000 then onTeam c (fun t => { t with trapBase := v &&& 0x1FFFFFFFFFFFFF8 }) s
  else if n = 0x002 then onGroup c (fun gr => { gr with tpc := tpcWord v, restart := none, tpcWritten := true }) s
  else if n = 0x010 then
    onTeam c (fun t => { t with flags := (t.flags &&& ~~~flagsWritable) ||| (v &&& flagsWritable) }) s
  else if n = 0x011 then
    onTeam c (fun t => { t with barLog := if v.toNat % 32 = 0 then 24 else v.toNat % 32 }) s
  else onGroup c (fun gr => { gr with sr := (lanesOf c.act).foldl (fun m l => set 0 m l (lo (laneVal l))) gr.sr }) s

def execKwr (w : FWord) (s : State) :=
  let i := Instr.kwr w
  let v (c : Ctx) : W64 := kwrVal i w s c (highest c.act)
  runEff i w (fun c => kwrCheck (cregNum i w s c) (v c) c) noOut
    (fun c => kwrApply (cregNum i w s c) (v c) (kwrVal i w s c) c) s

/-- FLAGARM (R186). -/
def execFlagarm (w : FWord) (off : Bool) (s : State) :=
  runEff (.flagarm w off) w noCheck noOut
    (fun c => onTeam c (fun t => { t with flags := if off then t.flags &&& ~~~flagARMED else t.flags ||| flagARMED })) s

end Sys2Proof.Machine
end

