-- ==== Sys2Proof/Machine/Translate.lean ====
section
/-! DEFINITION. Physical addresses, slices and channels, page-table entries, TLBs and the walk (R501 to R512). -/

namespace Sys2Proof.Machine

/-! The fabric group as the group table in force gives it (R427, R437 to R439, R443). -/

/-- What is kept for a peer. -/
def peerOf (s : State) (d : Nat) : Peer := (look s.fab.peers d).getD {}
/-- Change what is kept for a peer. -/
def updPeer (s : State) (d : Nat) (f : Peer → Peer) : State :=
  { s with fab := { s.fab with peers := put s.fab.peers d (f (peerOf s d)) } }

/-- A port is up while a control and a data wavelength are in use (R427). -/
def portUp (s : State) (n : Nat) : Bool :=
  let w := get 0 s.fab.ports n
  w &&& 0xF != 0 && w &&& 0xFFFFFFF0 != 0

/-- The route entry of a device (R439). -/
def routeOf (s : State) (d : Nat) : W64 :=
  match s.fab.table with
  | some t => get 0 t.routes d
  | none => 0
def isMember (s : State) (d : Nat) : Bool := (routeOf s d).getLsbD 63
/-- The ports of a route entry that name one. -/
def routePorts (e : W64) : List Nat := ((List.range 4).map (fun k => fieldN e (24 + 6 * k) 6)).filter (· < 48)
/-- A device is reachable (R437). -/
def reachable (s : State) (d : Nat) : Bool := !(peerOf s d).unreach && (routePorts (routeOf s d)).any (portUp s)

/-- The fault of an operation on another device's memory or registers (R443). -/
def peerFault (s : State) (d : Nat) : Option (Nat × Nat) :=
  if !isMember s d then some (0xB1, 1) else if d ≠ deviceId s ∧ !reachable s d then some (0xB1, 2) else none

/-! Page-table entries (R504, R505). -/

def leafTier (e : W64) : Nat := fieldN e 60 2
def leafChs (e : W64) : Nat := fieldN e 57 3
def leafMs (e : W64) : Bool := e.getLsbD 56
def leafFmt (e : W64) : Nat := fieldN e 12 4
def leafGeom (e : W64) : Nat := fieldN e 10 2
def leafW (e : W64) : Bool := e.getLsbD 9
def leafX (e : W64) : Bool := e.getLsbD 8
def leafA (e : W64) : Bool := e.getLsbD 7
def leafD (e : W64) : Bool := e.getLsbD 6
/-- The physical page of a leaf, as an address. -/
def leafPa (e : W64) : Nat := fieldN e 16 36 * 65536

/-- A page maps memory-side data: MS has no effect outside tier 0 (R505). -/
def memSide (e : W64) : Bool := leafMs e && leafTier e == 0

/-- The element formats that allow a block geometry (R318). -/
def fmtHasBlocks (f : Nat) : Bool := f == 3 || f == 4 || f == 5 || f == 6

/-- What a walk ends in: a leaf with its page size as a power of two and its own physical address, or a cause with its
detail and the entry found. -/
inductive WalkEnd where
  | leaf (e : W64) (size : Nat) (at_ : Nat)
  | bad (cause detail : Nat) (e : W64)
  deriving DecidableEq, Repr

/-- The first reason of R505 that a leaf at a level is bad. -/
def leafBad (s : State) (e : W64) (level : Nat) : Option Nat :=
  let size := 16 + (if level = 0 then 0 else if level = 1 then 5 else 14)
  let pa := leafPa e
  if e &&& 0x007000000000003F ≠ 0 then some 1
  else if 3 ≤ level ∨ pa % 2 ^ size ≠ 0 then some 2
  else if tierOf pa ≠ some (leafTier e) ∨ (leafTier e = 2 ∧ !featureOn s 2) ∨
      (leafTier e = 3 ∧ (peerDev pa = deviceId s ∨ !local01 (peerAddr pa))) then some 3
  else if (leafChs e ≠ 0 ∧ (level = 0 ∨ 2 ≤ leafTier e)) ∨
      (leafTier e < 2 ∧ (List.range (2 ^ (size - 21))).any (fun k => regionFn s (pa + k * 2 ^ 21) ≠ leafChs e)) then some 4
  else if 14 ≤ leafFmt e ∨ (leafGeom e ≠ 0 ∧ !fmtHasBlocks (leafFmt e)) then some 5
  else none

/-- One level of a walk and the levels below it (R504): `fuel` is the level + 1. -/
def walkFrom (s : State) (fuel table : Nat) (va : W64) : WalkEnd :=
  match fuel with
  | 0 => .bad 0x53 2 0
  | level + 1 =>
    let idx := if level = 0 then fieldN va 16 5 else fieldN va (12 + 9 * level) 9
    let pa := table + 8 * idx
    let e := read64 s pa
    if !e.getLsbD 63 then .bad 0x50 1 e
    else if e.getLsbD 62 then
      match leafBad s e level with
      | some d => .bad 0x53 d e
      | none => .leaf e (16 + (if level = 0 then 0 else if level = 1 then 5 else 14)) pa
    else if e &&& 0x7FF00000000000FF ≠ 0 then .bad 0x53 1 e
    else if level = 0 then .bad 0x53 2 e
    else
      let next := fieldN e 8 44 * 256
      if !local01 next ∨ (2 ≤ level ∧ next % 4096 ≠ 0) then .bad 0x53 6 e
      else walkFrom s level next va

/-- The physical address of a context's entry in its host's context table (R503). -/
def ctxEntry (s : State) (ctx : Nat) : Nat := (host s (hostOf ctx)).ctxtbl.toNat + 16 * (ctx % 32768)

/-- A walk of a context (R503, R504). A level-4 table outside tiers 0 and 1 counts as a next table there (log 16). -/
def walkPage (s : State) (ctx : Nat) (va : W64) : WalkEnd :=
  let dw0 := read64 s (ctxEntry s ctx)
  if !dw0.getLsbD 63 then .bad 0x54 1 dw0
  else
    let table := fieldN dw0 12 40 * 4096
    if !local01 table then .bad 0x53 6 dw0 else walkFrom s 5 table va

/-! TLBs (R508). -/

/-- The second-level TLB that serves a core. -/
def dieTlb (core : Nat) : Nat := if core < 288 then 0 else if core < 576 then 1 else 0
/-- Zenith stands in the place of a core in a translation: it uses the second-level TLB of I/O die 0 (R16, R509). -/
def zenCore : Nat := 1024

/-- A TLB entry maps an address of a context. -/
def tlbHit (ctx : Nat) (va : W64) (e : TlbEntry) : Bool := e.ctx == ctx && e.vpn == va.toNat / 2 ^ e.size

/-- The entry that a core's TLBs hold for an address. -/
def tlbLook (s : State) (c ctx : Nat) (va : W64) : Option TlbEntry :=
  match (core s c).tlb.find? (tlbHit ctx va) with
  | some e => some e
  | none => ((look s.l2tlb (dieTlb c)).getD []).find? (tlbHit ctx va)

/-- Put an entry into a TLB of some size; a full one gives up a free choice of its entries (log 10). -/
def tlbPut (n pick : Nat) (e : TlbEntry) (t : List TlbEntry) : List TlbEntry :=
  let t := t.filter (fun x => !(x.ctx == e.ctx && (x.vpn * 2 ^ x.size / 2 ^ e.size == e.vpn || e.vpn * 2 ^ e.size / 2 ^ x.size == x.vpn)))
  e :: (if t.length < n then t else t.eraseIdx (pick % n))

/-- Fill both TLBs of a core with a leaf (R508). -/
def tlbFill (s : State) (c ctx : Nat) (va : W64) (leaf : W64) (size : Nat) : State :=
  let e : TlbEntry := { ctx, size, vpn := va.toNat / 2 ^ size, leaf }
  let s := if c = zenCore then s else updCore s c (fun k => { k with tlb := tlbPut 64 (Config.choice s.fresh 0) e k.tlb })
  { s with l2tlb := put s.l2tlb (dieTlb c) (tlbPut 16384 (Config.choice s.fresh 1) e ((look s.l2tlb (dieTlb c)).getD [])) }

/-- Remove from every TLB the entries of a context that map a page, or all of them (R517). -/
def tlbDrop (s : State) (ctx : Nat) (va : Option W64) : State :=
  let gone (e : TlbEntry) : Bool := e.ctx == ctx && (match va with
    | none => true
    | some a => tlbHit ctx a e)
  { s with cores := s.cores.map (fun e => (e.1, { e.2 with tlb := e.2.tlb.filter (fun x => !gone x) }))
           l2tlb := s.l2tlb.map (fun e => (e.1, e.2.filter (fun x => !gone x))) }

/-- An access that writes (R509). -/
def isWriteKind : AccKind → Bool
  | .store | .engWrite | .rmo | .zenWrite => true
  | _ => false

/-- A leaf allows an access at once: the right is there, and a write finds D set (R505, R506). -/
def allows (k : AccKind) (e : W64) : Bool :=
  (k != .fetch || leafX e) && (!isWriteKind k || (leafW e && leafD e)) && leafA e

/-- The physical address of an address that a leaf maps. -/
def leafAddr (e : TlbEntry) (va : W64) : Nat := leafPa e.leaf + va.toNat % 2 ^ e.size

/-- Write to a word whose writer is no core: the owner's L1 copy of it is invalidated and the word has no owner (R62). -/
def dropWord (s : State) (wd : Nat) : State :=
  match look s.owner wd with
  | none => s
  | some k =>
    { updCore s (k - 1) (fun c => { c with l1 := c.l1.filter (fun e => e.1 / 4 ≠ wd), owned := del c.owned wd }) with
      owner := del s.owner wd }

/-- The 4-byte words of some bytes. -/
def wordsOf (pas : List Nat) : List Nat := (pas.map (· / 4)).eraseDups

/-- A write by an engine of bytes at physical addresses (R62); a unit of 8 bytes that is written whole becomes correct
(R240). -/
def engineWrite (s : State) (bs : List (Nat × Byte)) : State :=
  let s := (wordsOf (bs.map (·.1))).foldl dropWord s
  let s := bs.foldl (fun s e => writeByte s e.1 e.2) s
  let whole (u : Nat) : Bool := (List.range 8).all (fun k => bs.any (fun e => e.1 == 8 * u + k))
  { s with bad := s.bad.filter (fun e => !whole e.1) }

/-- The issuing core's own copy of words that an engine, an atomic or a remote opcode writes goes too (R62). -/
def dropOwn (s : State) (core : Nat) (wds : List Nat) : State :=
  updCore s core (fun k => { k with l1 := k.l1.filter (fun e => !wds.contains (e.1 / 4)), owned := k.owned.filter (fun e => !wds.contains e.1) })

/-- A byte with the bits of a mask replaced (R339). -/
def mergeByte (old : Byte) (e : EngByte) : Byte := (old &&& ~~~e.mask) ||| (e.val &&& e.mask)

/-- The writes of an engine command that a core issued, performed in order (R62, R339): no core owns the words
afterwards, and neither the owner's nor the issuing core's L1 keeps a copy. -/
def engPut (s : State) (dev core : Nat) (here : Nat) (ws : List EngByte) : State :=
  let wds := wordsOf (ws.map (·.pa))
  let s := wds.foldl dropWord s
  let s := if dev = here then dropOwn s core wds else s
  let s := ws.foldl (fun s e => writeByte s e.pa (mergeByte (readByte s e.pa) e)) s
  let whole (u : Nat) : Bool := (List.range 8).all (fun k => ws.any (fun e => e.pa == 8 * u + k && e.mask == 0xFF))
  { s with bad := s.bad.filter (fun e => !whole e.1) }

/-- An engine write of a 64-bit word. -/
def engineWrite64 (s : State) (pa : Nat) (v : W64) : State :=
  engineWrite s ((List.range 8).zip (leBytes 8 v.toNat) |>.map (fun e => (pa + e.1, e.2)))

/-! The save area of a team (R493). -/

/-- The bytes of a team's save area. -/
def saveSize (t : Team) : Nat := ((296 + 48 * groupCount t + t.launch.scrkb) * 1024 + 65535) / 65536 * 65536
/-- The virtual address of a team's save area. -/
def saveBase (t : Team) : Nat := t.launch.save.toNat + t.index * saveSize t
/-- The virtual addresses of a register of a lane of a group, and of a byte of the scratchpad. -/
def saveReg (t : Team) (g n l : Nat) : Nat := saveBase t + (296 + 16 * groupCount t + 32 * g) * 1024 + 4 * (32 * n + l)
def saveScr (t : Team) (off : Nat) : Nat := saveBase t + (296 + 48 * groupCount t) * 1024 + off

/-- Write bytes of a saved team's area through the pages that its save recorded (R57, log 17). -/
def writeSaved (s : State) (t : Team) (bs : List (Nat × Byte)) : State :=
  engineWrite s (bs.filterMap (fun b => (look t.savedPages (b.1 / 65536)).map (fun p => (p + b.1 % 65536, b.2))))

/-- What arrives in registers of a saved team's group goes to its save area too (R57, R58, R298). -/
def mirrorRegs (s : State) (id : SrcId) (regs : List (Nat × Nat)) : State :=
  match team s id.team, group s id with
  | some t, some gr =>
    if t.status = .saved ∧ id.g < 32 then
      writeSaved s t (regs.flatMap (fun r =>
        (List.range 4).zip (leBytes 4 (readV gr r.1 r.2).toNat) |>.map (fun b => (saveReg t id.g r.1 r.2 + b.1, b.2))))
    else s
  | _, _ => s

/-- What an engine writes into the scratchpad of a saved team goes to its save area too. -/
def mirrorScratch (s : State) (tm : Nat) (bs : List (Nat × Byte)) : State :=
  match team s tm with
  | some t => if t.status = .saved then writeSaved s t (bs.map (fun b => (saveScr t b.1, b.2))) else s
  | none => s

/-- The result of a translation: a physical address with its leaf, a decline that is due, or a walk to wait for. -/
inductive TRes where
  | ok (pa : Nat) (e : TlbEntry)
  | bad (cause detail : Nat)
  | walk
  deriving DecidableEq, Repr

/-- Translate an address for a requester (R504 to R511): a decline is met first; tier 3 needs the feature FABRIC
(R524) and a member that is reachable (R443). -/
def translate (s : State) (c ctx : Nat) (k : AccKind) (w : Waiter) (va : W64) : TRes :=
  match s.declined.find? (fun d => d.waiter = w ∧ d.ctx = ctx ∧ d.page = pageOf va) with
  | some d => .bad d.cause d.detail
  | none =>
    match tlbLook s c ctx va with
    | some e =>
      if !allows k e.leaf then .walk
      else if leafTier e.leaf = 3 then
        if !featureOn s 4 then .bad 0xD0 4
        else match peerFault s (peerDev (leafAddr e va)) with
          | some (cause, detail) => .bad cause detail
          | none => .ok (leafAddr e va) e
      else .ok (leafAddr e va) e
    | none => .walk

end Sys2Proof.Machine
end

