-- ==== Sys2Proof/Machine/FabSend.lean ====
section
/-! DEFINITION. The sending side of the fabric engine: flits and their checks, transport numbers, routes, source numbers
and the requests that leave the device (R428 to R436, R442, R445). -/

namespace Sys2Proof.Machine

/-! Checks over bytes (R429, R432). -/

/-- One byte of a cyclic redundancy check, most significant bit first. -/
def crcByte (width poly crc byte : Nat) : Nat :=
  (List.range 8).foldl (fun c _ => if c.testBit (width - 1) then ((c * 2) % 2 ^ width) ^^^ poly else c * 2)
    (crc ^^^ (byte * 2 ^ (width - 8)))

/-- The bytes of some doublewords, in ascending order (R6). -/
def dwBytes (ws : List W64) : List Byte := ws.flatMap (fun w => leBytes 8 w.toNat)

/-- CRC-16 of a control flit's first 30 bytes (R429). -/
def crc16 (ws : List W64) : Nat := ((dwBytes ws).take 30).foldl (fun c b => crcByte 16 0x1021 c b.toNat) 0xFFFF

/-- The integrity tag of a burst (R432). -/
def burstTag (hdr : List W64) (flits : List (List W64)) : Nat :=
  ((dwBytes hdr).take 30 ++ flits.flatMap dwBytes).foldl (fun c b => crcByte 64 0x42F0E1EBA9EA3693 c b.toNat) 0

/-! Flits (R428). -/

/-- The doublewords of a control flit of a packet. -/
def ctlWords (self dst : Nat) (p : FabPkt) (kind payload : Nat) : List W64 :=
  let d0 := kind * 2 ^ 58 + self % 1024 * 2 ^ 48 + dst % 1024 * 2 ^ 38 + p.wm.toNat * 2 ^ 14 + p.srcn.toNat
  let d1 := p.tsn.toNat * 2 ^ 32 + p.stream * 2 ^ 29 + (if p.sd then 2 ^ 28 else 0) + p.seq.toNat * 2 ^ 4
  let ws (crc : Nat) : List W64 :=
    [BitVec.ofNat 64 d0, BitVec.ofNat 64 d1, BitVec.ofNat 64 payload, BitVec.ofNat 64 (payload / 2 ^ 64 % 2 ^ 48 + crc * 2 ^ 48)]
  ws (crc16 (ws 0))

/-- The flits of a packet on a port (R430, R431). -/
def pktFlits (self dst port : Nat) (p : FabPkt) : List Flit :=
  let f (ws : List W64) : Flit := { port, src := self, words := ws }
  match p.body with
  | .ctl kind payload => [f (ctlWords self dst p kind payload)]
  | .burst flits =>
    let hdr := ctlWords self dst p 0x09 (flits.length - 1)
    [f hdr] ++ flits.map f ++ [f (ctlWords self dst p 0x0A (burstTag hdr flits))]

/-- The wavelengths of a port in use: 0 to 3 of the control plane, 4 to 31 of the data plane (R426, R427). -/
def wavesOf (s : State) (port lo' n : Nat) : List Nat := ((List.range n).map (lo' + ·)).filter (fun w => (get 0 s.fab.ports port).getLsbD w)

/-- The flits of a packet on their wavelengths (R431): data flit k on the data wavelength in use (w0 + k) mod n, with w0, as
the wavelength of a control flit, a free choice. -/
def onWaves (s : State) (port : Nat) (fs : List Flit) : List Flit :=
  let ctl := wavesOf s port 0 4
  let dat := wavesOf s port 4 28
  ((List.range fs.length).zip fs).map (fun e =>
    if e.2.words.length = 64 then { e.2 with wave := dat.getD ((Config.choice s.fresh 2 + (e.1 - 1)) % max 1 dat.length) 4 }
    else { e.2 with wave := ctl.getD (Config.choice s.fresh (3 + e.1) % max 1 ctl.length) 0 })

/-- The place in a route entry of the first up port from a place on, around the entry (R435). -/
def portPlace (s : State) (d route : Nat) : Option Nat :=
  let ps := routePorts (routeOf s d)
  ((List.range ps.length).map (fun k => (route + k) % max 1 ps.length)).find? (fun k => (ps[k]?).any (portUp s))
/-- The port on which a packet to a device goes: the next up port of its route entry from the packet's place on (R435). -/
def portFor (s : State) (d route : Nat) : Option Nat := (portPlace s d route).bind (fun k => (routePorts (routeOf s d))[k]?)
/-- The packet with the place of the port that it takes. -/
def placed (s : State) (d : Nat) (p : FabPkt) : FabPkt := { p with route := (portPlace s d p.route).getD p.route }

/-- Send a packet, for the first time or again. -/
def transmit (s : State) (d : Nat) (p : FabPkt) : State :=
  match portFor s d p.route with
  | none => s
  | some port => updPeer { s with fab := { s.fab with sent := s.fab.sent ++ onWaves s port (pktFlits (deviceId s) d port p) } } d
      (fun x => { x with lastSent := s.cycle })

/-- Packets get their numbers and leave while fewer than 1,024 are unacknowledged (R434). `n` bounds how many. -/
def pushOut (n : Nat) (s : State) (d : Nat) : State :=
  match n with
  | 0 => s
  | n + 1 =>
    let x := peerOf s d
    match x.waiting with
    | [] => s
    | p :: rest =>
      if 1024 ≤ x.retx.length then s
      else
        let p := placed s d { p with tsn := x.nextTsn, sentAt := s.cycle }
        let s := updPeer s d (fun x => { x with waiting := rest, nextTsn := x.nextTsn + 1, retx := x.retx ++ [p]
                                                quiet := some (x.quiet.getD s.cycle) })
        pushOut n (transmit s d p) d

/-- Post a packet to a device. -/
def post (s : State) (d : Nat) (p : FabPkt) : State :=
  let s := updPeer s d (fun x => { x with waiting := x.waiting ++ [p] })
  pushOut ((peerOf s d).waiting.length) s d

/-- A flit that is no packet: ACK or NAK (R430). It is something sent to the device (R434). -/
def reply (s : State) (d : Nat) (kind payload : Nat) : State :=
  match portFor s d 0 with
  | none => s
  | some port =>
    let f : Flit := { port, src := deviceId s, words := ctlWords (deviceId s) d { body := .ctl kind payload } kind payload }
    updPeer { s with fab := { s.fab with sent := s.fab.sent ++ onWaves s port [f] } } d
      (fun x => { x with lastSent := s.cycle })

/-! Source numbers (R442). -/

/-- The source number of a source, if it has one. -/
def srcnHas (s : State) (id : SrcId) : Option Nat := (s.fab.srcns.find? (fun e => e.2 = id)).map (·.1)
/-- The source number of a source: its own, or the lowest free one; nothing while the pool is empty. -/
def srcnFor (s : State) (id : SrcId) : Option Nat :=
  match srcnHas s id with
  | some n => some n
  | none => (List.range (s.fab.srcns.length + s.fab.retiring.length + 1)).find? (fun n =>
      n < 16384 && (look s.fab.srcns n).isNone && (look s.fab.retiring n).isNone)
/-- A source takes a number and uses it at a device, in a stream. -/
def useSrcn (s : State) (id : SrcId) (n d stream : Nat) : State :=
  let ds := (look s.fab.srcnDevs n).getD []
  { s with fab := { s.fab with srcns := put s.fab.srcns n id
                               srcnDevs := put s.fab.srcnDevs n (if stream = 0 ∨ ds.contains d then ds else ds ++ [d]) } }

/-! Sources of other devices. -/

/-- The whole address of an address of another device (R501). -/
def peerPa (d a : Nat) : Nat := 0x0008000000000000 + d * 2 ^ 41 + a

/-- The name under which a source of another device stands in this device's tables (R442). -/
def guestSrc (dev : Nat) (srcn : BitVec 14) : SrcId := ⟨2 ^ 40 + dev * 16384 + srcn.toNat, 0⟩
def isGuest (id : SrcId) : Bool := 2 ^ 40 ≤ id.team
/-- The device of a source. -/
def srcDev (s : State) (id : SrcId) : Nat := if isGuest id then (id.team - 2 ^ 40) / 16384 else deviceId s

/-! Requests for lines of other devices (R445, R446). -/

/-- The peer lines among some bytes whose copy the local L2 lacks. -/
def linesMissing (s : State) (pas : List Nat) : List Nat :=
  ((pas.filter (fun p => tierOf p == some 3 && (look s.fab.copies p).isNone)).map (· / 128)).eraseDups

/-- A line has been asked for. -/
def lineAsked (s : State) (ln : Nat) : Bool :=
  s.fab.away.any (fun e => match e.2.kind with
    | .line k => k == ln
    | _ => false)

/-- The READ of a line of another device, sent once (R430). -/
def askLine (s : State) (id : SrcId) (core ln : Nat) : State :=
  if lineAsked s ln then s
  else match srcnFor s id with
    | none => s
    | some k =>
      let pa := 128 * ln
      let d := peerDev pa
      let s := useSrcn s id k d 0
      let (n, s) := newId s
      let a : Away := { dev := d, src := id, op := none, stream := 0, seq := 0, core, addr := BitVec.ofNat 64 pa, kind := .line ln }
      let s := { s with fab := { s.fab with away := put s.fab.away n a } }
      post s d { srcn := BitVec.ofNat 14 k, body := .ctl 0x05 (peerAddr pa + 7 * 2 ^ 52) }
def askLines (s : State) (id : SrcId) (core : Nat) (lns : List Nat) : State := lns.foldl (fun s ln => askLine s id core ln) s

/-- A byte of the whole address space as the point of coherence, or the local copy of a peer line, holds it. -/
def homeByte (s : State) (pa : Nat) : Byte := if tierOf pa == some 3 then (look s.fab.copies pa).getD 0 else readByte s pa

/-- Peer lines leave the local L2, with the errors that they were delivered with (R446). -/
def dropPeerLines (s : State) (p : Nat → Bool) : State :=
  { s with fab := { s.fab with copies := s.fab.copies.filter (fun e => !p (e.1 / 128)) }
           bad := s.bad.filter (fun e => !(tierOf (8 * e.1) == some 3 && p (e.1 / 16))) }

/-! Bursts (R431, R433). -/

/-- Fill a data flit up to its 64 doublewords: what is left is an end item. -/
def padFlit (ws : List W64) : List W64 := ws ++ List.replicate (64 - ws.length) 0
/-- Pack items into data flits: none crosses one. -/
def packFlits (cur : List W64) : List (List W64) → List (List W64)
  | [] => if cur = [] then [] else [padFlit cur]
  | i :: is => if cur.length + i.length ≤ 64 then packFlits (cur ++ i) is else padFlit cur :: packFlits i is

/-- A list in pieces of n elements. -/
def pieces {α : Type} (n : Nat) (xs : List α) : List (List α) :=
  (List.range ((xs.length + n - 1) / n)).map (fun k => (xs.drop (n * k)).take n)

/-- The write item of one doubleword with its byte enables. -/
def writeItem (bs : List (Nat × Byte)) (a : Nat) : List W64 :=
  let at_ (j : Nat) : Option Byte := (bs.reverse.find? (fun b => peerAddr b.1 == 8 * a + j)).map (·.2)
  let sum (f : Nat → Byte → Nat) : Nat := ((List.range 8).map (fun j => ((at_ j).map (f j)).getD 0)).sum
  [BitVec.ofNat 64 (2 ^ 60 + 8 * a), BitVec.ofNat 64 (sum (fun j _ => 2 ^ j)), BitVec.ofNat 64 (sum (fun j b => b.toNat * 2 ^ (8 * j)))]

/-- An item of an operation has left for another device. -/
def addAway (s : State) (a : Away) : State :=
  let (n, s) := newId s
  { s with fab := { s.fab with away := put s.fab.away n a } }

/-- Invalidations that wait for an access wait for what it has become at another device too (R517). -/
def heirs (before : State) (n : Nat) (s : State) : State :=
  let new := (s.fab.away.filter (fun e => decide (before.nextId ≤ e.1))).map (·.1)
  { s with invals := s.invals.map (fun e => (e.1, if e.2.pkts.contains n then { e.2 with pkts := e.2.pkts ++ new } else e.2)) }

/-- Send writes to another device: bursts of at most 168 doublewords, each with its own entry. The number of bursts, or
nothing while no source number is free (R442). -/
def sendWrites (s : State) (a : Away) (h : FabPkt) (kind : List (Nat × Byte) → AwayKind) (bs : List (Nat × Byte)) : Option (Nat × State) :=
  (srcnFor s a.src).map (fun k =>
    let groups := pieces 168 ((bs.map (fun b => peerAddr b.1 / 8)).eraseDups)
    (groups.length, groups.foldl (fun s g =>
      let mine := bs.filter (fun b => g.contains (peerAddr b.1 / 8))
      post (addAway s { a with addr := BitVec.ofNat 64 ((mine.map (·.1)).headD 0), kind := kind mine }) a.dev
        { h with srcn := BitVec.ofNat 14 k, body := .burst (packFlits [] (g.map (writeItem mine))) }) (useSrcn s a.src k a.dev a.stream)))

/-- The request doubleword of an atomic or a remote opcode. -/
def requestDw (isAtom : Bool) (op : Nat) (d : Bool) (lane num : Nat) (v : BitVec 8) : W64 :=
  BitVec.ofNat 64 ((if isAtom then 2 ^ 63 else 0) + op * 2 ^ 60 + (if d then 2 ^ 59 else 0) + lane * 2 ^ 16 + num * 2 ^ 8 + v.toNat)
/-- A request item. -/
def requestItem (pa : Nat) (dw x y : W64) : List W64 := [BitVec.ofNat 64 (3 * 2 ^ 60 + peerAddr pa), dw, x, y]

/-- A word with writes of some of its bits. -/
def mergeWord (old : W32) (ws : List EngByte) : W32 :=
  ws.foldl (fun v e =>
    let k := 8 * (e.pa % 4)
    (v &&& ~~~(0xFF#32 <<< k)) ||| ((mergeByte (v.extractLsb' k 8) e).setWidth 32 <<< k)) old

/-- Send a write of some bits of a word to another device: no item of R431 writes less than a byte, so the fabric engine
compares and swaps the word, with a value that it expects there, and again until the swap succeeds (log 19). -/
def postMerge (s : State) (k : Nat) (a : Away) (h : FabPkt) (cmd : Option Nat) (wd : Nat) (ws : List EngByte) (old : W32) : State :=
  post (addAway s { a with addr := BitVec.ofNat 64 (4 * wd), kind := .merge cmd ws old }) a.dev
    { h with srcn := BitVec.ofNat 14 k
             body := .burst (packFlits [] [requestItem (4 * wd) (requestDw true AtOp.cas.ctorIdx false 0 0 0) (zx (mergeWord old ws)) (zx old)]) }

/-- Send Zenith's change of a join block's COUNT at another device (R478, R479), as a source of it: an addition, or a compare and
swap of the value that it expects (log 20). Nothing while no source number is free (R442). -/
def postCount (s : State) (id : SrcId) (pa : Nat) (kind : AwayKind) (op : AtOp) (x y : W64) : Option State :=
  let a : Away := { dev := peerDev pa, src := id, op := none, stream := 0, seq := 0, core := 0, addr := BitVec.ofNat 64 pa, kind }
  (srcnFor s id).map (fun k => post (addAway (useSrcn s id k a.dev 0) a) a.dev
    { srcn := BitVec.ofNat 14 k, body := .burst (packFlits [] [requestItem pa (requestDw true op.ctorIdx true 0 0 0) x y]) })
/-- COUNT at another device rises. -/
def postRaise (s : State) (id : SrcId) (pa k : Nat) : Option State := postCount s id pa (.raise k) .add (BitVec.ofNat 64 k) 0
/-- COUNT at another device falls from a value that it is expected to have; 0 stays 0. -/
def postLower (s : State) (id : SrcId) (pa : Nat) (j old : W64) : Option State :=
  postCount s id pa (.lower j old) .cas (if old = 0 then 0 else old - 1) old
/-- Zenith is changing COUNT at an address of another device, or for a source (R479). -/
def counting (s : State) (p : Away → Bool) : Bool :=
  s.fab.away.any (fun e => p e.2 && (match e.2.kind with
    | .raise _ | .lower _ _ => true
    | _ => false))

/-- The value that a swap of a word expects first: that of the local copy of its line. -/
def expected (s : State) (wd : Nat) : W32 := BitVec.ofNat 32 (leNat ((List.range 4).map (fun j => homeByte s (4 * wd + j))))

/-- Send writes to another device, those of some bits of a byte by compare and swap: the number of parts. -/
def sendEngine (s : State) (a : Away) (h : FabPkt) (cmd : Option Nat) (kind : List (Nat × Byte) → AwayKind) (ws : List EngByte) :
    Option (Nat × State) :=
  let whole := (ws.filter (·.mask == 0xFF)).map (fun e => (e.pa, e.val))
  let part := ws.filter (·.mask != 0xFF)
  match sendWrites s a h kind whole, srcnFor s a.src with
  | some (n, s), some k =>
    let wds := (part.map (·.pa / 4)).eraseDups
    some (n + wds.length, wds.foldl (fun s wd => postMerge s k a h cmd wd (part.filter (·.pa / 4 == wd)) (expected s wd))
      (if wds = [] then s else useSrcn s a.src k a.dev a.stream))
  | _, _ => none

/-! Replies to operations of other devices (R444). -/

/-- A DONE to another device. -/
def sendDone (s : State) (g : Guest) (val : W64) (flags : W64) (cause detail : Nat) : State :=
  post s g.dev { srcn := g.srcn, stream := g.stream, seq := g.seq
                 body := .ctl 0x03 (val.toNat + flags.toNat % 64 * 2 ^ 64 + cause % 256 * 2 ^ 70 + detail % 256 * 2 ^ 78) }

/-- One part of a guest's operation is performed: the last one sends the DONE. -/
def guestPart (s : State) (n : Nat) (flags : W64) (cause detail : Nat) : State :=
  match look s.fab.guests n with
  | none => s
  | some g =>
    if g.left ≤ 1 then sendDone { s with fab := { s.fab with guests := del s.fab.guests n } } g 0 flags cause detail
    else { s with fab := { s.fab with guests := put s.fab.guests n { g with left := g.left - 1 } } }

/-- One lane of a guest's returning operation is performed: each has a DONE of its own (log 19). -/
def guestLane (s : State) (n : Nat) (val : W64) (flags : W64) (cause detail : Nat) : State :=
  match look s.fab.guests n with
  | none => s
  | some g =>
    sendDone { s with fab := { s.fab with guests := if g.left ≤ 1 then del s.fab.guests n else put s.fab.guests n { g with left := g.left - 1 } } }
      g val flags cause detail

/-! The peer directory (R445). -/

/-- The devices that hold a line. -/
def holders (s : State) (e : DirEntry) : List Nat :=
  if e.bcast then (List.range 1024).filter (fun d => isMember s d && d != deviceId s) else e.devs

/-- Send INVAL to the holders of a line, once. -/
def invalLine (s : State) (ln : Nat) : State :=
  match look s.fab.dir ln with
  | none => s
  | some e =>
    if e.waiting ≠ [] then s
    else
      let ds := holders s e
      let s := { s with fab := { s.fab with dir := if ds = [] then del s.fab.dir ln else put s.fab.dir ln { e with waiting := ds } } }
      ds.foldl (fun s d => post s d { body := .ctl 0x06 (ln * 128) }) s

/-- Another device holds a line of some bytes: a write of them waits (R90, R445). -/
def heldAway (s : State) (pas : List Nat) : List Nat := ((pas.map (· / 128)).eraseDups).filter (fun ln => (look s.fab.dir ln).isSome)
def invalLines (s : State) (lns : List Nat) : State := lns.foldl invalLine s

/-- Storage that moves keeps accesses waiting (R513): the channel group of an address, 3 for tier 1. -/
def channelGroup (pa : Nat) : Nat := if tierOf pa == some 1 then 3 else pa / 2 ^ 21 % 2 ^ 19 % 3
def isMoving (s : State) (pas : List Nat) : Bool := pas.any (fun p => local01 p && s.moving.contains (channelGroup p))

end Sys2Proof.Machine
end

