-- ==== Sys2Proof/Machine/Float.lean ====
section
/-! DEFINITION. Number formats, exact values and rounding (R188 to R203). -/

namespace Sys2Proof.Machine

/-- A floating-point format (R189). `maxEnc` is the encoding of the largest finite magnitude; `inf` tells that it has
infinities and the NaNs that go with them; `e4m3` that its only NaN is S.1111.111. -/
structure Fmt where
  ebits : Nat
  fbits : Nat
  bias : Nat
  maxEnc : Nat
  inf : Bool := true
  e4m3 : Bool := false
  deriving DecidableEq, Repr

def fp64 : Fmt := { ebits := 11, fbits := 52, bias := 1023, maxEnc := 0x7FEFFFFFFFFFFFFF }
def fp32 : Fmt := { ebits := 8, fbits := 23, bias := 127, maxEnc := 0x7F7FFFFF }
/-- TF32 without the 13 zero bits of its container (R190). -/
def tf32 : Fmt := { ebits := 8, fbits := 10, bias := 127, maxEnc := 0x3FBFF }
def fp16 : Fmt := { ebits := 5, fbits := 10, bias := 15, maxEnc := 0x7BFF }
def bf16 : Fmt := { ebits := 8, fbits := 7, bias := 127, maxEnc := 0x7F7F }
def e5m2 : Fmt := { ebits := 5, fbits := 2, bias := 15, maxEnc := 0x7B }
def e4m3 : Fmt := { ebits := 4, fbits := 3, bias := 7, maxEnc := 0x7E, inf := false, e4m3 := true }
def e3m2 : Fmt := { ebits := 3, fbits := 2, bias := 3, maxEnc := 0x1F, inf := false }
def e2m3 : Fmt := { ebits := 2, fbits := 3, bias := 1, maxEnc := 0x1F, inf := false }
def e2m1 : Fmt := { ebits := 2, fbits := 1, bias := 1, maxEnc := 0x7, inf := false }

/-- The value of an encoding: a NaN (signalling or not), an infinity, or (-1)^neg * m * 2^e. -/
inductive Fp where
  | nan (sig : Bool)
  | inf (neg : Bool)
  | fin (neg : Bool) (m : Nat) (e : Int)
  deriving DecidableEq, Repr

/-- The exponent of the smallest spacing of a format. -/
def Fmt.emin (f : Fmt) : Int := 1 - (f.bias : Int) - f.fbits
/-- The encoding of +infinity in a format that has one. -/
def infEnc (f : Fmt) : Nat := (2 ^ f.ebits - 1) * 2 ^ f.fbits
/-- The canonical NaN (R190). -/
def nanEnc (f : Fmt) : Nat := if f.e4m3 then 0x7F else infEnc f + 2 ^ (f.fbits - 1)
/-- The sign bit. -/
def signBit (f : Fmt) (neg : Bool) : Nat := if neg then 2 ^ (f.ebits + f.fbits) else 0

/-- Decode (R189). -/
def decodeFp (f : Fmt) (x : Nat) : Fp :=
  let neg : Bool := x / 2 ^ (f.ebits + f.fbits) % 2 = 1
  let e := x / 2 ^ f.fbits % 2 ^ f.ebits
  let m := x % 2 ^ f.fbits
  if f.inf ∧ e = 2 ^ f.ebits - 1 then (if m = 0 then .inf neg else .nan (m < 2 ^ (f.fbits - 1)))
  else if f.e4m3 ∧ e = 15 ∧ m = 7 then .nan false
  else if e = 0 then .fin neg m f.emin
  else .fin neg (2 ^ f.fbits + m) (f.emin + (e - 1 : Nat))

/-- The value is subnormal in its format. -/
def isSub (f : Fmt) (x : Fp) : Bool :=
  match x with
  | .fin _ m _ => 0 < m && m < 2 ^ f.fbits
  | _ => false

/-- An operand after the flushing of R202. -/
def flushIn (f : Fmt) (ftz : Bool) (x : Fp) : Fp :=
  match x with
  | .fin neg m e => if ftz && isSub f (.fin neg m e) then .fin neg 0 e else x
  | x => x

/-- An exact value (m + r) * 2^e with 0 <= r < 1, where r > 0 exactly if `sticky`. -/
structure Ex where
  neg : Bool
  m : Nat
  e : Int
  sticky : Bool := false
  deriving DecidableEq, Repr

/-- A rounding decision (R196, R198): stochastic rounding carries the lane's state after its advance and the spacing
exponent of the source format at the value. -/
inductive Rnd where
  | rne | rz | ru | rd
  | rs (st : W32) (u : Int)
  deriving DecidableEq, Repr

/-- Two to the power of a difference, if positive. -/
def pow2 (d : Int) : Nat := 2 ^ d.toNat

/-- The spacing exponent of a format at a non-zero exact value. -/
def quantum (f : Fmt) (v : Ex) : Int := max ((Nat.log2 v.m : Int) + v.e - f.fbits) f.emin

/-- Round a non-zero exact value to a format's grid (R196, R198): the encoding of the magnitude, which may lie beyond
the largest finite one, and whether the result is inexact. -/
def roundMag (f : Fmt) (r : Rnd) (v : Ex) : Nat × Bool :=
  let q := quantum f v
  let base := (q - f.emin).toNat * 2 ^ f.fbits
  if q ≤ v.e then (base + v.m * pow2 (v.e - q), v.sticky)
  else
    let d := pow2 (q - v.e)
    let n := v.m / d
    let rem := v.m % d
    let inexact := rem != 0 || v.sticky
    let up : Bool := match r with
      | .rne => d < 2 * rem || (2 * rem == d && (v.sticky || n % 2 == 1))
      | .rz => false
      | .ru => inexact && !v.neg
      | .rd => inexact && v.neg
      | .rs st u =>
        let k := (min (q - u) 32).toNat
        let t := rem * 2 ^ k / d
        2 ^ k ≤ t + st.toNat % 2 ^ k && 0 < q - u
    (base + n + (if up then 1 else 0), inexact)

/-- A result: encoding bits and FLAGS bits. -/
structure FRes where
  bits : Nat
  flags : W64 := 0
  deriving DecidableEq, Repr

/-- What becomes of a result beyond the largest finite value: the IEEE result (R200), or saturation (R200, R201). -/
inductive Ovf where | ieee | sat
  deriving DecidableEq, Repr

/-- The canonical NaN as a result. -/
def nanRes (f : Fmt) (flags : W64) : FRes := { bits := nanEnc f, flags }
/-- A zero of a sign. -/
def zeroRes (f : Fmt) (neg : Bool) : FRes := { bits := signBit f neg }
/-- An infinity of a sign. -/
def infRes (f : Fmt) (neg : Bool) : FRes := { bits := infEnc f + signBit f neg }

/-- Rounds toward zero for a sign, so that overflow gives the largest finite value (R200). -/
def towardZero (r : Rnd) (neg : Bool) : Bool :=
  match r with
  | .rne => false
  | .rz | .rs _ _ => true
  | .ru => neg
  | .rd => !neg

/-- The magnitude is below the smallest normal value (R197). -/
def isTiny (f : Fmt) (v : Ex) : Bool := (Nat.log2 v.m : Int) + v.e < 1 - (f.bias : Int)

/-- Round an exact value into a format with its flags (R197, R200 to R202). -/
def roundFp (f : Fmt) (r : Rnd) (o : Ovf) (ftz : Bool) (v : Ex) : FRes :=
  if v.m = 0 ∧ !v.sticky then zeroRes f v.neg
  else
    let tiny := isTiny f v
    if tiny && ftz then { bits := signBit f v.neg, flags := flagUF ||| flagNX }
    else
      let (mag, inexact) := roundMag f r v
      if f.maxEnc < mag then
        match o with
        | .sat => { bits := f.maxEnc + signBit f v.neg, flags := flagSAT ||| flagNX }
        | .ieee =>
          { bits := (if towardZero r v.neg then f.maxEnc else infEnc f) + signBit f v.neg, flags := flagOF ||| flagNX }
      else { bits := mag + signBit f v.neg,
             flags := (if inexact then flagNX else 0) ||| (if tiny && inexact then flagUF else 0) }

/-! Exact arithmetic. -/

/-- The signed integer m * 2^(e - b). -/
def scaled (neg : Bool) (m : Nat) (d : Int) : Int := if neg then -((m * pow2 d : Nat) : Int) else (m * pow2 d : Nat)

/-- The exact sum of two values; its zero has no sign of its own. -/
def exAdd (n1 : Bool) (m1 : Nat) (e1 : Int) (n2 : Bool) (m2 : Nat) (e2 : Int) : Ex :=
  let b := min e1 e2
  let x := scaled n1 m1 (e1 - b) + scaled n2 m2 (e2 - b)
  { neg := x < 0, m := x.natAbs, e := b }

/-- The sign of an exact zero sum (R195). -/
def zeroSum (r : Rnd) (n1 n2 : Bool) : Bool := if n1 = n2 then n1 else r = .rd

/-- NV if some operand is a signalling NaN (R194). -/
def nvIf (xs : List Fp) : W64 := if xs.any (fun x => x = .nan true) then flagNV else 0
/-- Some operand is a NaN. -/
def anyNan (xs : List Fp) : Bool := xs.any (fun x => match x with
  | .nan _ => true
  | _ => false)

/-- Negate. -/
def negFp : Fp → Fp
  | .nan s => .nan s
  | .inf n => .inf (!n)
  | .fin n m e => .fin (!n) m e

/-- The sum of two decoded values, rounded once (R207, R208). -/
def addFp (f : Fmt) (r : Rnd) (o : Ovf) (ftz : Bool) (a b : Fp) : FRes :=
  if anyNan [a, b] then nanRes f (nvIf [a, b])
  else match a, b with
    | .inf n1, .inf n2 => if n1 = n2 then infRes f n1 else nanRes f flagNV
    | .inf n, _ => infRes f n
    | _, .inf n => infRes f n
    | .fin n1 m1 e1, .fin n2 m2 e2 =>
      let x := exAdd n1 m1 e1 n2 m2 e2
      if x.m = 0 then zeroRes f (zeroSum r n1 n2) else roundFp f r o ftz x
    | _, _ => nanRes f 0

/-- The product (R208). -/
def mulFp (f : Fmt) (r : Rnd) (o : Ovf) (ftz : Bool) (a b : Fp) : FRes :=
  if anyNan [a, b] then nanRes f (nvIf [a, b])
  else match a, b with
    | .inf n1, .inf n2 => infRes f (n1 != n2)
    | .inf n1, .fin n2 m _ => if m = 0 then nanRes f flagNV else infRes f (n1 != n2)
    | .fin n1 m _, .inf n2 => if m = 0 then nanRes f flagNV else infRes f (n1 != n2)
    | .fin n1 m1 e1, .fin n2 m2 e2 =>
      if m1 * m2 = 0 then zeroRes f (n1 != n2)
      else roundFp f r o ftz { neg := n1 != n2, m := m1 * m2, e := e1 + e2 }
    | _, _ => nanRes f 0

/-- The exact quotient of two magnitudes to at least 130 bits, with a sticky bit. -/
def exDiv (neg : Bool) (m1 : Nat) (e1 : Int) (m2 : Nat) (e2 : Int) : Ex :=
  let n := m1 * 2 ^ 192
  { neg, m := n / m2, e := e1 - e2 - 192, sticky := n % m2 != 0 }

/-- The quotient (R208). -/
def divFp (f : Fmt) (r : Rnd) (o : Ovf) (ftz : Bool) (a b : Fp) : FRes :=
  if anyNan [a, b] then nanRes f (nvIf [a, b])
  else match a, b with
    | .inf _, .inf _ => nanRes f flagNV
    | .inf n1, .fin n2 _ _ => infRes f (n1 != n2)
    | .fin n1 _ _, .inf n2 => zeroRes f (n1 != n2)
    | .fin n1 m1 e1, .fin n2 m2 e2 =>
      if m2 = 0 then (if m1 = 0 then nanRes f flagNV else { infRes f (n1 != n2) with flags := flagDZ })
      else if m1 = 0 then zeroRes f (n1 != n2)
      else roundFp f r o ftz (exDiv (n1 != n2) m1 e1 m2 e2)
    | _, _ => nanRes f 0

/-- The fused product and sum, rounded once (R209): 0 x infinity is invalid even when c is a quiet NaN. -/
def fmaFp (f : Fmt) (r : Rnd) (o : Ovf) (ftz : Bool) (a b c : Fp) : FRes :=
  let zeroInf : Bool := match a, b with
    | .inf _, .fin _ m _ => m == 0
    | .fin _ m _, .inf _ => m == 0
    | _, _ => false
  if zeroInf then nanRes f flagNV
  else if anyNan [a, b, c] then nanRes f (nvIf [a, b, c])
  else
    let prod : Fp := match a, b with
      | .fin n1 m1 e1, .fin n2 m2 e2 => .fin (n1 != n2) (m1 * m2) (e1 + e2)
      | .inf n1, .inf n2 | .inf n1, .fin n2 _ _ | .fin n1 _ _, .inf n2 => .inf (n1 != n2)
      | _, _ => .nan false
    addFp f r o ftz prod c

/-- The order of two values that are no NaNs: less, and equal (zeros of both signs are equal). -/
def fpLt (a b : Fp) : Bool :=
  match a, b with
  | .inf n1, .inf n2 => n1 && !n2
  | .inf n, .fin _ _ _ => n
  | .fin _ _ _, .inf n => !n
  | .fin n1 m1 e1, .fin n2 m2 e2 => let b := min e1 e2; scaled n1 m1 (e1 - b) < scaled n2 m2 (e2 - b)
  | _, _ => false
def fpEq (a b : Fp) : Bool := !anyNan [a, b] && !fpLt a b && !fpLt b a

/-- The sign of a value. -/
def fpNeg : Fp → Bool
  | .nan _ => false
  | .inf n => n
  | .fin n _ _ => n

/-- A value back to its own format's bits: exact, since it came from there. -/
def encodeFp (f : Fmt) (x : Fp) : Nat :=
  match x with
  | .nan _ => nanEnc f
  | .inf n => infEnc f + signBit f n
  | .fin n m e => if m = 0 then signBit f n else (roundMag f .rz { neg := n, m, e }).1 + signBit f n

/-- minimumNumber and maximumNumber (R210). -/
def minmaxFp (f : Fmt) (max : Bool) (a b : Fp) : FRes :=
  let nv := nvIf [a, b]
  match a, b with
  | .nan _, .nan _ => nanRes f nv
  | .nan _, y => { bits := encodeFp f y, flags := nv }
  | x, .nan _ => { bits := encodeFp f x, flags := nv }
  | x, y =>
    let less := fpLt x y || (fpEq x y && fpNeg x && !fpNeg y)
    { bits := encodeFp f (if less != max then x else y), flags := nv }

/-- A floating-point condition (R211). -/
def fcondHolds (c : FCond) (a b : Fp) : Bool :=
  let n := anyNan [a, b]
  match c with
  | .eq => !n && fpEq a b
  | .lt => !n && fpLt a b
  | .le => !n && (fpLt a b || fpEq a b)
  | .gt => !n && fpLt b a
  | .ge => !n && (fpLt b a || fpEq a b)
  | .ne => n || !fpEq a b
  | .un => n
  | .ord => !n

/-- A finite value rounded to an integer in a mode: the integer and whether it is inexact. -/
def roundInt (r : Rnd) (neg : Bool) (m : Nat) (e : Int) : Int × Bool :=
  if 0 ≤ e then (scaled neg m e, false)
  else
    let d := pow2 (-e)
    let n := m / d
    let rem := m % d
    let up : Bool := match r with
      | .rne => d < 2 * rem || (2 * rem == d && n % 2 == 1)
      | .rz | .rs _ _ => false
      | .ru => rem != 0 && !neg
      | .rd => rem != 0 && neg
    let k : Int := (n + (if up then 1 else 0) : Nat)
    (if neg then -k else k, rem != 0)

/-- Round to integral in the same format (R212). -/
def rintFp (f : Fmt) (r : Rnd) (a : Fp) : FRes :=
  match a with
  | .nan s => nanRes f (if s then flagNV else 0)
  | .inf n => infRes f n
  | .fin n m e =>
    let k := (roundInt r n m e).1.natAbs
    if k = 0 then zeroRes f n else { bits := (roundMag f .rz { neg := n, m := k, e := 0 }).1 + signBit f n }

/-- One step of xorshift32 (R198). -/
def xorshift (x : W32) : W32 :=
  let x := x ^^^ (x <<< 13)
  let x := x ^^^ (x >>> 17)
  x ^^^ (x <<< 5)

/-- The rounding decision of a rounding field: code 0 takes FLAGS.RMODE (R196). For stochastic rounding the state has
been advanced and `u` is the source's spacing exponent (R198). -/
def rndOf (rm : Rm) (flags : W64) (st : W32) (u : Int) : Rnd :=
  match rm with
  | .team => match (rmodeOf flags).toNat with
    | 0 => .rne
    | 1 => .rz
    | 2 => .ru
    | _ => .rd
  | .rne => .rne
  | .rz => .rz
  | .ru => .ru
  | .rd => .rd
  | .rs => .rs st u

/-- The spacing exponent of a decoded value in its own format. -/
def spacing : Fp → Int
  | .fin _ _ e => e
  | _ => 0

/-- A conversion into a floating-point format (R201): saturating. E2M1 has no NaN: a NaN gives 0 with NV, and E4M3
and E2M1 have no infinities. `mkRnd` makes the rounding decision from the source spacing. -/
def convFp (f : Fmt) (r : Rnd) (ftz : Bool) (x : Fp) : FRes :=
  match x with
  | .nan s =>
    if !f.inf && !f.e4m3 then { bits := 0, flags := flagNV } else nanRes f (if s then flagNV else 0)
  | .inf n => if f.inf then infRes f n else { bits := f.maxEnc + signBit f n, flags := flagSAT ||| flagNX }
  | .fin n m e => roundFp f r .sat ftz { neg := n, m, e }

/-- A conversion into an integer range (R201). -/
def convInt (lo hi : Int) (r : Rnd) (x : Fp) : Int × W64 :=
  match x with
  | .nan _ => (0, flagNV)
  | .inf n => (if n then lo else hi, flagSAT ||| flagNX)
  | .fin n m e =>
    let (k, inexact) := roundInt r n m e
    if k < lo then (lo, flagSAT ||| flagNX) else if hi < k then (hi, flagSAT ||| flagNX)
    else (k, if inexact then flagNX else 0)

/-- An integer as a value. -/
def intFp (x : Int) : Fp := .fin (x < 0) x.natAbs 0

/-- Multiply a value by a power of two, exactly. -/
def scaleFp (k : Int) : Fp → Fp
  | .fin n m e => .fin n m (e + k)
  | x => x

/-! Special functions (R216), by fixed-point arithmetic with 192 fractional bits. -/

/-- pi and ln 2 with 192 fractional bits, rounded down. -/
def piFix : Nat := 19720096697726538562396133364228268891463450865190089732560
def ln2Fix : Nat := 4350955369971217654477563090224794165364344896676135745069
def one192 : Nat := 2 ^ 192

/-- The sum of the terms t_k = t_(k-1) * x / (k * ...) of the exponential series, `n` terms from number `k`. -/
def expSum (n k t x : Nat) : Nat :=
  match n with
  | 0 => 0
  | n + 1 => t + expSum n (k + 1) (t * x / one192 / (k + 1)) x

/-- 2^y for a fraction y with 192 bits, to within 2^-180. -/
def exp2Fix (y : Nat) : Nat := expSum 60 0 one192 (y * ln2Fix / one192)

/-- The bits of log2 of y in [1, 2) (192 fractional bits), highest first, by repeated squaring. -/
def log2Bits (n y acc : Nat) : Nat :=
  match n with
  | 0 => acc
  | n + 1 =>
    let y2 := y * y / one192
    if 2 * one192 ≤ y2 then log2Bits n (y2 / 2) (2 * acc + 1) else log2Bits n y2 (2 * acc)

/-- log2 of y in [1, 2) with 64 fractional bits, to within 2^-60. -/
def log2Fix (y : Nat) : Nat := log2Bits 64 y 0

/-- The terms of the sine series with alternating signs: `k` is the exponent of the current term `t`. -/
def sinSum (n k t x2 : Nat) (neg : Bool) : Int :=
  match n with
  | 0 => 0
  | n + 1 => (if neg then -(t : Int) else t) + sinSum n (k + 2) (t * x2 / one192 / ((k + 1) * (k + 2))) x2 (!neg)

/-- sin(pi * y) for y in [0, 1/2] with 192 fractional bits, to within 2^-180. -/
def sinPiFix (y : Nat) : Nat :=
  let x := y * piFix / one192
  (sinSum 40 1 x (x * x / one192) false).toNat

/-- The integer square root of n, by `fuel` steps of bit search from 2^b. -/
def isqrtGo (fuel r n : Nat) : Nat :=
  match fuel with
  | 0 => r
  | b + 1 => isqrtGo b (if (r + 2 ^ b) * (r + 2 ^ b) ≤ n then r + 2 ^ b else r) n

/-- The exact square root of m * 2^e to 200 bits, with a sticky bit. -/
def exSqrt (m : Nat) (e : Int) : Ex :=
  let n := if e % 2 = 0 then m * 2 ^ 256 else m * 2 ^ 257
  let r := isqrtGo 170 0 n
  { neg := false, m := r, e := (if e % 2 = 0 then e else e - 1) / 2 - 128, sticky := r * r != n }

end Sys2Proof.Machine
end

