-- ==== Sys2Proof/Machine/Fp.lean ====
section
/-! DEFINITION. Classes 001 and 010: FP32, FP64, packed 16-bit arithmetic and the integer dot product (R207 to R215). -/

namespace Sys2Proof.Machine

/-- A result as a lane output of the format's width. -/
def fout (r : FRes) : LaneOut := { val := BitVec.ofNat 64 r.bits, flags := r.flags }

/-- An operand of a format from the low bits of a value, flushed under FTZ (R202, R207). -/
def fin (f : Fmt) (ftz : Bool) (x : W64) : Fp := flushIn f ftz (decodeFp f (x.toNat % 2 ^ (1 + f.ebits + f.fbits)))

/-- The overflow rule of a word with or without `.sat` (R200). -/
def ovfOf (sat : Bool) : Ovf := if sat then .sat else .ieee

/-- The rounding decision of classes 001 and 010, where stochastic rounding is not allowed (R111). -/
def rnd12 (rm : Rm) (flags : W64) : Rnd := rndOf rm flags 0 0

/-- A two-operand operation of a format on two values (R207). -/
def fop2 (f : Fmt) (op : Fmt → Rnd → Ovf → Bool → Fp → Fp → FRes) (rm : Rm) (sat : Bool) (flags a b : W64) : FRes :=
  op f (rnd12 rm flags) (ovfOf sat) (ftzOf flags) (fin f (ftzOf flags) a) (fin f (ftzOf flags) b)

/-- FADD, FSUB, FMUL, FDIVS, DADD, DSUB and DMUL (R208). -/
def farithR (f : Fmt) (op : Fmt → Rnd → Ovf → Bool → Fp → Fp → FRes) (rm : Rm) (sat : Bool) (x : LaneIn) : LaneOut :=
  fout (fop2 f op rm sat x.flags x.a x.b)

/-- The difference (R208). -/
def subFp (f : Fmt) (r : Rnd) (o : Ovf) (ftz : Bool) (a b : Fp) : FRes := addFp f r o ftz a (negFp b)

/-- A fused multiply-add of a format on three values (R209). -/
def fma3 (f : Fmt) (nab nc : Bool) (rm : Rm) (sat : Bool) (flags a b c : W64) : FRes :=
  let ftz := ftzOf flags
  let neg (n : Bool) (y : Fp) : Fp := if n then negFp y else y
  fmaFp f (rnd12 rm flags) (ovfOf sat) ftz (neg nab (fin f ftz a)) (fin f ftz b) (neg nc (fin f ftz c))

/-- FFMA and DFMA (R209). -/
def ffmaR (f : Fmt) (nab nc : Bool) (rm : Rm) (sat : Bool) (x : LaneIn) : LaneOut :=
  fout (fma3 f nab nc rm sat x.flags x.a x.b x.c)

/-- FMIN, FMAX, DMIN and DMAX (R210). -/
def fminmaxR (f : Fmt) (max : Bool) (x : LaneIn) : LaneOut :=
  let ftz := ftzOf x.flags
  fout (minmaxFp f max (fin f ftz x.a) (fin f ftz x.b))

/-- FCMP and DCMP (R211). -/
def fcmpR (f : Fmt) (c : FCond) (s : Bool) (x : LaneIn) : LaneOut :=
  let ftz := ftzOf x.flags
  let a := fin f ftz x.a
  let b := fin f ftz x.b
  { pd := some (fcondHolds c a b), flags := if s && anyNan [a, b] then flagNV else nvIf [a, b] }

/-- FRND and DRND (R212). -/
def frndR (f : Fmt) (rm : Rm) (x : LaneIn) : LaneOut :=
  fout (rintFp f (rnd12 rm x.flags) (fin f (ftzOf x.flags) x.a))

/-- The class mask of a value (R213): bit 10 and above stay 0. -/
def classMask (f : Fmt) (v : Fp) : Nat :=
  match v with
  | .nan sig => if sig then 0x100 else 0x200
  | .inf n => if n then 1 else 0x80
  | .fin n m _ =>
    if m = 0 then (if n then 8 else 0x10)
    else if isSub f v then (if n then 4 else 0x20)
    else if n then 2 else 0x40

/-- The format that `FCLASS` reads. -/
def classFmt : ClassFmt → Fmt
  | .fp32 => fp32
  | .fp64 => fp64
  | .fp16 => fp16
  | .bf16 => bf16
  | .e4m3 => e4m3
  | .e5m2 => e5m2

/-- FCLASS (R213): no flushing and no flags. -/
def fclassR (c : ClassFmt) (x : LaneIn) : LaneOut :=
  val (BitVec.ofNat 64 (classMask (classFmt c) (fin (classFmt c) false x.a)))

/-- The elements of a packed pair (R191). -/
def half0 (x : W64) : W64 := x &&& 0xFFFF
def half1 (x : W64) : W64 := (x >>> 16) &&& 0xFFFF

/-- Two 16-bit results as a packed pair, their flags joined (R214). -/
def pack2 (r0 r1 : FRes) : LaneOut :=
  { val := BitVec.ofNat 64 (r0.bits % 2 ^ 16 + r1.bits % 2 ^ 16 * 2 ^ 16), flags := r0.flags ||| r1.flags }

/-- HADD2, HMUL2, BADD2 and BMUL2 (R214). -/
def packedR (f : Fmt) (op : Fmt → Rnd → Ovf → Bool → Fp → Fp → FRes) (rm : Rm) (sat : Bool) (x : LaneIn) : LaneOut :=
  pack2 (fop2 f op rm sat x.flags (half0 x.a) (half0 x.b)) (fop2 f op rm sat x.flags (half1 x.a) (half1 x.b))

/-- HFMA2 and BFMA2 (R214). -/
def packedFmaR (f : Fmt) (rm : Rm) (sat : Bool) (x : LaneIn) : LaneOut :=
  pack2 (fma3 f false false rm sat x.flags (half0 x.a) (half0 x.b) (half0 x.c))
    (fma3 f false false rm sat x.flags (half1 x.a) (half1 x.b) (half1 x.c))

/-- Byte i of a value as an integer, unsigned or signed. -/
def byteInt (u : Bool) (x : W64) (i : Nat) : Int :=
  let b : Byte := x.extractLsb' (8 * i) 8
  if u then b.toNat else b.toInt

/-- DOT4I (R215). -/
def dot4iR (ua ub sat imm : Bool) (x : LaneIn) : LaneOut :=
  let c := if imm then x.old else lo x.c
  let t : Int := c.toInt + ((List.range 4).map (fun i => byteInt ua x.a i * byteInt ub x.b i)).sum
  let (v, f) := satInt 32 (if sat then .sat else .wrap) t
  { val := v, flags := f }

/-! The meanings. -/

def execFadd (w : FWord) (rm : Rm) (sat : Bool) (s : State) := runLanes (.fadd w rm sat) w (farithR fp32 addFp rm sat) s
def execFsub (w : FWord) (rm : Rm) (sat : Bool) (s : State) := runLanes (.fsub w rm sat) w (farithR fp32 subFp rm sat) s
def execFmul (w : FWord) (rm : Rm) (sat : Bool) (s : State) := runLanes (.fmul w rm sat) w (farithR fp32 mulFp rm sat) s
def execFdivs (w : FWord) (rm : Rm) (sat : Bool) (s : State) := runLanes (.fdivs w rm sat) w (farithR fp32 divFp rm sat) s
def execDadd (w : FWord) (rm : Rm) (sat : Bool) (s : State) := runLanes (.dadd w rm sat) w (farithR fp64 addFp rm sat) s
def execDsub (w : FWord) (rm : Rm) (sat : Bool) (s : State) := runLanes (.dsub w rm sat) w (farithR fp64 subFp rm sat) s
def execDmul (w : FWord) (rm : Rm) (sat : Bool) (s : State) := runLanes (.dmul w rm sat) w (farithR fp64 mulFp rm sat) s
def execFfma (w : FWord) (nab nc : Bool) (rm : Rm) (sat : Bool) (s : State) :=
  runLanes (.ffma w nab nc rm sat) w (ffmaR fp32 nab nc rm sat) s
def execDfma (w : FWord) (nab nc : Bool) (rm : Rm) (sat : Bool) (s : State) :=
  runLanes (.dfma w nab nc rm sat) w (ffmaR fp64 nab nc rm sat) s
def execFmin (w : FWord) (rm : Rm) (s : State) := runLanes (.fmin w rm) w (fminmaxR fp32 false) s
def execFmax (w : FWord) (rm : Rm) (s : State) := runLanes (.fmax w rm) w (fminmaxR fp32 true) s
def execDmin (w : FWord) (rm : Rm) (s : State) := runLanes (.dmin w rm) w (fminmaxR fp64 false) s
def execDmax (w : FWord) (rm : Rm) (s : State) := runLanes (.dmax w rm) w (fminmaxR fp64 true) s
def execFcmp (w : FWord) (c : FCond) (rm : Rm) (sg : Bool) (s : State) := runLanes (.fcmp w c rm sg) w (fcmpR fp32 c sg) s
def execDcmp (w : FWord) (c : FCond) (rm : Rm) (sg : Bool) (s : State) := runLanes (.dcmp w c rm sg) w (fcmpR fp64 c sg) s
def execFrnd (w : FWord) (rm : Rm) (s : State) := runLanes (.frnd w rm) w (frndR fp32 rm) s
def execDrnd (w : FWord) (rm : Rm) (s : State) := runLanes (.drnd w rm) w (frndR fp64 rm) s
def execFclass (w : FWord) (c : ClassFmt) (rm : Rm) (s : State) := runLanes (.fclass w c rm) w (fclassR c) s
def execHadd2 (w : FWord) (rm : Rm) (sat : Bool) (s : State) := runLanes (.hadd2 w rm sat) w (packedR fp16 addFp rm sat) s
def execHmul2 (w : FWord) (rm : Rm) (sat : Bool) (s : State) := runLanes (.hmul2 w rm sat) w (packedR fp16 mulFp rm sat) s
def execBadd2 (w : FWord) (rm : Rm) (sat : Bool) (s : State) := runLanes (.badd2 w rm sat) w (packedR bf16 addFp rm sat) s
def execBmul2 (w : FWord) (rm : Rm) (sat : Bool) (s : State) := runLanes (.bmul2 w rm sat) w (packedR bf16 mulFp rm sat) s
def execHfma2 (w : FWord) (rm : Rm) (sat : Bool) (s : State) := runLanes (.hfma2 w rm sat) w (packedFmaR fp16 rm sat) s
def execBfma2 (w : FWord) (rm : Rm) (sat : Bool) (s : State) := runLanes (.bfma2 w rm sat) w (packedFmaR bf16 rm sat) s
def execDot4i (w : FWord) (ua ub sat : Bool) (rm : Rm) (s : State) :=
  runLanes (.dot4i w ua ub sat rm) w (dot4iR ua ub sat w.b.isImm) s

end Sys2Proof.Machine
end

