-- ==== Sys2Proof/Machine/Convert.lean ====
section
/-! DEFINITION. Class 011: special functions and conversions (R216 to R222). -/

namespace Sys2Proof.Machine

/-! Special functions (R216). A faithful result is free between the two neighbours of the exact value (log 6). -/

/-- An operand of a special function: FP32, flushed as in class 001. -/
def spIn (x : LaneIn) : Fp := fin fp32 (ftzOf x.flags) x.a

/-- The faithful results of a non-zero exact value: the free value if it is one of the two neighbours, else the one
toward zero. An exact value is returned itself. Tiny results follow R197 and R202. -/
def faithful (free : W32) (ftz : Bool) (v : Ex) : FRes :=
  let (mag, inexact) := roundMag fp32 .rz v
  if !inexact then roundFp fp32 .rz .ieee ftz v
  else if isTiny fp32 v && ftz then { bits := signBit fp32 v.neg, flags := flagUF ||| flagNX }
  else
    let m := if free.toNat = mag + 1 + signBit fp32 v.neg then mag + 1 else mag
    { bits := m + signBit fp32 v.neg, flags := flagNX ||| (if isTiny fp32 v then flagUF else 0) }

/-- FRCP (R216); a result beyond the largest finite value is an infinity with OF and NX (log 12). -/
def frcpFp (free : W32) (ftz : Bool) (a : Fp) : FRes :=
  match a with
  | .nan s => nanRes fp32 (if s then flagNV else 0)
  | .inf n => zeroRes fp32 n
  | .fin n m e =>
    if m = 0 then { infRes fp32 n with flags := flagDZ }
    else
      let v := exDiv n 1 0 m e
      if fp32.maxEnc < (roundMag fp32 .rz v).1 then { infRes fp32 n with flags := flagOF ||| flagNX }
      else faithful free ftz v

/-- 1 / sqrt(m * 2^e) to 80 bits, with a sticky bit. -/
def exRsqrt (m : Nat) (e : Int) : Ex :=
  let (m, e) := if e % 2 = 0 then (m, e) else (2 * m, e - 1)
  let r := isqrtGo 110 0 (2 ^ 200 / m)
  { neg := false, m := r, e := -(e / 2) - 100, sticky := r * r * m != 2 ^ 200 }

/-- FRSQ (R216). -/
def frsqFp (free : W32) (ftz : Bool) (a : Fp) : FRes :=
  match a with
  | .nan s => nanRes fp32 (if s then flagNV else 0)
  | .inf n => if n then nanRes fp32 flagNV else zeroRes fp32 false
  | .fin n m e =>
    if m = 0 then { infRes fp32 n with flags := flagDZ }
    else if n then nanRes fp32 flagNV
    else faithful free ftz (exRsqrt m e)

/-- FSQRT (R216): correctly rounded. -/
def fsqrtFp (ftz : Bool) (a : Fp) : FRes :=
  match a with
  | .nan s => nanRes fp32 (if s then flagNV else 0)
  | .inf n => if n then nanRes fp32 flagNV else infRes fp32 false
  | .fin n m e =>
    if m = 0 then zeroRes fp32 n
    else if n then nanRes fp32 flagNV
    else roundFp fp32 .rne .ieee ftz (exSqrt m e)

/-- 2^(k + y * 2^-192) for an integer k and a fraction y: exact for y = 0, else never a tie. -/
def exExp2 (k : Int) (y : Nat) : Ex :=
  if y = 0 then { neg := false, m := 1, e := k } else { neg := false, m := exp2Fix y, e := k - 192, sticky := true }

/-- FEXP2 (R216): correctly rounded; an argument of 1,000 or more in magnitude lies beyond every result. -/
def fexp2Fp (ftz : Bool) (a : Fp) : FRes :=
  match a with
  | .nan s => nanRes fp32 (if s then flagNV else 0)
  | .inf n => if n then zeroRes fp32 false else infRes fp32 false
  | .fin n m e =>
    if 0 ≤ e ∨ 1000 ≤ m / pow2 (-e) then
      let k : Int := if 10 ≤ e then 1000 else min 1000 (m * pow2 e / pow2 (-e) : Nat)
      roundFp fp32 .rne .ieee ftz (exExp2 (if m = 0 then 0 else if n then -k else k) 0)
    else
      let y : Int := scaled n m (192 + e)
      roundFp fp32 .rne .ieee ftz (exExp2 (y / (one192 : Int)) (y % (one192 : Int)).toNat)

/-- A finite FP32 encoding as an integer with 200 fractional bits; nothing for NaN and infinity. -/
def fix200 (x : W32) : Option Int :=
  match decodeFp fp32 x.toNat with
  | .fin n m e => some (scaled n m (e + 200))
  | _ => none

/-- The free value, if it lies within 2^-22 of every value that the computed one, with 200 fractional bits and an error below 2^-60,
can stand for, else the exact value rounded toward zero: the result is always within R216's bound (log 6). -/
def within22 (free : W32) (v : Ex) (exact : Int) : Nat :=
  match fix200 free with
  | some x => if (x - exact).natAbs ≤ 2 ^ 178 - 2 ^ 140 then free.toNat else (roundMag fp32 .rz v).1 + signBit fp32 v.neg
  | none => (roundMag fp32 .rz v).1 + signBit fp32 v.neg

/-- log2(m * 2^e) for m > 0: the integer part, and the fraction with 64 bits, exact when it is 0. -/
def log2Parts (m : Nat) (e : Int) : Int × Nat :=
  let b := Nat.log2 m
  ((b : Int) + e, log2Fix (m * one192 / 2 ^ b))

/-- FLOG2 (R216). -/
def flog2Fp (free : W32) (a : Fp) : FRes :=
  match a with
  | .nan s => nanRes fp32 (if s then flagNV else 0)
  | .inf n => if n then nanRes fp32 flagNV else infRes fp32 false
  | .fin n m e =>
    if m = 0 then { infRes fp32 true with flags := flagDZ }
    else if n then nanRes fp32 flagNV
    else
      let (k, f) := log2Parts m e
      let pow := m = 2 ^ Nat.log2 m
      if pow then roundFp fp32 .rne .ieee false { neg := k < 0, m := k.natAbs, e := 0 }
      else
        let y : Int := k * 2 ^ 64 + f
        let v : Ex := if y < 0 then { neg := true, m := (-y - 1).toNat, e := -64, sticky := true }
          else { neg := false, m := y.toNat, e := -64, sticky := true }
        if k = 0 ∨ k = -1 then { bits := within22 free v (y * 2 ^ 136), flags := flagNX } else faithful free false v

/-- The angle of an FP32 value modulo 2, in half-turns with 192 fractional bits. -/
def turn (n : Bool) (m : Nat) (e : Int) : Nat :=
  let t : Int := scaled n m (192 + e)
  (t % (2 * one192 : Nat)).toNat

/-- sin(pi * t) of an angle: its sign and its magnitude with 192 fractional bits. -/
def sinTurn (t : Nat) : Bool × Nat :=
  let t := t % (2 * one192)
  let neg := one192 ≤ t
  let t := if neg then t - one192 else t
  (neg, sinPiFix (if one192 < 2 * t then one192 - t else t))

/-- A sine that is no special value: the free value within its bound; a tiny exact value follows R197 and R202. -/
def sineRes (free : W32) (ftz : Bool) (t : Nat) : FRes :=
  let (neg, y) := sinTurn t
  let v : Ex := { neg, m := y, e := -192, sticky := true }
  if isTiny fp32 v && ftz then { bits := signBit fp32 neg, flags := flagUF ||| flagNX }
  else { bits := within22 free v ((if neg then -(y : Int) else y) * 256),
         flags := flagNX ||| (if isTiny fp32 v then flagUF else 0) }

/-- FSIN (R216). An exponent of 0 or more makes an integer. -/
def fsinFp (free : W32) (ftz : Bool) (a : Fp) : FRes :=
  match a with
  | .nan s => nanRes fp32 (if s then flagNV else 0)
  | .inf _ => nanRes fp32 flagNV
  | .fin n m e =>
    if 0 ≤ e then zeroRes fp32 n
    else
      let t := turn n m e
      if t % one192 = 0 then zeroRes fp32 n
      else if 2 * t = one192 then { bits := 0x3F800000 }
      else if 2 * t = 3 * one192 then { bits := 0xBF800000 }
      else sineRes free ftz t

/-- FCOS (R216). -/
def fcosFp (free : W32) (ftz : Bool) (a : Fp) : FRes :=
  match a with
  | .nan s => nanRes fp32 (if s then flagNV else 0)
  | .inf _ => nanRes fp32 flagNV
  | .fin n m e =>
    let t := if 0 ≤ e then (if e = 0 ∧ m % 2 = 1 then one192 else 0) else turn n m e
    if t = 0 then { bits := 0x3F800000 }
    else if t = one192 then { bits := 0xBF800000 }
    else if 2 * t % (2 * one192) = one192 then { bits := 0 }
    else sineRes free ftz (t + one192 / 2)

/-- The special functions by number, as `Config.special` counts FRCP, FRSQ, FLOG2, FSIN and FCOS; 5 is FSQRT and 6
FEXP2. -/
def specialR (k : Nat) (x : LaneIn) : LaneOut :=
  let a := spIn x
  let ftz := ftzOf x.flags
  let free := Config.special k (lo x.a)
  fout (match k with
    | 0 => frcpFp free ftz a
    | 1 => frsqFp free ftz a
    | 2 => flog2Fp free a
    | 3 => fsinFp free ftz a
    | 4 => fcosFp free ftz a
    | 5 => fsqrtFp ftz a
    | _ => fexp2Fp ftz a)

/-! Conversions. -/

/-- A rounding decision of class 011 for an element, with the lane state after it: `.rs` advances the state once for
each element, exact or not (R198). -/
def convRnd (rm : Rm) (flags : W64) (sr : W32) (v : Fp) : Rnd × W32 :=
  match rm with
  | .rs => let st := xorshift sr; (.rs st (spacing v), st)
  | rm => (rndOf rm flags 0 0, sr)

/-- Convert one element into a format. -/
def convElem (f : Fmt) (rm : Rm) (flags : W64) (sr : W32) (v : Fp) : FRes × W32 :=
  let (r, sr) := convRnd rm flags sr v
  (convFp f r (ftzOf flags) v, sr)

/-- SRSTATE is written by `.rs` alone. -/
def srOut (rm : Rm) (sr : W32) : Option W32 := if rm = .rs then some sr else none

/-- A value of a format in the low bits. -/
def src (f : Fmt) (x : W64) : Fp := fin f false x

/-- One element converted to a format. -/
def conv1 (f g : Fmt) (rm : Rm) (x : LaneIn) : LaneOut :=
  let (r, sr) := convElem f rm x.flags x.sr (src g x.a)
  { fout r with sr := srOut rm sr }

/-- Two elements converted to a format of `n` bits and packed from bit 0, element 0 first. -/
def conv2 (f : Fmt) (n : Nat) (rm : Rm) (x : LaneIn) (v0 v1 : Fp) : LaneOut :=
  let (r0, sr) := convElem f rm x.flags x.sr v0
  let (r1, sr) := convElem f rm x.flags sr v1
  { val := BitVec.ofNat 64 (r0.bits + r1.bits * 2 ^ n), flags := r0.flags ||| r1.flags, sr := srOut rm sr }

/-- A conversion to an integer range; the result is cut to `n` bits. -/
def convI (n : Nat) (lo hi : Int) (g : Fmt) (rm : Rm) (x : LaneIn) : LaneOut :=
  let (k, f) := convInt lo hi (rndOf rm x.flags 0 0) (src g x.a)
  { val := BitVec.ofInt 64 (k % 2 ^ n), flags := f }

/-- A conversion from an integer. -/
def convF (f : Fmt) (rm : Rm) (k : Int) (x : LaneIn) : LaneOut :=
  fout (convFp f (rndOf rm x.flags 0 0) (ftzOf x.flags) (intFp k))

/-- CVT (R217). -/
def cvtR (k : Cvt) (rm : Rm) (x : LaneIn) : LaneOut :=
  match k with
  | .f32F64 => conv1 fp32 fp64 rm x
  | .f64F32 => conv1 fp64 fp32 rm x
  | .f16F32 => conv1 fp16 fp32 rm x
  | .f32F16 => conv1 fp32 fp16 rm x
  | .bf16F32 => conv1 bf16 fp32 rm x
  | .f32Bf16 => conv1 fp32 bf16 rm x
  | .tf32F32 => let r := conv1 tf32 fp32 rm x; { r with val := r.val <<< 13 }
  | .f16F64 => conv1 fp16 fp64 rm x
  | .bf16F64 => conv1 bf16 fp64 rm x
  | .f64F16 => conv1 fp64 fp16 rm x
  | .f64Bf16 => conv1 fp64 bf16 rm x
  | .f16Bf16 => conv1 fp16 bf16 rm x
  | .bf16F16 => conv1 bf16 fp16 rm x
  | .f16x2F32 => conv2 fp16 16 rm x (src fp32 x.a) (src fp32 x.b)
  | .bf16x2F32 => conv2 bf16 16 rm x (src fp32 x.a) (src fp32 x.b)
  | .f32I32 => convF fp32 rm (lo x.a).toInt x
  | .f32U32 => convF fp32 rm (lo x.a).toNat x
  | .f64I32 => convF fp64 rm (lo x.a).toInt x
  | .f64U32 => convF fp64 rm (lo x.a).toNat x
  | .f64I64 => convF fp64 rm x.a.toInt x
  | .f32I64 => convF fp32 rm x.a.toInt x
  | .i32F32 => convI 32 (-2 ^ 31) (2 ^ 31 - 1) fp32 rm x
  | .u32F32 => convI 32 0 (2 ^ 32 - 1) fp32 rm x
  | .i32F64 => convI 32 (-2 ^ 31) (2 ^ 31 - 1) fp64 rm x
  | .u32F64 => convI 32 0 (2 ^ 32 - 1) fp64 rm x
  | .i64F64 => convI 64 (-2 ^ 63) (2 ^ 63 - 1) fp64 rm x
  | .i64F32 => convI 64 (-2 ^ 63) (2 ^ 63 - 1) fp32 rm x
  | .i16F32 => convI 32 (-2 ^ 15) (2 ^ 15 - 1) fp32 rm x
  | .u16F32 => convI 32 0 (2 ^ 16 - 1) fp32 rm x
  | .i8F32 => convI 32 (-2 ^ 7) (2 ^ 7 - 1) fp32 rm x
  | .u8F32 => convI 32 0 (2 ^ 8 - 1) fp32 rm x

/-- The FP8 format of `CVT8`. -/
def fp8Of (e5 : Bool) : Fmt := if e5 then e5m2 else e4m3
/-- The 16-bit format of `CVT8`. -/
def f16Of (bf : Bool) : Fmt := if bf then bf16 else fp16

/-- Put a halfword into the halfword h of an old value. -/
def putHalf (h : Bool) (old : W32) (x : W64) : W64 :=
  zx (if h then (old &&& 0xFFFF) ||| ((lo x &&& 0xFFFF) <<< 16) else (old &&& 0xFFFF0000) ||| (lo x &&& 0xFFFF))

/-- The halfword h of a value. -/
def getHalf (h : Bool) (x : W64) : W64 := if h then half1 x else half0 x

/-- CVT8 (R218). -/
def cvt8R (op : Cvt8) (x : LaneIn) : LaneOut :=
  match op with
  | .fromF32 e5 rm h =>
    let r := conv2 (fp8Of e5) 8 rm x (src fp32 x.a) (src fp32 x.b)
    { r with val := putHalf h x.old r.val }
  | .from16 e5 rm h bf =>
    let r := conv2 (fp8Of e5) 8 rm x (src (f16Of bf) (half0 x.a)) (src (f16Of bf) (half1 x.a))
    { r with val := putHalf h x.old r.val }
  | .toF32 e5 k => fout (convFp fp32 .rne (ftzOf x.flags) (src (fp8Of e5) (x.a >>> (8 * k.toNat))))
  | .to16 e5 h bf =>
    let y := getHalf h x.a
    pack2 (convFp (f16Of bf) .rne (ftzOf x.flags) (src (fp8Of e5) y))
      (convFp (f16Of bf) .rne (ftzOf x.flags) (src (fp8Of e5) (y >>> 8)))

/-- CVT4 operation 2 (R219): exact and without flags. -/
def cvt4Fp32R (n : BitVec 3) (x : LaneIn) : LaneOut :=
  val (BitVec.ofNat 64 (convFp fp32 .rne false (src e2m1 (x.a >>> (4 * n.toNat)))).bits)

/-- CVT4 operation 1 (R219): word j of the codes of the executing lanes. -/
def packWord (act : Mask) (ins : Nat → LaneIn) (j : Nat) : W64 :=
  (List.range 8).foldl (fun w i => if act.getLsbD (8 * j + i) then w ||| (((ins (8 * j + i)).a &&& 0xF) <<< (4 * i)) else w) 0
def cvt4PackR (act : Mask) (ins : Nat → LaneIn) (l : Nat) : LaneOut := val (packWord act ins (l % 4))

/-- One storage element as an integer or a value, converted to E4M3 (R193, R220). -/
def storageElem (f : StoFmt) (x : W64) : Nat :=
  let v : Fp := match f with
    | .int4 => intFp (x.extractLsb' 0 4 : BitVec 4).toInt
    | .uint4 => intFp (x.extractLsb' 0 4 : BitVec 4).toNat
    | .e2m3 => src e2m3 x
    | .e3m2 => src e3m2 x
  (convFp e4m3 .rne false v).bits

/-- CVTX (R220). -/
def cvtxR (f : StoFmt) (o : BitVec 3) (x : LaneIn) : LaneOut :=
  let v := pair64 (lo x.a) (lo x.b) >>> (8 * o.toNat)
  let n := match f with
    | .int4 | .uint4 => 4
    | .e2m3 | .e3m2 => 6
  val (BitVec.ofNat 64 ((List.range 4).map (fun i => storageElem f (v >>> (n * i)) * 2 ^ (8 * i))).sum)

/-- SCLX members 0 to 2 (R221): a shift beyond 5,000 places lies beyond every format in either direction. -/
def sclxFp (f : Fmt) (rm : Rm) (k : Int) (x : LaneIn) : LaneOut :=
  let k := if k < -5000 then -5000 else if 5000 < k then 5000 else k
  fout (convFp f (rndOf rm x.flags 0 0) (ftzOf x.flags) (scaleFp k (src f x.a)))
def sclxX8R (inv : Bool) (rm : Rm) (x : LaneIn) : LaneOut :=
  let e := x.b.toNat % 256
  if e = 255 then val (BitVec.ofNat 64 (nanEnc fp32))
  else sclxFp fp32 rm (if inv then 127 - (e : Int) else (e : Int) - 127) x

/-- The largest exponent of a block-scale element format (R222). -/
def blkEmax : BlkFmt → Int
  | .e2m1 => 2
  | .e4m3 => 8
  | .e5m2 => 15
  | .int8 => 0

/-- floor(log2 |a|) of a finite non-zero value. -/
def fpExp : Fp → Option Int
  | .fin _ m e => if m = 0 then none else some ((Nat.log2 m : Int) + e)
  | _ => none

/-- The E8M0 scale of a block (R222). -/
def blockScale (f : BlkFmt) (vs : List Fp) : Nat × W64 :=
  if vs.any (fun v => match v with
    | .nan _ | .inf _ => true
    | _ => false) then (255, flagNV)
  else match (vs.filterMap fpExp).max? with
    | none => (127, 0)
    | some e => ((max 0 (min 254 (e - blkEmax f + 127))).toNat, 0)
def sclxBlkR (f : BlkFmt) (act : Mask) (ins : Nat → LaneIn) (_ : Nat) : LaneOut :=
  let (e, fl) := blockScale f ((lanesOf act).map (fun l => src fp32 (ins l).a))
  { val := BitVec.ofNat 64 e, flags := fl }

/-! The meanings. -/

def execFrcp (w : FWord) (s : State) := runLanes (.frcp w) w (specialR 0) s
def execFrsq (w : FWord) (s : State) := runLanes (.frsq w) w (specialR 1) s
def execFsqrt (w : FWord) (s : State) := runLanes (.fsqrt w) w (specialR 5) s
def execFexp2 (w : FWord) (s : State) := runLanes (.fexp2 w) w (specialR 6) s
def execFlog2 (w : FWord) (s : State) := runLanes (.flog2 w) w (specialR 2) s
def execFsin (w : FWord) (s : State) := runLanes (.fsin w) w (specialR 3) s
def execFcos (w : FWord) (s : State) := runLanes (.fcos w) w (specialR 4) s
def execCvt (w : FWord) (k : Cvt) (rm : Rm) (s : State) := runLanes (.cvt w k rm) w (cvtR k rm) s
def execCvt8 (w : FWord) (op : Cvt8) (s : State) := runLanes (.cvt8 w op) w (cvt8R op) s
def execCvt4E2m1 (w : FWord) (rm : Rm) (s : State) := runLanes (.cvt4E2m1 w rm) w (conv1 e2m1 fp32 rm) s
def execCvt4Pack (w : FWord) (s : State) := runGroup (.cvt4Pack w) w cvt4PackR s
def execCvt4Fp32 (w : FWord) (n : BitVec 3) (s : State) := runLanes (.cvt4Fp32 w n) w (cvt4Fp32R n) s
def execCvtx (w : FWord) (f : StoFmt) (o : BitVec 3) (s : State) := runLanes (.cvtx w f o) w (cvtxR f o) s
def execSclxFp32 (w : FWord) (rm : Rm) (s : State) := runLanes (.sclxFp32 w rm) w (fun x => sclxFp fp32 rm (lo x.b).toInt x) s
def execSclxFp64 (w : FWord) (rm : Rm) (s : State) := runLanes (.sclxFp64 w rm) w (fun x => sclxFp fp64 rm (lo x.b).toInt x) s
def execSclxX8 (w : FWord) (inv : Bool) (rm : Rm) (s : State) := runLanes (.sclxX8 w inv rm) w (sclxX8R inv rm) s
def execSclxBlk (w : FWord) (f : BlkFmt) (s : State) := runGroup (.sclxBlk w f) w (sclxBlkR f) s

end Sys2Proof.Machine
end

