-- ==== Sys2Proof/Machine/ElemFmt.lean ====
section
/-! DEFINITION. Element formats and block scales in memory (R192, R247, R248, R318, R507). -/

namespace Sys2Proof.Machine

/-- The bits of an element by format code (R318); 0 for a code that names none. -/
def fmtBits (f : Nat) : Nat :=
  match f with
  | 1 | 2 | 8 | 9 => 16
  | 3 | 4 | 6 | 7 => 8
  | 5 | 10 | 11 => 4
  | 12 | 13 => 6
  | 16 | 17 | 19 | 20 => 32
  | 18 | 21 => 64
  | _ => 0

/-- The floating-point format of a code. -/
def fmtFp (f : Nat) : Option Fmt :=
  match f with
  | 1 => some fp16
  | 2 => some bf16
  | 3 => some e4m3
  | 4 => some e5m2
  | 5 => some e2m1
  | 12 => some e2m3
  | 13 => some e3m2
  | 16 => some fp32
  | 17 => some tf32
  | 18 => some fp64
  | _ => none

/-- An integer format of a code is signed. -/
def fmtSigned (f : Nat) : Bool := f == 6 || f == 8 || f == 10 || f == 19 || f == 21

/-- The number of elements of a block by geometry code (R318). -/
def blockElems (g : Nat) : Nat := if g = 0 then 1 else 8 * 2 ^ g
/-- The bytes of one block (R507). -/
def blockBytes (f g : Nat) : Nat := blockElems g * fmtBits f / 8

/-- The value of an element's bits (R189, R192): `blk` tells that it stands in a block with a scale. -/
def elemRaw (f : Nat) (blk : Bool) (x : Nat) : Fp :=
  match fmtFp f with
  | some g => decodeFp g (if f = 17 then x / 8192 else x)
  | none =>
    let n := fmtBits f
    let k : Int := if fmtSigned f && 2 ^ (n - 1) ≤ x then (x : Int) - 2 ^ n else x
    let v := intFp k
    if blk && f == 6 then scaleFp (-6) v else v

/-- The value of an element with its block scale (R192, R247). -/
def elemValue (f : Nat) (scale : Option Nat) (x : Nat) : Fp :=
  match scale with
  | none => elemRaw f false x
  | some 255 => .nan false
  | some e => scaleFp ((e : Int) - 127) (elemRaw f true x)

/-- Round a value into an element format (R201): its bits and FLAGS bits. -/
def elemEncode (f : Nat) (r : Rnd) (ftz : Bool) (v : Fp) : FRes :=
  match fmtFp f with
  | some g => let x := convFp g r ftz v; if f = 17 then { x with bits := x.bits * 8192 } else x
  | none =>
    let n := fmtBits f
    let (k, fl) := if fmtSigned f then convInt (-2 ^ (n - 1)) (2 ^ (n - 1) - 1) r v else convInt 0 (2 ^ n - 1) r v
    { bits := (k % 2 ^ n).toNat, flags := fl }

/-- A value divided by its block scale (R248). -/
def unscale (f : Nat) (scale : Option Nat) (v : Fp) : Fp :=
  match scale with
  | none => v
  | some 255 => .nan false
  | some e => scaleFp (127 - (e : Int) + (if f = 6 then 6 else 0)) v

/-- A rounding decision of a two-bit mode. -/
def rnd2 (m : BitVec 2) : Rnd :=
  match m.toNat with
  | 0 => .rne
  | 1 => .rz
  | 2 => .ru
  | _ => .rd

/-- The offset in its page of the scale of the block that holds a page offset, or nothing in the scale area (R507). -/
def scaleOffset (f g size off : Nat) : Option Nat :=
  let b := blockBytes f g
  let p := 2 ^ size
  if off < p - p / b then some (p - p / b + off / b) else none

end Sys2Proof.Machine
end

