-- ==== Sys2Proof/Machine/Walker.lean ====
section
/-! DEFINITION. The walker: page walks, translation faults and their replies, invalidation, `TLBINV` and `PGACC`
(R503 to R511, R516 to R518). -/

namespace Sys2Proof.Machine

/-- KIND of a host fault record (R511). -/
def kindCode : AccKind → Nat
  | .load => 0
  | .store => 1
  | .fetch => 2
  | .engRead => 3
  | .engWrite => 4
  | .rmo => 5
  | .zenith | .zenWrite => 6
  | .other => 7

/-- Add waiters to a list, each once. -/
def joinWaiters (xs ys : List Waiter) : List Waiter := xs ++ ys.filter (fun w => !xs.contains w)

/-- The first free identifier of a replayable fault. -/
def freeFaultId (s : State) : Option Nat := (List.range (s.tfaults.length + 1)).find? (fun n => (look s.tfaults n).isNone)

/-- A walk ends in a translation fault: it joins the outstanding fault of its page, or raises one and tells the host. At
most 4,096 are outstanding; beyond that the walk waits (R510, R511). -/
def raiseTFault (s : State) (n : Nat) (k : Walk) (cause detail : Nat) (entry : W64) : State :=
  match s.tfaults.find? (fun e => e.2.ctx = k.ctx ∧ e.2.page = pageOf k.va) with
  | some (id, f) =>
    { s with walks := del s.walks n, tfaults := put s.tfaults id { f with waiters := joinWaiters f.waiters k.waiters } }
  | none =>
    if 4096 ≤ s.tfaults.length then s
    else match freeFaultId s with
      | none => s
      | some id =>
        let s := { s with walks := del s.walks n
                          tfaults := put s.tfaults id { ctx := k.ctx, page := pageOf k.va, kind := k.kind, cause, detail, waiters := k.waiters } }
        hostRecord s k.ctx (hostWords k.ctx (kindCode k.kind) detail cause true k.va (BitVec.ofNat 64 id) entry)

/-- The rights that an access needs and a leaf lacks: cause and detail (R505, R509, R519). -/
def rightFault (k : AccKind) (e : W64) : Option (Nat × Nat) :=
  if k = .fetch ∧ !leafX e then some (0x52, 1)
  else if isWriteKind k ∧ !leafW e then some (0x51, 1)
  else none

/-- A walk runs (R504 to R510): it fills the TLBs and sets A, and D for a write, or raises a translation fault. -/
def pageWalk (s : State) (n : Nat) (k : Walk) : State :=
  match walkPage s k.ctx k.va with
  | .bad cause detail e => raiseTFault s n k cause detail e
  | .leaf e size at_ =>
    match rightFault k.kind e with
    | some (cause, detail) => raiseTFault s n k cause detail e
    | none =>
      let e' := e ||| 0x80 ||| (if isWriteKind k.kind then 0x40 else 0)
      let s := if e' = e then s else engineWrite64 s at_ e'
      tlbFill { s with walks := del s.walks n } k.core k.ctx k.va e' size

/-- PAGE_WALK: a context table in a hole of R501 has no meaning in the spec. -/
def execPageWalk (n : Nat) (s : State) : Host.Outcome State Fault Refusal :=
  match look s.walks n with
  | none => .next s
  | some k =>
    if (tierOf (ctxEntry s k.ctx)).isNone then .fault (.hole (ctxEntry s k.ctx))
    else .next (pageWalk s n k)

/-- The task under which Zenith writes the slots of a queue. -/
def taskSlot (q : Nat) : Nat := 4 * q

/-- A fault is answered: the records whose slot writes waited for it stay in their queues' pending lists until they have entered
(R531). -/
def noteSlots (s : State) (ws : List Waiter) : State :=
  let mark (q : Nat) (x : ZQueue) : ZQueue :=
    if ws.contains (.zen (taskSlot q)) then { x with pending := match x.pending with
      | r :: rest => { r with faulted := true } :: rest
      | [] => [] } else x
  { s with zen := { s.zen with queues := s.zen.queues.map (fun e => (e.1, mark e.1 e.2)) } }

/-- FQREPLY with DECLINE = 0: the fault is over, and its accesses walk again (R511). -/
def execFqreplyRetry (h rec : Nat) (s : State) : Host.Outcome State Fault Refusal :=
  match look s.tfaults rec with
  | some f => .next (if hostOf f.ctx = h then { noteSlots s f.waiters with tfaults := del s.tfaults rec } else s)
  | none => .next s

/-- FQREPLY with DECLINE = 1: every access of the fault ends with its cause (R511). -/
def execFqreplyDecline (h rec : Nat) (s : State) : Host.Outcome State Fault Refusal :=
  match look s.tfaults rec with
  | some f =>
    .next (if hostOf f.ctx = h then
      { noteSlots s f.waiters with
               tfaults := del s.tfaults rec
               declined := s.declined ++ f.waiters.map (fun w => { waiter := w, ctx := f.ctx, page := f.page, cause := f.cause, detail := f.detail }) }
      else s)
  | none => .next s

/-! Invalidation (R510, R517). -/

/-- The accesses of a context that are translated and not bound or performed: loads, packets, and operations at other
devices. -/
def ctxLoads (s : State) (ctx : Nat) : List Nat :=
  (s.loads.filter (fun e => ((team s e.2.src.team).map (·.launch.ctx)) = some ctx)).map (·.1)
def ctxPkts (s : State) (ctx : Nat) : List Nat := (s.pkts.filter (fun e => e.2.ctx = ctx)).map (·.1)
def ctxAways (s : State) (ctx : Nat) : List Nat :=
  (s.fab.away.filter (fun e => ((team s e.2.src.team).map (·.launch.ctx)) = some ctx)).map (·.1)

/-- Remove translations and note the accesses to wait for. -/
def startInval (s : State) (ctx : Nat) (va : Option W64) (h : Option Nat) (src : Option SrcId) : State :=
  let (n, s) := newId (tlbDrop s ctx va)
  { s with invals := put s.invals n { ctx, page := va.map pageOf, host := h, src, loads := ctxLoads s ctx, pkts := ctxPkts s ctx ++ ctxAways s ctx } }

/-- What an invalidation waits for is still under way. -/
def invalWaits (s : State) (v : Inval) : Bool :=
  v.loads.any (fun k => (look s.loads k).isSome) || v.pkts.any (fun k => (look s.pkts k).isSome || (look s.fab.away k).isSome)

/-- A write of 1 to INVCTL.BUSY while none runs there. -/
def invctl (h : Nat) (v : W64) (va : Option W64) (s : State) : State :=
  if (host s h).invctl.getLsbD 0 then s
  else startInval (updHost s h (fun r => { r with invctl := v &&& ~~~0x7C#64 })) (fieldN v 48 16) va (some h) none

/-- The address that INVCTL names. -/
def invctlVa (v : W64) : W64 := BitVec.ofNat 64 (fieldN v 7 41 * 65536)

def execInvctlPage (h : Nat) (v : W64) (s : State) : Host.Outcome State Fault Refusal :=
  .next (if v.getLsbD 0 ∧ !v.getLsbD 1 then invctl h v (some (invctlVa v)) s else s)
def execInvctlContext (h : Nat) (v : W64) (s : State) : Host.Outcome State Fault Refusal :=
  .next (if v.getLsbD 0 ∧ v.getLsbD 1 then invctl h v none s else s)

/-- An invalidation completes once its accesses have bound or been performed (R517): BUSY clears, or the word's source
goes on. -/
def execInvalidationComplete (n : Nat) (s : State) : Host.Outcome State Fault Refusal :=
  match look s.invals n with
  | none => .next s
  | some v =>
    if invalWaits s v then .next s
    else
      let s := { s with invals := del s.invals n }
      .next (match v.host with
        | some h => updHost s h (fun r => { r with invctl := r.invctl &&& ~~~1#64 })
        | none => s)

/-- Every earlier store, atomic and remote opcode of the source is performed (R64), and every `CFLUSH` (R253). -/
def relDone (gr : Group) : Bool :=
  gr.ops.all (fun e => !(e.2.kind = .store ∨ e.2.kind = .atomic ∨ e.2.kind = .rmo ∨ e.2.kind = .cflush))

/-- An address outside the 57 bits of R225. -/
def nonCanonical (va : W64) : Bool := va >>> 57 != 0

/-- The lanes whose address is not canonical fault with ADDR_RANGE 1 (R225, R228). -/
def canonCheck (c : Ctx) (lanes : Mask) (va : Nat → W64) : Except Stop Unit :=
  let m := maskOf (fun l => lanes.getLsbD l && nonCanonical (va l))
  if m = 0 then .ok () else .error (.trap 0x41 1 m (va (lowest m)))

/-- TLBINV (R517): it waits as `REL`, and its source stalls until the invalidation completes. -/
def execTlbinv (w : FWord) (ctx : Bool) (s : State) :=
  let i := Instr.tlbinv w ctx
  let va (c : Ctx) : W64 := (laneIn i w s c (lowest c.act)).a
  runEff i w
    (fun c => do
      if !relDone c.gr then throw .wait
      if ctx then pure () else canonCheck c (oneLane (lowest c.act)) (fun _ => va c)
      pure ())
    noOut
    (fun c s' => startInval s' c.t.launch.ctx (if ctx then none else some (va c)) none (some c.id)) s

/-- The scratchpad window and the counter window (R226, R502). -/
def inScratch (va : W64) : Bool := 0x01FFFF0000000000 ≤ va.toNat && va.toNat ≤ 0x01FFFF00000FFFFF
def inCounters (va : W64) : Bool := 0x01FFFE0000000000 ≤ va.toNat && va.toNat ≤ 0x01FFFE00000FFFFF

/-- The result of `PGACC` for an address (R518). -/
def pgaccWord (s : State) (ctx : Nat) (va : W64) : W64 :=
  if inScratch va || inCounters va then 0
  else match walkPage s ctx va with
    | .bad cause _ _ => BitVec.ofNat 64 cause
    | .leaf e size _ =>
      let b (x : Bool) (n : Nat) : Nat := if x then 2 ^ n else 0
      BitVec.ofNat 64 (2 ^ 63 + (if size = 16 then 0 else if size = 21 then 2 ^ 61 else 2 ^ 62) + leafTier e * 2 ^ 59 +
        leafChs e * 2 ^ 56 + b (leafMs e) 55 + b (e.getLsbD 55) 54 + leafFmt e * 2 ^ 50 + leafGeom e * 2 ^ 48 +
        b (leafW e) 47 + b (leafX e) 46 + b (leafA e) 45 + b (leafD e) 44 + (leafPa e + va.toNat % 2 ^ size / 65536 * 65536) / 65536)

/-- `PGACC.ca` on one address: A is cleared in the leaf and the page's TLB entries go (R518). -/
def pgaccClear (s : State) (ctx : Nat) (va : W64) : State :=
  if inScratch va || inCounters va then s
  else match walkPage s ctx va with
    | .leaf e _ at_ => if leafA e then tlbDrop (engineWrite64 s at_ (e &&& ~~~0x80#64)) ctx (some va) else s
    | .bad _ _ _ => s

/-- PGACC (R518). -/
def execPgacc (w : FWord) (ca : Bool) (s : State) :=
  let i := Instr.pgacc w ca
  let va (c : Ctx) (l : Nat) : W64 := (laneIn i w s c l).a
  runEff i w (fun c => canonCheck c c.act (va c))
    (fun c l => { val := pgaccWord s c.t.launch.ctx (va c l) })
    (fun c s' => if ca then (lanesOf c.act).foldl (fun s l => pgaccClear s c.t.launch.ctx (va c l)) s' else s') s

end Sys2Proof.Machine
end

