-- ==== Sys2Proof/Machine/Access.lean ====
section
/-! DEFINITION. What every memory-class word shares: addresses and their checks, the scratchpad and the counter window,
waits, and issuing loads and operations with their packets (R71 to R76, R224 to R242). -/

namespace Sys2Proof.Machine

/-- The 128-byte line of a physical address. -/
def lineOf (pa : Nat) : Nat := pa / 128

/-! Destinations of packets (R76, R296): slices 0 to 255, channel units from 1,000, slices of other devices from 4,096, register
gateways by the group they serve from 1,000,000. -/

def destChan (c : Nat) : Nat := 1000 + c
def destDev (d slice : Nat) : Nat := 4096 + 256 * d + slice
def destGroup (id : SrcId) : Nat := 1000000 + 64 * id.team + id.g
/-- The destination of an access to a physical address: its home slice, or the owning device (R60, R443). -/
def destOf (pa : Nat) : Nat := if tierOf pa = some 3 then destDev (peerDev pa) (homeSlice (peerAddr pa)) else homeSlice pa

/-! Addresses (R224). -/

/-- The address of a lane: the base and the offset of SB or the immediate. -/
def addrOf (i : Instr) (w : FWord) (s : State) (c : Ctx) (l : Nat) : W64 :=
  let x := laneIn i w s c l
  x.a + x.b

/-- The offset in the scratchpad window, and in the counter window. -/
def scratchOff (va : W64) : Nat := va.toNat - 0x01FFFF0000000000
def counterOff (va : W64) : Nat := va.toNat - 0x01FFFE0000000000

/-- The bytes of a team's scratchpad (R226). -/
def scratchSize (t : Team) : Nat := t.launch.scrkb * 1024

/-- The requester of a lane access, as the walker knows it. -/
def srcWaiter (c : Ctx) : Waiter := .src c.id
/-- Translate for the issue's source. -/
def transAcc (s : State) (c : Ctx) (k : AccKind) (va : W64) : TRes :=
  translate s c.t.core c.t.launch.ctx k (srcWaiter c) (va &&& 0x1FFFFFFFFFFFFFF)

/-- The address of the last byte of an access. -/
def lastByte (va : W64) (n : Nat) : W64 := va + BitVec.ofNat 64 (n - 1)
/-- An access reaches a second page. -/
def crosses (va : W64) (n : Nat) : Bool := pageOf va != pageOf (lastByte va n)

/-- The physical bytes of an access to memory, in address order, once it translates. -/
def physBytes (s : State) (c : Ctx) (k : AccKind) (va : W64) (n : Nat) : List Nat :=
  (List.range n).filterMap (fun j =>
    let a := va + BitVec.ofNat 64 j
    let base := if pageOf a = pageOf va then va else a &&& ~~~0xFFFF#64
    match transAcc s c k base with
    | .ok pa _ => some (pa + (a.toNat - base.toNat))
    | _ => none)

/-- One stage of the checks of R228: the first cause in any lane, for all lanes with it. -/
def stage (c : Ctx) (va : Nat → W64) (f : Nat → Option (Nat × Nat)) : Except Stop Unit :=
  match (lanesOf c.act).findSome? f with
  | none => .ok ()
  | some (cause, detail) =>
    let m := maskOf (fun l => c.act.getLsbD l && ((f l).map (·.1)) == some cause)
    .error (.trap cause detail m (va (lowest m)))

/-- ADDR_RANGE (R225, R226). -/
def rangeFault (t : Team) (va : W64) (n : Nat) : Option (Nat × Nat) :=
  if nonCanonical va then some (0x41, 1)
  else if inScratch va && decide (scratchSize t < scratchOff va + n) then some (0x41, 2)
  else if crosses va n && !inScratch va && inScratch (lastByte va n) then some (0x41, 2)
  else none

/-- MISALIGNED (R227). -/
def alignFault (al : Nat) (va : W64) : Option (Nat × Nat) := if va.toNat % al ≠ 0 then some (0x40, 0) else none

/-- The fault that an access meets at its translation: a decline, a feature that is off, or a write to the counter
window (R228, R515, R524). -/
def transFault (s : State) (c : Ctx) (k : AccKind) (va : W64) (n : Nat) : Option (Nat × Nat) :=
  let one (a : W64) : Option (Nat × Nat) :=
    if inScratch a then none
    else if inCounters a then (if isWriteKind k then some (0x51, 2) else none)
    else match transAcc s c k a with
      | .bad cause detail => some (cause, detail)
      | _ => none
  match one va with
  | some x => some x
  | none => if crosses va n then one (lastByte va n) else none

/-- The address whose page an access still has to walk for. -/
def needsWalk (s : State) (c : Ctx) (k : AccKind) (va : W64) (n : Nat) : Option W64 :=
  let one (a : W64) : Option W64 :=
    if inScratch a || inCounters a then none
    else match transAcc s c k a with
      | .walk => some (a &&& 0x1FFFFFFFFFFFFFF)
      | _ => none
  match one va with
  | some x => some x
  | none => if crosses va n then one (lastByte va n) else none

/-- The walk that the lowest lane of those that need one waits for (R228, R510). -/
def walkStage (s : State) (c : Ctx) (k : AccKind) (va : Nat → W64) (n : Nat → Nat) : Except Stop Unit :=
  match (lanesOf c.act).findSome? (fun l => needsWalk s c k (va l) (n l)) with
  | some a => .error (.walk c.t.core c.t.launch.ctx a k (srcWaiter c))
  | none => .ok ()

/-- The translation stage (R228, R510): every lane is translated before a fault of any is reported. -/
def transStage (s : State) (c : Ctx) (k : AccKind) (va : Nat → W64) (n : Nat → Nat) : Except Stop Unit := do
  walkStage s c k va n
  stage c va (fun l => transFault s c k (va l) (n l))

/-- The checks of an access of n bytes by each executing lane (R228). -/
def accessCheck (s : State) (c : Ctx) (k : AccKind) (al : Nat) (n : Nat → Nat) (va : Nat → W64) : Except Stop Unit := do
  stage c va (fun l => rangeFault c.t (va l) (n l))
  stage c va (fun l => alignFault al (va l))
  transStage s c k va n

/-- The page of an element access, once it translates. -/
def elemPage (s : State) (c : Ctx) (k : AccKind) (va : W64) : Option (Nat × TlbEntry) :=
  if inScratch va || inCounters va then none
  else match transAcc s c k va with
    | .ok pa e => some (pa, e)
    | _ => none

/-- The bits of the element that an access names; 8 while its page is not known. -/
def elemBits (s : State) (c : Ctx) (k : AccKind) (va : W64) : Nat :=
  match elemPage s c k va with
  | some (_, e) => fmtBits (leafFmt e.leaf)
  | none => 8

/-- The offset of an address in its page. -/
def pageOffset (e : TlbEntry) (va : W64) : Nat := va.toNat % 2 ^ e.size

/-- The element checks (R192, R193, R247, R248, R507). A page of blocks that are not of 32 elements, on which lane
instructions do not work (R192), and an `STE` to a page of INT4 or UINT4, which no instruction produces (R193), have no
cause of their own in the spec: they count as an unformatted page and as a width that does not fit (log 24). -/
def elemFault (s : State) (c : Ctx) (k : AccKind) (el : ElSel) (va : W64) : Option (Nat × Nat) :=
  if inScratch va || inCounters va then some (0x43, 0)
  else match elemPage s c k va with
    | none => none
    | some (_, e) =>
      let f := leafFmt e.leaf
      let g := leafGeom e.leaf
      if f = 0 ∨ (g ≠ 0 ∧ (g ≠ 2 ∨ (scaleOffset f g e.size (pageOffset e va)).isNone)) then some (0x43, 0)
      else if fmtBits f = 6 ∨ (k = .store ∧ (f = 10 ∨ f = 11)) then some (0x44, 2)
      else if (el == .e) != decide (8 ≤ fmtBits f) then some (0x44, 1)
      else none

/-- The checks of `LDE` and `STE` (R227, R228, R247). What an element's page tells is needed before the first of them that
depends on it, so the walks come before: every lane with a cause is then among those reported. -/
def elemCheck (s : State) (c : Ctx) (k : AccKind) (el : ElSel) (va : Nat → W64) : Except Stop Unit := do
  stage c va (fun l => rangeFault c.t (va l) 1)
  walkStage s c k va (fun _ => 1)
  stage c va (fun l => if elemBits s c k (va l) = 16 then alignFault 2 (va l) else none)
  stage c va (fun l => elemFault s c k el (va l))
  stage c va (fun l => transFault s c k (va l) 1)

/-- The physical address of the scale of an element's block. -/
def scalePa (e : TlbEntry) (va : W64) : Option Nat :=
  let g := leafGeom e.leaf
  if g = 0 then none
  else (scaleOffset (leafFmt e.leaf) g e.size (pageOffset e va)).map (leafPa e.leaf + ·)

/-! Waits (R63, R65, R71, R75, R238). -/

/-- Outstanding loads of a source. -/
def srcLoads (s : State) (id : SrcId) : List LoadOp := (s.loads.filter (fun e => e.2.src = id)).map (·.2)

/-- No memory access of the source issues while an acquire of it is to be performed, and MEMQ has room (R65, R238). -/
def memWait (s : State) (c : Ctx) (counted : Bool) : Except Stop Unit :=
  if (srcLoads s c.id).any (·.acquire) || (counted && decide (63 ≤ c.gr.memq)) then .error .wait else .ok ()

/-- A store waits until every earlier load has bound (R71), and a release also until the earlier writes are performed
(R64). -/
def storeWait (s : State) (c : Ctx) (rel : Bool) : Except Stop Unit :=
  if !(srcLoads s c.id).isEmpty || (rel && !relDone c.gr) then .error .wait else .ok ()

/-- A strong load waits until the earlier strong loads, atomics and `RMO.r` have bound (R71). -/
def strongWait (s : State) (c : Ctx) : Except Stop Unit :=
  if (srcLoads s c.id).any (·.strong) then .error .wait else .ok ()

/-- The counters of a stream of a source. -/
def streamOf (gr : Group) (k : Nat) : Stream := get {} gr.streams k

/-- A stream issue stalls that would bring (next - watermark) to 2^23 (R75). -/
def streamWait (c : Ctx) (k : Nat) : Except Stop Unit :=
  if k ≠ 0 ∧ 2 ^ 23 - 1 ≤ ((streamOf c.gr k).next - (streamOf c.gr k).wm).toNat then .error .wait else .ok ()

/-- Earlier writes of the source that touch a byte of some bytes (R232). -/
def pendingOn (gr : Group) (pas : List Nat) : List Op :=
  (gr.ops.filter (fun e => e.2.pas.any (fun p => pas.contains p))).map (·.2)

/-- The latest of some operations in group order. -/
def youngest (ops : List Op) : Option Op :=
  ops.foldl (fun b o => match b with
    | some x => if x.ord < o.ord then some o else b
    | none => some o) none

/-- What the pending stores of the source make of a weak load's bytes (R232): nothing pending, the youngest store's data
if it wrote them all, or a wait. -/
inductive Forward where
  | memory
  | data (bs : List Byte)
  | wait
  deriving DecidableEq, Repr
def forward (gr : Group) (pas : List Nat) : Forward :=
  match youngest (pendingOn gr pas) with
  | none => .memory
  | some o =>
    let bs := pas.filterMap (fun p => (o.data.reverse.find? (fun e => e.1 = p)).map (·.2))
    if bs.length = pas.length then .data bs else .wait

/-! Scratchpad and counters. -/

/-- Bytes of a team's scratchpad. -/
def scratchRead (t : Team) (off n : Nat) : List Byte := (List.range n).map (fun k => get 0 t.scratch (off + k))
/-- Write bytes of a team's scratchpad. -/
def scratchWrite (t : Team) (bs : List (Nat × Byte)) : Team :=
  { t with scratch := bs.foldl (fun m e => set 0 m e.1 e.2) t.scratch }

/-- A doubleword of the counter window (R515): what a channel counts of accesses, rows, refreshes, corrected errors and
compressed units depends on what the model leaves out, and is free (log 21); its uncorrectable errors (R239) and whether it
is retired or narrowed are not. -/
def counterRead (s : State) (dw : Nat) : W64 :=
  if dw < 448 * 8 then
    (if dw % 8 = 7 then BitVec.ofNat 64 (get 0 s.sys.channels (dw / 8))
    else if dw % 8 = 4 then get 0 s.counters dw else Config.counter s.fresh dw)
  else if dw = 0xD600 / 8 then s.chmapId.setWidth 64
  else if 0xD000 / 8 ≤ dw ∧ dw < 0xD600 / 8 ∧ dw % 4 = 0 then
    let n := (dw - 0xD000 / 8) / 4
    (if portUp s n then 1 else 0) ||| ((get 0 s.fab.ports n).setWidth 64 <<< 32)
  else get 0 s.counters dw
/-- Bytes of the counter window. -/
def counterBytes (s : State) (off n : Nat) : List Byte :=
  (List.range n).map (fun k => (counterRead s ((off + k) / 8)).extractLsb' (8 * ((off + k) % 8)) 8)

/-! Issuing loads. -/

/-- Registers of some lanes become pending (R132). -/
def pend (sb : FMap Mask) (regs : List (Nat × Nat)) : FMap Mask :=
  regs.foldl (fun m e => set 0 m e.1 (get 0 m e.1 ||| oneLane e.2)) sb
/-- Registers of some lanes are released. -/
def unpend (sb : FMap Mask) (regs : List (Nat × Nat)) : FMap Mask :=
  regs.foldl (fun m e => set 0 m e.1 (get 0 m e.1 &&& ~~~oneLane e.2)) sb

/-- The number of registers that one access of a load writes. -/
def loadRegs : LoadKind → Nat
  | .plain .d | .old true => 2
  | .plain .q => 4
  | _ => 1

/-- The registers and lanes that an outstanding load will write. -/
def loadDsts (op : LoadOp) : List (Nat × Nat) :=
  if op.ws then [] else op.accs.flatMap (fun a => (List.range (loadRegs op.kind)).map (fun k => (a.reg + k, a.lane)))

/-- The issue of a load (R238): its destinations become pending, and a load that uses a latch opens a chain (R141). -/
def issueLoad (i : Instr) (w : FWord) (s : State) (c : Ctx) (op : LoadOp) (n : Nat) : State :=
  let gr := beginIssue i w s c (if usesLatch w then some n else none)
  let gr := { gr with sb := pend gr.sb (loadDsts op), memq := gr.memq + (if op.counted then 1 else 0) }
  endIssue w { s with loads := put s.loads n op } c gr 0 0

/-- The packets of the strong accesses of a load, one to each destination. -/
def loadPkts (s : State) (c : Ctx) (load : Nat) (op : LoadOp) : State :=
  let idx := (List.range op.accs.length).zip op.accs
  let far := idx.filter (fun e => e.2.val.isNone && !e.2.pas.isEmpty)
  let dest (e : Nat × LoadAcc) : Nat := destOf (e.2.pas.headD 0)
  ((far.map dest).eraseDups).foldl (fun s d =>
    let (n, s) := newId s
    let p : Pkt :=
      { src := c.id, op := none, ctx := c.t.launch.ctx, core := c.t.core, dest := d, stream := 0, seq := 0, wm := 0, flag := false
        body := .load load ((far.filter (fun e => dest e == d)).map (·.1)) }
    { s with pkts := put s.pkts n p }) s

/-! Issuing stores and other operations. -/

/-- The bytes that a packet's body writes. -/
def bodyPas : Body → List Nat
  | .store ws _ => ws.flatMap (fun x => x.bytes.map (·.1))
  | .ste ws _ _ => ws.map (·.pa) ++ ws.filterMap (fun x => if fmtBits x.fmt = 16 then some (x.pa + 1) else none)
  | .atom _ _ d ls => ls.flatMap (fun x => (List.range (if d then 8 else 4)).map (x.pa + ·))
  | .rmo _ hdr _ rs => rs.flatMap (fun x => (List.range (4 * fieldN hdr.dw0 0 8)).map (x.pa + ·))
  | .eng _ ws => ws.map (·.pa)
  | _ => []

/-- The earlier writes of the source on a common line that a packet waits for (R74): R77 orders those of its own stream
1 to 7. -/
def lineWaits (gr : Group) (stream : Nat) (pas : List Nat) : List Nat :=
  (gr.ops.filter (fun e => (e.2.kind = .store ∨ e.2.kind = .atomic ∨ e.2.kind = .rmo) ∧ (stream = 0 ∨ e.2.stream ≠ stream) ∧
    e.2.pas.any (fun p => pas.any (fun q => lineOf q == lineOf p)))).map (·.1)

/-- The parts of a packet that are acknowledged one by one: the requests of a remote opcode (R398). -/
def bodyParts : Body → Nat
  | .rmo _ _ _ rs => rs.length
  | _ => 1

/-- A packet is a multicast's, whose home slices its members find by their own translation (R452). -/
def isMcast : Body → Bool
  | .mcast _ _ => true
  | _ => false

/-- An operation of a source with its packets (R75, R76): it takes the stream's next number, and each packet carries it
with the watermark and the same-destination flag. A multicast's packets go to slices that the issue does not know: its own
flag is clear, and so is that of the stream's next issue (log 24). -/
def sendOp (s : State) (c : Ctx) (op : Op) (bodies : List (Nat × Body)) : State :=
  match group s c.id with
  | none => s
  | some gr =>
    let st := streamOf gr op.stream
    let seq := if op.stream = 0 then 0 else st.next + 1
    let (n, s) := newId s
    let s := bodies.foldl (fun s e =>
      let (k, s) := newId s
      let p : Pkt :=
        { src := c.id, op := some n, ctx := c.t.launch.ctx, core := c.t.core, dest := e.1, stream := op.stream, seq, wm := st.wm
          flag := st.last == some e.1 && !isMcast e.2, after := lineWaits gr op.stream (bodyPas e.2), body := e.2 }
      { s with pkts := put s.pkts k p }) s
    let last := if bodies.length = 1 ∧ !bodies.any (fun e => isMcast e.2) then (bodies.head?).map (·.1) else none
    updGroup s c.id (fun gr =>
      { gr with ops := put gr.ops n { op with seq, left := (bodies.map (fun e => bodyParts e.2)).sum }
                memq := gr.memq + (if op.counted then 1 else 0)
                streams := if op.stream = 0 then gr.streams else put gr.streams op.stream { st with next := seq, last } })

/-- One packet's body for each destination of some lane items. -/
def byDest {α : Type} (dest : α → Nat) (mk : List α → Body) (xs : List α) : List (Nat × Body) :=
  ((xs.map dest).eraseDups).map (fun d => (d, mk (xs.filter (fun x => dest x == d))))

/-- The state after a word that issues operations and computes nothing. -/
def advance (i : Instr) (w : FWord) (s : State) (c : Ctx) : State := commitWord i w s c (fun _ => {})

end Sys2Proof.Machine
end

