-- ==== Sys2Proof/Machine/Memory.lean ====
section
/-! DEFINITION. Class 100 and the lead's scalar accesses: loads, stores, element accesses, register arrays, atomics, fences,
prefetch and cache maintenance (R243 to R253, R276). -/

namespace Sys2Proof.Machine

/-! Loads. -/

/-- The bytes of a load size. -/
def ldBytes : LdSize → Nat
  | .w => 4
  | .d => 8
  | .q => 16
  | .ub | .sb => 1
  | .uh | .sh => 2

/-- Some executing lane reaches memory or the counters: scratchpad-only issues are not counted (R238). -/
def reachesMemory (c : Ctx) (va : Nat → W64) : Bool := (lanesOf c.act).any (fun l => !inScratch (va l))

/-- The page of an access is memory-side. -/
def onMs (s : State) (c : Ctx) (k : AccKind) (va : W64) : Bool :=
  match transAcc s c k va with
  | .ok _ e => memSide e.leaf
  | _ => false

/-- One access of a load (R232, R235, R515): scratchpad and counters are read at issue, pending stores are forwarded to
weak loads, and everything else is read later. -/
def loadAcc (s : State) (c : Ctx) (strong : Bool) (va : W64) (n lane reg : Nat) : Except Stop LoadAcc :=
  if inScratch va then .ok { lane, reg, pas := [], val := some (scratchRead c.t (scratchOff va) n) }
  else if inCounters va then .ok { lane, reg, pas := [], val := some (counterBytes s (counterOff va) n) }
  else
    let pas := physBytes s c .load va n
    match forward c.gr pas with
    | .memory => .ok { lane, reg, pas, ms := onMs s c .load va }
    | .data bs => if strong then .error .wait else .ok { lane, reg, pas, val := some bs }
    | .wait => .error .wait

/-- A new load of the issue. -/
def newLoad (w : FWord) (c : Ctx) (kind : LoadKind) (accs : List LoadAcc) (strong acq counted : Bool) (pol : L1Pol) : LoadOp :=
  { src := c.id, ord := c.gr.ord, lanes := c.act, kind, accs, strong, pol, acquire := acq, counted
    opener := usesLatch w, dl := w.dl, ws := w.ws }

/-- Issue a load with its accesses; strong ones leave for their home slices. -/
def launchLoad (i : Instr) (w : FWord) (s : State) (c : Ctx) (op : LoadOp) : State :=
  let (n, s) := newId s
  let s := issueLoad i w s c op n
  if op.strong then loadPkts s c n op else s

/-- `LD`, `LDS`, `SLD` and `SLDS` (R245, R276). -/
def loadWord (i : Instr) (w : FWord) (kind : LoadKind) (n al : Nat) (strong acq : Bool) (pol : L1Pol) (s : State) :
    Host.Outcome State Fault Refusal :=
  finish s (do
    let c ← prologue i w s
    if c.act = 0 then pure (advance i w s c)
    else
      let va := addrOf i w s c
      let counted := reachesMemory c va
      memWait s c counted
      if strong then strongWait s c
      accessCheck s c .load al (fun _ => n) va
      let accs ← (lanesOf c.act).mapM (fun l => loadAcc s c strong (va l) n l w.dst.toNat)
      pure (launchLoad i w s c (newLoad w c kind accs strong acq counted pol)))

def execLd (w : FWord) (sz : LdSize) (pol : L1Pol) (acq : Bool) (s : State) :=
  loadWord (.ld w sz pol acq) w (.plain sz) (ldBytes sz) 1 false acq pol s
def execLds (w : FWord) (sz : LdSize) (acq : Bool) (s : State) :=
  loadWord (.lds w sz acq) w (.plain sz) (ldBytes sz) (ldBytes sz) true acq .normal s
/-- The size of a scalar access. -/
def scalarSize (d : Bool) : LdSize := if d then .d else .w
def execSld (w : FWord) (d acq : Bool) (s : State) :=
  loadWord (.sld w d acq) w (.plain (scalarSize d)) (if d then 8 else 4) 1 false acq .normal s
def execSlds (w : FWord) (d acq : Bool) (s : State) :=
  loadWord (.slds w d acq) w (.plain (scalarSize d)) (if d then 8 else 4) (if d then 8 else 4) true acq .normal s

/-- The access of an `LDE` lane (R247). -/
def elemAcc (s : State) (c : Ctx) (va : W64) (lane reg : Nat) : Except Stop LoadAcc :=
  match elemPage s c .load va with
  | none => .error .wait
  | some (pa, e) =>
    let f := leafFmt e.leaf
    let pas := (List.range (if fmtBits f = 16 then 2 else 1)).map (pa + ·)
    let scale := scalePa e va
    match forward c.gr (pas ++ scale.toList) with
    | .memory => .ok { lane, reg, pas, fmt := f, scale, ms := memSide e.leaf }
    | .data bs => .ok { lane, reg, pas, fmt := f, scale, val := some (bs.take pas.length)
                        scaleVal := if scale.isSome then bs.getLast? else none }
    | .wait => .error .wait

def execLde (w : FWord) (el : ElSel) (pol : L1Pol) (acq : Bool) (s : State) : Host.Outcome State Fault Refusal :=
  let i := Instr.lde w el pol acq
  finish s (do
    let c ← prologue i w s
    if c.act = 0 then pure (advance i w s c)
    else
      let va := addrOf i w s c
      memWait s c true
      elemCheck s c .load el va
      let accs ← (lanesOf c.act).mapM (fun l => elemAcc s c (va l) l w.dst.toNat)
      pure (launchLoad i w s c (newLoad w c (.elem el (rmodeOf c.t.flags) (ftzOf c.t.flags)) accs false acq true pol)))

/-! Register arrays (R249). -/

/-- The index register of a lane. -/
def xregOf (c : Ctx) (x : BitVec 2) (l : Nat) : XReg := get {} c.gr.x (32 * x.toNat + l)

/-- The words of a lane's window: their number and its first register. -/
def windowLen (c : Ctx) (x : BitVec 2) (l : Nat) : Nat := ((xregOf c x l).limit.toNat - (xregOf c x l).index.toInt).toNat
def windowReg (c : Ctx) (x : BitVec 2) (l : Nat) : Nat := ((xregOf c x l).base.toNat + (xregOf c x l).index.toInt).toNat
/-- The registers of a lane's window. -/
def windowRegs (c : Ctx) (x : BitVec 2) (l : Nat) : List Nat := (List.range (windowLen c x l)).map (windowReg c x l + ·)

/-- The checks of a register array (R249): bounds, range, pending registers, and ERR marks of a store's sources. -/
def windowCheck (c : Ctx) (x : BitVec 2) (store : Bool) : Except Stop Unit := do
  let bad (l : Nat) : Bool := (xregOf c x l).index.toInt < 0 || ((xregOf c x l).limit.toNat : Int) ≤ (xregOf c x l).index.toInt
  if (lanesOf c.act).any bad then throw (.trap 0x05 3 c.act 0)
  rangeCheck c (windowRegs c x)
  if (lanesOf c.act).any (fun l => (windowRegs c x l).any (fun n => !regReady c.gr n l)) then throw .wait
  if store then errCheck c (windowRegs c x)

def execLdx (w : FWord) (x : BitVec 2) (pol : L1Pol) (acq : Bool) (s : State) : Host.Outcome State Fault Refusal :=
  let i := Instr.ldx w x pol acq
  finish s (do
    let c ← prologue i w s
    if c.act = 0 then pure (advance i w s c)
    else
      windowCheck c x false
      let va := addrOf i w s c
      let counted := reachesMemory c va
      memWait s c counted
      accessCheck s c .load 4 (fun l => 4 * windowLen c x l) va
      let accs ← ((lanesOf c.act).flatMap (fun l => (List.range (windowLen c x l)).map (fun k => (l, k)))).mapM
        (fun e => loadAcc s c false (va e.1 + BitVec.ofNat 64 (4 * e.2)) 4 e.1 (windowReg c x e.1 + e.2))
      pure (launchLoad i w s c (newLoad w c .word accs false acq counted pol)))

/-! Stores. -/

/-- The data register that the immediate variants imply (R244). -/
def impliedVal (w : FWord) (c : Ctx) (wide : Bool) (l : Nat) : W64 :=
  match w.a with
  | .v n => if wide then readPair c.gr (n.toNat + 2) l else zx (readV c.gr (n.toNat + 2) l)
  | _ => 0

/-- The bytes of a store size. -/
def stBytes : StSize → Nat
  | .w => 4
  | .d => 8
  | .q => 16
  | .b => 1
  | .h => 2

/-- The data of a store's lane (R246). -/
def storeData (i : Instr) (w : FWord) (s : State) (c : Ctx) (sz : StSize) (l : Nat) : List Byte :=
  match sz with
  | .q => (readQuad c w.c l).flatMap (fun x => leBytes 4 x.toNat)
  | sz =>
    let x := if w.b.isImm then impliedVal w c (sz == .d) l else (laneIn i w s c l).c
    leBytes (stBytes sz) x.toNat

/-- The bytes that a lane stores to memory; none for the scratchpad. -/
def memBytes (s : State) (c : Ctx) (va : W64) (d : List Byte) : List (Nat × Byte) :=
  if inScratch va then [] else (physBytes s c .store va d.length).zip d
/-- What a lane stores to memory. -/
def storeLane (s : State) (c : Ctx) (va : W64) (d : List Byte) (l : Nat) : StLane :=
  let bytes := memBytes s c va d
  { lane := l, bytes, ms := (bytes.zip (List.range d.length)).filterMap (fun e =>
      if onMs s c .store (va + BitVec.ofNat 64 e.2) then some e.1.1 else none) }
/-- The bytes that a lane stores to the scratchpad. -/
def scratchBytes (va : W64) (d : List Byte) : List (Nat × Byte) :=
  if inScratch va then (List.range d.length).zip d |>.map (fun e => (scratchOff va + e.1, e.2)) else []

/-- One lane's bytes for each destination they reach. -/
def splitLane (x : StLane) : List (Nat × StLane) :=
  ((x.bytes.map (fun e => destOf e.1)).eraseDups).map (fun d => (d, { x with bytes := x.bytes.filter (fun e => destOf e.1 == d) }))

/-- The packets of a store: one to each destination (R76). -/
def storeBodies (strong : Bool) (ws : List StLane) : List (Nat × Body) :=
  let parts := ws.flatMap splitLane
  byDest (·.1) (fun xs => .store (xs.map (·.2)) strong) parts

/-- The state after a store issue of some lanes' bytes (R236, R242, R246). -/
def storeIssue (i : Instr) (w : FWord) (s : State) (c : Ctx) (os : Nat) (strong : Bool) (mem : List StLane)
    (scr : List (Nat × Byte)) : State :=
  let s := onTeamOf c (fun t => scratchWrite t scr) (advance i w s c)
  let ws := mem.filter (fun x => !x.bytes.isEmpty)
  if ws.isEmpty then s
  else
    let bytes := ws.flatMap (·.bytes)
    sendOp s c { kind := .store, stream := os, seq := 0, ord := c.gr.ord, lanes := c.act, left := 0, pas := bytes.map (·.1)
                 data := bytes, counted := true } (storeBodies strong ws)
where
  /-- Change the team of an issue. -/
  onTeamOf (c : Ctx) (f : Team → Team) (s : State) : State := updTeam s c.id.team f

/-- `ST`, `STS` and `SST` (R246, R276). -/
def storeWord (i : Instr) (w : FWord) (sz : StSize) (al os : Nat) (strong rel : Bool) (s : State) : Host.Outcome State Fault Refusal :=
  finish s (do
    let c ← prologue i w s
    if c.act = 0 then pure (advance i w s c)
    else
      let va := addrOf i w s c
      let counted := reachesMemory c va
      memWait s c counted
      storeWait s c rel
      if counted then streamWait c os
      accessCheck s c .store al (fun _ => stBytes sz) va
      let d := storeData i w s c sz
      pure (storeIssue i w s c os strong ((lanesOf c.act).map (fun l => storeLane s c (va l) (d l) l))
        ((lanesOf c.act).flatMap (fun l => scratchBytes (va l) (d l)))))

def execSt (w : FWord) (sz : StSize) (os : BitVec 3) (rel : Bool) (s : State) :=
  storeWord (.st w sz os rel) w sz 1 os.toNat false rel s
def execSts (w : FWord) (sz : StSize) (os : BitVec 3) (rel : Bool) (s : State) :=
  storeWord (.sts w sz os rel) w sz (stBytes sz) os.toNat true rel s
def execSst (w : FWord) (d : Bool) (os : BitVec 3) (rel : Bool) (s : State) :=
  storeWord (.sst w d os rel) w (if d then .d else .w) 1 os.toNat false rel s

/-- One element of an `STE` (R248). -/
def steLane (i : Instr) (w : FWord) (s : State) (c : Ctx) (el : ElSel) (va : W64) (l : Nat) : Except Stop SteLane :=
  match elemPage s c .store va with
  | none => .error .wait
  | some (pa, e) =>
    .ok { lane := l, pa, el, data := lo (if w.b.isImm then impliedVal w c false l else (laneIn i w s c l).c)
          fmt := leafFmt e.leaf, scale := scalePa e va, ms := memSide e.leaf }

def execSte (w : FWord) (el : ElSel) (os : BitVec 3) (rel : Bool) (s : State) : Host.Outcome State Fault Refusal :=
  let i := Instr.ste w el os rel
  finish s (do
    let c ← prologue i w s
    if c.act = 0 then pure (advance i w s c)
    else
      let va := addrOf i w s c
      memWait s c true
      storeWait s c rel
      streamWait c os.toNat
      elemCheck s c .store el va
      let ls ← (lanesOf c.act).mapM (fun l => steLane i w s c el (va l) l)
      let body (xs : List SteLane) : Body := .ste xs (rmodeOf c.t.flags) (ftzOf c.t.flags)
      pure (sendOp (advance i w s c) c
        { kind := .store, stream := os.toNat, seq := 0, ord := c.gr.ord, lanes := c.act, left := 0
          pas := bodyPas (body ls), counted := true }
        (byDest (fun x => destOf x.pa) body ls)))

def execStx (w : FWord) (x : BitVec 2) (os : BitVec 3) (rel : Bool) (s : State) : Host.Outcome State Fault Refusal :=
  let i := Instr.stx w x os rel
  finish s (do
    let c ← prologue i w s
    if c.act = 0 then pure (advance i w s c)
    else
      windowCheck c x true
      let va := addrOf i w s c
      let counted := reachesMemory c va
      memWait s c counted
      storeWait s c rel
      if counted then streamWait c os.toNat
      accessCheck s c .store 4 (fun l => 4 * windowLen c x l) va
      let d (l : Nat) : List Byte := (windowRegs c x l).flatMap (fun n => leBytes 4 (readV c.gr n l).toNat)
      pure (storeIssue i w s c os.toNat false ((lanesOf c.act).map (fun l => storeLane s c (va l) (d l) l))
        ((lanesOf c.act).flatMap (fun l => scratchBytes (va l) (d l)))))

/-! Atomics (R250). -/

/-- The value that an atomic writes, if it writes, from the old value (R250). Values are n bits wide. -/
def atomicNew (op : AtOp) (n : Nat) (old b cmp : Nat) : Option Nat :=
  let sg (x : Nat) : Int := if 2 ^ (n - 1) ≤ x then (x : Int) - 2 ^ n else x
  match op with
  | .add => some ((old + b) % 2 ^ n)
  | .exch => some b
  | .cas => if old = cmp then some b else none
  | .and => some (old &&& b)
  | .or => some (old ||| b)
  | .xor => some (old ^^^ b)
  | .min => some (if sg b < sg old then b else old)
  | .max => some (if sg old < sg b then b else old)

/-- The operand of an atomic's lane. -/
def atomOperand (i : Instr) (w : FWord) (s : State) (c : Ctx) (d : Bool) (l : Nat) : W64 :=
  let x := if w.b.isImm then impliedVal w c d l else (laneIn i w s c l).b
  if d then x else zx (lo x)
/-- The address of an atomic's lane: SB is an offset in the immediate variant only (R244). -/
def atomAddr (i : Instr) (w : FWord) (s : State) (c : Ctx) (l : Nat) : W64 :=
  let x := laneIn i w s c l
  if w.b.isImm then x.a + x.b else x.a

/-- The scratchpad part of an atomic, one lane: the team after it and the old bytes. -/
def scratchAtomic (t : Team) (op : AtOp) (n off : Nat) (b cmp : W64) : Team × List Byte :=
  let old := scratchRead t off n
  match atomicNew op (8 * n) (leNat old) b.toNat cmp.toNat with
  | some v => (scratchWrite t ((List.range n).zip (leBytes n v) |>.map (fun e => (off + e.1, e.2))), old)
  | none => (t, old)

/-- The scratchpad lanes of an atomic, in ascending order: the team after them and each lane's old bytes. -/
def scratchAtomics (i : Instr) (w : FWord) (s : State) (c : Ctx) (op : AtOp) (d : Bool) (t : Team) :
    List Nat → Team × FMap (List Byte)
  | [] => (t, [])
  | l :: ls =>
    let va := atomAddr i w s c l
    if inScratch va then
      let (t, old) := scratchAtomic t op (if d then 8 else 4) (scratchOff va) (atomOperand i w s c d l) (laneIn i w s c l).c
      let (t, m) := scratchAtomics i w s c op d t ls
      (t, put m l old)
    else scratchAtomics i w s c op d t ls

/-- One memory lane of an atomic. -/
def atLane (i : Instr) (w : FWord) (s : State) (c : Ctx) (d : Bool) (l : Nat) : Except Stop AtLane :=
  match transAcc s c .store (atomAddr i w s c l) with
  | .ok pa e =>
    .ok { lane := l, pa, operand := atomOperand i w s c d l
          cmp := if d then (laneIn i w s c l).c else zx (lo (laneIn i w s c l).c), ms := memSide e.leaf }
  | _ => .error .wait

/-- `ATOM` and `ATOMX` (R250): the old values return as a load's do. -/
def atomWord (i : Instr) (w : FWord) (op : AtOp) (d : Bool) (os : Nat) (ar : Bool) (s : State) : Host.Outcome State Fault Refusal :=
  finish s (do
    let c ← prologue i w s
    if c.act = 0 then pure (advance i w s c)
    else
      let va := atomAddr i w s c
      let n := if d then 8 else 4
      let counted := reachesMemory c va
      memWait s c counted
      storeWait s c ar
      if counted then streamWait c os
      accessCheck s c .store n (fun _ => n) va
      let ls ← ((lanesOf c.act).filter (fun l => !inScratch (va l))).mapM (atLane i w s c d)
      let pas := ls.flatMap (fun x => (List.range n).map (x.pa + ·))
      if !(pendingOn c.gr pas).isEmpty then throw .wait
      let (t, olds) := scratchAtomics i w s c op d c.t (lanesOf c.act)
      let accs : List LoadAcc := (lanesOf c.act).map (fun l => { lane := l, reg := w.dst.toNat, pas := [], val := look olds l })
      let (k, s') := newId s
      let s' := issueLoad i w s' c (newLoad w c (.old d) accs true ar false .normal) k
      let s' := updTeam s' c.id.team (fun t' => { t' with scratch := t.scratch })
      pure (if ls.isEmpty then s'
        else sendOp s' c { kind := .atomic, stream := os, seq := 0, ord := c.gr.ord, lanes := c.act, left := 0, pas, counted := true }
          (byDest (fun x => destOf x.pa) (.atom k op d) ls)))

def execAtom (w : FWord) (op : AtOp) (os : BitVec 3) (ar : Bool) (s : State) :=
  atomWord (.atom w op os ar) w op false os.toNat ar s
def execAtomx (w : FWord) (op : AtOp) (os : BitVec 3) (ar : Bool) (s : State) :=
  atomWord (.atomx w op os ar) w op true os.toNat ar s

/-! Fences (R251). -/

/-- A word that only waits, and then has an effect. -/
def waitWord (i : Instr) (w : FWord) (ready : Ctx → Bool) (eff : Ctx → State → State) (s : State) : Host.Outcome State Fault Refusal :=
  runEff i w (fun c => if ready c then .ok () else .error .wait) noOut eff s

def execAcq (w : FWord) (s : State) :=
  waitWord (.acq w) w (fun c => (srcLoads s c.id).isEmpty) (fun c s => acquireL1 s c.t.core) s
def execRel (w : FWord) (s : State) := waitWord (.rel w) w (fun c => relDone c.gr) noEff s

/-- The mask of an `SJOIN`. -/
def sjoinMask (i : Instr) (w : FWord) (s : State) (c : Ctx) : Nat :=
  match w.b with
  | .imm k => k.toNat % 256
  | .sel _ => (laneIn i w s c (lowest c.act)).a.toNat % 256
def execSjoin (w : FWord) (s : State) :=
  waitWord (.sjoin w) w (fun c => c.gr.ops.all (fun e => !(sjoinMask (.sjoin w) w s c).testBit e.2.stream)) noEff s

/-! Prefetch and cache maintenance (R252, R253). -/

/-- The owned words of a line as the home slices record them (R62). -/
def ownedIn (s : State) (c line : Nat) : List Nat :=
  ((List.range 32).map (32 * line + ·)).filter (fun wd => look s.owner wd = some (c + 1))

/-- A byte that its home cannot deliver (R239): it never enters an L1. -/
def undelivered (s : State) (pa : Nat) : Bool := (look s.bad (pa / 8)).isSome || (look s.portBad (pa / 8)).isSome

/-- A line is in the L2 of its home slice. -/
def fillL2 (s : State) (line : Nat) : State := { s with l2 := put s.l2 line ((look s.l2 line).getD false) }

/-- Fill a line of a core's L1 from its home slice, whole (R230, R233), so that it never holds an older word beside a newer
one of the same fill (R87, R89); `home` tells that the slice keeps the line too, which it never does for a memory-side page
(R389). -/
def fillLine (s : State) (c line : Nat) (home : Bool) : State :=
  updCore (if home && tierOf (128 * line) != some 3 then fillL2 s line else s) c (fun k =>
    { k with
      l1 := (List.range 128).foldl (fun m j => if undelivered s (128 * line + j) then del m (128 * line + j)
        else put m (128 * line + j) (homeByte s (128 * line + j))) k.l1
      owned := (ownedIn s c line).foldl (fun m wd => put m wd true) (k.owned.filter (fun e => e.1 / 32 ≠ line)) })

/-- Drop a line of a core's L1, owned words included. -/
def dropLine (s : State) (c line : Nat) : State :=
  updCore s c (fun k => { k with l1 := k.l1.filter (fun e => lineOf e.1 ≠ line), owned := k.owned.filter (fun e => e.1 / 32 ≠ line) })

/-- The physical address of a lane of a line instruction, where it has one that translates at once. -/
def lineAddr (s : State) (c : Ctx) (va : W64) : Option Nat :=
  if nonCanonical va || inScratch va || inCounters va then none
  else match transAcc s c .load va with
    | .ok pa _ => some pa
    | _ => none

/-- The distinct lines that the executing lanes name. -/
def linesNamed (s : State) (c : Ctx) (va : Nat → W64) : List Nat :=
  (((lanesOf c.act).filterMap (fun l => lineAddr s c (va l))).map lineOf).eraseDups

/-- The line that a lane of a `PREF` names, and whether its page is memory-side; nothing where an access would fault (R252).
An address that the TLBs do not map is walked for within the prefetch. -/
def prefLine (s : State) (c : Ctx) (va : W64) : Option (Nat × Bool) :=
  if nonCanonical va || inScratch va || inCounters va then none
  else match transAcc s c .load va with
    | .ok pa e => some (lineOf pa, memSide e.leaf)
    | .bad _ _ => none
    | .walk => if s.declined.any (fun d => d.waiter = srcWaiter c ∧ d.ctx = c.t.launch.ctx ∧ d.page = pageOf va) then none
      else match walkPage s c.t.launch.ctx va with
      | .bad _ _ _ => none
      | .leaf e size _ =>
        let pa := leafPa e + va.toNat % 2 ^ size
        if leafTier e = 3 ∧ (!featureOn s 4 ∨ (peerFault s (peerDev pa)).isSome) then none else some (lineOf pa, memSide e)

/-- A prefetch of one line (R252): `.l1` as the fill of a weak load, `.l2` into the home slice only, which keeps no line of a
memory-side page (R389). A peer line that the local L2 lacks is asked for, and enters the L1 when it comes. -/
def prefetch (s : State) (c : Ctx) (l2 : Bool) (x : Nat × Bool) : State :=
  if tierOf (128 * x.1) = some 3 then
    let miss := linesMissing s ((List.range 128).map (128 * x.1 + ·))
    if miss = [] then (if l2 then s else fillLine s c.t.core x.1 false)
    else askLines (if l2 then s else { s with fab := { s.fab with prefs := s.fab.prefs ++ [(x.1, c.t.core)] } }) c.id c.t.core miss
  else if l2 then (if x.2 then s else fillL2 s x.1)
  else fillLine s c.t.core x.1 !x.2

/-- PREF (R252): it never faults, and an access that would fault is dropped. -/
def execPref (w : FWord) (l2 : Bool) (s : State) :=
  let i := Instr.pref w l2
  runEff i w noCheck noOut
    (fun c s' => (((lanesOf c.act).filterMap (fun l => prefLine s c (addrOf i w s c l))).eraseDups).foldl
      (fun s x => prefetch s c l2 x) s') s

/-- The checks of `CFLUSH` and `CINV`. -/
def lineCheck (s : State) (c : Ctx) (va : Nat → W64) : Except Stop Unit := do
  stage c va (fun l => if nonCanonical (va l) then some (0x41, 1) else none)
  transStage s c .load va (fun _ => 1)

def execCflush (w : FWord) (s : State) :=
  let i := Instr.cflush w
  runEff i w (fun c => do memWait s c true; lineCheck s c (addrOf i w s c)) noOut
    (fun c s' =>
      let lines := linesNamed s c (addrOf i w s c)
      let s1 := lines.foldl (fun s ln => dropLine s c.t.core ln) s'
      if lines.isEmpty then s1
      else sendOp s1 c { kind := .cflush, stream := 0, seq := 0, ord := c.gr.ord, lanes := c.act, left := 0, counted := true }
        (byDest (fun ln => destOf (128 * ln)) .cflush lines)) s

def execCinv (w : FWord) (s : State) :=
  let i := Instr.cinv w
  runEff i w (fun c => lineCheck s c (addrOf i w s c)) noOut
    (fun c s' => (linesNamed s c (addrOf i w s c)).foldl (fun s ln => dropLine s c.t.core ln) s') s

end Sys2Proof.Machine
end

