-- ==== Sys2Proof/Machine/Transport.lean ====
section
/-! DEFINITION. How operations reach their destinations and are performed there: commitment by sequence numbers, the
ownership-conflict windows, acknowledgements, watermarks and the return of loads (R61 to R63, R74 to R80, R88, R229 to R241). -/

namespace Sys2Proof.Machine

/-! Commitment (R77, R80). -/

/-- What a destination keeps for a source's stream. -/
def commitOf (s : State) (dest : Nat) (src : SrcId) (stream : Nat) : Commit :=
  (s.commits.find? (fun c => c.dest = dest ∧ c.src = src ∧ c.stream = stream)).getD { dest, src, stream, last := 0, wm := 0 }
/-- Change what a destination keeps for a source's stream. -/
def updCommit (s : State) (dest : Nat) (src : SrcId) (stream : Nat) (f : Commit → Commit) : State :=
  { s with commits := f (commitOf s dest src stream) ::
      s.commits.filter (fun c => !(c.dest = dest ∧ c.src = src ∧ c.stream = stream)) }

/-- `a` is at least `b` among 24-bit sequence numbers modulo 2^24 (R75). -/
def seqGe (a b : BitVec 24) : Bool := (a - b).toNat < 2 ^ 23

/-- The later of two watermarks. -/
def seqMax (a b : BitVec 24) : BitVec 24 := if seqGe a b then a else b

/-- The later of what a destination keeps, where 0 stands for nothing, and another watermark. -/
def wmMax (a b : BitVec 24) : BitVec 24 := if a = 0 then b else seqMax a b

/-- The watermark that has reached a packet's destination (R77). What a message brings for packets of this device is kept
with the packets themselves, since a later packet carries that watermark anyway; for a source of another device, whose
packets are unknown before they arrive, it is kept at the destination. -/
def seenWm (s : State) (p : Pkt) : BitVec 24 :=
  if isGuest p.src then wmMax (commitOf s p.dest p.src p.stream).wm p.wm else p.wm

/-- A packet goes through its slice's window whole (R88), so that the window orders it after what came before: nothing of it
goes on to a channel unit (R389). -/
def inWindow (b : Body) : Bool :=
  match b with
  | .store ws _ => ws.all (fun x => x.ms.isEmpty)
  | .ste ws _ _ => ws.all (fun x => !x.ms)
  | .atom _ _ _ ls => ls.all (fun x => !x.ms)
  | _ => false

/-- An earlier packet of the same source and stream at the destination that is not performed, and after which no window
places the packet: the packet with the flag set is performed after it all the same (R74, R77, R78). -/
def aheadOfPkt (s : State) (n : Nat) (p : Pkt) : Bool :=
  s.pkts.any (fun e => e.1 < n && e.2.src == p.src && e.2.stream == p.stream && e.2.dest == p.dest && e.2.seq != p.seq &&
    !(inWindow e.2.body && inWindow p.body))

/-- A packet may commit at its destination (R77): with the flag set, directly after its predecessor there; else once the
watermark has come, which also lets a packet with the flag set commit. -/
def committable (s : State) (n : Nat) (p : Pkt) : Bool :=
  p.stream == 0 || seqGe (seenWm s p) (p.seq - 1) ||
    (p.flag && (commitOf s p.dest p.src p.stream).last == p.seq - 1 && !aheadOfPkt s n p)

/-- A carried watermark of another device's source has reached the destination. -/
def noteWm (s : State) (p : Pkt) : State :=
  if p.stream = 0 ∨ !isGuest p.src then s else updCommit s p.dest p.src p.stream (fun c => { c with wm := seenWm s p })

/-- A packet is committed: its number is recorded. -/
def noteCommit (s : State) (p : Pkt) : State :=
  if p.stream = 0 then s else updCommit s p.dest p.src p.stream (fun c => { c with last := p.seq, wm := seenWm s p })

/-- The hold buffer of a destination (R80): a register gateway is that of the core, whose groups share it; a saved team's
image is committed for at the slice of its gateway block. -/
def holderOf (s : State) (dest : Nat) : Nat :=
  if 1000000 ≤ dest ∧ dest < 2 ^ 48 then
    match team s ((dest - 1000000) / 64) with
    | some t => if t.status = .saved then 2 ^ 61 + gatewaySlice t ((dest - 1000000) % 64) else 2 ^ 60 + t.core
    | none => dest
  else dest
where
  /-- The home slice of a group's gateway block in its team's image (R298, R493). -/
  gatewaySlice (t : Team) (g : Nat) : Nat :=
    let va := saveBase t + (296 + 16 * g) * 1024
    homeSlice (get 0 t.savedPages (va / 65536) + va % 65536)

/-- The places of a destination's hold buffer (R80). -/
def holdRoom (dest : Nat) : Nat := if 1000000 ≤ dest then 32 else 128
/-- The flag-clear packets that await their watermark in the hold buffer of a destination. -/
def heldAt (s : State) (dest : Nat) : Nat :=
  (s.pkts.filter (fun e => holderOf s e.2.dest = holderOf s dest ∧ e.2.held ∧ !e.2.flag ∧ !committable s e.1 e.2)).length

/-! Watermarks and the performing of a source's operations (R75, R78). -/

/-- The watermark that a stream's outstanding operations allow, but for those that it goes past (R83). -/
def streamMark (gr : Group) (k : Nat) : BitVec 24 :=
  let st := streamOf gr k
  (gr.ops.filter (fun e => e.2.stream = k ∧ !e.2.passed)).foldl (fun m e => if seqGe m (e.2.seq - 1) then e.2.seq - 1 else m) st.next

/-- The watermark of a source's stream as it stands (R75). -/
def markOf (s : State) (src : SrcId) (stream : Nat) : BitVec 24 :=
  match group s src with
  | some gr => if stream = 0 then 0 else (streamOf gr stream).wm
  | none => 0

/-- The destinations of a stream's outstanding packets, here and at other devices. -/
def streamDests (s : State) (src : SrcId) (k : Nat) : List Nat :=
  ((s.pkts.filter (fun e => e.2.src = src ∧ e.2.stream = k)).map (·.2.dest) ++
    (s.fab.away.filter (fun e => e.2.src = src ∧ e.2.stream = k)).map (fun e => destDev e.2.dev 0)).eraseDups

/-- The watermark messages that an advance sends (R78): to every destination of the stream's outstanding packets. -/
def sendWms (s : State) (src : SrcId) (k : Nat) (wm : BitVec 24) : State :=
  (streamDests s src k).foldl (fun s d =>
    let (n, s) := newId s
    { s with wms := put s.wms n { src, dest := d, stream := k, wm } }) s

/-- A source's watermark of a stream advances as far as its operations allow; while its team is saved, the image records it
and no message leaves (R81). -/
def advanceWm (s : State) (src : SrcId) (k : Nat) : State :=
  match team s src.team, group s src with
  | some t, some gr =>
    let st := streamOf gr k
    let m := streamMark gr k
    if k = 0 ∨ m = st.wm ∨ !seqGe m st.wm then s
    else
      let s := updGroup s src (fun gr => { gr with streams := put gr.streams k { st with wm := m } })
      if t.status = .saved then s else sendWms s src k m
  | _, _ => s

/-- A restored team's core sends watermark messages from the saved values (R81). -/
def resumeWms (s : State) (tm : Nat) : State :=
  match team s tm with
  | none => s
  | some t => t.groups.foldl (fun s e => (List.range 8).foldl (fun s k =>
      if k = 0 then s else sendWms s ⟨tm, e.1⟩ k (streamOf e.2 k).wm) s) s

/-- An operation of a source is performed (R61): it is complete, and the watermark advances. -/
def performOp (s : State) (src : SrcId) (n : Nat) : State :=
  match (group s src).bind (fun gr => look gr.ops n) with
  | none => s
  | some op =>
    let s := updGroup s src (fun gr => { gr with ops := del gr.ops n, memq := gr.memq - (if op.counted then 1 else 0) })
    advanceWm s src op.stream

/-- One packet of an operation is performed. -/
def performPart (s : State) (src : SrcId) (n : Nat) : State :=
  match (group s src).bind (fun gr => look gr.ops n) with
  | none => s
  | some op =>
    if op.left ≤ 1 then performOp s src n
    else updGroup s src (fun gr => { gr with ops := put gr.ops n { op with left := op.left - 1 } })

/-- Set FLAGS bits of a source's team (R155). -/
def orTeamFlags (s : State) (src : SrcId) (f : W64) : State := updTeam s src.team (fun t => raiseFlags t s.cycle f)

/-- A packet is performed at its destination: an acknowledgement leaves for the core, or for the other device. -/
def ackPkt (s : State) (p : Pkt) (words superseded : List Nat) (flags : W64) : State :=
  match p.op with
  | none => s
  | some n =>
    if isGuest p.src then
      match p.body with
      | .atom _ _ _ _ | .rmo _ _ _ _ => s
      | _ => guestPart s n flags 0 0
    else
      let (k, s) := newId s
      { s with acks := put s.acks k { src := p.src, op := n, core := p.core, words, superseded, flags } }

/-! Accesses at a home slice. -/

/-- The failing unit of an access, if it meets one (R239). -/
def badUnit (s : State) (pas : List Nat) : Option ErrMark :=
  match pas.find? (fun p => (look s.bad (p / 8)).isSome) with
  | some p => some { cause := 0x42, addr := BitVec.ofNat 64 (p / 8 * 8) }
  | none => if pas.any (fun p => tierOf p == some 2 && (look s.portBad (p / 8)).isSome)
      then some { cause := 0x42, addr := BitVec.ofNat 64 (pas.headD 0) } else none

/-- A unit of 8 bytes that is written whole becomes correct (R240). -/
def mendUnits (s : State) (pas : List Nat) : State :=
  if s.bad = [] then s
  else { s with bad := s.bad.filter (fun e => !(List.range 8).all (fun k => pas.contains (8 * e.1 + k))) }

/-- The L1 copy of a word at its owner goes, if that is another core (R62). -/
def dropForeign (s : State) (dev core wd : Nat) : State :=
  match look s.owner wd with
  | none => s
  | some k => if dev = deviceId s ∧ k = core + 1 then s else dropWord s wd

/-- A line is in the L2 after an access to it, and dirty after a write; a line of a memory-side page never is (R389). -/
def touchL2 (s : State) (pas : List Nat) (dirty : Bool) : State :=
  ((pas.map lineOf).eraseDups).foldl (fun s ln => { s with l2 := put s.l2 ln (dirty || (look s.l2 ln).getD false) }) s

/-- Store bytes of a core at their home slice; the core becomes the owner of the words (R62). -/
def storeAt (s : State) (dev core : Nat) (bs ms : List (Nat × Byte)) : State :=
  let s := (wordsOf (bs.map (·.1))).foldl (fun s wd =>
    let s := dropForeign s dev core wd
    if dev = deviceId s then { s with owner := put s.owner wd (core + 1) } else s) s
  let now := bs.filter (fun e => !ms.any (fun m => m.1 == e.1))
  let s := now.foldl (fun s e => writeByte s e.1 e.2) s
  touchL2 (mendUnits s (now.map (·.1))) (now.map (·.1)) true

/-- Put an item into a unit's queue. -/
def enqueueUnit (s : State) (u : Nat) (x : UnitItem) : State := { s with units := put s.units u ((look s.units u).getD [] ++ [x]) }

/-- The channel unit of an address. -/
def unitOf (s : State) (pa : Nat) : Nat := destChan (channelOf s pa).1

/-! Element stores (R248). -/

/-- The result of an element store at its home slice: the bytes written and the flags. -/
def steBytes (s : State) (x : SteLane) (rm : BitVec 2) (ftz : Bool) : List (Nat × Byte) × W64 :=
  let sc := x.scale.map (fun p => (homeByte s p).toNat)
  let r := elemEncode x.fmt (rnd2 rm) ftz (unscale x.fmt sc (decodeFp fp32 x.data.toNat))
  let old := (homeByte s x.pa).toNat
  match x.el with
  | .e => ((List.range (fmtBits x.fmt / 8)).zip (leBytes (fmtBits x.fmt / 8) r.bits) |>.map (fun e => (x.pa + e.1, e.2)), r.flags)
  | .lo => ([(x.pa, BitVec.ofNat 8 (old / 16 * 16 + r.bits % 16))], r.flags)
  | .hi => ([(x.pa, BitVec.ofNat 8 (old % 16 + r.bits % 16 * 16))], r.flags)

/-- The lanes of an element store, in ascending order. -/
def steAll (dev core : Nat) (rm : BitVec 2) (ftz : Bool) : State → List SteLane → State × W64
  | s, [] => (s, 0)
  | s, x :: xs =>
    let (bs, f) := steBytes s x rm ftz
    let (s, g) := steAll dev core rm ftz (storeAt s dev core bs []) xs
    (s, f ||| g)

/-! Atomics at a home slice or a channel unit (R250). -/

/-- The old value of a lane of a returning operation reaches its load. -/
def setAcc (s : State) (load lane : Nat) (val : Option (List Byte)) (bad : Option ErrMark) : State :=
  { s with loads := upd s.loads load (fun op => { op with accs := op.accs.map (fun a =>
      if a.lane = lane ∧ a.val.isNone ∧ a.bad.isNone then { a with val, bad } else a) }) }

/-- One lane of an atomic: the state after it, the old bytes, or the failing unit. -/
def atomAt (s : State) (op : AtOp) (d : Bool) (x : AtLane) : State × Except ErrMark (List Byte) :=
  let n := if d then 8 else 4
  let pas := (List.range n).map (x.pa + ·)
  match badUnit s pas with
  | some e => (s, .error e)
  | none =>
    let old := readBytes s x.pa n
    match atomicNew op (8 * n) (leNat old) x.operand.toNat x.cmp.toNat with
    | none => (s, .ok old)
    | some v => (engineWrite s (pas.zip (leBytes n v)), .ok old)

/-- Perform one lane of an atomic of a packet, and return its old value. -/
def atomLane (s : State) (p : Pkt) (load : Nat) (op : AtOp) (d : Bool) (x : AtLane) : State :=
  let (s, r) := atomAt s op d x
  if isGuest p.src then
    match r with
    | .ok old => guestLane s (p.op.getD 0) (BitVec.ofNat 64 (leNat old)) 0 0 0
    | .error e => guestLane (countError s e.addr.toNat) (p.op.getD 0) 0 0 0x42 0
  else
    let s := dropOwn s p.core (wordsOf ((List.range (if d then 8 else 4)).map (x.pa + ·)))
    match r with
    | .ok old => setAcc s load x.lane (some old) none
    | .error e => setAcc s load x.lane none (some e)

/-! Ownership-conflict windows (R88). -/

/-- A packet is a store of a window. -/
def isStoreBody : Body → Bool
  | .store _ _ | .ste _ _ _ | .eng _ _ => true
  | _ => false

/-- The words that a packet of a window stores to. -/
def storeWords (p : Pkt) : List Nat := if isStoreBody p.body then wordsOf (bodyPas p.body) else []

/-- The rank of a packet's core in a window: device first, then core (R88). -/
def coreRank (s : State) (p : Pkt) : Nat := srcDev s p.src * 1024 + p.core

/-- The words of a packet that a store of another core in the window lands on later. -/
def supersededWords (s : State) (ps : List Pkt) (p : Pkt) : List Nat :=
  (storeWords p).filter (fun wd => ps.any (fun q => decide (coreRank s p < coreRank s q) && (storeWords q).contains wd))

/-- The parts of a packet that go on to channel units, in order; with none, the packet is performed (R389). -/
def forwardParts (s : State) (n : Nat) (p : Pkt) (sup : List Nat) (flags : W64) (items : List (Nat × UnitItem)) : State :=
  if items = [] then ackPkt { s with pkts := del s.pkts n } p (storeWords p) sup flags
  else items.foldl (fun s e => enqueueUnit s e.1 e.2) { s with pkts := put s.pkts n { p with parts := items.length, sup } }

/-- A channel unit has performed a part of a packet. -/
def partDone (s : State) (n : Nat) : State :=
  match look s.pkts n with
  | none => s
  | some p =>
    if p.parts ≤ 1 then ackPkt { s with pkts := del s.pkts n } p (storeWords p) p.sup 0
    else { s with pkts := put s.pkts n { p with parts := p.parts - 1 } }

/-- The writes of an engine's packet are performed: the command, or the multicast, waits for one part less. -/
def engDone (s : State) (p : Pkt) (cmd : Option Nat) : State :=
  match cmd with
  | some n => { s with cmds := upd s.cmds n (fun c => { c with left := c.left - 1 }) }
  | none => match p.op with
    | some o => if isGuest p.src then guestPart s o 0 0 0 else performPart s p.src o
    | none => s

/-- A channel unit has performed a part of an engine's packet. -/
def engPartDone (s : State) (n : Nat) : State :=
  match look s.pkts n with
  | none => s
  | some p =>
    if p.parts ≤ 1 then
      match p.body with
      | .eng cmd _ => engDone { s with pkts := del s.pkts n } p cmd
      | _ => s
    else { s with pkts := put s.pkts n { p with parts := p.parts - 1 } }

/-- A channel unit's queue holds an access to a word of some bytes: a later access to it is performed after that one, in
arrival order (R389). -/
def queuedAt (s : State) (pa : Nat) : Bool :=
  ((look s.units (unitOf s pa)).getD []).any (fun i => (unitPas s i).any (fun q => q / 4 == pa / 4))
where
  /-- The bytes that an item forwarded by a home slice accesses. -/
  unitPas (s : State) : UnitItem → List Nat
    | .rmo n k => match (look s.pkts n).map Pkt.body with
      | some (.rmo _ hdr _ rs) => ((rs[k]?).map (fun r => (List.range (4 * fieldN hdr.dw0 0 8)).map (r.pa + ·))).getD []
      | _ => []
    | .store _ bs => bs.map (·.1)
    | .ste n k => match (look s.pkts n).map Pkt.body with
      | some (.ste ws _ _) => ((ws[k]?).map (fun x => [x.pa, x.pa + 1])).getD []
      | _ => []
    | .atom n k => match (look s.pkts n).map Pkt.body with
      | some (.atom _ _ d ls) => ((ls[k]?).map (fun x => (List.range (if d then 8 else 4)).map (x.pa + ·))).getD []
      | _ => []
    | .load l k => (((look s.loads l).bind (fun op => op.accs[k]?)).map (·.pas)).getD []
    | .eng _ ws => ws.map (·.pa)

/-- The writes of an engine's packet allocate lines in the home slice: not those of a copy with TIER = 1 (R336). -/
def engAllocs (s : State) (cmd : Option Nat) : Bool :=
  match (cmd.bind (look s.cmds)).map Cmd.body with
  | some (CmdBody.copy q) => !q.tier
  | _ => true

/-- Perform an engine's packet of a window (R339, R452): words of memory-side pages, and words that a channel unit has still
to access, go on to it (R389). -/
def engStore (s : State) (n : Nat) (p : Pkt) (cmd : Option Nat) (ws : List EngByte) : State :=
  let far := ws.filter (fun e => e.ms || queuedAt s e.pa)
  let near := ws.filter (fun e => !(e.ms || queuedAt s e.pa))
  let us := (far.map (fun e => unitOf s e.pa)).eraseDups
  let s := engPut s (srcDev s p.src) p.core (deviceId s) near
  let s := if engAllocs s cmd then touchL2 s (near.map (·.pa)) true else s
  if us = [] then engDone { s with pkts := del s.pkts n } p cmd
  else us.foldl (fun s u => enqueueUnit s u (.eng n (far.filter (fun e => unitOf s e.pa == u))))
    { s with pkts := put s.pkts n { p with parts := us.length } }

/-- Perform one store packet of a window. Bytes on memory-side pages go on to their channel unit (R389). -/
def windowStore (ps : List Pkt) (s : State) (e : Nat × Pkt) : State :=
  let (n, p) := e
  let dev := srcDev s p.src
  let sup := supersededWords s ps p
  match p.body with
  | .store ws _ =>
    let far := ws.flatMap (fun x => x.bytes.filter (fun b => x.ms.contains b.1))
    let s := storeAt s dev p.core (ws.flatMap (·.bytes)) far
    forwardParts s n p sup 0 (((far.map (fun b => unitOf s b.1)).eraseDups).map (fun u =>
      (u, UnitItem.store n (far.filter (fun b => unitOf s b.1 == u)))))
  | .ste ws rm ftz =>
    let far := (bodyPas (.ste (ws.filter (·.ms)) rm ftz)).map (fun q => (q, (0 : Byte)))
    let (s, f) := steAll dev p.core rm ftz (storeAt s dev p.core far far) (ws.filter (fun x => !x.ms))
    let s := orTeamFlags s p.src f
    forwardParts s n p sup (if isGuest p.src then f else 0) (((List.range ws.length).zip ws).filterMap (fun x =>
      if x.2.ms then some (unitOf s x.2.pa, UnitItem.ste n x.1) else none))
  | .eng cmd ws => engStore s n p cmd ws
  | _ => s

/-- A reply of read data to another device (R430, R431). -/
def sendData (s : State) (g : Guest) (pa : Nat) (ws : List W64) : State :=
  let hdr := BitVec.ofNat 64 (2 * 2 ^ 60 + (ws.length - 1) * 2 ^ 52 + pa)
  post s g.dev { srcn := g.srcn, stream := g.stream, seq := g.seq
                 body := .burst [hdr :: ws ++ List.replicate (63 - ws.length) 0] }

/-- The data that a READ of 2^k bytes returns: the doublewords that hold them. -/
def readDws (s : State) (pa size : Nat) : List W64 := (List.range ((pa % 8 + 2 ^ size + 7) / 8)).map (fun k => read64 s (pa / 8 * 8 + 8 * k))

/-- A READ is served at the home slice (R445): it enters the device in the directory, and a strong one of at most 8 bytes
returns its value in the DONE. -/
def servePeer (s : State) (p : Pkt) (pa size : Nat) (strong : Bool) : State :=
  match p.op.bind (fun n => look s.fab.guests n) with
  | none => s
  | some g =>
    let s := { s with fab := { s.fab with guests := s.fab.guests.filter (fun e => some e.1 ≠ p.op) } }
    match badUnit s ((List.range (2 ^ size)).map (pa + ·)) with
    | some e => sendDone (countError s e.addr.toNat) g 0 0 0x42 0
    | none =>
      let ln := lineOf pa
      let e := (look s.fab.dir ln).getD {}
      let e := if e.bcast ∨ e.devs.contains g.dev then e
        else if e.devs.length < 4 then { e with devs := e.devs ++ [g.dev] } else { e with devs := [], bcast := true }
      let s := { s with fab := { s.fab with dir := put s.fab.dir ln e } }
      if strong ∧ size ≤ 3 then sendDone s g (BitVec.ofNat 64 (leNat (readBytes s pa (2 ^ size)))) 0 0 0
      else sendData s g pa (readDws s pa size)

/-- One access of a strong load is read at its home slice, and with it every other of the issue that reads the same bytes
(R229). -/
def strongRead (s : State) (load k : Nat) : State :=
  let rd (a : LoadAcc) : LoadAcc := match badUnit s a.pas with
    | some b => { a with bad := some b }
    | none => { a with val := some (a.pas.map (readByte s)) }
  let f (op : LoadOp) : LoadOp :=
    let pas := ((op.accs[k]?).map (·.pas)).getD []
    { op with accs := op.accs.map (fun a => if a.pas = pas ∧ a.val.isNone ∧ a.bad.isNone then rd a else a) }
  { s with loads := upd s.loads load f }

/-- The accesses of a packet of a strong load with different bytes: one read serves all lanes of the issue that read the
same (R229). -/
def distinctAccs (s : State) (load : Nat) (accs : List Nat) : List Nat :=
  let pas (k : Nat) : List Nat := (((look s.loads load).bind (fun op => op.accs[k]?)).map (·.pas)).getD []
  accs.filter (fun k => !accs.any (fun j => decide (j < k) && pas j == pas k))

/-- The accesses of a load that lie on a memory-side page. -/
def accMs (s : State) (load k : Nat) : Option Nat :=
  match (look s.loads load).bind (fun op => op.accs[k]?) with
  | some a => if a.ms then some (unitOf s (a.pas.headD 0)) else none
  | none => none

/-- Perform a strong load, a READ or an atomic of a window, after its stores (R88). -/
def windowRead (s : State) (e : Nat × Pkt) : State :=
  let (n, p) := e
  match p.body with
  | .load load accs =>
    (distinctAccs s load accs).foldl (fun s k => match accMs s load k with
      | some u => enqueueUnit s u (.load load k)
      | none => strongRead s load k) { s with pkts := del s.pkts n }
  | .peerRead pa size strong => servePeer { s with pkts := del s.pkts n } p pa size strong
  | .atom load op d ls =>
    let s := (ls.filter (fun x => !x.ms)).foldl (fun s x => atomLane s p load op d x) s
    let s := touchL2 s ((ls.filter (fun x => !x.ms)).map (·.pa)) true
    forwardParts s n p [] 0 (((List.range ls.length).zip ls).filterMap (fun x =>
      if x.2.ms then some (unitOf s x.2.pa, UnitItem.atom n x.1) else none))
  | _ => s

/-- The end of a slice's window (R88): its stores in coherence order, then its loads and atomics in arrival order. -/
def endWindow (s : State) (slice : Nat) : State :=
  let ns := (look s.windows slice).getD []
  let ps := ns.filterMap (fun n => (look s.pkts n).map (fun p => (n, p)))
  let stores := sortBy (fun e => coreRank s e.2) (ps.filter (fun e => isStoreBody e.2.body))
  let s := { s with windows := del s.windows slice }
  let s := stores.foldl (windowStore (stores.map (·.2))) s
  (ps.filter (fun e => !isStoreBody e.2.body)).foldl windowRead s

/-- A window that has begun is over. -/
def windowOver (s : State) (slice : Nat) : Bool :=
  !((look s.windows slice).getD []).isEmpty && decide (get 0 s.windowNo slice < s.cycle / 16)

def execOwnershipConflictWindowEnd (slice : Nat) (s : State) : Host.Outcome State Fault Refusal :=
  .next (if windowOver s slice then endWindow s slice else s)

/-! Arrival (R74, R77, R80). -/

/-- The bytes that a packet touches for writing. -/
def writesOf (p : Pkt) : List Nat := bodyPas p.body
/-- A packet is in a window, in a unit's queue or with the fabric engine already. -/
def pktTaken (s : State) (n : Nat) (p : Pkt) : Bool :=
  p.parts ≠ 0 || s.windows.any (fun w => w.2.contains n)

/-- The lines that a READ of another device must not overtake: those that a packet in a window or in a unit's queue is to
write. -/
def linePending (s : State) (ln : Nat) : Bool :=
  s.pkts.any (fun e => e.2.held == false && (bodyPas e.2.body).any (fun q => lineOf q == ln) && pktTaken s e.1 e.2)

/-- The source waits for the operations that its packet must follow (R74). -/
def waitsAfter (s : State) (p : Pkt) : Bool :=
  match group s p.src with
  | some gr => p.after.any (fun n => (look gr.ops n).isSome)
  | none => false

/-- A packet enters its slice's window. -/
def enterWindow (s : State) (n : Nat) (p : Pkt) : State :=
  { s with windows := put s.windows p.dest ((look s.windows p.dest).getD [] ++ [n])
           windowNo := put s.windowNo p.dest (s.cycle / 16)
           pkts := put s.pkts n { p with held := false } }

/-- A `CFLUSH` at a slice (R253): the lines are written back where they are dirty, and stay valid; a local copy of a peer
line, which is clean, is dropped with the errors that it was delivered with (R446). -/
def flushLines (s : State) (n : Nat) (p : Pkt) (lines : List Nat) : State :=
  let s := dropPeerLines s (fun ln => lines.contains ln)
  ackPkt { s with l2 := s.l2.map (fun e => (e.1, if lines.contains e.1 then false else e.2)), pkts := del s.pkts n } p [] [] 0

/-- Commit a packet at a slice or a unit. -/
def commitPkt (s : State) (n : Nat) (p : Pkt) : State :=
  let s := noteCommit s p
  match p.body with
  | .cflush lines => flushLines s n p lines
  | .rmo _ _ _ rs =>
    (List.range rs.length).foldl (fun s k => enqueueUnit s p.dest (.rmo n k))
      { s with pkts := put s.pkts n { p with held := false, parts := rs.length } }
  | .peerRead pa size false => servePeer { s with pkts := del s.pkts n } p pa size false
  | _ => enterWindow s n p

/-- A slice can take a packet now: no window that is over waits to end there. -/
def sliceReady (s : State) (d : Nat) : Bool :=
  ((look s.windows d).getD []).isEmpty || get 0 s.windowNo d == s.cycle / 16

/-- A packet at its slice may commit and be performed: no window waits to end there, no storage moves, and no other device
holds a line that it writes (R77, R90, R445). -/
def mayCommit (s : State) (n : Nat) (p : Pkt) : Bool :=
  committable s n p && sliceReady s p.dest && !isMoving s (bodyPas p.body) && (heldAway s (bodyPas p.body)).isEmpty

/-- The held packets of a source's stream at a destination that may commit now, one after the other. -/
def drainHeld (fuel : Nat) (s : State) (dest : Nat) (src : SrcId) (stream : Nat) : State :=
  match fuel with
  | 0 => s
  | fuel + 1 =>
    match s.pkts.find? (fun e => e.2.dest = dest ∧ e.2.src = src ∧ e.2.stream = stream ∧ e.2.held ∧ mayCommit s e.1 e.2) with
    | none => s
    | some (n, p) => drainHeld fuel (commitPkt s n p) dest src stream

/-- Commit a packet and those that it lets commit. -/
def commitAll (s : State) (n : Nat) (p : Pkt) : State :=
  drainHeld s.pkts.length (commitPkt s n p) p.dest p.src p.stream

/-- The watermark of a packet's source as it stands. -/
def currentWm (s : State) (p : Pkt) : BitVec 24 :=
  match group s p.src with
  | some gr => (streamOf gr p.stream).wm
  | none => p.wm

/-- A READ waits while INVACKs of its line are awaited. -/
def lineBusy (s : State) (ln : Nat) : Bool := ((look s.fab.dir ln).map (fun e => !e.waiting.isEmpty)).getD false
/-- The directory entries of a slice (R445). -/
def dirOf (s : State) (slice : Nat) : List Nat := (s.fab.dir.filter (fun e => homeSlice (128 * e.1) == slice)).map (·.1)
/-- The entry that a full directory gives up for a new line: a free choice (log 10). -/
def dirVictim (s : State) (slice ln : Nat) : Option Nat :=
  let ls := dirOf s slice
  if (look s.fab.dir ln).isSome ∨ ls.length < 16384 then none else ls[Config.choice s.fresh 0 % 16384]?

/-- A READ of another device arrives at its home slice (R445): a weak one does not overtake writes on their way there. -/
def arriveRead (s : State) (n : Nat) (p : Pkt) (ln : Nat) (strong : Bool) : State :=
  if (!strong ∧ linePending s ln) ∨ lineBusy s ln then s
  else match dirVictim s p.dest ln with
    | some v => invalLine s v
    | none => commitAll s n p

/-- An earlier packet of the same engine command on its way to the same slice: a command's writes keep their order there
(R79, R329). -/
def engAhead (s : State) (n : Nat) (p : Pkt) : Bool :=
  match p.body with
  | .eng cmd _ => s.pkts.any (fun e => e.1 < n && e.2.dest == p.dest && e.2.src == p.src && e.2.seq == p.seq &&
      (match e.2.body with
      | .eng c _ => c == cmd
      | _ => false) && !pktTaken s e.1 e.2)
  | _ => false

/-- The packet with the watermark that it carries: a packet that the source has kept back (R74) is sent when its wait is
over, with the watermark of that time (R76). -/
def sentPkt (s : State) (p : Pkt) : Pkt := if p.after = [] then p else { p with wm := currentWm s p }

/-- A packet of a slice or a unit arrives: it is committed, held, or refused for a retry (R77, R80); a held one commits once
it may. -/
def arriveSlice (s : State) (n : Nat) (p : Pkt) : State :=
  let p := if p.held then p else sentPkt s p
  if pktTaken s n p ∨ waitsAfter s p ∨ engAhead s n p ∨ !sliceReady s p.dest ∨ isMoving s (bodyPas p.body) then s
  else match p.body with
    | .peerRead pa _ strong => arriveRead s n p (lineOf pa) strong
    | _ =>
      if heldAway s (bodyPas p.body) ≠ [] then invalLines s (heldAway s (bodyPas p.body))
      else
        let s := noteWm s p
        if committable s n p then commitAll s n p
        else if p.held then s
        else if !p.flag ∧ holdRoom p.dest ≤ heldAt s p.dest then { s with pkts := put s.pkts n { p with wm := currentWm s p } }
        else { s with pkts := put s.pkts n { p with held := true } }

/-- What a watermark message tells a destination (R77): it reaches the packets of this device that are on their way there
or held there, and for another device's source it is kept there. -/
def noteMessage (s : State) (m : WmMsg) : State :=
  if isGuest m.src then
    updCommit s m.dest m.src m.stream (fun c => { c with wm := wmMax c.wm m.wm })
  else
    { s with pkts := s.pkts.map (fun e => (e.1, if e.2.dest = m.dest ∧ e.2.src = m.src ∧ e.2.stream = m.stream
                                                then { e.2 with wm := seqMax m.wm e.2.wm } else e.2)) }

/-- A watermark message reaches a destination of this device: what it lets commit commits (R77, R78). -/
def wmAtSlice (s : State) (m : WmMsg) : State :=
  let s := noteMessage s m
  if 1000000 ≤ m.dest then s else drainHeld s.pkts.length s m.dest m.src m.stream

/-! Acknowledgement (R231). -/

/-- Whether the L1 of a core holds a byte of a word. -/
def l1Has (k : CoreSt) (wd : Nat) : Bool := (List.range 4).any (fun j => (look k.l1 (4 * wd + j)).isSome)

/-- The L1's copy of a word at its store's acknowledgement: the value at the home slice while the core still owns it. -/
def refreshWord (s : State) (core' wd : Nat) : State :=
  if look s.owner wd = some (core' + 1) ∧ l1Has (core s core') wd then
    updCore s core' (fun k =>
      { k with l1 := (List.range 4).foldl (fun m j => if (look m (4 * wd + j)).isSome then put m (4 * wd + j) (readByte s (4 * wd + j)) else m) k.l1
               owned := put k.owned wd true })
  else s

/-- A superseded word leaves the L1 (R88, R231). -/
def dropCopy (s : State) (core' wd : Nat) : State :=
  updCore s core' (fun k => { k with l1 := k.l1.filter (fun e => e.1 / 4 ≠ wd), owned := del k.owned wd })

/-- An acknowledgement reaches the core (R231, R238, R75). -/
def takeAck (s : State) (n : Nat) (a : AckMsg) : State :=
  let s := { s with acks := del s.acks n }
  let s := a.superseded.foldl (fun s wd => dropCopy s a.core wd) s
  let s := (a.words.filter (fun wd => !a.superseded.contains wd)).foldl (fun s wd => refreshWord s a.core wd) s
  performPart (orTeamFlags s a.src a.flags) a.src a.op

def execStoreAcknowledge (n : Nat) (s : State) : Host.Outcome State Fault Refusal :=
  .next (match look s.acks n with
    | none => s
    | some a => takeAck s n a)

/-! The return of loads (R229, R230, R232 to R234, R238, R239, R247). -/

/-- The bytes of a load's accesses that are still to be read here. -/
def unread (op : LoadOp) : List Nat :=
  (op.accs.filter (fun a => a.val.isNone && a.bad.isNone)).flatMap (fun a => a.pas ++ a.scale.toList)

/-- The L1 may serve a line of a load: it holds every byte of it that the load reads (R69, R229). -/
def l1Serves (s : State) (core' : Nat) (op : LoadOp) (ln : Nat) : Bool :=
  op.pol != .nl1 && ((unread op).filter (fun p => lineOf p == ln)).all (fun p => (look (core s core').l1 p).isSome) &&
    Config.choice s.fresh ln % 2 == 0

/-- A byte that a weak load reads: from the L1 or at the home slice, line by line. -/
def weakByte (s : State) (core' : Nat) (op : LoadOp) (pa : Nat) : Byte :=
  if l1Serves s core' op (lineOf pa) then (look (core s core').l1 pa).getD 0 else homeByte s pa

/-- A weak access meets an uncorrectable unit where it is read at the home slice. -/
def weakBad (s : State) (core' : Nat) (op : LoadOp) (a : LoadAcc) : Option ErrMark :=
  badUnit s ((a.pas ++ a.scale.toList).filter (fun p => !l1Serves s core' op (lineOf p)))

/-- Read the accesses of a weak load. -/
def readWeak (s : State) (core' : Nat) (op : LoadOp) : LoadOp :=
  { op with accs := op.accs.map (fun a =>
      if a.val.isSome ∨ a.bad.isSome then a
      else match weakBad s core' op a with
        | some b => { a with bad := some b }
        | none => { a with val := some (a.pas.map (weakByte s core' op)), scaleVal := a.scale.map (weakByte s core' op) }) }

/-- The bytes that a load reads: its elements and their blocks' scales. -/
def readPas (accs : List LoadAcc) : List Nat := accs.flatMap (fun a => a.pas ++ a.scale.toList)

/-- The lines that a weak load brings into the L1 (R90, R230, R234), peer lines and the lines of block scales among them: a
miss may be served without. -/
def loadFills (s : State) (core' : Nat) (op : LoadOp) : List Nat :=
  if op.pol = .nl1 then []
  else ((readPas (op.accs.filter (fun a => a.val.isNone && a.bad.isNone))).map lineOf).eraseDups.filter (fun ln =>
    !l1Serves s core' op ln && Config.choice s.fresh (ln + 2 ^ 52) % 2 == 0)

/-- The lines of memory-side pages, which the home slice does not allocate (R389). -/
def msLines (op : LoadOp) : List Nat := ((readPas (op.accs.filter (·.ms))).map lineOf).eraseDups

/-- `.lu` drops the lines read (R234). -/
def lastUse (s : State) (core' : Nat) (op : LoadOp) : State :=
  if op.pol = .lu then ((readPas op.accs).map lineOf).eraseDups.foldl (fun s ln => dropLine s core' ln) s else s

/-- A loaded value as its registers hold it, and its flags (R245, R247). -/
def loadedWords (k : LoadKind) (a : LoadAcc) : List W32 × W64 :=
  let bs := a.val.getD []
  let n := leNat bs
  match k with
  | .plain .sb => ([(BitVec.ofNat 8 n).signExtend 32], 0)
  | .plain .sh => ([(BitVec.ofNat 16 n).signExtend 32], 0)
  | .plain .d | .old true => ([BitVec.ofNat 32 n, BitVec.ofNat 32 (n / 2 ^ 32)], 0)
  | .plain .q => ((List.range 4).map (fun j => BitVec.ofNat 32 (n / 2 ^ (32 * j))), 0)
  | .plain _ | .word | .old false => ([BitVec.ofNat 32 n], 0)
  | .elem el rm ftz =>
    let x := match el with
      | .e => n
      | .lo => n % 16
      | .hi => n / 16 % 16
    let r := elemEncode 16 (rnd2 rm) ftz (elemValue a.fmt (a.scaleVal.map (·.toNat)) x)
    ([BitVec.ofNat 32 r.bits], r.flags)

/-- Write a register at a load's return: inside the chain that the load opened, or outside every chain. A register that `VSHRINK` has
freed meanwhile takes nothing, and one that a `VGROW` has added again takes the value (log 26). -/
def returnReg (opener : Bool) (gr : Group) (n l : Nat) (x : W32) : Group :=
  if gr.alloc ≤ n then gr else if opener then writeReg gr n l x else writeV gr n l x

/-- Bind one access: its registers and its latch, or ERR marks on its registers (R239). -/
def bindAcc (op : LoadOp) (gr : Group) (a : LoadAcc) : Group :=
  if a.keep then gr
  else match a.bad with
  | some e =>
    if op.ws then gr
    else { gr with err := (List.range (loadRegs op.kind)).foldl (fun m j => put m (32 * (a.reg + j) + a.lane) e) gr.err }
  | none =>
    let ws := (loadedWords op.kind a).1
    let gr := if op.ws then gr
      else ((List.range ws.length).zip ws).foldl (fun gr e => returnReg op.opener gr (a.reg + e.1) a.lane e.2) gr
    if op.dl = 0 then gr
    else writeLatch gr (op.dl.toNat - 1) (oneLane a.lane) (fun _ => pair64 (ws.headD 0) ((ws.drop 1).headD 0))

/-- The chain that a load opened is still waiting for it. -/
def chainAlive (gr : Group) (n : Nat) (op : LoadOp) : Bool := !op.opener || (gr.chain.bind (·.load)) == some n

/-- The registers are released, the values bound, and the flags set (R238); every uncorrectable unit met is counted
(R239). -/
def bindLoad (s : State) (n : Nat) (op : LoadOp) : State :=
  let s := (op.accs.filterMap (·.bad)).foldl (fun s e => if e.cause = 0x42 then countError s e.addr.toNat else s) s
  updTeam s op.src.team (fun t =>
    match look t.groups op.src.g with
    | none => t
    | some gr =>
      let gr := { gr with sb := unpend gr.sb (loadDsts op), memq := gr.memq - (if op.counted then 1 else 0) }
      if chainAlive gr n op then
        let gr := op.accs.foldl (bindAcc op) gr
        let f := op.accs.foldl (fun f a => if a.bad.isNone then f ||| (loadedWords op.kind a).2 else f) 0
        let t := { t with groups := put t.groups op.src.g gr }
        if op.opener then setFlags t op.src.g s.cycle f else raiseFlags t s.cycle f
      else { t with groups := put t.groups op.src.g gr })

/-- A load whose values are all there is bound. -/
def returnLoad (s : State) (n : Nat) (op : LoadOp) : State :=
  let core' := ((team s op.src.team).map (·.core)).getD 0
  let miss := linesMissing s (unread op)
  if isMoving s (unread op) ∨ (!op.strong ∧ (unread op).any (queuedAt s)) then s
  else if op.strong ∧ unread op ≠ [] then s
  else if op.strong ∧ op.accs.any (fun a => a.val.isNone && a.bad.isNone) then s
  else if miss ≠ [] then askLines s op.src core' miss
  else
    let op' := readWeak s core' op
    let s := (loadFills s core' op).foldl (fun s ln => fillLine s core' ln !((msLines op).contains ln)) s
    let s := lastUse s core' op
    let s := mirrorRegs (bindLoad { s with loads := del s.loads n } n op') op.src (loadDsts op)
    if op.acquire then acquireL1 s core' else s

/-- LOAD_RETURN: the load's values are bound, or its registers marked ERR (R238, R239). -/
def execLoadReturn (n : Nat) (s : State) : Host.Outcome State Fault Refusal :=
  .next (match look s.loads n with
    | none => s
    | some op => returnLoad s n op)

end Sys2Proof.Machine
end

