-- ==== Sys2Proof/Machine/Lead.lean ====
section
/-! DEFINITION. The lead unit's own words (R256 to R283): queue pushes, branches, compares, waits, the dictionary load
and the end of the lead thread. -/

namespace Sys2Proof.Machine

/-! The uniform queue (R265, R266) and the decision queues (R268). -/

/-- The uniform queue is full for the lead (R266). -/
def uqFull (t : Team) : Bool :=
  (liveGroups t).any (fun g => match look t.groups g with
    | some gr => t.uqWrite - gr.uqRead == 64
    | none => false)

/-- Every group of the team has ended (R273). -/
def groupsEnded (t : Team) : Bool := (liveGroups t).isEmpty

/-- Push an entry (R265); once all groups have ended it is discarded (R273). -/
def pushUq (t : Team) (x : UqEntry) : Team :=
  if groupsEnded t then t
  else { t with uq := put t.uq (t.uqWrite.toNat % 64) x, uqWrite := t.uqWrite + 1 }

/-- A push of the uniform queue. -/
def pushWord (i : Instr) (w : FWord) (x : Ctx → UqEntry) (s : State) : Host.Outcome State Fault Refusal :=
  runEff i w (fun c => if uqFull c.t then .error .wait else .ok ()) noOut (fun c => onTeam c (pushUq · (x c))) s

def execQpush (w : FWord) (d : Bool) (s : State) :=
  let i := Instr.qpush w d
  pushWord i w (fun c => .uniform (match w.b with
    | .imm k => k.signExtend 64
    | .sel _ => (laneIn i w s c 0).a)) s
def execQpusha (w : FWord) (s : State) :=
  let i := Instr.qpusha w
  pushWord i w (fun c => .affine (laneIn i w s c 0).a (laneIn i w s c 0).b) s

/-- A group's decision queue has room; a group without a live lane always has (R268). -/
def dqRoom (t : Team) (g : Nat) : Bool :=
  match look t.groups g with
  | some gr => gr.live == 0 || decide (gr.dq.length < 16)
  | none => true
/-- Push a value to a group's decision queue, unless it has no live lane. -/
def pushDq (v : W32) (t : Team) (g : Nat) : Team :=
  { t with groups := upd t.groups g (fun gr => if gr.live = 0 then gr else { gr with dq := gr.dq ++ [v] }) }

/-- The groups that a `DQPUSH` names. -/
def dqGroups (i : Instr) (w : FWord) (s : State) (c : Ctx) (all : Bool) : List Nat :=
  if all then liveGroups c.t
  else match w.b with
    | .imm k => [k.toNat]
    | .sel _ => [(lo (laneIn i w s c 0).b).toNat]

def execDqpush (w : FWord) (all : Bool) (s : State) :=
  let i := Instr.dqpush w all
  runEff i w
    (fun c => do
      let gs := dqGroups i w s c all
      trapIf (gs.any (fun g => decide (groupCount c.t ≤ g))) c 0x60 ((gs.headD 0) % 256)
      if gs.all (dqRoom c.t) then pure () else throw .wait)
    noOut
    (fun c => onTeam c (fun t => (dqGroups i w s c all).foldl (pushDq (lo (laneIn i w s c 0).a)) t)) s

/-! Branch and compare (R278, R279). -/

/-- A register target that is no lead PC (R278). -/
def badLeadTarget (x : W64) : Bool := x >>> 57 != 0 || x &&& 7 != 0

def execBrc (w : FWord) (k : BrcKind) (s : State) :=
  let i := Instr.brc w k
  let tgt (c : Ctx) : W64 := if w.b.isImm then immTarget c.pc w.b else (laneIn i w s c 0).a
  runEff i w (fun c => trapIf (!w.b.isImm && badLeadTarget (tgt c)) c 0x0E 0)
    (fun c _ => val c.next) (fun c => branch c (fun _ => tgt c)) s

/-- SCMP (R279). -/
def scmpR (cond : Cond) (u d : Bool) (comb : ScmpComb) (old : Bool) (x : LaneIn) : LaneOut :=
  let t := condHolds cond u d x.a x.b
  predVal (match comb with
    | .set => t
    | .and => old && t
    | .or => old || t)
def execScmp (w : FWord) (cond : Cond) (u d : Bool) (comb : ScmpComb) (s : State) :=
  runLanes (.scmp w cond u d comb) w (fun x => scmpR cond u d comb (x.preds.getLsbD (w.dst.toNat % 8)) x) s

/-! Waiting and time (R280). -/

/-- The generation count of a barrier (R260). -/
def barGen (t : Team) (n : BitVec 4) : BitVec 16 := ((look t.bars n.toNat).getD {}).gen

/-- LWAIT (R270, R280): `LWAIT.bar` ends with both steps of R63, the wait for the lead's earlier loads among them. -/
def execLwait (w : FWord) (bar : Option (BitVec 4)) (s : State) : Host.Outcome State Fault Refusal :=
  let i := Instr.lwait w bar
  match bar with
  | some n =>
    runEff i w
      (fun c => if (groupsEnded c.t || barGen c.t n != (laneIn i w s c 0).a.setWidth 16) && (srcLoads s c.id).isEmpty then .ok ()
        else .error .wait)
      noOut (fun c s => acquireL1 s c.t.core) s
  | none =>
    runEff i w noCheck noOut
      (fun c s' =>
        let v := (laneIn i w s c 0).a
        if v.toNat ≤ c.t.timer then s' else onGroup c (fun gr => waitLanes gr 1 c.pc (.timer v c.next)) s') s

/-- The lead's timer has reached the value that its `LWAIT` waits for. -/
def leadTimer (s : State) (tm : Nat) : State :=
  match team s tm with
  | none => s
  | some t =>
    match (look t.groups 32).bind (fun gr => look gr.wait 0) with
    | some (.timer v next) =>
      if v.toNat ≤ t.timer ∧ t.status = .resident then
        updGroup s ⟨tm, 32⟩ (fun gr => setPc { gr with wait := del gr.wait 0 } 1 next)
      else s
    | _ => s
def execLwaitTimerReached (tm : Nat) (s : State) : Host.Outcome State Fault Refusal := .next (leadTimer s tm)

def execLtime (w : FWord) (bar : Option (BitVec 4)) (s : State) :=
  runEff (.ltime w bar) w noCheck
    (fun c _ => match bar with
      | some n => { val := (barGen c.t n).setWidth 64 }
      | none => val (BitVec.ofNat 64 c.t.timer))
    noEff s

/-! The dictionary (R271, R281). -/

/-- The physical bytes of doubleword k of a `DICTLD`; none in the scratchpad or the counters. -/
def dictBytes (s : State) (c : Ctx) (a : W64) (k : Nat) : List Nat :=
  let va := a + BitVec.ofNat 64 (8 * k)
  if inScratch va ∨ inCounters va then [] else physBytes s c .load va 8

/-- The value of a doubleword that a weak load reads (R69): scratchpad, counters, the lead's own pending store (R232), the L1 or
the home slice. -/
def weakDword (s : State) (c : Ctx) (a : W64) : W64 :=
  if inScratch a then BitVec.ofNat 64 (leNat (scratchRead c.t (scratchOff a) 8))
  else if inCounters a then BitVec.ofNat 64 (leNat (counterBytes s (counterOff a) 8))
  else
    let pas := physBytes s c .load a 8
    match forward c.gr pas with
    | .data bs => BitVec.ofNat 64 (leNat bs)
    | _ =>
    let l1 := (core s c.t.core).l1
    let fromL1 : Bool := pas.all (fun p => (look l1 p).isSome) && Config.choice s.fresh (lineOf (pas.headD 0)) % 2 == 0
    BitVec.ofNat 64 (leNat (pas.map (fun p => if fromL1 then (look l1 p).getD 0 else homeByte s p)))

/-- The checks of the doublewords of a `DICTLD`, one after the other (R225 to R228). -/
def dictAccess (s : State) (c : Ctx) (a : W64) (n : Nat) : Except Stop Unit := do
  let va (k : Nat) : W64 := a + BitVec.ofNat 64 (8 * k)
  let first (f : W64 → Option (Nat × Nat)) : Except Stop Unit :=
    match (List.range n).findSome? (fun k => (f (va k)).map (fun e => (e, va k))) with
    | some ((cause, detail), x) => .error (.trap cause detail c.act x)
    | none => .ok ()
  first (fun x => rangeFault c.t x 8)
  first (alignFault 8)
  first (fun x => transFault s c .load x 8)
  match (List.range n).findSome? (fun k => needsWalk s c .load (va k) 8) with
  | some x => .error (.walk c.t.core c.t.launch.ctx x .load (srcWaiter c))
  | none => .ok ()

/-- The checks of a `DICTLD` before it reads. -/
def dictCheck (s : State) (c : Ctx) (a : W64) (first n : Nat) : Except Stop Unit :=
  if n = 0 then .ok ()
  else do
    trapIf (decide (1024 < first + n)) c 0x61 0
    memWait s c false
    dictAccess s c a n

/-- The reads of a `DICTLD` meet an uncorrectable unit. -/
def dictBad (s : State) (c : Ctx) (a : W64) (n : Nat) : Option ErrMark :=
  (List.range n).findSome? (fun k => match forward c.gr (dictBytes s c a k) with
    | .data _ => none
    | _ => badUnit s (dictBytes s c a k))

/-- A doubleword of a `DICTLD` overlaps a pending store of the lead that does not write it whole: the word waits (R232). -/
def dictWaits (s : State) (c : Ctx) (a : W64) (n : Nat) : Bool :=
  (List.range n).any (fun k => forward c.gr (dictBytes s c a k) == .wait)

/-- `DICTLD`: at its first issue its range becomes busy (R271); it reads and writes the entries at a later one, and an
uncorrectable doubleword faults there (R281). -/
def execDictld (w : FWord) (s : State) : Host.Outcome State Fault Refusal :=
  let i := Instr.dictld w
  finish s (do
    let c ← prologue i w s
    if c.act = 0 then pure (advance i w s c)
    else
      let x := laneIn i w s c 0
      let first := (lo x.b).toNat
      let n := (lo x.c).toNat
      dictCheck s c x.a first n
      if n = 0 then pure (advance i w s c)
      else if c.t.dictBusy.isNone then pure (onTeam c (fun t => { t with dictBusy := some (first, n) }) s)
      else if linesMissing s ((List.range n).flatMap (dictBytes s c x.a)) ≠ [] then
        pure (askLines s c.id c.t.core (linesMissing s ((List.range n).flatMap (dictBytes s c x.a))))
      else if dictWaits s c x.a n then throw .wait
      else match dictBad s c x.a n with
        | some e => throw (.dataError c.act e.addr)
        | none =>
          pure (onTeam c (fun t => { t with
            dictBusy := none
            dict := (List.range n).foldl (fun m k => set 0x8000000000000000 m (first + k)
              (weakDword s c (x.a + BitVec.ofNat 64 (8 * k)))) t.dict }) (advance i w s c)))

/-- The lead of a team whose image has no lead section stands at the implicit `LEXIT` (R257), which has no address: the
all-ones PC. -/
def implicitPc : W64 := 0xFFFFFFFFFFFFFFFF

/-- LEXIT (R272): the lead thread ends. -/
def execLexit (w : FWord) (s : State) := runEff (.lexit w) w noCheck noOut exitLanes s

end Sys2Proof.Machine
end

