-- ==== Sys2Proof/Machine/Gateway.lean ====
section
/-! DEFINITION. The register gateway: capabilities, arms, register sends and Contrail (R26, R27, R284 to R313). -/

namespace Sys2Proof.Machine

/-! Capabilities (R284 to R287). -/

/-- A capability without its check code (R284). -/
def capBits (dev gen rights n b h : Nat) : W64 :=
  BitVec.ofNat 64 (dev * 2 ^ 54 + gen * 2 ^ 32 + rights * 2 ^ 28 + (n - 1) * 2 ^ 22 + b * 2 ^ 14 + h)

def capDev (c : W64) : Nat := fieldN c 54 10
def capCheck (c : W64) : BitVec 14 := c.extractLsb' 40 14
def capGen (c : W64) : BitVec 8 := c.extractLsb' 32 8
def capCount (c : W64) : Nat := fieldN c 22 6 + 1
def capBase (c : W64) : Nat := fieldN c 14 8
def capHandle (c : W64) : Nat := fieldN c 0 14

/-- The check code that a capability must have for a group (R286). -/
def checkOf (s : State) (c : W64) (t : Team) (g : Nat) : BitVec 14 :=
  Config.check s.startNo (c &&& ~~~0x003FFF0000000000#64) t.launch.ctx t.launch.lid t.index g

/-- A free entry of the handle table: the first from a free choice onward (log 10). -/
def freeHandle (s : State) : Option Nat :=
  let start := Config.choice s.fresh 0 % 16384
  (List.range 16384).findSome? (fun k =>
    let n := (start + k) % 16384
    if ((look s.handles n).bind (·.holder)).isNone then some n else none)

/-- The handle of a group: its own, or a fresh one with the entry's generation raised (R285). -/
def handleFor (s : State) (id : SrcId) (gr : Group) : Option (Nat × Handle) :=
  match gr.handle with
  | some n => some (n, (look s.handles n).getD {})
  | none => (freeHandle s).map (fun n => (n, { gen := ((look s.handles n).getD {}).gen + 1, holder := some id }))

/-- The capability that a `CAPMK` mints (R306). -/
def minted (s : State) (c : Ctx) (rights n b h : Nat) (e : Handle) : W64 :=
  let w := capBits c.dev e.gen.toNat rights n b h
  w ||| ((checkOf s w c.t c.id.g).setWidth 64 <<< 40)

/-- The group keeps the handle. -/
def keepHandle (c : Ctx) (n : Nat) (e : Handle) (s : State) : State :=
  onGroup c (fun gr => { gr with handle := some n }) { s with handles := put s.handles n e }

def execCapmk (w : FWord) (snd eng : Bool) (s : State) :=
  let i := Instr.capmk w snd eng
  let b (c : Ctx) : Nat := (lo (laneIn i w s c (lowest c.act)).a).toNat
  let n (c : Ctx) : Nat := (lo (laneIn i w s c (lowest c.act)).b).toNat
  let rights : Nat := (if snd then 1 else 0) + (if eng then 2 else 0)
  runEff i w
    (fun c => do
      trapIf (rights == 0) c 0x73 2
      trapIf (n c == 0 || decide (64 < n c)) c 0x73 1
      trapIf (decide (256 < b c + n c)) c 0x73 3
      trapIf (handleFor s c.id c.gr).isNone c 0x74 0)
    (fun c _ => match handleFor s c.id c.gr with
      | some (h, e) => val (minted s c rights (n c) (b c) h e)
      | none => {})
    (fun c s' => match handleFor s c.id c.gr with
      | some (h, e) => keepHandle c h e s'
      | none => s') s

/-- CAPRV (R307): the generation of the group's handle rises. -/
def execCaprv (w : FWord) (s : State) :=
  runEff (.caprv w) w noCheck noOut
    (fun c s' => match c.gr.handle with
      | some n => { s' with handles := upd s'.handles n (fun e => { e with gen := e.gen + 1 }) }
      | none => s') s

/-! Arms (R288 to R291, R308 to R310). -/

/-- The base and count of a window word, from the lowest executing lane. -/
def windowOf (i : Instr) (w : FWord) (s : State) (c : Ctx) : Nat × Nat :=
  let x := laneIn i w s c (lowest c.act)
  ((lo x.a).toNat, (lo x.b).toNat)

/-- The checks of a window: count, then R131. -/
def armCheck (c : Ctx) (bn : Nat × Nat) : Except Stop Unit := do
  trapIf (bn.2 == 0 || decide (64 < bn.2)) c 0x73 1
  trapIf (decide (c.gr.alloc < bn.1 + bn.2)) c 0x08 (max bn.1 c.gr.alloc)

/-- The key of a Contrail port. -/
def portKey (core' : Nat) (d : Dir) : Nat := 4 * core' + d.ctorIdx

/-- The direction in DST of a `RARM.nbr`. -/
def armDir (w : FWord) : Dir :=
  match w.dst.toNat % 4 with
  | 0 => .n
  | 1 => .e
  | 2 => .s
  | _ => .w

/-- The claim that a `RARM.nbr` makes (R300). -/
def claimCheck (s : State) (c : Ctx) (d : Dir) (bn : Nat × Nat) : Except Stop Unit :=
  match look s.claims (portKey c.t.core d) with
  | none => .ok ()
  | some k => do
    trapIf (k.id != c.id) c 0x77 1
    trapIf (k.base != bn.1 || k.count != bn.2) c 0x77 2

/-- Write the arm of registers b to b + n - 1 in the executing lanes. -/
def setArms (c : Ctx) (bn : Nat × Nat) (a : Arm) (gr : Group) : Group :=
  { gr with arm := (lanesOf c.act).foldl (fun m l => (List.range bn.2).foldl (fun m k => set {} m (32 * (bn.1 + k) + l) a) m) gr.arm }

def execRarm (w : FWord) (acq nbr : Bool) (s : State) :=
  let i := Instr.rarm w acq nbr
  let d := armDir w
  runEff i w
    (fun c => do
      armCheck c (windowOf i w s c)
      if nbr then claimCheck s c d (windowOf i w s c))
    noOut
    (fun c s' =>
      let bn := windowOf i w s c
      let s' := if nbr then
        { s' with claims := put s'.claims (portKey c.t.core d) { id := c.id, base := bn.1, count := bn.2, ctx := c.t.launch.ctx } } else s'
      onGroup c (setArms c bn { armed := true, acq, kind := if nbr then BitVec.ofNat 3 (4 + d.ctorIdx) else 0 }) s') s

def execRdisarm (w : FWord) (s : State) :=
  let i := Instr.rdisarm w
  runEff i w (fun c => armCheck c (windowOf i w s c)) noOut
    (fun c s' =>
      let bn := windowOf i w s c
      let s' := { s' with claims := s'.claims.filter (fun e => !(e.2.id == c.id && decide (bn.1 ≤ e.2.base) && decide (e.2.base < bn.1 + bn.2))) }
      onGroup c (setArms c bn {}) s') s

def execRpend (w : FWord) (s : State) :=
  let i := Instr.rpend w
  runEff i w noCheck
    (fun c l =>
      let b := (lo (laneIn i w s c l).a).toNat
      val32 (maskOf (fun k => decide (b + k < c.gr.alloc) && (get {} c.gr.arm (32 * (b + k) + l)).armed)))
    noEff s

/-! Sends (R311, R312). -/

/-- The destination of a send by a capability: the group that the handle names (R296). -/
def capDest (s : State) (c : W64) : Nat :=
  match (if capDev c = deviceId s then (look s.handles (capHandle c)).bind (·.holder) else none) with
  | some id => destGroup id
  | none => 2 ^ 50 + capDev c * 16384 + capHandle c

/-- The fault of a `SENDR` in a lane (R311). -/
def sendrFault (d : Bool) (x : LaneIn) : Option (Nat × Nat) :=
  let k := (lo x.b).toNat
  if !x.a.getLsbD 28 then some (0x72, 3)
  else if capCount x.a ≤ k then some (0x72, 1)
  else if capCount x.a < k + (if d then 2 else 1) then some (0x72, 2)
  else none

/-- The fault of a capability of another device (R443, R524). -/
def capPeerFault (s : State) (c : W64) : Option (Nat × Nat) :=
  if capDev c = deviceId s then none
  else if !featureOn s 4 then some (0xD0, 4) else peerFault s (capDev c)

/-- The waits of a send (R71, R75). -/
def sendWait (s : State) (c : Ctx) (os : Nat) : Except Stop Unit := do
  storeWait s c false
  streamWait c os

/-- The operation of a send issue. -/
def sendOpOf (c : Ctx) (os : Nat) : Op := { kind := .send, stream := os, seq := 0, ord := c.gr.ord, lanes := c.act, left := 0 }

def execSendr (w : FWord) (d : Bool) (os : BitVec 3) (s : State) : Host.Outcome State Fault Refusal :=
  let i := Instr.sendr w d os
  runEff i w
    (fun c => do
      let x := laneIn i w s c
      stage c (fun _ => 0) (fun l => sendrFault d (x l))
      stage c (fun _ => 0) (fun l => capPeerFault s (x l).a)
      sendWait s c os.toNat)
    noOut
    (fun c s' =>
      let x := laneIn i w s c
      let caps := ((lanesOf c.act).map (fun l => (x l).a)).eraseDups
      let body (cap : W64) : Body := .send (.cap cap) d false
        (((lanesOf c.act).filter (fun l => (x l).a == cap)).map (fun l => { lane := l, off := lo (x l).b, val := (x l).c }))
      sendOp s' c (sendOpOf c os.toNat) (caps.map (fun cap => (capDest s cap, body cap)))) s

/-- The core at a direction on the same die (R14, R26). -/
def neighbour (core' : Nat) (d : Dir) : Option Nat :=
  let k := core' % 144
  match d with
  | .n => if 12 ≤ k then some (core' - 12) else none
  | .e => if k % 12 < 11 then some (core' + 1) else none
  | .s => if k < 132 then some (core' + 12) else none
  | .w => if 0 < k % 12 then some (core' - 1) else none

/-- The direction from which a send arrives. -/
def arrivesFrom : Dir → Dir
  | .n => .s
  | .s => .n
  | .e => .w
  | .w => .e

/-- The destination of a Contrail send: the group that claims the port (R296, R301). -/
def portDest (s : State) (core' : Nat) (d : Dir) : Nat :=
  match look s.claims (portKey core' d) with
  | some k => destGroup k.id
  | none => 2 ^ 48 + portKey core' d

/-- The packets in flight on a link direction (R302). -/
def linkBusy (s : State) (core' : Nat) (d : Dir) : Nat :=
  (s.pkts.filter (fun e => !e.2.held && (match e.2.body with
    | .send (.port k b _) _ _ _ => k == core' && b == d
    | _ => false))).length

def execSendn (w : FWord) (dir : Dir) (os : BitVec 3) (s : State) : Host.Outcome State Fault Refusal :=
  let i := Instr.sendn w dir os
  runEff i w
    (fun c => match neighbour c.t.core dir with
      | none => .error (.trap 0x75 dir.ctorIdx c.act 0)
      | some k => do
        sendWait s c os.toNat
        if 8 ≤ linkBusy s k (arrivesFrom dir) then throw .wait)
    noOut
    (fun c s' => match neighbour c.t.core dir with
      | none => s'
      | some k =>
        let x := laneIn i w s c
        sendOp s' c (sendOpOf c os.toNat) [(portDest s k (arrivesFrom dir), .send (.port k (arrivesFrom dir) c.t.launch.ctx) false false
          ((lanesOf c.act).map (fun l => { lane := l, off := lo (x l).b, val := zx (lo (x l).c) })))]) s

/-! Commit at the gateway (R287, R292 to R295). -/

/-- Where a send goes: the group, its window's base and size, and the kind of arm it needs; or why it is refused whole. -/
structure Landing where
  id : SrcId
  base : Nat
  count : Nat
  kind : BitVec 3
  bounded : Bool
  unarmed : Nat        -- DETAIL for a register that is not armed
  deriving DecidableEq, Repr

/-- A group that can take a send (R41): its team has not ended and it has a live lane. -/
def takesSends (s : State) (id : SrcId) : Bool :=
  match team s id.team, group s id with
  | some t, some gr => t.status != .ending && gr.live != 0
  | _, _ => false

/-- The tests of a capability at commit (R287, R304). -/
def capTest (s : State) (c : W64) (eng : Bool) : Except (Nat × Nat) SrcId :=
  match look s.handles (capHandle c) with
  | none => .error (0x70, 1)
  | some e => match e.holder with
    | none => .error (0x70, 1)
    | some id =>
      if capGen c ≠ e.gen then .error (0x70, 2)
      else match team s id.team with
        | none => .error (0x70, 1)
        | some t =>
          if capCheck c ≠ checkOf s c t id.g then .error (0x70, 1)
          else if eng && !c.getLsbD 29 then .error (0x70, 3)
          else .ok id

/-- The target of a send (R292). -/
def landing (s : State) (t : Target) (eng : Bool) : Except (Nat × Nat) Landing := do
  let l ← match t with
    | .cap c => do
      let id ← capTest s c eng
      pure { id, base := capBase c, count := capCount c, kind := 0, bounded := eng, unarmed := 1 }
    | .port core' d ctx => match look s.claims (portKey core' d) with
      | none => .error (0x71, 1)
      | some k =>
        if k.ctx ≠ ctx then .error (0x76, 0)
        else pure { id := k.id, base := k.base, count := k.count, kind := BitVec.ofNat 3 (4 + d.ctorIdx), bounded := true, unarmed := 1 }
    | .status id _ reg => pure { id, base := reg, count := 1, kind := 0, bounded := false, unarmed := 4 }
  if takesSends s l.id then pure l else .error (0x71, 3)

/-- The registers and values that a lane of a send writes, as offsets. -/
def laneWords (d : Bool) (ls : List SendLane) (lane : Nat) : List (Nat × W32) :=
  (ls.filter (·.lane == lane)).flatMap (fun x =>
    if d then [(x.off.toNat, lo x.val), (x.off.toNat + 1, hi x.val)] else [(x.off.toNat, lo x.val)])

/-- Why a lane of a send is refused (R292). -/
def laneRefusal (gr : Group) (l : Landing) (ws : List (Nat × W32)) (lane : Nat) : Option (Nat × Nat) :=
  let arm (o : Nat) : Arm := get {} gr.arm (32 * (l.base + o) + lane)
  if l.bounded ∧ ws.any (fun w => decide (l.count ≤ w.1)) then some (0x71, 5)
  else if ws.any (fun w => !(arm w.1).armed) then some (0x71, l.unarmed)
  else if ws.any (fun w => (arm w.1).kind != l.kind) then some (0x71, 2)
  else none

/-- Deliver an accepted lane: the values are written, the arms and the ERR marks cleared. -/
def deliverLane (l : Landing) (ws : List (Nat × W32)) (lane : Nat) (gr : Group) : Group :=
  ws.foldl (fun gr w =>
    { writeV gr (l.base + w.1) lane w.2 with arm := del gr.arm (32 * (l.base + w.1) + lane) }) gr

/-- A refusal of lanes of a send: cause, detail, the refused lanes and the offset of the lowest (R293). -/
structure SendRefusal where
  cause : Nat
  detail : Nat
  lanes : Mask
  off : Nat
  deriving DecidableEq, Repr

/-- The lanes of a send, in ascending order. -/
def sendLanes (ls : List SendLane) : List Nat := (List.range 32).filter (fun k => ls.any (fun x => x.lane == k))

/-- Steps 2 and 3 of R63 on the core of a team; a saved team has none, and its restoring core performs them before the team's
first issue (R58, R86). -/
def acquireTeam (s : State) (tm : Nat) : State :=
  match team s tm with
  | some t => if t.status = .saved then s else acquireL1 s t.core
  | none => s

/-- A send lands (R292): the state after it, and the refusal of the packet if lanes are refused. -/
def landSend (s : State) (t : Target) (d eng : Bool) (ls : List SendLane) : State × Option SendRefusal :=
  let lanes := sendLanes ls
  let off (k : Nat) : Nat := ((laneWords d ls k).map (·.1)).headD 0
  match landing s t eng with
  | .error (cause, detail) => (s, some { cause, detail, lanes := maskOf (lanes.contains ·), off := off (lanes.headD 0) })
  | .ok l =>
    match group s l.id with
    | none => (s, none)
    | some gr =>
      let why (k : Nat) : Option (Nat × Nat) := laneRefusal gr l (laneWords d ls k) k
      let good := lanes.filter (fun k => (why k).isNone)
      let bad := lanes.filter (fun k => (why k).isSome)
      let acq := good.any (fun k => (laneWords d ls k).any (fun w => (get {} gr.arm (32 * (l.base + w.1) + k)).acq))
      let s := if acq then acquireTeam s l.id.team else s
      let s := updGroup s l.id (fun gr => good.foldl (fun gr k => deliverLane l (laneWords d ls k) k gr) gr)
      let s := mirrorRegs s l.id (good.flatMap (fun k => (laneWords d ls k).map (fun w => (l.base + w.1, k))))
      (s, match bad with
        | [] => none
        | k :: _ => some { cause := ((why k).map (·.1)).getD 0, detail := ((why k).map (·.2)).getD 0
                           lanes := maskOf (bad.contains ·), off := off k })

/-- IDENT of a refusal (R293). -/
def sendIdent (core' : Nat) : Target → W64
  | .cap c => c
  | .port _ d _ => BitVec.ofNat 64 (core' * 4 + (arrivesFrom d).ctorIdx)
  | .status _ _ _ => 0

/-- EXTRA of a refusal (R293). -/
def refusalExtra (r : SendRefusal) : W64 := zx r.lanes ||| BitVec.ofNat 64 (r.off % 64 * 2 ^ 40)

/-- Report a refusal to the sender's ring (R293). -/
def reportRefusal (s : State) (src : SrcId) (core' : Nat) (seq : BitVec 24) (stream : Nat) (t : Target) (r : SendRefusal) : State :=
  asyncFault s src (some (lowest r.lanes)) seq stream r.cause r.detail 0 (sendIdent core' t) (refusalExtra r)

/-- Commit a send packet (R292 to R294): it is performed for its stream whether lanes are refused or not. -/
def commitSend (s : State) (n : Nat) (p : Pkt) : State :=
  match p.body with
  | .send t d eng ls =>
    let s := noteCommit { s with pkts := del s.pkts n } p
    let (s, r) := landSend s t d eng ls
    if isGuest p.src then
      match r with
      | none => guestLane s (p.op.getD 0) 0 0 0 0
      | some r => guestLane s (p.op.getD 0) (refusalExtra r) 0 r.cause r.detail
    else
      let s := match r with
        | none => s
        | some r => reportRefusal s p.src p.core p.seq p.stream t r
      ackPkt s p [] [] 0
  | _ => s

/-- SEND_COMMIT: an arrived send commits once R77 lets it. -/
def execSendCommit (n : Nat) (s : State) : Host.Outcome State Fault Refusal :=
  .next (match look s.pkts n with
    | none => s
    | some p => if p.held ∧ committable s n p then commitSend s n p else s)

/-- A send packet arrives at the gateway of its target (R77, R80). -/
def arriveGateway (s : State) (n : Nat) (p : Pkt) : State :=
  if p.held ∨ waitsAfter s p then s
  else
    let p := sentPkt s p
    let s := noteWm s p
    if committable s n p ∨ p.flag ∨ heldAt s p.dest < holdRoom p.dest then { s with pkts := put s.pkts n { p with held := true } }
    else { s with pkts := put s.pkts n { p with wm := currentWm s p } }

end Sys2Proof.Machine
end

