-- ==== Sys2Proof/Machine/Remote.lean ====
section
/-! DEFINITION. Remote-opcode definitions: the header, the checks of an image, and the execution of a request on its
footprint (R391 to R399). -/

namespace Sys2Proof.Machine

/-! The header (R393). -/

def hdrNum (h : W64) : Nat := fieldN h 40 5
def hdrGran (h : W64) : Nat := fieldN h 38 2
def hdrComm (h : W64) : Bool := h.getLsbD 37
def hdrKind (h : W64) : Nat := fieldN h 35 2
def hdrWide (h : W64) : Bool := h.getLsbD 34
def hdrPolicy (h : W64) : Nat := fieldN h 32 2
def hdrLen (h : W64) : Nat := fieldN h 22 5
def hdrOpn (h : W64) : Nat := fieldN h 18 3
def hdrFlen (h : W64) : Nat := fieldN h 0 8

/-- The bytes of a granule code (R391). -/
def granBytes (g : Nat) : Nat := if g = 0 then 4 else if g = 1 then 128 else 512

/-- The header values of a built-in (R392). -/
def builtinHeader (n : Nat) : W64 :=
  let (gran, flen, comm, wide, opn) : Nat × Nat × Nat × Nat × Nat := match n with
    | 1 => (1, 2, 1, 1, 2)
    | 4 => (0, 1, 1, 0, 2)
    | 5 => (0, 1, 0, 0, 1)
    | 6 => (0, 1, 0, 0, 2)
    | _ => (0, 1, 1, 0, 1)
  BitVec.ofNat 64 (0x5DEF * 2 ^ 48 + n * 2 ^ 40 + gran * 2 ^ 38 + comm * 2 ^ 37 + 2 ^ 35 + wide * 2 ^ 34 + opn * 2 ^ 18 + flen)

/-! Fields of a micro-operation (R394). -/

def uOp (u : W32) : Nat := u.toNat / 2 ^ 27
def uWd (u : W32) : Nat := u.toNat / 2 ^ 24 % 8
def uWa (u : W32) : Nat := u.toNat / 2 ^ 21 % 8
def uWb (u : W32) : Nat := u.toNat / 2 ^ 18 % 8
def uW64 (u : W32) : Bool := u.getLsbD 17
def uX (u : W32) : Nat := u.toNat % 2 ^ 17
def uJ (u : W32) : Nat := u.toNat % 128

/-- A micro-operation reads or writes a pair of words, so that its request lies at a multiple of 8 (R409). -/
def uPair (u : W32) : Bool := uOp u == 1 || uOp u == 3

/-! The checks of an image (R399). -/

/-- The bits that R395 lets an operation use. -/
def uMask (u : W32) : Nat :=
  let d := 7 * 2 ^ 24
  let a := 7 * 2 ^ 21
  let b := 7 * 2 ^ 18
  let w := 2 ^ 17
  0xF8000000 + (match uOp u with
    | 0 | 1 => d + 0x7F
    | 2 | 3 => a + 0x7F
    | 4 => d + 7
    | 5 => d + 0x1FFFF
    | 6 | 7 | 8 | 9 | 10 | 11 | 15 | 16 | 17 => d + a + b + w
    | 12 | 13 => d + a + b + w + 1
    | 14 => d + a + b + w + 7
    | 18 | 19 => d + a + w + (if u.getLsbD 6 then 0x7F else b)
    | 20 => a + b + w + 0x1E00F
    | 21 => d + a + b
    | 22 => d + a
    | 23 => a
    | _ => 0)

/-- The conditions of reason 6. -/
def uBad (u : W32) : Bool :=
  24 ≤ uOp u || u.toNat &&& uMask u != u.toNat ||
    (uOp u == 20 && decide (6 ≤ uX u / 2 ^ 14)) ||
    (uOp u == 14 && uW64 u != (uX u / 2 % 4 == 3))

/-- The reason that refuses micro-operation i of a definition (R399, stage 2). -/
def uReject (h : W64) (i : Nat) (u : W32) : Option Nat :=
  let n := hdrLen h
  let j := uJ u
  let k := uX u % 4
  let wide := (uX u).testBit 2
  if uBad u then some 6
  else if (uOp u < 4 ∧ hdrFlen h ≤ j) ∨ (uPair u ∧ (j % 2 = 1 ∨ hdrFlen h ≤ j + 1)) then some 7
  else if uOp u = 20 ∧ n - 1 < i + 1 + uX u % 16 then some 8
  else if i = n - 1 ∧ uOp u ≠ 23 then some 9
  else if uOp u = 23 ∧ hdrKind h ≠ 3 ∧ uWa u ≠ 0 then some 10
  else if uOp u = 4 ∧ (hdrOpn h ≤ k ∨ (wide ∧ (k % 2 = 1 ∨ hdrOpn h ≤ k + 1))) then some 11
  else none

/-- The reason that refuses a header (R393, R399, stage 1). -/
def hdrReject (h dw1 : W64) : Option Nat :=
  let room := if hdrGran h = 0 then 1 else if hdrGran h = 1 then 32 else 128
  if fieldN h 48 16 ≠ 0x5DEF ∨ h &&& 0x0000E000F823FF00 ≠ 0 ∨ dw1 ≠ 0 then some 1
  else if hdrNum h < 8 then some 2
  else if hdrLen h = 0 ∨ 16 < hdrLen h then some 3
  else if hdrGran h = 3 ∨ hdrPolicy h = 3 ∨ 4 < hdrOpn h then some 4
  else if hdrFlen h = 0 ∨ room < hdrFlen h then some 5
  else if hdrWide h ∧ (hdrKind h = 0 ∨ (hdrKind h ≠ 3 ∧ hdrFlen h < 2)) then some 10
  else none

/-- The first refusal of an image: its reason, and the micro-operation of stage 2. -/
def imageReject (h dw1 : W64) (us : List W32) : Option (Nat × Option Nat) :=
  match hdrReject h dw1 with
  | some r => some (r, none)
  | none => ((List.range us.length).zip us).findSome? (fun e => (uReject h e.1 e.2).map (fun r => (r, some e.1)))

/-! Execution of a request (R395 to R397). -/

/-- The held copy of a footprint with the words stored to, the working registers, the condition and the flags. -/
structure Prog where
  m : List W32
  stored : List Nat := []
  w : FMap W64 := []
  c : Bool := false
  flags : W64 := 0
  deriving DecidableEq, Repr

/-- What a micro-operation does: it goes on with a skip, ends the program with the returned register, or raises an
exception whose clamped result and flag are given. -/
inductive UStep where
  | go (p : Prog) (skip : Nat)
  | ret (wa : W64)
  | exc (p : Prog)
  deriving DecidableEq, Repr

def rd (p : Prog) (k : Nat) : W64 := get 0 p.w k
def wr (p : Prog) (k : Nat) (v : W64) : Prog := { p with w := set 0 p.w k v }
def mWord (m : List W32) (j : Nat) : W32 := m.getD j 0
def mPair (m : List W32) (j : Nat) : W64 := pair64 (mWord m j) (mWord m (j + 1))
/-- Store a word of the footprint. -/
def storeWord' (p : Prog) (j : Nat) (x : W32) : Prog :=
  { p with m := p.m.set j x, stored := if p.stored.contains j then p.stored else p.stored ++ [j] }

/-- A result of a width, zero-extended. -/
def cutW (wide : Bool) (x : W64) : W64 := if wide then x else zx (lo x)
/-- A value as a signed or unsigned integer of a width. -/
def intW (u wide : Bool) (x : W64) : Int := if u then ((cutW wide x).toNat : Int) else if wide then x.toInt else (lo x).toInt

/-- The format of the floating-point operations. -/
def fmtW (wide : Bool) : Fmt := if wide then fp64 else fp32
/-- A value of that format. -/
def fpW (wide : Bool) (x : W64) : Fp := decodeFp (fmtW wide) (cutW wide x).toNat

/-- A floating-point result (R397): an overflow is an exception that clamps to the largest finite value of its sign, an
invalid operation one that gives the canonical NaN; a NaN operand is none. -/
def fpStep (p : Prog) (d : Nat) (wide : Bool) (nan : Bool) (r : FRes) : UStep :=
  let f := fmtW wide
  let put (b : Nat) (fl : W64) : Prog := { wr p d (BitVec.ofNat 64 b) with flags := p.flags ||| fl }
  if nan then .go (put (nanEnc f) 0) 0
  else if r.flags &&& flagNV ≠ 0 then .exc (put (nanEnc f) flagNV)
  else if r.flags &&& flagOF ≠ 0 then .exc (put (f.maxEnc + r.bits / 2 ^ (f.ebits + f.fbits) * 2 ^ (f.ebits + f.fbits)) flagSAT)
  else .go (put r.bits 0) 0

/-- The clamped sum of `satadd` and whether it lay outside the range. -/
def satAdd (size : Nat) (u : Bool) (a b : W64) : W64 × Bool :=
  let n := 8 * 2 ^ size
  let v (x : W64) : Int :=
    let k : Nat := x.toNat % 2 ^ n
    if !u && decide (2 ^ (n - 1) ≤ k) then (k : Int) - 2 ^ n else k
  let (y, o) := if u then clamp (v a + v b) 0 (2 ^ n - 1) else clamp (v a + v b) (-2 ^ (n - 1)) (2 ^ (n - 1) - 1)
  (BitVec.ofInt 64 (y % 2 ^ n), o)

/-- A condition of `cmp`. -/
def uCond (k : Nat) (a b : Int) : Bool :=
  match k with
  | 0 => a == b
  | 1 => a != b
  | 2 => a < b
  | 3 => a ≤ b
  | 4 => b < a
  | _ => b ≤ a

/-- One micro-operation (R395); `ops` are the request's operand words. -/
def uStep (ops : List W32) (p : Prog) (u : W32) : UStep :=
  let d := uWd u
  let a := rd p (uWa u)
  let b := rd p (uWb u)
  let w := uW64 u
  let x := uX u
  let j := uJ u
  let res (v : W64) : UStep := .go (wr p d v) 0
  let alu (v : W64) : UStep := res (cutW w v)
  let amount : Nat := if x.testBit 6 then x % 64 else b.toNat
  let width : Nat := if w then 64 else 32
  match uOp u with
  | 0 => res (zx (mWord p.m j))
  | 1 => res (mPair p.m j)
  | 2 => .go (storeWord' p j (lo a)) 0
  | 3 => .go (storeWord' (storeWord' p j (lo a)) (j + 1) (hi a)) 0
  | 4 => res (if x.testBit 2 then pair64 (mWord ops (x % 4)) (mWord ops (x % 4 + 1)) else zx (mWord ops (x % 4)))
  | 5 => res ((BitVec.ofNat 17 x).signExtend 64)
  | 6 => alu (a + b)
  | 7 => alu (a - b)
  | 8 => fpStep p d w (anyNan [fpW w a, fpW w b]) (addFp (fmtW w) .rne .ieee false (fpW w a) (fpW w b))
  | 9 => fpStep p d w (anyNan [fpW w a, fpW w b]) (mulFp (fmtW w) .rne .ieee false (fpW w a) (fpW w b))
  | 10 => res (BitVec.ofNat 64 (minmaxFp (fmtW w) true (fpW w a) (fpW w b)).bits)
  | 11 => res (BitVec.ofNat 64 (minmaxFp (fmtW w) false (fpW w a) (fpW w b)).bits)
  | 12 => alu (if intW (x.testBit 0) w a < intW (x.testBit 0) w b then b else a)
  | 13 => alu (if intW (x.testBit 0) w b < intW (x.testBit 0) w a then b else a)
  | 14 =>
    let (y, o) := satAdd (x / 2 % 4) (x.testBit 0) a b
    if o then .exc { wr p d y with flags := p.flags ||| flagSAT } else res y
  | 15 => alu (a &&& b)
  | 16 => alu (a ||| b)
  | 17 => alu (a ^^^ b)
  | 18 => res (if width ≤ amount then 0 else cutW w (cutW w a <<< amount))
  | 19 => res (if width ≤ amount then 0 else cutW w a >>> amount)
  | 20 =>
    let c := uCond (x / 2 ^ 14) (intW (x.testBit 13) w a) (intW (x.testBit 13) w b)
    .go { p with c } (if c then x % 16 else 0)
  | 21 => res (if p.c then a else b)
  | 22 => fpStep p d false (anyNan [fpW false a]) (fexp2Fp false (fpW false a))
  | _ => .ret a

/-- How a request ends (R396, R397): the words stored to and their values, the value, the flags, whether policy 0
stopped it, and the micro-operation of a trap of policy 2. -/
structure ProgEnd where
  m : List (Nat × W32) := []
  val : W64 := 0
  flags : W64 := 0
  aborted : Bool := false
  trap : Option Nat := none
  deriving DecidableEq, Repr

/-- The first word or pair of a footprint. -/
def firstOf (wide : Bool) (m : List W32) : W64 := if wide then mPair m 0 else zx (mWord m 0)

/-- The end of a program whose `ret` names a register (R396). -/
def progRet (h : W64) (old : W64) (p : Prog) (wa : W64) : ProgEnd :=
  { m := p.stored.map (fun j => (j, mWord p.m j)), flags := p.flags
    val := match hdrKind h with
      | 0 => 0
      | 1 => old
      | 2 => firstOf (hdrWide h) p.m
      | _ => cutW (hdrWide h) wa }

/-- Run the micro-operations from number i; `fuel` bounds their number (R395: a branch runs forward). -/
def runProg (h : W64) (image ops : List W32) (old : W64) (fuel i : Nat) (p : Prog) : ProgEnd :=
  match fuel with
  | 0 => progRet h old p 0
  | fuel + 1 =>
    match uStep ops p (image.getD i 0xB8000000) with
    | .go p skip => runProg h image ops old fuel (i + 1 + skip) p
    | .ret wa => progRet h old p wa
    | .exc q =>
      if hdrPolicy h = 0 then { val := if hdrKind h = 3 ∨ hdrKind h = 0 then 0 else old, aborted := true }
      else if hdrPolicy h = 1 then runProg h image ops old fuel (i + 1) q
      else { trap := some i }

/-- A built-in opcode on its footprint (R392): the words it writes. -/
def builtinOp (n : Nat) (m a : List W32) : List (Nat × W32) :=
  let m0 := mWord m 0
  let a0 := mWord a 0
  let a1 := mWord a 1
  match n with
  | 0 => [(0, m0 + a0)]
  | 1 => let x := mPair m 0 + mPair a 0; [(0, lo x), (1, hi x)]
  | 2 => [(0, if a0.toInt < m0.toInt then a0 else m0)]
  | 3 => [(0, if m0.toInt < a0.toInt then a0 else m0)]
  | 4 => match a1.toNat % 4 with
    | 0 => [(0, m0 &&& a0)]
    | 1 => [(0, m0 ||| a0)]
    | 2 => [(0, m0 ^^^ a0)]
    | _ => []
  | 5 => [(0, a0)]
  | 6 => if m0 = a1 then [(0, a0)] else []
  | _ => [(0, BitVec.ofNat 32 (addFp fp32 .rne .ieee false (decodeFp fp32 m0.toNat) (decodeFp fp32 a0.toNat)).bits)]

/-- Execute a request on its footprint (R392, R396). -/
def runRequest (h : W64) (image m ops : List W32) : ProgEnd :=
  if hdrLen h = 0 then { m := builtinOp (hdrNum h) m ops, val := firstOf (hdrWide h) m }
  else runProg h image ops (firstOf (hdrWide h) m) 16 0 { m }

end Sys2Proof.Machine
end

