-- ==== Sys2Proof/WellFormed.lean ====
section
/-! DEFINITION. Well-formed instructions: the operand and modifier rules of R97 to R111 and R123, on instructions
rather than on bits. -/

namespace Sys2Proof
open Sys2Proof.Machine

/-- The rounding modifier of an instruction, and whether stochastic rounding is allowed for it (R111). -/
def roundingOf : Instr → Option (Rm × Bool)
  | .fadd _ r _ | .fsub _ r _ | .fmul _ r _ | .fdivs _ r _ | .dadd _ r _ | .dsub _ r _ | .dmul _ r _
  | .ffma _ _ _ r _ | .dfma _ _ _ r _ | .fmin _ r | .fmax _ r | .dmin _ r | .dmax _ r
  | .fcmp _ _ r _ | .dcmp _ _ r _ | .frnd _ r | .drnd _ r | .fclass _ _ r
  | .hadd2 _ r _ | .hmul2 _ r _ | .badd2 _ r _ | .bmul2 _ r _ | .hfma2 _ r _ | .bfma2 _ r _ | .dot4i _ _ _ _ r
  | .sclxFp32 _ r | .sclxFp64 _ r | .sclxX8 _ _ r => some (r, false)
  | .cvt _ k r => some (r, cvtStoch k)
  | .cvt8 _ (.fromF32 _ r _) | .cvt8 _ (.from16 _ r _ _) | .cvt4E2m1 _ r => some (r, true)
  | _ => none

/-- The rounding modifier is one that the instruction may have (R111). -/
def roundingOk (i : Instr) : Bool :=
  match roundingOf i with
  | some (r, st) => st || r != .rs
  | none => true

/-- Byte offsets of `CVTX` that stay in the operand (R220). -/
def cvtxOk : Instr → Bool
  | .cvtx _ f o => if f == .e2m3 || f == .e3m2 then o.toNat < 6 else o.toNat < 7
  | _ => true

/-- The variant (immediate or register) exists for the instruction (R98, R115, R159, R244 and the encoding tables). -/
def variantOk (i : Instr) (imm : Bool) : Bool :=
  match i with
  | .bra _ | .movi _ _ | .movhi _ | .trap _ => imm
  | .ineg _ _ | .iabs _ _ | .imad _ | .imadw _ _ | .inot _ _ | .bfi _ | .popc _ | .clz _ | .brev _ | .mov _ _ _
  | .sclxBlk _ _ | .acq _ | .rel _ | .brx _ | .ret _ | .exit _ | .nop _ | .yield _ | .bkpt _ | .rtt _
  | .xget _ _ _ | .rpend _ => !imm
  | .atom _ op _ _ | .atomx _ op _ _ => !(imm && op == .cas)
  | .st _ z _ _ | .sts _ z _ _ => !(imm && z == .q)
  | .qpush _ d => !(imm && d)
  | .brc _ k => !(imm && k == .ret)
  | i => match encF i with
    | some (f, _, _) => !(imm && noImmFams.contains f)
    | none => true

/-- The code section accepts the instruction (R123). -/
def sectionOk (lead : Bool) (i : Instr) : Bool :=
  match encF i with
  | some (f, m, w) => if lead then leadFam f && leadMember f w.b.isImm m else !(0xE0 ≤ f && f ≤ 0xEC)
  | none => !lead

/-- The common fields of an instruction as the bits of its word hold them. -/
def rawFields (w : FWord) (maj m : BitVec 8) : RawF :=
  { maj, pn := w.pn, pr := w.pr, dst := w.dst, ws := w.ws, dl := w.dl, a := selBits w.a,
    b := (sourceBits w).extractLsb' 9 9, c := (sourceBits w).extractLsb' 0 9, imm := sourceBits w,
    hsrc := w.hsrc, hlat := w.hlat, mod := m }

/-- The operand fields meet the rules of the instruction's shape in the code section. -/
def fieldsOk (lead : Bool) (i : Instr) : Bool :=
  match encF i with
  | some (_, m, w) =>
    (!w.b.isImm || w.c == .zero) &&
    (match checkFields lead w.b.isImm (shape i) none (rawFields w 0 m) with
    | .ok _ => true
    | .error _ => false)
  | none => true

/-- The two halves of a P-form word (R105, R107, R108, R152). -/
def halvesOk (a b : PHalf) : Bool :=
  match decodeHalf true 0 (halfBits a) [] none with
  | .error _ => false
  | .ok (_, cs) => match decodeHalf false 0 (halfBits b) cs (some (a.dst, a.src == .q)) with
    | .error _ => false
    | .ok _ => true

/-- The modifiers of a P-form operation are in the table: no stochastic rounding (R108). -/
def popOk : POp → Bool
  | .fadd r | .fsub r | .fmul r | .fmin r | .fmax r | .hadd2 r | .hmul2 r | .badd2 r | .bmul2 r => r != .rs
  | _ => true

/-- Well-formed in a code section. -/
def wf (lead : Bool) (i : Instr) : Bool :=
  match i with
  | .pFormWord a b => !lead && popOk a.op && popOk b.op && halvesOk a b
  | .dFormSlot _ c1 c2 => !lead && (c1.isSome || c2.isNone)
  | i => roundingOk i && cvtxOk i &&
    (match encF i with
    | some (_, _, w) => variantOk i w.b.isImm
    | none => true) && sectionOk lead i && fieldsOk lead i

/-- Well-formed as lane code or as lead code. -/
abbrev WellFormed (i : Instr) : Prop := wf false i = true ∨ wf true i = true

end Sys2Proof
end

