-- ==== Sys2Proof/Machine/Units.lean ====
section
/-! DEFINITION. The update units: remote-opcode requests and their execution, definitions and their tables (R388 to
R413). -/

namespace Sys2Proof.Machine

/-! Headers and images (R392, R400). -/

/-- The header of a number in a team's header cache. -/
def headerOf (t : Team) (n : Nat) : Option RmoHeader := if n < 8 then some { dw0 := builtinHeader n } else look t.headers n

/-- The definition table of a context: a context that is created anew has another table, whose numbers are undefined at
version 0 (R400); its address stands in doubleword 1 of the context's entry (R503). -/
def defTable (s : State) (ctx : Nat) : Nat := ctx * 2 ^ 64 + (read64 s (ctxEntry s ctx + 8)).toNat
/-- The entry of a number in a context's definition table (log 25). -/
def defKey (s : State) (ctx n : Nat) : Nat := 32 * defTable s ctx + n
def defOf (s : State) (ctx n : Nat) : DefEntry := (look s.defs (defKey s ctx n)).getD {}

/-- The key of an image that a unit holds: unit, device, context, number and version. Unit 2047 stands for the images that
the fabric has brought to the device (log 19), unit 2046 for the versions that an `RMDROP` has withdrawn from the table while
requests may still name them (R412). -/
def imageKey (u dev ctx n : Nat) (v : BitVec 8) : Nat := (((u * 1024 + dev) * 131072 + ctx) * 32 + n) * 256 + v.toNat
/-- The context of a request of another device whose items name none (log 19). -/
def noCtx : Nat := 65536

/-- A definition needs addresses that are multiples of 8 (R409). -/
def needs8 (s : State) (ctx n : Nat) (h : W64) : Bool := hdrWide h || (decide (8 ≤ n) && (defOf s ctx n).image.any uPair)

/-! Issue (R408, R409). -/

/-- The operand shape that a header gives a request. -/
def rmoShape (h : W64) (ret : Bool) (w : FWord) : Shape :=
  let n := hdrOpn h
  let src (k : Nat) : SrcUse := if k = 0 then .none else if k = 1 then .r32 else .r64
  if w.b.isImm then
    { a := if n = 0 then .addr else .addrReg, implied := min n 2, dst := if ret then dstW (hdrWide h) else .none }
  else { a := .addr, b := src n, c := src (n - 2), dst := if ret then dstW (hdrWide h) else .none }

/-- The number is defined for the team. -/
def rmoHeader (c : Ctx) (n : Nat) : Except Stop RmoHeader :=
  match headerOf c.t n with
  | some h => .ok h
  | none => .error (.trap 0xA1 n c.act 0)

/-- The RMO_OPERAND checks of R409. -/
def rmoFields (c : Ctx) (w : FWord) (h : W64) (ret : Bool) : Except Stop Unit := do
  let n := hdrOpn h
  trapIf (!w.b.isImm && ((n == 0 && w.b != .sel .zero) || (decide (n < 3) && w.c != .zero))) c 0xA2 2
  trapIf (w.b.isImm && decide (2 < n)) c 0xA2 3
  trapIf (ret && hdrKind h == 0) c 0xA2 5
  trapIf (ret && hdrWide h && w.dst.getLsbD 0) c 0xA2 4

/-- The decoding checks that depend on the header (R409, step 3). -/
def rmoDecode (c : Ctx) (w : FWord) (sh : Shape) : Except Stop Unit :=
  match checkFields (isLead c.id) w.b.isImm sh none (rawFields w 0 0) with
  | .ok _ => .ok ()
  | .error e => .error (.trap e.1 e.2 c.act 0)

/-- The address of a request (R408). -/
def rmoAddr (c : Ctx) (w : FWord) (l : Nat) : W64 :=
  readSel c .addr w.a l + (match w.b with
    | .imm i => i.signExtend 64
    | .sel _ => 0)

/-- The operand words a0 to a3 of a request (R408). -/
def rmoOps (c : Ctx) (w : FWord) (h : W64) (l : Nat) : List W32 :=
  let n := hdrOpn h
  let (x, y) : W64 × W64 :=
    if w.b.isImm then (if n = 0 then 0 else impliedVal w c (decide (2 ≤ n)) l, 0)
    else (readSelB c (rmoShape h false w).b w.b l, readSel c (rmoShape h false w).c w.c l)
  ([lo x, hi x, lo y, hi y]).take n

/-- The address checks of R409, each for all lanes before the next. -/
def rmoAddrCheck (s : State) (c : Ctx) (n : Nat) (h : W64) (va : Nat → W64) : Except Stop Unit := do
  let g := granBytes (hdrGran h)
  stage c va (fun l => if nonCanonical (va l) then some (0x41, 1) else none)
  stage c va (fun l => if inScratch (va l) then some (0xA3, 1) else none)
  stage c va (fun l => alignFault (if needs8 s c.t.launch.ctx n h then 8 else 4) (va l))
  stage c va (fun l => if g < (va l).toNat % g + 4 * hdrFlen h then some (0xA3, 2) else none)
  transStage s c .rmo va (fun _ => 4)

/-- One lane's request with the unit that executes it (R388). -/
def rmoReq (s : State) (c : Ctx) (w : FWord) (h : W64) (l : Nat) : Except Stop (Nat × RmoReq) :=
  match transAcc s c .rmo (rmoAddr c w l) with
  | .ok pa e =>
    .ok (if memSide e.leaf then unitOf s pa else destOf pa, { lane := l, va := rmoAddr c w l, pa, ops := rmoOps c w h l })
  | _ => .error .wait

/-- The issue of the lanes' requests (R409): the stream's next number, pending destinations, one packet to each unit. -/
def rmoIssue (i : Instr) (w : FWord) (s : State) (c : Ctx) (num os : Nat) (h : RmoHeader) (ret : Bool)
    (rs : List (Nat × RmoReq)) : State :=
  let (k, s) := newId s
  let load : LoadOp :=
    { newLoad w c (.old (hdrWide h.dw0)) ((lanesOf c.act).map (fun l => { lane := l, reg := w.dst.toNat, pas := [] })) true false false .normal with
      opener := false }
  let s := if ret then issueLoad i w s c load k else advance i w s c
  let mk (xs : List (Nat × RmoReq)) : Body := .rmo num h (if ret then some k else none) (xs.map (·.2))
  sendOp s c { kind := .rmo, stream := os, seq := 0, ord := c.gr.ord, lanes := c.act, left := 0, pas := bodyPas (mk rs) }
    (byDest (·.1) mk rs)

/-- `RMO.n` and `RMO.r` (R409). -/
def rmoWord (i : Instr) (w : FWord) (num : BitVec 5) (os : BitVec 3) (ret : Bool) (s : State) : Host.Outcome State Fault Refusal :=
  finish s (do
    let c ← prologue i w s
    if c.act = 0 then
      match headerOf c.t num.toNat with
      | some h => rmoDecode c w (rmoShape h.dw0 ret w)
      | none => pure ()
      pure (advance i w s c)
    else
      let h ← rmoHeader c num.toNat
      rmoFields c w h.dw0 ret
      rmoDecode c w (rmoShape h.dw0 ret w)
      regChecks w (rmoShape h.dw0 ret w) (none, false) c
      rmoAddrCheck s c num.toNat h.dw0 (rmoAddr c w)
      memWait s c false
      storeWait s c false
      streamWait c os.toNat
      let rs ← (lanesOf c.act).mapM (rmoReq s c w h.dw0)
      pure (rmoIssue i w s c num.toNat os.toNat h ret rs))

def execRmoN (w : FWord) (n : BitVec 5) (os : BitVec 3) (s : State) := rmoWord (.rmoN w n os) w n os false s
def execRmoR (w : FWord) (n : BitVec 5) (os : BitVec 3) (s : State) := rmoWord (.rmoR w n os) w n os true s

/-! Definitions (R411 to R413). -/

/-- The doublewords of an image at an address: the header, and the micro-operations that it counts. -/
def imageDwords (s : State) (c : Ctx) (a : W64) (n : Nat) : List W64 :=
  (List.range n).map (fun k =>
    let x := a + BitVec.ofNat 64 (8 * k)
    if inCounters x then BitVec.ofNat 64 (leNat (counterBytes s (counterOff x) 8))
    else BitVec.ofNat 64 (leNat ((dictBytes s c a k).map (homeByte s))))

/-- The doublewords that hold the micro-operations of a header (R411). -/
def imageRest (h : W64) : Nat := (hdrLen h + 1) / 2
/-- The micro-operations in some doublewords. -/
def imageOps (h : W64) (ds : List W64) : List W32 := (ds.flatMap (fun d => [lo d, hi d])).take (hdrLen h)

/-- Install an image (R411, steps 5 and 6): the entry is defined at the next version, and every header cache of the
context shows it. -/
def installDef (s : State) (ctx : Nat) (h : W64) (us : List W32) : State :=
  let n := hdrNum h
  let v := (defOf s ctx n).version + 1
  let hdr : RmoHeader := { dw0 := h, version := v }
  { s with
    defs := put s.defs (defKey s ctx n) { defined := true, version := v, dw0 := h, image := us }
    images := s.images.filter (fun e => e.1 % 2 ^ 40 ≠ imageKey 0 (deviceId s) ctx n v)
    teams := s.teams.map (fun e => (e.1, if e.2.launch.ctx = ctx then { e.2 with headers := put e.2.headers n hdr } else e.2)) }

/-- A definition is withdrawn from the table and from every header cache of its context (R412); the image stays for the
requests that name its version, also past a later `RMDEF` of the number. -/
def dropDef (s : State) (ctx n : Nat) : State :=
  { s with
    defs := upd s.defs (defKey s ctx n) (fun e => { e with defined := false })
    images := put s.images (imageKey 2046 (deviceId s) ctx n (defOf s ctx n).version) (defOf s ctx n)
    teams := s.teams.map (fun e => (e.1, if e.2.launch.ctx = ctx then { e.2 with headers := del e.2.headers n } else e.2)) }

/-- What an issue sees with its lowest lane alone. -/
def lowCtx (c : Ctx) : Ctx := { c with act := oneLane (lowest c.act) }

/-- The checks of an `RMDEF`'s address (R411). -/
def defAddrCheck (s : State) (c : Ctx) (a : W64) : Except Stop Unit := do
  stage c (fun _ => a) (fun _ => if nonCanonical a then some (0x41, 1) else none)
  stage c (fun _ => a) (fun _ => alignFault 8 a)
  stage c (fun _ => a) (fun _ => if inScratch a then some (0xA3, 1) else none)
  dictAccess s c a 2

/-- The checks of an `RMDEF`'s image (R399, R411). -/
def defImageCheck (s : State) (c : Ctx) (a : W64) (h dw1 : W64) (us : List W32) : Except Stop Unit :=
  match imageReject h dw1 us with
  | some (r, none) => .error (.trap 0xA0 r c.act a)
  | some (r, some i) => .error (.trap 0xA0 r c.act (a + BitVec.ofNat 64 (16 + 4 * i)))
  | none => if (defOf s c.t.launch.ctx (hdrNum h)).defined then .error (.trap 0xA0 12 c.act a) else .ok ()

/-- RMDEF (R411): lines of peer memory are asked for first, and the source waits for them. -/
def execRmdef (w : FWord) (s : State) : Host.Outcome State Fault Refusal :=
  let i := Instr.rmdef w
  finish s (do
    let c ← prologue i w s
    if c.act = 0 then pure (advance i w s c)
    else
      let k := lowCtx c
      let a := (laneIn i w s c (lowest c.act)).a
      if !relDone c.gr then throw .wait
      defAddrCheck s k a
      let miss := linesMissing s ((List.range 2).flatMap (dictBytes s k a))
      if miss ≠ [] then pure (onGroup c (fun gr => { gr with defWait := some c.pc }) (askLines s c.id c.t.core miss))
      else
        let hd := imageDwords s k a 2
        let n := 2 + imageRest (hd.headD 0)
        dictAccess s k a n
        let miss := linesMissing s ((List.range n).flatMap (dictBytes s k a))
        if miss ≠ [] then pure (onGroup c (fun gr => { gr with defWait := some c.pc }) (askLines s c.id c.t.core miss))
        else
          match dictBad s k a n with
          | some e => throw (.dataError k.act e.addr)
          | none => pure ()
          let us := imageOps (hd.headD 0) ((imageDwords s k a n).drop 2)
          defImageCheck s k a (hd.headD 0) (hd.getD 1 0) us
          pure (installDef (onGroup c (fun gr => { gr with defWait := none }) (advance i w s c)) c.t.launch.ctx (hd.headD 0) us))

/-- A request of a number and version of a context of this device is not performed. -/
def rmoPending (s : State) (ctx n : Nat) (v : BitVec 8) : Bool :=
  s.pkts.any (fun e => !isGuest e.2.src && e.2.ctx == ctx && (match e.2.body with
    | .rmo num hdr _ _ => num == n && hdr.version == v
    | _ => false)) ||
  s.fab.away.any (fun e => ((team s e.2.src.team).map (·.launch.ctx)) == some ctx && (match e.2.kind with
    | .value _ _ (some t) => t.num == n && t.version == v
    | .request t => t.num == n && t.version == v
    | _ => false))

/-- RMDROP (R412): the number is withdrawn at once; the source goes on when the requests of the version that it withdrew are
performed. -/
def execRmdrop (w : FWord) (s : State) : Host.Outcome State Fault Refusal :=
  let i := Instr.rmdrop w
  finish s (do
    let c ← prologue i w s
    if c.act = 0 then pure (advance i w s c)
    else
      let n := (lo (laneIn i w s c (lowest c.act)).a).toNat
      let ctx := c.t.launch.ctx
      let e := defOf s ctx n
      trapIf (decide (n < 8) || decide (31 < n)) (lowCtx c) 0xA2 6
      if e.defined && c.gr.defWait.isNone then
        pure (onGroup c (fun gr => { gr with defWait := some c.pc, dropVer := some e.version }) (dropDef s ctx n))
      else if c.gr.defWait.isSome && rmoPending s ctx n (c.gr.dropVer.getD e.version) then throw .wait
      else pure (onGroup c (fun gr => { gr with defWait := none, dropVer := none }) (advance i w s c)))

/-- What `RMQRY` returns for a number (R413). -/
def rmoQuery (t : Team) (n : Nat) : W64 :=
  match headerOf t n with
  | none => 0
  | some h => BitVec.ofNat 64 (2 ^ 63 + h.version.toNat * 2 ^ 48 + h.dw0.toNat % 2 ^ 48)

def execRmqry (w : FWord) (s : State) :=
  let i := Instr.rmqry w
  let num (c : Ctx) (l : Nat) : Nat := (lo (laneIn i w s c l).a).toNat
  runEff i w (fun c => stage c (fun _ => 0) (fun l => if 31 < num c l then some (0xA2, 6) else none))
    (fun c l => { val := rmoQuery c.t (num c l) }) noEff s

/-! Execution at a unit (R389, R396, R402 to R405, R410). -/

/-- Add to a unit's counter k: 0 requests, 1 runs, 2 run members, 3 aborts (R405, R515). -/
def countUnit (s : State) (u k n : Nat) : State :=
  let dw := (if u < 1000 then 0x8000 / 8 + 4 * u else 0xA000 / 8 + 4 * (u - 1000)) + k
  { s with counters := set 0 s.counters dw (get 0 s.counters dw + BitVec.ofNat 64 n) }

/-- A request in a unit's queue with its packet. -/
structure UnitReq where
  pkt : Nat
  p : Pkt
  num : Nat
  hdr : RmoHeader
  load : Option Nat
  r : RmoReq
  deriving DecidableEq, Repr

/-- The request that a queue item is. -/
def reqOf (s : State) : UnitItem → Option UnitReq
  | .rmo n k => match look s.pkts n with
    | some p => match p.body with
      | .rmo num hdr load rs => (rs[k]?).map (fun r => { pkt := n, p, num, hdr, load, r })
      | _ => none
    | none => none
  | _ => none

/-- The bytes of a request's footprint, and of its granule (R391). -/
def footPas (x : UnitReq) : List Nat := (List.range (4 * hdrFlen x.hdr.dw0)).map (x.r.pa + ·)
def granPas (x : UnitReq) : List Nat :=
  let g := granBytes (hdrGran x.hdr.dw0)
  (List.range g).map (x.r.pa / g * g + ·)

/-- The image of a request at a unit (R400): built-ins need none. -/
def imageOf (s : State) (u : Nat) (x : UnitReq) : Option (List W32) :=
  if x.num < 8 then some [] else (look s.images (imageKey u (srcDev s x.p.src) x.p.ctx x.num x.hdr.version)).map (·.image)

/-- The record fields of a request (R409). -/
def rmoIdent (num lane : Nat) (v : BitVec 8) : W64 := BitVec.ofNat 64 (num + v.toNat * 2 ^ 8 + lane * 2 ^ 16)
def rmoA01 (ops : List W32) : W64 := pair64 (ops.getD 0 0) (ops.getD 1 0)

/-- A request leaves its packet; the packet goes with its last one. -/
def reqDone (s : State) (n : Nat) : State :=
  match look s.pkts n with
  | none => s
  | some p => if p.parts ≤ 1 then { s with pkts := del s.pkts n } else { s with pkts := put s.pkts n { p with parts := p.parts - 1 } }

/-- The acknowledgement of a request (R398) with the record of its fault (R397, R410): `cause` 0 for none. -/
def ackReq (s : State) (x : UnitReq) (val flags : W64) (cause detail : Nat) (bad : Option ErrMark) : State :=
  let s := match bad with
    | some e => if cause = 0xA5 ∧ x.load.isNone then countError s e.addr.toNat else s
    | none => s
  let s := reqDone s x.pkt
  if isGuest x.p.src then guestLane s (x.p.op.getD 0) val flags cause detail
  else
    let s := if cause = 0 ∨ (x.load.isSome ∧ bad.isSome) then s
      else asyncFault s x.p.src (some x.r.lane) x.p.seq x.p.stream cause detail x.r.va (rmoIdent x.num x.r.lane x.hdr.version) (rmoA01 x.r.ops)
    let (k, s) := newId s
    let a : RmoAck :=
      { src := x.p.src, op := x.p.op.getD 0, load := x.load, lane := x.r.lane, flags, bad, keep := cause = 0xA4
        val := leBytes (if hdrWide x.hdr.dw0 then 8 else 4) val.toNat }
    { s with rmoAcks := put s.rmoAcks k a }

/-- Execute a request (R396, R410). -/
def execReq (u : Nat) (s : State) (x : UnitReq) : State :=
  match badUnit s (granPas x) with
  | some e => ackReq s x 0 0 0xA5 (if (granPas x).any (fun p => (look s.bad (p / 8)).isSome) then 1 else 2) (some e)
  | none =>
    let m := (List.range (hdrFlen x.hdr.dw0)).map (fun j => BitVec.ofNat 32 (leNat (readBytes s (x.r.pa + 4 * j) 4)))
    let e := runRequest x.hdr.dw0 ((imageOf s u x).getD []) m x.r.ops
    let bytes := e.m.flatMap (fun y => (List.range 4).zip (leBytes 4 y.2.toNat) |>.map (fun b => (x.r.pa + 4 * y.1 + b.1, b.2)))
    let s := engineWrite s bytes
    let s := if u < 1000 then touchL2 s (footPas x) (!bytes.isEmpty) else s
    let s := if isGuest x.p.src then s else dropOwn s x.p.core (wordsOf (bytes.map (·.1)))
    let s := if e.aborted then countUnit s u 3 1 else s
    match e.trap with
    | some i => ackReq s x 0 e.flags 0xA4 i none
    | none => ackReq s x e.val e.flags 0 0 none

/-- A request that begins or joins runs (R403); one of another device does not tell whether it is an `RMO.n` (log 19). -/
def runs (x : UnitReq) : Bool := x.load.isNone && !isGuest x.p.src && hdrComm x.hdr.dw0 && hdrPolicy x.hdr.dw0 != 2

/-- The bytes that a queue item touches. -/
def itemPas (s : State) (i : UnitItem) : List Nat :=
  match i with
  | .rmo _ _ => ((reqOf s i).map footPas).getD []
  | .store _ bs => bs.map (·.1)
  | .ste n k => match (look s.pkts n).map Pkt.body with
    | some (Body.ste ws _ _) => ((ws[k]?).map (·.pa)).toList
    | _ => []
  | .atom n k => match (look s.pkts n).map Pkt.body with
    | some (Body.atom _ _ d ls) => ((ls[k]?).map (fun x => (List.range (if d then 8 else 4)).map (x.pa + ·))).getD []
    | _ => []
  | .load l k => (((look s.loads l).bind (fun op => op.accs[k]?)).map (·.pas)).getD []
  | .eng _ ws => ws.map (·.pa)

/-- An item keeps a later request of the queue from being taken past it (R389, R403). -/
def blocks (s : State) (x : UnitReq) (i : UnitItem) : Bool :=
  match reqOf s i with
  | some y => y.p.src == x.p.src && lineOf y.r.pa == lineOf x.r.pa
  | none => (itemPas s i).any (fun p => (footPas x).any (fun q => q / 4 == p / 4))

/-- A request joins the run of another (R403). -/
def joins (h x : UnitReq) : Bool :=
  runs x && x.p.ctx == h.p.ctx && x.num == h.num && x.hdr.version == h.hdr.version && lineOf x.r.pa == lineOf h.r.pa

/-- The members that a run takes from the queue, at most n more, and the queue that is left: `past` has been passed. -/
def takeRun (s : State) (h : UnitReq) (n : Nat) (past : List UnitItem) : List UnitItem → List UnitReq × List UnitItem
  | [] => ([], [])
  | i :: is =>
    match reqOf s i with
    | some x =>
      if 0 < n ∧ joins h x ∧ !past.any (blocks s x) then
        let (ms, rest) := takeRun s h (n - 1) past is
        (x :: ms, rest)
      else let (ms, rest) := takeRun s h n (past ++ [i]) is; (ms, i :: rest)
    | none => let (ms, rest) := takeRun s h n (past ++ [i]) is; (ms, i :: rest)

/-- The request at the head of a unit's queue executes, alone or with its run (R402, R403). -/
def headReq (s : State) (u : Nat) (x : UnitReq) (rest : List UnitItem) : State :=
  if (imageOf s u x).isNone ∨ isMoving s (footPas x) then s
  else if heldAway s (footPas x) ≠ [] then invalLines s (heldAway s (footPas x))
  else
    let (ms, left) := if runs x then takeRun s x 63 [] rest else ([], rest)
    let s := countUnit { s with units := put s.units u left } u 0 (ms.length + 1)
    let s := if runs x then countUnit (countUnit s u 1 1) u 2 (ms.length + 1) else s
    (x :: ms).foldl (execReq u) s

/-- An access that a home slice forwarded is performed at the channel unit (R389). -/
def forwarded (s : State) (i : UnitItem) : State :=
  match i with
  | .rmo _ _ => s
  | .store n bs => partDone (mendUnits (bs.foldl (fun s b => writeByte s b.1 b.2) s) (bs.map (·.1))) n
  | .ste n k => match look s.pkts n with
    | some p => match p.body with
      | .ste ws rm ftz => match ws[k]? with
        | some x =>
          let (bs, f) := steBytes s x rm ftz
          partDone (orTeamFlags (bs.foldl (fun s b => writeByte s b.1 b.2) s) p.src f) n
        | none => s
      | _ => s
    | none => s
  | .atom n k => match look s.pkts n with
    | some p => match p.body with
      | .atom load op d ls => match ls[k]? with
        | some x => partDone (atomLane s p load op d x) n
        | none => s
      | _ => s
    | none => s
  | .load l k => strongRead s l k
  | .eng n ws => match look s.pkts n with
    | some p => engPartDone (engPut s (srcDev s p.src) p.core (deviceId s) ws) n
    | none => s

/-- RMO_EXECUTE: the head of a unit's queue is performed. -/
def unitStep (s : State) (u : Nat) : State :=
  match (look s.units u).getD [] with
  | [] => s
  | i :: rest =>
    match i with
    | .rmo _ _ => match reqOf s i with
      | some x => headReq s u x rest
      | none => { s with units := put s.units u rest }
    | i =>
      if isMoving s (itemPas s i) then s else forwarded { s with units := put s.units u rest } i

def execRmoExecute (u : Nat) (s : State) : Host.Outcome State Fault Refusal := .next (unitStep s u)

/-- Mark a lane of a load released, with its value, its ERR mark or neither. -/
def endAcc (s : State) (load lane : Nat) (a : RmoAck) : State :=
  { s with loads := upd s.loads load (fun op => { op with accs := op.accs.map (fun x =>
      if x.lane = lane ∧ x.val.isNone ∧ x.bad.isNone then
        (if a.bad.isSome then { x with bad := a.bad } else { x with val := some a.val, keep := a.keep }) else x) }) }

/-- RMO_ACKNOWLEDGE: the flags are set, the destination gets its value, and the request counts as performed (R398). -/
def takeRmoAck (s : State) (n : Nat) (a : RmoAck) : State :=
  let s := orTeamFlags { s with rmoAcks := del s.rmoAcks n } a.src a.flags
  let s := match a.load with
    | some l => endAcc s l a.lane a
    | none => s
  performPart s a.src a.op

def execRmoAcknowledge (n : Nat) (s : State) : Host.Outcome State Fault Refusal :=
  .next (match look s.rmoAcks n with
    | none => s
    | some a => takeRmoAck s n a)

/-- The first request of a unit's queue whose image the unit lacks. -/
def needsImage (s : State) (u : Nat) : Option UnitReq :=
  (((look s.units u).getD []).filterMap (reqOf s)).find? (fun x => (imageOf s u x).isNone)

/-- An image of a number and version that the fabric has brought from a device, with its context: with several contexts'
images, a free choice among them, because request items name no context (log 19). -/
def farImage (s : State) (dev n : Nat) (v : BitVec 8) : Option (Nat × DefEntry) :=
  let cs := s.images.filter (fun e => e.1 / 2 ^ 40 == 2047 && e.1 / 2 ^ 30 % 1024 == dev && e.1 % 2 ^ 13 == n * 256 + v.toNat)
  (cs[Config.choice s.fresh 3 % max 1 cs.length]?).map (fun e => (e.1 / 2 ^ 13 % 2 ^ 17, e.2))

/-- The item that carries a definition's image to another device (R431). -/
def imageItem (s : State) (ctx n : Nat) (e : DefEntry) : List W64 :=
  BitVec.ofNat 64 (6 * 2 ^ 60 + ctx * 2 ^ 23 + deviceId s % 1024 * 2 ^ 13 + e.version.toNat * 2 ^ 5 + n) :: e.dw0 :: 0 ::
    (pieces 2 e.image).map (fun p => pair64 (p.headD 0) (p.getD 1 0))

/-- The definitions of this device that its outstanding requests at another device name, with their contexts. -/
def askedDefs (s : State) (d : Nat) : List (Nat × Nat × BitVec 8) :=
  (s.fab.away.filterMap (fun e =>
    let ctx := ((team s e.2.src.team).map (·.launch.ctx)).getD noCtx
    if e.2.dev ≠ d then none
    else match e.2.kind with
      | .value _ _ (some t) | .request t => if 8 ≤ t.num then some (ctx, t.num, t.version) else none
      | _ => none)).eraseDups

/-- Another device asks for the images of the requests that this device has there: each goes to it in a burst of its own
(R401). No flit asks for an image, so the asking is this event (log 19). -/
def giveImages (s : State) (d : Nat) : State :=
  (askedDefs s d).foldl (fun s k =>
    let e := defOf s k.1 k.2.1
    let e? := if e.version = k.2.2 then some e else look s.images (imageKey 2046 (deviceId s) k.1 k.2.1 k.2.2)
    match e? with
    | some e => post s d { body := .burst (packFlits [] [imageItem s k.1 k.2.1 e]) }
    | none => s) s

/-- DEFINITION_FETCH (R400, R401, R451): the image comes from the table of the context, here or on the issuing device; a
request whose issuing device is unreachable is refused. Numbers from 4,096 on stand for the units of another device, which ask
for this device's images. -/
def fetchDef (s : State) (u : Nat) : State :=
  match needsImage s u with
  | none => s
  | some x =>
    let dev := srcDev s x.p.src
    if dev = deviceId s then
      let e := defOf s x.p.ctx x.num
      let key := imageKey u dev x.p.ctx x.num x.hdr.version
      if e.version = x.hdr.version then { s with images := put s.images key e }
      else match look s.images (imageKey 2046 dev x.p.ctx x.num x.hdr.version) with
        | some e => { s with images := put s.images key e }
        | none => s
    else match farImage s dev x.num x.hdr.version with
      | some (ctx, e) =>
        let b : Body := match x.p.body with
          | .rmo num hdr load rs => .rmo num { hdr with dw0 := e.dw0 } load rs
          | b => b
        { s with images := put s.images (imageKey u dev ctx x.num x.hdr.version) e, pkts := put s.pkts x.pkt { x.p with ctx, body := b } }
      | none =>
        if reachable s dev then s
        else
          let q := ((look s.units u).getD []).filter (fun i => reqOf s i ≠ some x)
          ackReq { s with units := put s.units u q } x 0 0 0xB1 3 none

def execDefinitionFetch (u : Nat) (s : State) : Host.Outcome State Fault Refusal :=
  .next (if 4096 ≤ u then giveImages s (u - 4096) else fetchDef s u)

end Sys2Proof.Machine
end

