-- ==== Sys2Proof/Machine/Engine.lean ====
section
/-! DEFINITION. What the engines share: tags, command records in the scratchpad, addresses, reads and writes of a command,
leave from Ceiling and completion (R4, R38, R39, R79, R303, R314 to R317, R336 to R339, R525, R526). -/

namespace Sys2Proof.Machine

/-! Tags (R39, R314 to R316). -/

/-- The core tags of a team's mask: team tag t is core tag TAGBASE + t. -/
def tagMask (t : Team) (m : W64) : W64 := m <<< t.launch.tagbase
/-- The team's tags in a core's mask. -/
def teamTags (t : Team) (m : W64) : W64 := (m >>> t.launch.tagbase) &&& BitVec.ofNat 64 (2 ^ t.launch.tagn - 1)
/-- One team tag. -/
def tagBit (n : Nat) : W64 := 1#64 <<< n

/-- The TAGS and BUSY bits of a team, on its core or in its save area. -/
def tagsOf (s : State) (t : Team) : W64 := if t.status = .saved then t.savedTags else teamTags t (core s t.core).tags
def busyOf (s : State) (t : Team) : W64 := if t.status = .saved then t.savedBusy else teamTags t (core s t.core).busy

/-- Change the TAGS and BUSY bits of some team tags. -/
def setTags (s : State) (tm : Nat) (m : W64) (tags busy : Bool) : State :=
  match team s tm with
  | none => s
  | some t =>
    let on (b : Bool) (x y : W64) : W64 := if b then x ||| y else x &&& ~~~y
    if t.status = .saved then updTeam s tm (fun t => { t with savedTags := on tags t.savedTags m, savedBusy := on busy t.savedBusy m })
    else updCore s t.core (fun k => { k with tags := on tags k.tags (tagMask t m), busy := on busy k.busy (tagMask t m) })

/-- The tag of a command, as its record names it: none with NOTAG. -/
def tagOf (n : Nat) (notag : Bool) : Option Nat := if notag then none else some n
/-- A busy tag keeps an issue waiting (R315). -/
def tagFree (s : State) (tm : Nat) (tag : Option Nat) : Bool :=
  match tag, team s tm with
  | some n, some t => busyOf s t &&& tagBit n == 0
  | _, _ => true
/-- An issue takes its tag (R315). -/
def takeTag (s : State) (tm : Nat) (tag : Option Nat) : State :=
  match tag with
  | some n => setTags s tm (tagBit n) false true
  | none => s
/-- The tags of a team that completions have set in this cycle: a `TCLR` or `TFFR` of the cycle acts before them (R316). -/
def freshTags (s : State) (t : Team) : W64 := if (core s t.core).doneAt = s.cycle then teamTags t (core s t.core).doneTags else 0

/-- A completion sets a tag in this cycle. -/
def noteTag (s : State) (tm : Nat) (m : W64) : State :=
  match team s tm with
  | none => s
  | some t => if t.status = .saved then s else updCore s t.core (fun k =>
      { k with doneTags := (if k.doneAt = s.cycle then k.doneTags else 0) ||| tagMask t m, doneAt := s.cycle })

/-- A completion ends its tag (R315). -/
def endTag (s : State) (tm : Nat) (tag : Option Nat) (ok : Bool) : State :=
  match tag with
  | some n => let s := setTags s tm (tagBit n) ok false; if ok then noteTag s tm (tagBit n) else s
  | none => s

/-! Records in the scratchpad. -/

/-- A doubleword, and a bit field of a doubleword, of a record in the scratchpad. -/
def recDw (t : Team) (off k : Nat) : W64 := BitVec.ofNat 64 (leNat (scratchRead t (off + 8 * k) 8))

/-- The fault of a record that a lane names (precise, all lanes with the first cause; TADDR is 0). -/
def recStage (c : Ctx) (f : Nat → Option (Nat × Nat)) : Except Stop Unit := stage c (fun _ => 0) f

/-! Commands and the order of their sources. -/

def updCmd (s : State) (n : Nat) (f : Cmd → Cmd) : State := { s with cmds := upd s.cmds n f }

/-- A command with its operation in the source's order (R75, R79): it takes its tag and the stream's next number. -/
def issueCmd (s : State) (kind : OpKind) (ord : Nat) (lanes : Mask) (cmd : Cmd) : Nat × State :=
  match group s cmd.src with
  | none => (0, s)
  | some gr =>
    let st := streamOf gr cmd.stream
    let seq := if cmd.stream = 0 then 0 else st.next + 1
    let (o, s) := newId s
    let (n, s) := newId s
    let op : Op := { kind, stream := cmd.stream, seq, ord, lanes, left := 1 }
    let s := updGroup s cmd.src (fun gr =>
      { gr with ops := put gr.ops o op
                streams := if cmd.stream = 0 then gr.streams else put gr.streams cmd.stream { st with next := seq, last := none } })
    let s := takeTag s cmd.src.team cmd.tag
    (n, { s with cmds := put s.cmds n { cmd with seq, op := some o } })

/-- The command's stream lets it begin (R79). -/
def cmdMayStart (s : State) (c : Cmd) : Bool :=
  c.stream == 0 || (match group s c.src with
    | some gr => seqGe (streamOf gr c.stream).wm (c.seq - 1)
    | none => true)

/-- The command's team is on its core. -/
def cmdResident (s : State) (c : Cmd) : Bool := ((team s c.src.team).map (·.status)) != some .saved

/-! Addresses of a command (R368, R502, R515, R524). -/

/-- Why a command cannot access its bytes yet, or ends. -/
inductive EngStop where
  | walk (kind : AccKind) (va : W64)
  | lines (lns : List Nat)        -- peer lines to ask for
  | wait
  | fault (f : CmdFault)
  deriving DecidableEq, Repr

/-- A byte that a command accesses: in the scratchpad, in memory, or in memory on a memory-side page (R389). -/
inductive Loc where
  | scr (off : Nat)
  | mem (pa : Nat)
  | side (pa : Nat)
  deriving DecidableEq, Repr

/-- A fault of a command at an address. -/
def engFault {α : Type} (cause detail : Nat) (addr : W64) : Except EngStop α := .error (.fault { cause, detail, addr })

/-- What an access to a device that is not reachable ends a command with (R346, R369, R423, R449, R461). -/
def lostCause (c : Cmd) : Nat × Nat :=
  match c.body with
  | .copy _ => (0x87, 2)
  | .mat _ => (0x94, 2)
  | .sweep _ => (0xA7, 2)
  | .coll _ => (0xB8, 1)

/-- The page of an address that a command accesses: nothing for the scratchpad. -/
def engPage (s : State) (n : Nat) (c : Cmd) (k : AccKind) (va : W64) : Except EngStop (Option (Nat × TlbEntry)) :=
  if inScratch va then .ok none
  else if inCounters va then engFault 0x50 2 va
  else if nonCanonical va then engFault 0x41 1 va
  else match translate s c.core c.ctx k (.cmd n) va with
    | .ok pa e => .ok (some (pa, e))
    | .bad cause detail =>
      if cause = 0xB1 then engFault (lostCause c).1 (lostCause c).2 (BitVec.ofNat 64 (((tlbLook s c.core c.ctx va).map (leafAddr · va)).getD va.toNat))
      else engFault cause detail va
    | .walk => .error (.walk k va)

/-- Where a byte is. -/
def engByte (s : State) (n : Nat) (c : Cmd) (k : AccKind) (va : W64) : Except EngStop Loc := do
  match ← engPage s n c k va with
  | some (pa, e) => pure (if memSide e.leaf then .side pa else .mem pa)
  | none => pure (.scr (scratchOff va))

/-- Where n bytes from an address are. -/
def engBytes (s : State) (id : Nat) (c : Cmd) (k : AccKind) (va : W64) (n : Nat) : Except EngStop (List Loc) :=
  (List.range n).mapM (fun j => engByte s id c k (va + BitVec.ofNat 64 j))

/-- The memory bytes among some places. -/
def locPas (ls : List Loc) : List Nat := ls.filterMap (fun l => match l with
  | .mem pa | .side pa => some pa
  | .scr _ => none)

/-- The scratchpad of a command's team. -/
def scrByte (s : State) (c : Cmd) (off : Nat) : Byte :=
  match team s c.src.team with
  | some t => get 0 t.scratch off
  | none => 0

/-- A byte of a place as a command finds it. -/
def locByte (s : State) (c : Cmd) : Loc → Byte
  | .mem pa | .side pa => homeByte s pa
  | .scr off => scrByte s c off

/-- Read some bytes of a command (R339): weak reads at the home slice; storage that moves, accesses that a channel unit has
still to perform (R389) and peer lines without a copy keep them waiting, and `bad` is the cause of a read that meets an
uncorrectable unit, with details 1 and 2 (R346, R369). -/
def engRead (s : State) (c : Cmd) (bad : Nat) (ls : List Loc) : Except EngStop (List Byte) :=
  let pas := locPas ls
  if isMoving s pas ∨ pas.any (queuedAt s) then .error .wait
  else if linesMissing s pas ≠ [] then .error (.lines (linesMissing s pas))
  else match badUnit s pas with
    | some e => engFault bad (if pas.any (fun p => (look s.bad (p / 8)).isSome) then 1 else 2) e.addr
    | none => .ok (ls.map (locByte s c))

/-- A write of a command to a unit of the host tier that the port reports as failed ends it (R346). -/
def engPortCheck (s : State) (c : Cmd) (ls : List Loc) : Except EngStop Unit :=
  match (locPas ls).find? (fun p => tierOf p == some 2 && (look s.portBad (p / 8)).isSome) with
  | some p => engFault (lostCause c).1 (lostCause c).2 (BitVec.ofNat 64 p)
  | none => .ok ()

/-- Change the scratchpad of a command's team, in the bits of each byte's mask. -/
def scrWrite (s : State) (c : Cmd) (bs : List EngByte) : State :=
  let ws := bs.map (fun e => (e.pa, mergeByte (scrByte s c e.pa) e))
  if ws = [] then s else mirrorScratch (updTeam s c.src.team (fun t => scratchWrite t ws)) c.src.team ws

/-- Send a command's writes to the other devices among its bytes: how many parts are to be performed, and the state. -/
def sendPeers (s : State) (n : Nat) (c : Cmd) (bs : List EngByte) : Option (Nat × State) :=
  ((bs.map (fun b => peerDev b.pa)).eraseDups).foldl (fun r d => match r with
    | none => none
    | some (k, s) =>
      let a : Away := { dev := d, src := c.src, op := none, stream := c.stream, seq := c.seq, core := c.core, addr := 0, kind := .engine n }
      let h : FabPkt := { stream := c.stream, seq := c.seq, wm := markOf s c.src c.stream, body := .ctl 0 0 }
      (sendEngine s a h (some n) (fun _ => .engine n) (bs.filter (fun b => peerDev b.pa == d))).map (fun x => (k + x.1, x.2))) (some (0, s))

/-- The packets that carry a command's writes to their home slices (R76, R339): how many, and the state. -/
def engPkts (s : State) (n : Nat) (c : Cmd) (ws : List EngByte) : Nat × State :=
  let ds := (ws.map (fun e => homeSlice e.pa)).eraseDups
  (ds.length, ds.foldl (fun s d =>
    let (k, s) := newId s
    let p : Pkt :=
      { src := c.src, op := none, ctx := c.ctx, core := c.core, dest := d, stream := c.stream, seq := c.seq, wm := markOf s c.src c.stream, flag := false
        body := .eng (some n) (ws.filter (fun e => homeSlice e.pa == d)) }
    { s with pkts := put s.pkts k p }) s)

/-- A place of a command's write as the byte that its packet carries. -/
def engByteOf (b : Loc × EngByte) : EngByte :=
  match b.1 with
  | .mem pa => { b.2 with pa }
  | .side pa => { b.2 with pa, ms := true }
  | .scr off => { b.2 with pa := off }
def isScr : Loc → Bool
  | .scr _ => true
  | .mem _ | .side _ => false

/-- Write bytes of a command, or some bits of them (R336, R339): scratchpad at once, memory by packets to the home slices, and
other devices; the command then waits until all are performed. -/
def engMerge (s : State) (n : Nat) (c : Cmd) (bs : List (Loc × EngByte)) : Except EngStop State := do
  engPortCheck s c (bs.map (·.1))
  let scr := (bs.filter (fun b => isScr b.1)).map engByteOf
  let mem := (bs.filter (fun b => !isScr b.1)).map engByteOf
  match sendPeers s n c (mem.filter (fun b => tierOf b.pa == some 3)) with
  | none => throw .wait
  | some (k, s) =>
    let (j, s) := engPkts (scrWrite s c scr) n c (mem.filter (fun b => tierOf b.pa != some 3))
    pure (updCmd s n (fun c => { c with left := c.left + k + j }))

/-- Write whole bytes of a command. -/
def engWrite (s : State) (n : Nat) (c : Cmd) (bs : List (Loc × Byte)) : Except EngStop State :=
  engMerge s n c (bs.map (fun b => (b.1, { pa := 0, val := b.2 })))

/-- A copy with TIER = 1 notes the peer lines that it asks for: it reads them without keeping them (R336). -/
def noteTransit (s : State) (n : Nat) (c : Cmd) (lns : List Nat) : State :=
  match c.body with
  | .copy q => if q.tier then updCmd s n (fun c => { c with body := .copy { q with transit := (q.transit ++ lns).eraseDups } }) else s
  | _ => s

/-- What becomes of a command that cannot go on: it waits, asks for what it lacks, or ends by a fault. -/
def engStop (s : State) (n : Nat) (c : Cmd) (e : EngStop) (onFault : CmdFault → State) : State :=
  match e with
  | .walk k va => if waitsFor s c.ctx va k (.cmd n) then s else requestWalk s c.core c.ctx (va &&& 0x1FFFFFFFFFFFFFF) k (.cmd n)
  | .lines l => askLines (noteTransit s n c l) c.src c.core l
  | .wait => s
  | .fault f => onFault f

/-- Run a part of a command. -/
def engRun (s : State) (n : Nat) (c : Cmd) (r : Except EngStop State) : State :=
  match r with
  | .ok s => s
  | .error e => engStop s n c e (fun f => updCmd s n (fun c => { c with fault := some f }))

/-! Completion (R303, R315, R337, R338). -/

/-- The status word (R338). -/
def statusWord (c : Cmd) (skip : Nat) : W64 :=
  let f := c.fault.getD { cause := 0, detail := 0 }
  BitVec.ofNat 64 (f.cause % 256 * 2 ^ 24 + f.detail % 256 * 2 ^ 16 + c.flags.toNat % 64 * 2 ^ 8 + skip)

/-- Deliver the status word into the issuing lane's register (R303). -/
def deliverStatus (s : State) (c : Cmd) (v : W64) : State :=
  match c.stat with
  | none => s
  | some reg =>
    let t : Target := .status c.src c.lane reg
    match landSend s t false false [{ lane := c.lane, off := 0, val := v }] with
    | (s, none) => s
    | (s, some r) => reportRefusal s c.src c.core c.seq c.stream t r

/-- A command ended because it met an uncorrectable unit of memory (R346, R369, R423, R461). -/
def dataFault (f : CmdFault) : Bool := (f.cause == 0x87 || f.cause == 0x94 || f.cause == 0xA8 || f.cause == 0xB8) && f.detail == 1

/-- A command completes (R337, R357, R423, R460): FLAGS, status word, tag and, after a fault, its record, in one step; its
operation is performed. -/
def completeCmd (s : State) (n : Nat) (c : Cmd) (skip : Nat) : State :=
  let s := { s with cmds := del s.cmds n, declined := s.declined.filter (fun d => d.waiter ≠ .cmd n) }
  let s := orTeamFlags s c.src c.flags
  let s := deliverStatus s c (statusWord c skip)
  let s := endTag s c.src.team c.tag c.fault.isNone
  let s := match c.fault with
    | some f =>
      let s := if dataFault f then countError s f.addr.toNat else s
      asyncFault s c.src (some c.lane) c.seq c.stream f.cause f.detail f.addr c.ident f.extra
    | none => s
  match c.op with
  | some o => performOp s c.src o
  | none => s

end Sys2Proof.Machine
end

