-- ==== Sys2Proof/Machine/Copy.lean ====
section
/-! DEFINITION. The copy engine: its words, the walk, conversion, completion, and the tag words (R319 to R346). -/

namespace Sys2Proof.Machine

/-! Command blocks (R321). -/

/-- A halfword, and a word, of a record in the scratchpad. -/
def recHalf (t : Team) (off : Nat) : Nat := leNat (scratchRead t off 2)
def recWord (t : Team) (off : Nat) : Nat := leNat (scratchRead t off 4)

/-- The first bad value of a command block at an offset (R321, R323, R524), in field order. -/
def blockFault (s : State) (c : Ctx) (kind o : Nat) : Option (Nat × Nat) :=
  let t := c.t
  let d0 := recDw t o 0
  let d1 := recDw t o 1
  let ctl := recWord t (o + 0x10)
  let notag : Bool := ctl.testBit 25
  let sten : Bool := ctl.testBit 24
  let tag := ctl / 2 ^ 26
  let streg := ctl / 2 ^ 16 % 256
  let rnd := ctl / 2 ^ 10 % 8
  let fkind := recWord t (o + 0x14) / 2 ^ 30
  let reserved (d : W64) : Bool := d &&& 0xFE00000000000007 != 0
  if reserved d0 then some (0x80, 2)
  else if d0 = 0 then some (0x80, 3)
  else if reserved d1 then some (0x80, 2)
  else if (d1 = 0) ≠ (kind = 3) then some (0x80, 3)
  else if !notag ∧ t.launch.tagn ≤ tag then some (0x81, 0)
  else if notag ∧ tag ≠ 0 then some (0x80, 7)
  else if sten ∧ isLead c.id then some (0x80, 6)
  else if (sten ∧ c.gr.alloc ≤ streg) ∨ (!sten ∧ streg ≠ 0) then some (0x80, 6)
  else if 6 ≤ rnd then some (0x80, 4)
  else if rnd = 5 ∧ !featureOn s 6 then some (0xD0, 6)
  else if ctl % 2 ^ 9 ≠ 0 then some (0x80, 2)
  else if (kind ≠ 2 ∧ fkind ≠ 0) ∨ (kind = 2 ∧ (fkind = 0 ∨ fkind = 3)) then some (0x80, 5)
  else if recWord t (o + 0x3C) ≠ 0 then some (0x80, 2)
  else none

/-- SRSTATE at dispatch of the team's first thread, which lead-issued commands take (R323). -/
def leadSr (c : Ctx) : W32 := resetSr c.t.index (groupCount c.t) 0 0

/-- The command that a lane's block describes. -/
def blockCmd (c : Ctx) (kind o : Nat) (idx : W64) (lane : Nat) : Cmd :=
  let t := c.t
  let ctl := recWord t (o + 0x10)
  let f := recWord t (o + 0x14)
  { src := c.id, lane, core := t.core, ctx := t.launch.ctx, stream := ctl / 2 ^ 13 % 8
    tag := tagOf (ctl / 2 ^ 26) (ctl.testBit 25)
    stat := if ctl.testBit 24 then some (ctl / 2 ^ 16 % 256) else none
    ident := BitVec.ofNat 64 o, rmode := rmodeOf t.flags, ftz := ftzOf t.flags
    sr := if isLead c.id then leadSr c else get 0 c.gr.sr lane
    body := .copy {
      kind, srec := recDw t o 0, drec := recDw t o 1, idxAddr := idx, rnd := rmOf (BitVec.ofNat 3 (ctl / 2 ^ 10 % 8)), tier := ctl.testBit 9
      fkind := f / 2 ^ 30, farg := BitVec.ofNat 32 (f % 2 ^ 30)
      sc := (List.range 6).map (fun i => recHalf t (o + 0x18 + 2 * i))
      dc := (List.range 6).map (fun i => recHalf t (o + 0x24 + 2 * i))
      cnt := (List.range 6).map (fun i => recHalf t (o + 0x30 + 2 * i)) } }

/-! Issue of the commands of a word (R322, R323, R416). -/

/-- A copy command. -/
def isCopy (c : Cmd) : Bool :=
  match c.body with
  | .copy _ => true
  | _ => false
/-- A sweep. -/
def isSweep (c : Cmd) : Bool :=
  match c.body with
  | .sweep _ => true
  | _ => false
/-- The copy commands in a core's engine queue (R314). -/
def copiesAt (s : State) (k : Nat) : Nat := (s.cmds.filter (fun e => e.2.core == k && cmdResident s e.2 && isCopy e.2)).length
/-- The sweeps of a source that are outstanding (R416). -/
def sweepsOf (s : State) (id : SrcId) : Nat := (s.cmds.filter (fun e => e.2.src == id && isSweep e.2)).length

/-- A lane's command can be enqueued now (R323, R416, R75). -/
def canEnqueue (s : State) (c : Cmd) : Bool :=
  match group s c.src with
  | none => false
  | some gr => tagFree s c.src.team c.tag &&
      (if isCopy c then gr.copyq < 63 && copiesAt s c.core < 128 else sweepsOf s c.src < 4) &&
      (c.stream == 0 || ((streamOf gr c.stream).next - (streamOf gr c.stream).wm).toNat < 2 ^ 23 - 1)

/-- The settings of its team that a command takes as it is enqueued (R323). -/
def withSettings (s : State) (c : Cmd) : Cmd :=
  match team s c.src.team with
  | some t => { c with rmode := rmodeOf t.flags, ftz := ftzOf t.flags }
  | none => c

/-- Enqueue one command. -/
def enqueueCmd (ord : Nat) (s : State) (c : Cmd) : State :=
  let s := (issueCmd s (if isCopy c then .copy else .sweep) ord (oneLane c.lane) (withSettings s c)).2
  if isCopy c then updGroup s c.src (fun gr => { gr with copyq := gr.copyq + 1 }) else s

/-- Enqueue the commands of an issue in ascending lane order as far as they go: the state and those that wait. -/
def enqueueAll (ord : Nat) (s : State) : List Cmd → State × List Cmd
  | [] => (s, [])
  | c :: cs => if canEnqueue s c then enqueueAll ord (enqueueCmd ord s c) cs else (s, c :: cs)

/-- The issues in progress at other words of a group: its other lanes go on there (R322). -/
def otherEnqs (gr : Group) (pc : W64) : List Enq := gr.enq.filter (fun e => e.pc != pc)

/-- The issue of some commands at a word: the word is over when all are enqueued. -/
def enqueueWord (i : Instr) (w : FWord) (s : State) (c : Ctx) (cs : List Cmd) : State × Bool :=
  if (enqueueAll c.gr.ord s cs).2 = [] then
    (updGroup (enqueueAll c.gr.ord (advance i w s c) cs).1 c.id (fun gr => { gr with enq := otherEnqs gr c.pc }), true)
  else
    let (s', left) := enqueueAll c.gr.ord s cs
    (updGroup s' c.id (fun gr => { gr with enq := { pc := c.pc, next := c.next, act := c.act, at_ := c.at_, left } :: otherEnqs gr c.pc }),
      left.length != cs.length)

/-- The meaning of a word whose lanes each issue a command: an issue in progress goes on, a new one is checked first and
waits as a store does (R71). -/
def engineWord (i : Instr) (w : FWord) (check : Ctx → Except Stop Unit) (cmd : Ctx → Nat → Cmd) (s : State) :
    Host.Outcome State Fault Refusal :=
  finish s (do
    match (group s s.cur.id).bind (fun gr => gr.enq.find? (fun e => e.pc == s.cur.pc)) with
    | some e =>
      let c ← ctxOf s w
      let (s', moved) := enqueueWord i w s { c with act := e.act, at_ := e.at_, next := e.next } e.left
      if moved then pure s' else throw .wait
    | none =>
      let c ← prologue i w s
      if c.act = 0 then pure (advance i w s c)
      else
        check c
        storeWait s c false
        pure (enqueueWord i w s c ((lanesOf c.act).map (cmd c))).1)

/-! The copy words (R322, R343). -/

/-- The index address of a `CPYG` lane (R333). -/
def idxAddrBad (t : Team) (a : W64) (n : Nat) : Bool :=
  a.toNat % 4 != 0 || nonCanonical a || inCounters a || (inScratch a && decide (scratchSize t < scratchOff a + 4 * n))

/-- The checks of a lane's copy (R323). -/
def copyFault (s : State) (c : Ctx) (kind o : Nat) (idx : W64) : Option (Nat × Nat) :=
  if o % 64 ≠ 0 ∨ scratchSize c.t < o + 64 then some (0x80, 1)
  else match blockFault s c kind o with
    | some f => some f
    | none => if kind = 1 ∧ idxAddrBad c.t idx (recHalf c.t (o + 0x32) + 1) then some (0x80, 8) else none

/-- The record offset and the index address of a lane. -/
def copyOff (i : Instr) (w : FWord) (s : State) (c : Ctx) (l : Nat) : Nat := (lo (laneIn i w s c l).a).toNat
def copyIdx (i : Instr) (w : FWord) (kind : Nat) (s : State) (c : Ctx) (l : Nat) : W64 := if kind = 1 then (laneIn i w s c l).b else 0

/-- CPY, CPYG, CPYM and CPYPF (R322, R323, R343). -/
def copyWord (i : Instr) (w : FWord) (kind : Nat) (s : State) : Host.Outcome State Fault Refusal :=
  engineWord i w (fun c => recStage c (fun l => copyFault s c kind (copyOff i w s c l) (copyIdx i w kind s c l)))
    (fun c l => blockCmd c kind (copyOff i w s c l) (copyIdx i w kind s c l) l) s

def execCpy (w : FWord) (s : State) := copyWord (.cpy w) w 0 s
def execCpyg (w : FWord) (s : State) := copyWord (.cpyg w) w 1 s
def execCpym (w : FWord) (s : State) := copyWord (.cpym w) w 2 s
def execCpypf (w : FWord) (s : State) := copyWord (.cpypf w) w 3 s

/-! Layout records (R319, R326). -/

/-- A field of a record's bytes. -/
def recField (bs : List Byte) (off n : Nat) : Nat := leNat ((bs.drop off).take n)

/-- A format code of R318. -/
def fmtKnown (f : Nat) : Bool := f = 0 || fmtBits f != 0
/-- The bytes that the base of a layout of a format is a multiple of (R319). -/
def fmtAlign (f : Nat) : Nat := max 1 (fmtBits f / 8)

/-- The first bad value of a layout record (R319), in field order. -/
def layoutBad (bs : List Byte) : Option Nat :=
  let d0 := recField bs 0 8
  let d1 := recField bs 8 8
  let fmt := d1 % 32
  let geom := d1 / 32 % 4
  let rank := d1 / 128 % 8
  let ext (i : Nat) : Nat := recField bs (0x10 + 4 * i) 4
  if 2 ^ 57 ≤ d0 then some 1
  else if fmtKnown fmt ∧ fmt ≠ 0 ∧ 8 ≤ fmtBits fmt ∧ d0 % fmtAlign fmt ≠ 0 then some 6
  else if 2 ^ 11 ≤ d1 then some 1
  else if rank = 0 ∨ rank = 7 then some 4
  else if !fmtKnown fmt then some 2
  else if geom ≠ 0 ∧ !fmtHasBlocks fmt then some 3
  else match (List.range 6).findSome? (fun i =>
      if 2 ^ 17 ≤ ext i then some 1 else if i < rank ∧ (ext i = 0 ∨ 65536 < ext i) then some 5 else none) with
    | some d => some d
    | none => if (List.range 5).any (fun k => recField bs (0x58 + 8 * k) 8 ≠ 0) then some 1 else none

/-- The layout of a record's bytes. -/
def layoutOf (bs : List Byte) : Layout :=
  let d1 := recField bs 8 8
  let str (i : Nat) : Int := (BitVec.ofNat 64 (recField bs (0x28 + 8 * i) 8)).toInt
  { base := recField bs 0 8, oob := d1.testBit 10, rank := d1 / 128 % 8, geom := d1 / 32 % 4, fmt := d1 % 32, page := d1 % 32 = 0
    ext := (List.range 6).map (fun i => recField bs (0x10 + 4 * i) 4), str := (List.range 6).map str }

/-- Read and check a layout record (R325, R319). -/
def readLayout (s : State) (n : Nat) (c : Cmd) (a : W64) : Except EngStop Layout := do
  let ls ← engBytes s n c .engRead a 128
  let bs ← engRead s c 0x87 ls
  match layoutBad bs with
  | some d => engFault 0x82 d a
  | none => pure (layoutOf bs)

/-- Resolve a record's format (R326). -/
def resolve (s : State) (n : Nat) (c : Cmd) (k : AccKind) (l : Layout) : Except EngStop Layout :=
  if !l.page then .ok l
  else do
    match ← engPage s n c k (BitVec.ofNat 64 l.base) with
    | none => engFault 0x83 3 (BitVec.ofNat 64 l.base)
    | some (_, e) =>
      if leafFmt e.leaf = 0 then engFault 0x83 3 (BitVec.ofNat 64 l.base)
      else if 8 ≤ fmtBits (leafFmt e.leaf) ∧ l.base % fmtAlign (leafFmt e.leaf) ≠ 0 then engFault 0x82 6 (BitVec.ofNat 64 l.base)
      else pure { l with fmt := leafFmt e.leaf, geom := leafGeom e.leaf }

/-! The walk (R327, R328). -/

/-- The counters of a position: mixed-radix digits, c0 fastest. -/
def digits : List Nat → Nat → List Nat
  | [], _ => []
  | n :: ns, k => k % (n + 1) :: digits ns (k / (n + 1))
/-- The number of positions. -/
def positions (cnt : List Nat) : Nat := cnt.foldl (fun p n => p * (n + 1)) 1

/-- The source coordinates at some counters; a gather replaces c1 by its index. -/
def srcCoords (q : CopyCmd) (cs : List Nat) : List Int :=
  (List.range 6).map (fun i =>
    let k : Int := if q.kind = 1 ∧ i = 1 then q.idx.getD (cs.getD 1 0) 0 else (cs.getD i 0 : Nat)
    (q.sc.getD i 0 : Int) + k)
/-- The destination coordinates. -/
def dstCoords (q : CopyCmd) (cs : List Nat) : List Int := (List.range 6).map (fun i => (q.dc.getD i 0 : Int) + (cs.getD i 0 : Nat))

/-- The element index of some coordinates. -/
def elemIndex (l : Layout) (xs : List Int) : Int := ((List.range l.rank).map (fun i => xs.getD i 0 * l.str.getD i 0)).sum
/-- The first bit of an element. -/
def elemBit (l : Layout) (xs : List Int) : Int := (l.base : Int) * 8 + elemIndex l xs * fmtBits l.fmt

/-- The virtual addresses of an element's bytes. -/
def elemBytesAt (l : Layout) (xs : List Int) : List W64 :=
  let b := (elemBit l xs).toNat
  (List.range ((b % 8 + fmtBits l.fmt + 7) / 8)).map (fun j => BitVec.ofNat 64 (b / 8 + j))

/-- The bytes of the scratchpad of a command's team. -/
def scrSize (s : State) (c : Cmd) : Nat := ((team s c.src.team).map scratchSize).getD 0

/-- A coordinate is in bounds (R328). -/
def inBounds (scr : Nat) (l : Layout) (xs : List Int) : Bool :=
  (List.range 6).all (fun i => if i < l.rank then 0 ≤ xs.getD i 0 && xs.getD i 0 < (l.ext.getD i 0 : Int) else xs.getD i 0 == 0) &&
    (0 ≤ elemBit l xs && elemBit l xs + fmtBits l.fmt ≤ 2 ^ 60) &&
    (elemBytesAt l xs).all (fun a => !inScratch a || scratchOff a < scr)

/-- The combinations of one value from each list. -/
def combos {α : Type} : List (List α) → List (List α)
  | [] => [[]]
  | xs :: rest => xs.flatMap (fun x => (combos rest).map (x :: ·))

/-- The counter values at which the bounds are checked (R328): the first and last of each, and every gather index. -/
def extremes (q : CopyCmd) : List (List Nat) :=
  combos ((List.range 6).map (fun i =>
    let n := q.cnt.getD i 0
    if q.kind = 1 ∧ i = 1 then List.range (n + 1) else if n = 0 then [0] else [0, n]))

/-- The source is in bounds everywhere, and in everything but the gather's dimension. -/
def srcInBounds (scr : Nat) (q : CopyCmd) : Bool := (extremes q).all (fun cs => inBounds scr q.src (srcCoords q cs))
def indexOk (q : CopyCmd) : Bool :=
  q.kind != 1 || q.idx.all (fun j => let x := (q.sc.getD 1 0 : Int) + j
    if 1 < q.src.rank then 0 ≤ x && x < (q.src.ext.getD 1 0 : Int) else x == 0)
def dstInBounds (scr : Nat) (q : CopyCmd) : Bool := (extremes q).all (fun cs => inBounds scr q.dst (dstCoords q cs))

/-- The bounds check at the start (R328): a record with OOB = 0 ends the command. -/
def boundsCheck (scr : Nat) (q : CopyCmd) : Except EngStop Unit := do
  if !q.src.oob && !srcInBounds scr q then engFault (α := Unit) 0x86 (if indexOk q then 1 else 3) 0
  if q.kind != 3 && !q.dst.oob && !dstInBounds scr q then engFault (α := Unit) 0x86 2 0

/-! Conversion rules (R330, R332). -/

/-- The first position of every run of B destination positions has an element index that is a multiple of B. -/
def runsAligned (l : Layout) (coords : List Nat → List Int) (q : CopyCmd) (b : Nat) : Bool :=
  (combos ((List.range 6).map (fun i =>
    let n := q.cnt.getD i 0
    if i = 0 then [0] else if q.kind = 1 ∧ i = 1 then List.range (n + 1) else if n = 0 then [0] else [0, 1]))).all
      (fun cs => elemIndex l (coords cs) % (b : Int) == 0)

/-- A walk with a geometry is block-aligned (R330). -/
def blockAligned (scr : Nat) (q : CopyCmd) : Bool :=
  q.src.str.getD 0 0 == 1 && runsAligned q.src (srcCoords q) q (blockElems q.dst.geom) && srcInBounds scr q

/-- Bits are copied unchanged (R330, row 1). -/
def bitCopy (scr : Nat) (q : CopyCmd) : Bool :=
  q.src.fmt == q.dst.fmt && q.src.geom == q.dst.geom && (q.dst.geom == 0 || blockAligned scr q)

/-- A narrowing conversion (R330). -/
def narrowing (fs fd : Nat) : Bool :=
  match fmtFp fs, fmtFp fd with
  | some a, some b => b.fbits < a.fbits
  | _, _ => false

/-- The conversion check (R330). -/
def convCheck (scr : Nat) (q : CopyCmd) : Except EngStop Unit :=
  if bitCopy scr q then .ok ()
  else if 10 ≤ q.dst.fmt ∧ q.dst.fmt ≤ 13 ∧ q.src.fmt ≠ q.dst.fmt then engFault 0x84 1 0
  else if q.rnd = .rs ∧ !narrowing q.src.fmt q.dst.fmt then engFault 0x84 2 0
  else .ok ()

/-- The block rule of a destination with a geometry (R332). -/
def blockCheck (q : CopyCmd) : Except EngStop Unit :=
  let b := blockElems q.dst.geom
  if q.dst.geom = 0 ∨ ((q.cnt.getD 0 0 + 1) % b = 0 ∧ q.dst.str.getD 0 0 = 1 ∧ runsAligned q.dst (dstCoords q) q b) then .ok ()
  else engFault 0x85 1 0

/-- The layout that sets the chunks and the bytes moved: the destination, or the source of a prefetch. -/
def movedLayout (q : CopyCmd) : Layout := if q.kind = 3 then q.src else q.dst
/-- The bytes that a command moves (R325). -/
def copyBytes (q : CopyCmd) : Nat := (positions q.cnt * fmtBits (movedLayout q).fmt + 7) / 8

/-! Start (R324, R325). -/

/-- The index vector (R333). -/
def readIndex (s : State) (n : Nat) (c : Cmd) (q : CopyCmd) : Except EngStop (List Int) :=
  if q.kind ≠ 1 then .ok []
  else do
    let ls ← engBytes s n c .engRead q.idxAddr (4 * (q.cnt.getD 1 0 + 1))
    let bs ← engRead s c 0x87 ls
    pure ((List.range (q.cnt.getD 1 0 + 1)).map (fun j => (BitVec.ofNat 32 (recField bs (4 * j) 4)).toInt))

/-- The conversion check of a gather hangs on its index vector: equal formats with a geometry and a stochastic rounding,
which only a block-aligned walk allows (R330). The vector is then read before it, and else with the bounds (R325). -/
def convByIndex (q : CopyCmd) : Bool := q.rnd = .rs && q.src.fmt == q.dst.fmt && q.src.geom == q.dst.geom && q.dst.geom != 0

/-- Everything that a command does before its first chunk (R325). -/
def startCopy (s : State) (n : Nat) (c : Cmd) (q : CopyCmd) : Except EngStop State := do
  let src ← readLayout s n c q.srec
  let dst ← if q.kind = 3 then pure src else readLayout s n c q.drec
  let src ← resolve s n c .engRead src
  let dst ← if q.kind = 3 then pure src else resolve s n c .engWrite dst
  let q := { q with src, dst }
  let early ← if convByIndex q then readIndex s n c q else pure []
  if q.kind ≠ 3 then
    convCheck (scrSize s c) { q with idx := early }
    blockCheck q
  let idx ← readIndex s n c q
  let q := { q with idx }
  boundsCheck (scrSize s c) q
  pure (updCmd s n (fun c => { c with started := true, leave := if 65536 < copyBytes q then .wanted else .granted, body := .copy q }))

/-- COPY_START. -/
def copyStart (s : State) (n : Nat) : State :=
  match look s.cmds n with
  | none => s
  | some c => match c.body with
    | .copy q => if c.started ∨ c.fault.isSome ∨ !cmdResident s c ∨ !cmdMayStart s c then s else engRun s n c (startCopy s n c q)
    | _ => s

def execCopyStart (n : Nat) (s : State) : Host.Outcome State Fault Refusal := .next (copyStart s n)

/-! Elements (R326, R327, R507). -/

/-- The page rule of a record for an address (R326): its place, and its page with the size of its area. -/
def pageRule (l : Layout) (va : W64) (p : Option (Nat × TlbEntry)) : Except EngStop Unit :=
  match p with
  | none => if l.page then engFault 0x83 2 va else .ok ()
  | some (_, e) =>
    let same : Bool := leafFmt e.leaf == l.fmt && leafGeom e.leaf == l.geom
    if l.page ∧ !same then engFault 0x83 2 va
    else if !l.page ∧ leafFmt e.leaf ≠ 0 ∧ !same then engFault 0x83 1 va
    else .ok ()

/-- The place of the scale of the block that holds an address (R327, R507). -/
def scaleLoc (scr : Nat) (l : Layout) (va : W64) (p : Option (Nat × TlbEntry)) : Except EngStop Loc :=
  let b := blockBytes l.fmt l.geom
  match p with
  | none =>
    if scratchOff va < scr - scr / b then .ok (.scr (scr - scr / b + scratchOff va / b)) else engFault 0x83 3 va
  | some (pa, e) =>
    match scaleOffset l.fmt l.geom e.size (pageOffset e va) with
    | some off => let q := pa - pageOffset e va + off; .ok (if memSide e.leaf then .side q else .mem q)
    | none => engFault 0x83 3 va

/-- Where an element is: its bytes, and its block's scale. -/
structure ElemLoc where
  bytes : List Loc
  bit : Nat
  scale : Option Loc
  deriving DecidableEq, Repr

/-- Where the element of some coordinates is. -/
def elemLoc (s : State) (n : Nat) (c : Cmd) (k : AccKind) (l : Layout) (xs : List Int) : Except EngStop ElemLoc := do
  let vas := elemBytesAt l xs
  let bytes ← vas.mapM (fun a => do
    let p ← engPage s n c k a
    pageRule l a p
    engByte s n c k a)
  let scale ← if l.geom = 0 then pure none
    else do
      let a := vas.headD 0
      let p ← engPage s n c k a
      let x ← scaleLoc (scrSize s c) l a p
      pure (some x)
  pure { bytes, bit := (elemBit l xs).toNat % 8, scale }

/-- A source element as it is read: its bits and its block's scale. -/
structure Elem where
  raw : Nat
  scale : Option Nat
  oob : Bool := false
  deriving DecidableEq, Repr

/-- Read the source element of a position; out of bounds it reads as +0 (R328). -/
def readElem (s : State) (n : Nat) (c : Cmd) (q : CopyCmd) (cs : List Nat) : Except EngStop Elem := do
  let xs := srcCoords q cs
  if !inBounds (scrSize s c) q.src xs then
    if q.src.oob then pure { raw := 0, scale := none, oob := true } else engFault 0x86 (if q.kind = 1 ∧ !indexOk q then 3 else 1) 0
  else
    let e ← elemLoc s n c .engRead q.src xs
    let bs ← engRead s c 0x87 e.bytes
    let sc ← match e.scale with
      | none => pure none
      | some x => do
        let b ← engRead s c 0x87 [x]
        pure (some (leNat b))
    pure { raw := leNat bs / 2 ^ e.bit % 2 ^ fmtBits q.src.fmt, scale := sc }

/-- The value of a source element. -/
def elemVal (q : CopyCmd) (e : Elem) : Fp := if e.oob then .fin false 0 0 else elemValue q.src.fmt e.scale e.raw

/-! Chunks (R329, R331). -/

/-- What a chunk has made so far: the bits written, by place, the stochastic state and the flags. -/
structure ChunkAcc where
  bytes : FMap EngByte := []
  sr : W32
  flags : W64 := 0
  deriving DecidableEq, Repr

/-- The key of a place among the bytes of a chunk. -/
def locKey : Loc → Nat
  | .mem pa => 3 * pa
  | .side pa => 3 * pa + 1
  | .scr off => 3 * off + 2
def keyLoc (k : Nat) : Loc := if k % 3 = 0 then .mem (k / 3) else if k % 3 = 1 then .side (k / 3) else .scr (k / 3)

/-- The bits of a byte that a later write leaves, and its own. -/
def putBits (m : FMap EngByte) (l : Loc) (val mask : Byte) : FMap EngByte :=
  let e := (look m (locKey l)).getD { pa := 0, val := 0, mask := 0 }
  put m (locKey l) { e with val := (e.val &&& ~~~mask) ||| (val &&& mask), mask := e.mask ||| mask }

/-- Write an element's bits: those of a sub-byte element alone, which its home slice merges into its bytes (R339). -/
def putElem (a : ChunkAcc) (e : ElemLoc) (w raw : Nat) : ChunkAcc :=
  let k := e.bytes.length
  let val := leBytes k (raw % 2 ^ w * 2 ^ e.bit)
  let mask := leBytes k ((2 ^ w - 1) * 2 ^ e.bit)
  { a with bytes := (e.bytes.zip (val.zip mask)).foldl (fun m b => putBits m b.1 b.2.1 b.2.2) a.bytes }
/-- Write a block's scale. -/
def putScale (a : ChunkAcc) (l : Option Loc) (x : Nat) : ChunkAcc :=
  match l with
  | some l => { a with bytes := putBits a.bytes l (BitVec.ofNat 8 x) 0xFF }
  | none => a

/-- The settings of a conversion as FLAGS hold them. -/
def cmdFlags (c : Cmd) : W64 := (if c.ftz then 0x800 else 0) ||| (c.rmode.setWidth 64 <<< 9)

/-- Convert a value into the destination's element format (R331), with the scale of its block. -/
def convertTo (c : Cmd) (rm : Rm) (fmt : Nat) (x : Option Nat) (sr : W32) (v : Fp) : FRes × W32 :=
  let v := match x with
    | none => v
    | some x => scaleFp (127 - (x : Int) + (if fmt = 6 then 6 else 0)) v
  let sr := if rm = .rs then xorshift sr else sr
  (elemEncode fmt (rndOf rm (cmdFlags c) sr (spacing v)) c.ftz v, sr)

/-- The block-scale format of an element format (R222). -/
def blkOf (fmt : Nat) : BlkFmt := if fmt = 5 then .e2m1 else if fmt = 3 then .e4m3 else if fmt = 4 then .e5m2 else .int8

/-- Write one converted or copied element of a position; out of bounds it is skipped (R328). -/
def writeElem (s : State) (n : Nat) (c : Cmd) (q : CopyCmd) (copyBits : Bool) (x : Option Nat) (a : ChunkAcc) (cs : List Nat) (e : Elem) :
    Except EngStop ChunkAcc :=
  let ys := dstCoords q cs
  if !inBounds (scrSize s c) q.dst ys then (if q.dst.oob then .ok a else engFault 0x86 2 0)
  else do
    let d ← elemLoc s n c .engWrite q.dst ys
    let first : Bool := cs.getD 0 0 % blockElems q.dst.geom == 0
    if copyBits then
      pure (putElem (if first then putScale a d.scale (e.scale.getD 0) else a) d (fmtBits q.dst.fmt) e.raw)
    else
      let (r, sr) := convertTo c q.rnd q.dst.fmt x a.sr (elemVal q e)
      let a := if first then putScale a d.scale (x.getD 0) else a
      pure { putElem a d (fmtBits q.dst.fmt) r.bits with sr, flags := a.flags ||| r.flags }

/-- The elements of one run of the walk: a block, or a single element. -/
def writeRun (s : State) (n : Nat) (c : Cmd) (q : CopyCmd) (copyBits : Bool) (a : ChunkAcc) (run : List (List Nat × Elem)) :
    Except EngStop ChunkAcc :=
  let (x, fl) : Option Nat × W64 := if q.dst.geom = 0 ∨ copyBits then (none, 0)
    else let (x, f) := blockScale (blkOf q.dst.fmt) (run.map (fun e => elemVal q e.2)); (some x, f)
  run.foldlM (fun a e => writeElem s n c q copyBits x a e.1 e.2) { a with flags := a.flags ||| fl }

/-- The positions of a chunk (R329). -/
def chunkLen (q : CopyCmd) : Nat := 32768 / max 1 (fmtBits (movedLayout q).fmt)
def chunks (q : CopyCmd) : Nat := (positions q.cnt + chunkLen q - 1) / chunkLen q
def chunkPositions (q : CopyCmd) : List (List Nat) :=
  let first := q.chunk * chunkLen q
  (List.range (min (chunkLen q) (positions q.cnt - first))).map (fun k => digits q.cnt (first + k))

/-- One chunk of a copy (R329): all reads, then all writes. -/
def runChunk (s : State) (n : Nat) (c : Cmd) (q : CopyCmd) : Except EngStop State := do
  let ps := chunkPositions q
  let es ← ps.mapM (readElem s n c q)
  let copyBits := bitCopy (scrSize s c) q
  let runs := pieces (blockElems q.dst.geom) (ps.zip es)
  let a ← runs.foldlM (writeRun s n c q copyBits) { sr := c.sr }
  let s' ← engMerge s n c (a.bytes.map (fun b => (keyLoc b.1, b.2)))
  pure (updCmd s' n (fun c => { c with sr := a.sr, flags := c.flags ||| a.flags, body := .copy { q with chunk := q.chunk + 1 } }))

/-- What a prefetch does for the page of an address: a walk that fails skips the line (R334). -/
def prefetchPage (s : State) (c : Cmd) (va : W64) : Option (State × Nat × TlbEntry) :=
  if inScratch va ∨ inCounters va ∨ nonCanonical va then none
  else match walkPage s c.ctx va with
    | .bad _ _ _ => none
    | .leaf e size at_ =>
      let s := if leafA e then s else engineWrite64 s at_ (e ||| 0x80)
      some (tlbFill s c.core c.ctx va (e ||| 0x80) size, leafPa e + va.toNat % 2 ^ size,
        { ctx := c.ctx, size, vpn := va.toNat / 2 ^ size, leaf := e })

/-- The checks of the bytes of a prefetch that lie in one line: the page's format, and that none lies in a scale area (R326,
R327). -/
def prefetchRules (scr : Nat) (l : Layout) (vas : List W64) (p : W64 → Option (Nat × TlbEntry)) : Except EngStop Unit :=
  vas.forM (fun a => do
    pageRule l a (p a)
    if l.geom ≠ 0 then let _ ← scaleLoc scr l a (p a))

/-- Bring one line of a prefetch into its home slice, or skip it (R334); `vas` are the bytes that the walk touches there. A
line of a memory-side page is not allocated (R389). -/
def prefetchLine (scr : Nat) (l : Layout) (c : Cmd) (r : Except EngStop (State × List W64)) (vas : List W64) :
    Except EngStop (State × List W64) := do
  let (s, skip) ← r
  let va := vas.headD 0
  let missed : State × List W64 := (s, (skip ++ [va &&& ~~~0x7F#64]).eraseDups)
  if inScratch va then
    prefetchRules scr l vas (fun _ => none)
    pure (s, skip)
  else match prefetchPage s c va with
    | none => pure missed
    | some (s, pa, e) =>
      prefetchRules scr l vas (fun a => some (pa - pageOffset e va + pageOffset e a, e))
      if tierOf pa = some 3 then
        if !featureOn s 4 ∨ (peerFault s (peerDev pa)).isSome then pure missed
        else if linesMissing s [pa] ≠ [] then throw (.lines (linesMissing s [pa]))
        else pure (s, skip)
      else if memSide e.leaf then pure (s, skip)
      else pure ({ s with l2 := put s.l2 (lineOf pa) ((look s.l2 (lineOf pa)).getD false) }, skip)

/-- The bytes that a chunk of a prefetch touches, line by line. -/
def chunkLines (scr : Nat) (q : CopyCmd) : List (List W64) :=
  let vas := ((((chunkPositions q).map (srcCoords q)).filter (inBounds scr q.src)).flatMap (elemBytesAt q.src)).eraseDups
  ((vas.map (· &&& ~~~0x7F#64)).eraseDups).map (fun a => vas.filter (fun b => b &&& ~~~0x7F#64 == a))

/-- One chunk of a prefetch (R334). -/
def prefetchChunk (s : State) (n : Nat) (c : Cmd) (q : CopyCmd) : Except EngStop State := do
  let (s', skipped) ← (chunkLines (scrSize s c) q).foldl (prefetchLine (scrSize s c) q.src c) (.ok (s, q.skipped))
  pure (updCmd s' n (fun c => { c with body := .copy { q with chunk := q.chunk + 1, skipped } }))

/-- The peer lines that a copy with TIER = 1 has read leave the L2, where they are not allocated (R336). -/
def endTransit (s : State) (n : Nat) (q : CopyCmd) : State :=
  if q.transit = [] then s
  else updCmd (dropPeerLines s (fun ln => q.transit.contains ln)) n (fun c => match c.body with
    | .copy q => { c with body := .copy { q with transit := [] } }
    | _ => c)

/-- COPY_CHUNK. A fault ends the command at the chunk. -/
def copyChunk (s : State) (n : Nat) : State :=
  match look s.cmds n with
  | none => s
  | some c => match c.body with
    | .copy q =>
      if !c.started ∨ c.fault.isSome ∨ c.leave ≠ .granted ∨ c.left ≠ 0 ∨ !cmdResident s c ∨ chunks q ≤ q.chunk then s
      else
        let r := if q.kind = 3 then prefetchChunk s n c q else runChunk s n c q
        match r with
        | .ok s' => endTransit s' n q
        | .error e => engStop s n c e (fun f =>
            endTransit (updCmd s n (fun c => { c with fault := some { f with extra := BitVec.ofNat 64 q.chunk } })) n q)
    | _ => s

def execCopyChunk (n : Nat) (s : State) : Host.Outcome State Fault Refusal := .next (copyChunk s n)

/-! Completion (R337). -/

/-- COPY_COMPLETE: after the last write, or the last line, and any hand-over; or at the fault. -/
def copyComplete (s : State) (n : Nat) : State :=
  match look s.cmds n with
  | none => s
  | some c => match c.body with
    | .copy q =>
      if cmdResident s c ∧ (c.fault.isSome ∨ (c.started ∧ chunks q ≤ q.chunk ∧ c.left = 0 ∧ (q.kind ≠ 2 ∨ q.handed))) then
        updGroup (completeCmd s n c (min 255 q.skipped.length)) c.src (fun gr => { gr with copyq := gr.copyq - 1 })
      else s
    | _ => s

def execCopyComplete (n : Nat) (s : State) : Host.Outcome State Fault Refusal := .next (copyComplete s n)

/-! The tag words (R317, R344). -/

/-- The mask of a tag word. -/
def tagArg (i : Instr) (w : FWord) (s : State) (c : Ctx) : W64 :=
  match w.b with
  | .imm k => k.setWidth 64
  | .sel _ => (laneIn i w s c (lowest c.act)).a

/-- A set bit at or beyond TAGN faults (R39). -/
def tagArgCheck (i : Instr) (w : FWord) (s : State) (c : Ctx) : Except Stop Unit :=
  trapIf (decide (2 ^ c.t.launch.tagn ≤ (tagArg i w s c).toNat)) c 0x81 0

/-- The set tags that a word finds synchronise (R63, R317). -/
def tagSync (m : W64) (c : Ctx) (s : State) : State := if m = 0 then s else acquireL1 s c.t.core

def execTwaitany (w : FWord) (s : State) :=
  let i := Instr.twaitany w
  let m (c : Ctx) : W64 := tagArg i w s c
  runEff i w
    (fun c => do
      tagArgCheck i w s c
      if tagsOf s c.t &&& m c == 0 && busyOf s c.t &&& m c != 0 then throw .wait)
    (fun c _ => { val := tagsOf s c.t &&& m c }) (fun c => tagSync (tagsOf s c.t &&& m c) c) s

def execTwaitall (w : FWord) (s : State) :=
  let i := Instr.twaitall w
  let m (c : Ctx) : W64 := tagArg i w s c
  runEff i w
    (fun c => do
      tagArgCheck i w s c
      if busyOf s c.t &&& m c != 0 then throw .wait)
    (fun c _ => { val := tagsOf s c.t &&& m c }) (fun c => tagSync (tagsOf s c.t &&& m c) c) s

/-- The lowest set bit of a mask, 64 for none. -/
def lowestBit (m : W64) : Nat := ((List.range 64).find? (fun k => m.getLsbD k)).getD 64

def execTffr (w : FWord) (s : State) :=
  let i := Instr.tffr w
  let found (c : Ctx) : W64 := tagsOf s c.t &&& ~~~freshTags s c.t &&& tagArg i w s c
  runEff i w (tagArgCheck i w s)
    (fun c _ => { val := BitVec.ofNat 64 (lowestBit (found c)) })
    (fun c s' => if found c = 0 then s'
      else tagSync (found c) c (updCore s' c.t.core (fun k => { k with tags := k.tags &&& ~~~tagMask c.t (tagBit (lowestBit (found c))) }))) s

def execTclr (w : FWord) (s : State) :=
  let i := Instr.tclr w
  runEff i w (tagArgCheck i w s) noOut
    (fun c s' => updCore s' c.t.core (fun k => { k with tags := k.tags &&& ~~~tagMask c.t (tagArg i w s c &&& ~~~freshTags s c.t) })) s

end Sys2Proof.Machine
end

