-- ==== Sys2Proof/Machine/Folds.lean ====
section
/-! DEFINITION. The combining operators of sweeps and collectives, and folds in a fixed order (R420 to R422, R454 to R456). -/

namespace Sys2Proof.Machine

/-- SUM and MAX of two FP32 values (R421): the result and its flags. -/
def sumF (a b : W32) : W32 × W64 :=
  let r := addFp fp32 .rne .ieee false (decodeFp fp32 a.toNat) (decodeFp fp32 b.toNat)
  (BitVec.ofNat 32 r.bits, r.flags)
def maxF (a b : W32) : W32 × W64 :=
  let x := decodeFp fp32 a.toNat
  let y := decodeFp fp32 b.toNat
  if anyNan [x, y] then (BitVec.ofNat 32 (nanEnc fp32), nvIf [x, y])
  else (BitVec.ofNat 32 (minmaxFp fp32 true x y).bits, 0)

/-- The sums of LSE3's elements with equal weights. -/
def sumAll (xs ys : List W32) : List W32 × W64 :=
  let rs := (xs.zip ys).map (fun e => sumF e.1 e.2)
  (rs.map (·.1), rs.foldl (fun f r => f ||| r.2) 0)

/-- One step of LSE3 with different m (R422): the triple with the larger m, and the one with the smaller. -/
def lseStep (h l : List W32) : List W32 × W64 :=
  let m := h.headD 0
  let d := addFp fp32 .rne .ieee false (decodeFp fp32 (l.headD 0).toNat) (negFp (decodeFp fp32 m.toNat))
  let f := fexp2Fp false (decodeFp fp32 d.bits)
  let rs := (h.tail.zip l.tail).map (fun e =>
    fmaFp fp32 .rne .ieee false (decodeFp fp32 e.2.toNat) (decodeFp fp32 f.bits) (decodeFp fp32 e.1.toNat))
  (m :: rs.map (fun r => BitVec.ofNat 32 r.bits), rs.foldl (fun a r => a ||| r.flags) ((d.flags ||| f.flags) &&& (flagOF ||| flagNX)))

/-- LSE3 of two triples, as lists m, l, o0, o1, ... (R422). -/
def lse3 (x y : List W32) : List W32 × W64 :=
  let dec (w : W32) : Fp := decodeFp fp32 w.toNat
  let a := dec (x.headD 0)
  let b := dec (y.headD 0)
  if anyNan [a, b] then (x.map (fun _ => BitVec.ofNat 32 (nanEnc fp32)), nvIf ((x ++ y).map dec))
  else if a = .inf true ∧ b ≠ .inf true then (y, 0)
  else if b = .inf true ∧ a ≠ .inf true then (x, 0)
  else if fpEq a b then
    let (zs, f) := sumAll x.tail y.tail
    (x.headD 0 :: zs, f)
  else if fpLt b a then lseStep x y else lseStep y x

/-- A left fold that starts from the first value present, with the flags of its steps (R420). -/
def foldFirst {α : Type} (f : α → α → α × W64) : List α → Option α × W64
  | [] => (none, 0)
  | x :: xs => let (v, fl) := xs.foldl (fun a y => ((f a.1 y).1, a.2 ||| (f a.1 y).2)) (x, 0); (some v, fl)

/-- The fold of values that stand in nested parts: each value with the numbers of its parts, outermost first, the values
of a part in order (R420). -/
def foldParts {α : Type} (f : α → α → α × W64) : Nat → List (List Nat × α) → Option α × W64
  | 0, es => foldFirst f (es.map (·.2))
  | n + 1, es =>
    let parts := (sortBy id ((es.map (fun e => e.1.headD 0)).eraseDups)).map (fun k =>
      foldParts f n ((es.filter (fun e => e.1.headD 0 == k)).map (fun e => (e.1.tail, e.2))))
    let (v, fl) := foldFirst f (parts.filterMap (·.1))
    (v, parts.foldl (fun a p => a ||| p.2) fl)

/-- The identity of a collective's operator (R421, R456), with n elements. -/
def collIdentity (op n : Nat) : List W64 :=
  match op with
  | 0 => List.replicate n 0x80000000
  | 1 => List.replicate n 0xFF800000
  | 2 => List.replicate n 0
  | 3 => List.replicate n 0x8000000000000000
  | _ => 0xFF800000 :: List.replicate (n - 1) 0

/-- Element-wise, with the flags. -/
def zipFold (f : W64 → W64 → W64 × W64) (xs ys : List W64) : List W64 × W64 :=
  let rs := (xs.zip ys).map (fun e => f e.1 e.2)
  (rs.map (·.1), rs.foldl (fun a r => a ||| r.2) 0)

/-- Combine two lists of elements (R456). -/
def collCombine (op : Nat) (xs ys : List W64) : List W64 × W64 :=
  match op with
  | 0 => zipFold (fun a b => let r := sumF (lo a) (lo b); (zx r.1, r.2)) xs ys
  | 1 => zipFold (fun a b => let r := maxF (lo a) (lo b); (zx r.1, r.2)) xs ys
  | 2 => zipFold (fun a b => (a + b, 0)) xs ys
  | 3 => zipFold (fun a b => (if a.toInt < b.toInt then b else a, 0)) xs ys
  | _ => let r := lse3 (xs.map lo) (ys.map lo); (r.1.map zx, r.2)

/-- The bytes of an element of a collective's operator. -/
def collBytes (op : Nat) : Nat := if op = 2 ∨ op = 3 then 8 else 4

end Sys2Proof.Machine
end

