-- ==== Sys2Proof/Machine/FabRecv.lean ====
section
/-! DEFINITION. The receiving side of the fabric engine: control flits and their checks, acceptance by transport number,
resending (R427 to R436), the group table (R438 to R441) and source numbers that retire (R442). -/

namespace Sys2Proof.Machine

/-! Fields of a control flit (R428). -/

def flitDw (f : Flit) (k : Nat) : W64 := f.words.getD k 0
def fKind (f : Flit) : Nat := fieldN (flitDw f 0) 58 6
def fSdev (f : Flit) : Nat := fieldN (flitDw f 0) 48 10
def fDdev (f : Flit) : Nat := fieldN (flitDw f 0) 38 10
def fWm (f : Flit) : BitVec 24 := (flitDw f 0).extractLsb' 14 24
def fSrcn (f : Flit) : BitVec 14 := (flitDw f 0).extractLsb' 0 14
def fTsn (f : Flit) : W32 := hi (flitDw f 1)
def fStream (f : Flit) : Nat := fieldN (flitDw f 1) 29 3
def fSd (f : Flit) : Bool := (flitDw f 1).getLsbD 28
def fSeq (f : Flit) : BitVec 24 := (flitDw f 1).extractLsb' 4 24
/-- The payload P[111:0] as a number, and a field of it. -/
def fPay (f : Flit) : Nat := (flitDw f 2).toNat + (flitDw f 3).toNat % 2 ^ 48 * 2 ^ 64
def payField (f : Flit) (lo n : Nat) : Nat := fPay f / 2 ^ lo % 2 ^ n

/-- A flit that is discarded on arrival (R429, R430): its CRC does not check, its kind or a reserved field is bad. -/
def flitBad (f : Flit) : Bool :=
  crc16 f.words != fieldN (flitDw f 3) 48 16 || fKind f == 0 || decide (0x0E < fKind f) || fieldN (flitDw f 1) 0 4 != 0

/-- Count at a port: 1 flits discarded, 2 tag failures, 3 resends (R427, R515). -/
def countPort (s : State) (port k : Nat) : State :=
  let dw := 0xD000 / 8 + 4 * port + k
  { s with counters := set 0 s.counters dw (get 0 s.counters dw + 1) }

/-- A control flit of a kind arrives: a down port carries nothing (R427), a bad flit is discarded and counted. A flit of
another kind, or for another device, is not this event. -/
def onFlit (kind : Nat) (f : Flit) (s : State) (act : State → State) : State :=
  if !portUp s f.port then s
  else if flitBad f then countPort s f.port 1
  else if fKind f ≠ kind ∨ fDdev f ≠ deviceId s then s
  else act s

/-! Acceptance (R435, R436). -/

/-- How a packet's number stands to the receiver's window. -/
inductive Arrival where
  | again | beyond | fresh
  deriving DecidableEq, Repr

/-- A packet is a duplicate, lies beyond the window, or is accepted (R436). -/
def arrivalOf (x : Peer) (tsn : W32) : Arrival :=
  let d := (tsn - x.contig).toNat
  if d = 0 ∨ 2 ^ 31 ≤ d ∨ x.marks.contains tsn then .again else if 1024 < d then .beyond else .fresh

/-- The contiguous number advances over the marked numbers that follow it: `n` bounds how many. -/
def advanceContig (n : Nat) (x : Peer) : Peer :=
  match n with
  | 0 => x
  | n + 1 =>
    if x.marks.contains (x.contig + 1) then
      advanceContig n { x with contig := x.contig + 1, marks := x.marks.filter (· ≠ x.contig + 1) }
    else x

/-- Mark a number that has been accepted. -/
def markTsn (x : Peer) (tsn : W32) : Peer := advanceContig (x.marks.length + 1) { x with marks := x.marks ++ [tsn] }

/-- The payload of an ACK. -/
def ackPay (s : State) (d : Nat) (tsn : W32) : Nat := tsn.toNat + (peerOf s d).contig.toNat * 2 ^ 32

/-- Take a packet of a device: at most once, and acknowledged each time (R435, R436). -/
def acceptPkt (s : State) (d : Nat) (tsn : W32) (act : State → State) : State :=
  match arrivalOf (peerOf s d) tsn with
  | .again => reply s d 0x01 (ackPay s d tsn)
  | .beyond => reply s d 0x02 (tsn.toNat + 2 ^ 32)
  | .fresh =>
    let s := act (updPeer s d (fun x => markTsn x tsn))
    reply s d 0x01 (ackPay s d tsn)

/-- A control flit that is a packet arrives. -/
def onPacket (kind : Nat) (f : Flit) (s : State) (act : State → State) : State :=
  onFlit kind f s (fun s => acceptPkt s (fSdev f) (fTsn f) act)

/-! Resending (R434, R435). -/

/-- Change one unacknowledged packet. -/
def updRetx (s : State) (d : Nat) (tsn : W32) (f : FabPkt → FabPkt) : State :=
  updPeer s d (fun x => { x with retx := x.retx.map (fun p => if p.tsn = tsn then f p else p) })

/-- Send a packet again, on the next up port of its route. -/
def resendOne (d : Nat) (s : State) (p : FabPkt) : State :=
  let q := placed s d { p with route := p.route + 1, sentAt := s.cycle, refused := false }
  let s := updRetx s d p.tsn (fun _ => q)
  let s := match portFor s d q.route with
    | some port => countPort s port 3
    | none => s
  transmit s d q

/-- Send again the packets to a device that a condition picks. -/
def resend (s : State) (d : Nat) (pick : FabPkt → Bool) : State :=
  ((peerOf s d).retx.filter pick).foldl (resendOne d) s

/-- Cycles of 4 µs, of 20 µs and of 1 µs (R9). -/
def cycles4us : Nat := 7000
def cycles20us : Nat := 35000
def cycles1us : Nat := 1750

/-- RESEND_TIMEOUT: packets without an ACK for 4 µs; one that was refused waits for the next ACK. -/
def execResendTimeout (d : Nat) (s : State) : Host.Outcome State Fault Refusal :=
  .next (resend s d (fun p => !p.refused && decide (p.sentAt + cycles4us ≤ s.cycle)))

/-- PROBE_TIMER: packets are outstanding, and nothing has been sent for 4 µs. -/
def execProbeTimer (d : Nat) (s : State) : Host.Outcome State Fault Refusal :=
  let x := peerOf s d
  .next (if x.retx ≠ [] ∧ x.lastSent + cycles4us ≤ s.cycle then post s d { body := .ctl 0x0E 0 } else s)

/-- An ACK, NAK or DONE has arrived from a device (R437). -/
def heardFrom (s : State) (d : Nat) : State :=
  updPeer s d (fun x => { x with quiet := if x.retx.isEmpty then none else some s.cycle })

/-- A NAK: reason 0 resends the packet at once, reason 1 after the next ACK (R435). -/
def takeNak (f : Flit) (s : State) : State :=
  let d := fSdev f
  let tsn : W32 := BitVec.ofNat 32 (payField f 0 32)
  let s := heardFrom s d
  if payField f 32 1 = 0 then resend s d (fun p => p.tsn == tsn) else updRetx s d tsn (fun p => { p with refused := true })

def execNak (f : Flit) (s : State) : Host.Outcome State Fault Refusal := .next (onFlit 0x02 f s (takeNak f))

/-- PROBE: it carries no operation. -/
def execProbe (f : Flit) (s : State) : Host.Outcome State Fault Refusal := .next (onPacket 0x0E f s id)

/-! Source numbers that retire (R442). -/

/-- A source's team has ended: RETIRE goes to every device that received a stream packet from its number. -/
def retireSrc (s : State) (id : SrcId) : State :=
  match srcnHas s id with
  | none => s
  | some n =>
    let ds := (look s.fab.srcnDevs n).getD []
    let s := { s with fab := { s.fab with srcns := del s.fab.srcns n, srcnDevs := del s.fab.srcnDevs n
                                          retiring := if ds = [] then s.fab.retiring else put s.fab.retiring n ds } }
    ds.foldl (fun s d => post s d { srcn := BitVec.ofNat 14 n, body := .ctl 0x0C 0 }) s

/-- A RETIRE has been acknowledged: the number is free again with the last one. -/
def retireAcked (s : State) (n d : Nat) : State :=
  let ds := ((look s.fab.retiring n).getD []).filter (· ≠ d)
  { s with fab := { s.fab with retiring := if ds = [] then del s.fab.retiring n else put s.fab.retiring n ds } }

/-- RETIRE: the commit tables of the number are cleared. -/
def execRetire (f : Flit) (s : State) : Host.Outcome State Fault Refusal :=
  .next (onPacket 0x0C f s (fun s => { s with commits := s.commits.filter (fun c => c.src ≠ guestSrc (fSdev f) (fSrcn f)) }))

/-! The group table (R438 to R441). -/

/-- The header's first bad value, as DETAIL of GROUP_TABLE. -/
def tableHeadBad (rd : Nat → W64) : Option Nat :=
  let a := rd 0
  let b := rd 8
  let off (k : Nat) : Bool := (rd k).toNat % 8 != 0
  if fieldN a 48 16 ≠ 0x4752 ∨ fieldN a 11 21 ≠ 0 ∨ fieldN a 0 11 = 0 ∨ 1024 < fieldN a 0 11 then some 1
  else if fieldN b 42 22 ≠ 0 then some 1
  else if !(rd ((rd 0x10).toNat + 8 * fieldN b 32 10)).getLsbD 63 then some 2
  else if fieldN b 23 9 ≠ 0 then some 1
  else if 64 < fieldN b 16 7 then some 3
  else if fieldN b 5 11 ≠ 0 then some 1
  else if 16 < fieldN b 0 5 then some 4
  else if off 0x10 ∨ off 0x18 ∨ off 0x20 ∨ rd 0x28 ≠ 0 ∨ rd 0x30 ≠ 0 ∨ rd 0x38 ≠ 0 then some 1
  else none

/-- A bad route entry. -/
def routeBad (self d : Nat) (e : W64) : Bool :=
  let ps := (List.range 4).map (fun k => fieldN e (24 + 6 * k) 6)
  (d == self && !e.getLsbD 63) || fieldN e 56 7 != 0 || fieldN e 0 24 != 0 || ps.any (fun p => decide (48 ≤ p) && p != 63) ||
    (e.getLsbD 63 && d != self && ps.all (· == 63))

/-- Child k of a tree entry at an offset: 10-bit identifiers, CHILD0 lowest. -/
def treeChild (rd : Nat → W64) (off k : Nat) : Nat :=
  ((rd (off + 8)).toNat + (rd (off + 16)).toNat * 2 ^ 64 + (rd (off + 24)).toNat * 2 ^ 128) / 2 ^ (10 * k) % 1024

/-- A list in strictly ascending order. -/
def ascending : List Nat → Bool
  | a :: b :: t => decide (a < b) && ascending (b :: t)
  | _ => true

/-- A tree entry at an offset, with OPMASK after verification (R441), or nothing if it is bad. -/
def treeEnt (rd : Nat → W64) (member : Nat → Bool) (n tree off : Nat) : Option TreeEnt :=
  let e := rd off
  let k := fieldN e 49 5
  let cs := (List.range k).map (treeChild rd off)
  let sw := fieldN e 32 16
  if 16 < k ∨ (k ≠ 0 ∧ !e.getLsbD 48) ∨ fieldN e 0 27 ≠ 0 ∨ !ascending cs ∨ cs.any (fun c => !member c) then none
  else some { parent := fieldN e 54 10, children := cs, isIn := e.getLsbD 48, switch := sw
              ops := if sw = 0xFFFF then fieldN e 27 5
                else ((List.range 5).filter (fun j => (fieldN e 27 5).testBit j && Config.verified n tree j)).foldl (fun m j => m + 2 ^ j) 0 }

/-- Load a group table, whose doublewords `rd` gives by their offsets: the table, or the DETAIL of GROUP_TABLE (R440). -/
def loadTable (n : Nat) (rd : Nat → W64) : Except Nat GroupTable :=
  match tableHeadBad rd with
  | some d => .error d
  | none =>
    let self := fieldN (rd 8) 32 10
    let route (d : Nat) : W64 := rd ((rd 0x10).toNat + 8 * d)
    if (List.range 1024).any (fun d => routeBad self d (route d)) then .error 2
    else
      let sets := (List.range (fieldN (rd 8) 16 7)).map (fun i =>
        (List.range 1024).filter (fun d => (rd ((rd 0x18).toNat + 128 * i + 8 * (d / 64))).getLsbD (d % 64)))
      match (List.range (fieldN (rd 8) 0 5)).mapM (fun i => treeEnt rd (fun d => (route d).getLsbD 63) n i ((rd 0x20).toNat + 32 * i)) with
      | none => .error 4
      | some trees =>
        .ok { phase := fieldN (rd 0) 32 16, self, ndev := fieldN (rd 0) 0 11
              routes := (List.range 1024).foldl (fun m d => set 0 m d (route d)) [], sets, trees }

end Sys2Proof.Machine
end

