-- ==== Sys2Proof/Machine/Coll.lean ====
section
/-! DEFINITION. Collectives: `COLL`, its start, the results of a node, delivery, completion and faults (R453 to R461, R466). -/

namespace Sys2Proof.Machine

/-! The tree (R439, R457). -/

/-- This device's place in a tree. -/
def treeOf (s : State) (tree : Nat) : Option TreeEnt := s.fab.table.bind (fun t => t.trees[tree]?)
/-- The device is the root of a tree. -/
def isRoot (te : TreeEnt) : Bool := te.parent == 0x3FF
/-- The neighbours of this device in a tree. -/
def treeNear (te : TreeEnt) : List Nat := (if isRoot te then [] else [te.parent]) ++ te.children
/-- A switch folds the children's results of an operator. -/
def bySwitch (te : TreeEnt) (op : Nat) : Bool := te.switch != 0xFFFF && te.ops.testBit op && !te.children.isEmpty

/-- The collectives of the device. -/
def collOf (c : Cmd) : Option CollCmd :=
  match c.body with
  | .coll k => some k
  | _ => none
/-- The collective of a tree and instance number. -/
def findColl (s : State) (tree : Nat) (inst : W32) : Option (Nat × Cmd × CollCmd) :=
  s.cmds.findSome? (fun e => match collOf e.2 with
    | some k => if k.tree = tree ∧ k.inst = inst then some (e.1, e.2, k) else none
    | none => none)
def updColl (s : State) (n : Nat) (f : CollCmd → CollCmd) : State :=
  updCmd s n (fun c => match c.body with
    | .coll k => { c with body := .coll (f k) }
    | _ => c)

/-- What has arrived for an instance goes. -/
def dropCollIn (s : State) (tree : Nat) (inst : W32) : State :=
  { s with fab := { s.fab with collIn := s.fab.collIn.filter (fun x => !(x.tree = tree ∧ x.inst = inst)) } }

/-! Faults (R461). -/

/-- COLLCTL to some devices: 0 abort, 1 done. -/
def sendCollctl (s : State) (ds : List Nat) (tree : Nat) (inst : W32) (code cause detail : Nat) : State :=
  ds.foldl (fun s d => post s d
    { body := .ctl 0x0D (inst.toNat + tree * 2 ^ 32 + code * 2 ^ 36 + cause * 2 ^ 38 + detail * 2 ^ 46) }) s

/-- A collective ends with a fault at this member: no flags, and the other neighbours hear of it. -/
def collFail (s : State) (n : Nat) (k : CollCmd) (cause detail : Nat) (from? : Option Nat) (others : Nat × Nat) : State :=
  let s := dropCollIn s k.tree k.inst
  let s := updCmd s n (fun c => { c with flags := 0, fault := some { cause, detail, addr := 0, extra := zx k.inst } })
  match treeOf s k.tree with
  | none => s
  | some te => sendCollctl s ((treeNear te).filter (fun d => some d ≠ from?)) k.tree k.inst 0 others.1 others.2

/-- The result of a collective has been delivered here, or accepted by the parent where nothing comes down from it (R460). -/
def collDone (k : CollCmd) : Bool := k.written || (k.dkind != 1 && k.sent == some 0)
/-- The result of a collective has been sent or is being delivered: a cancel leaves it running (R463). -/
def collSent (k : CollCmd) : Bool := k.written || k.sent.isSome

/-- A neighbour is lost, or a team is cancelled (R461): the collective ends unless it is done. -/
def collAbort (s : State) (n detail : Nat) : State :=
  match look s.cmds n with
  | none => s
  | some c => match collOf c with
    | some k => if c.fault.isSome ∨ collDone k then s else collFail s n k 0xB6 detail none (0xB6, detail)
    | none => s

/-! Elements (R433). -/

/-- The doublewords of some elements, packed. -/
def packElems (op : Nat) (xs : List W64) : List W64 :=
  if collBytes op = 8 then xs else (pieces 2 xs).map (fun p => pair64 (lo (p.headD 0)) (lo (p.getD 1 0)))
/-- The elements of packed doublewords. -/
def unpackElems (op n : Nat) (ds : List W64) : List W64 :=
  (if collBytes op = 8 then ds else ds.flatMap (fun d => [zx (lo d), zx (hi d)])).take n

/-- The items of a result: at most 62 doublewords of elements each. -/
def collItems (k : CollCmd) (xs : List W64) : List (List W64) :=
  let per := if collBytes k.op = 8 then 62 else 124
  ((List.range ((xs.length + per - 1) / per)).zip (pieces per xs)).map (fun e =>
    [BitVec.ofNat 64 (5 * 2 ^ 60 + k.inst.toNat + k.tree * 2 ^ 32 + k.op * 2 ^ 36 + e.2.length * 2 ^ 39),
     BitVec.ofNat 64 (k.dkind * 2 ^ 6 + e.1 * per * 2 ^ 8 + k.nel * 2 ^ 20)] ++ packElems k.op e.2)

/-- Send a result to a device: bursts of at most 8 data flits, which form one packet of the stream (R433). -/
def sendResult (s : State) (n : Nat) (c : Cmd) (k : CollCmd) (d : Nat) (xs : List W64) (mine : Bool) : Option (Nat × State) :=
  (srcnFor s c.src).map (fun r =>
    let bursts := pieces 8 ((collItems k xs).map padFlit)
    (bursts.length, bursts.foldl (fun s b => post s d
      { srcn := BitVec.ofNat 14 r, stream := c.stream, seq := c.seq, wm := markOf s c.src c.stream, body := .burst b, coll := if mine then some n else none })
      (useSrcn s c.src r d c.stream)))

/-! A node's result (R455, R457, R458). -/

/-- All elements have arrived. -/
def collFull (x : CollIn) : Bool := x.data.length == x.nel && decide (0 < x.nel)
/-- What a device has sent of an instance. -/
def collFrom (s : State) (k : CollCmd) (p : Nat → Bool) : Option CollIn :=
  s.fab.collIn.find? (fun x => x.tree = k.tree ∧ x.inst = k.inst ∧ x.abort.isNone ∧ p x.dev)
/-- What arrived agrees with the node's record. -/
def collAgrees (k : CollCmd) (x : CollIn) : Bool := !x.bad && x.op == k.op && x.nel == k.nel && x.dkind == k.dkind
def collVals (x : CollIn) : List W64 := x.data.map (·.2)

/-- The parts from which F is computed: the switch's, or each child's in ascending order. -/
def foldSources (s : State) (te : TreeEnt) (k : CollCmd) : List (Option CollIn) :=
  if bySwitch te k.op then [collFrom s k (fun d => !(treeNear te).contains d)]
  else te.children.map (fun d => collFrom s k (· == d))

/-- The fold of the children's results, with its flags: those of a child's own item are not passed on. -/
def foldOf (te : TreeEnt) (k : CollCmd) (xs : List CollIn) : List W64 × W64 :=
  match xs with
  | [] => ([], 0)
  | x :: rest => rest.foldl (fun a y => let r := collCombine k.op a.1 (collVals y); (r.1, a.2 ||| r.2))
      (collVals x, if bySwitch te k.op then x.flags else 0)

/-- This node's result once its own fold and its children's results are there: it goes to the parent, or is the collective's
result. -/
def collResult (s : State) (n : Nat) (c : Cmd) (k : CollCmd) (te : TreeEnt) (own : List W64) : State :=
  let parts := foldSources s te k
  if parts.any (fun p => (p.map (fun x => !collAgrees k x)).getD false) then collFail s n k 0xB5 1 none (0xB5, 1)
  else if parts.any (fun p => !(p.map collFull).getD false) then s
  else
    let (f, fl) := foldOf te k (parts.filterMap id)
    let (res, fl2) : List W64 × W64 := if te.children = [] then (own, 0) else collCombine k.op own f
    let s' := updCmd (dropCollIn s k.tree k.inst) n (fun c => { c with flags := c.flags ||| fl ||| fl2 })
    if isRoot te then updColl s' n (fun k => { k with result := some res, final := some res })
    else match sendResult s' n c k te.parent res true with
      | none => s
      | some (b, s') => updColl s' n (fun k => { k with result := some res, sent := some b })

/-- The collective's result arrives from the parent, under DKIND 1 (R459). -/
def collDown (s : State) (n : Nat) (k : CollCmd) (te : TreeEnt) : State :=
  match collFrom s k (fun d => !isRoot te && d == te.parent) with
  | none => s
  | some x =>
    if !collAgrees k x then collFail s n k 0xB5 1 none (0xB5, 1)
    else if collFull x then updColl (dropCollIn s k.tree k.inst) n (fun k => { k with final := some (collVals x) })
    else s

/-- A collective goes on as far as what has arrived lets it. -/
def collProgress (s : State) (n : Nat) : State :=
  match look s.cmds n with
  | none => s
  | some c => match collOf c with
    | none => s
    | some k => match k.own, treeOf s k.tree with
      | some own, some te =>
        if c.fault.isSome ∨ k.final.isSome then s
        else if k.result.isNone then collResult s n c k te own
        else if k.dkind = 1 then collDown s n k te
        else s
      | _, _ => s

/-- The elements of an item join what its device has sent. -/
def addElems (x : CollIn) (op nel dkind first : Nat) (flags : W64) (es : List W64) : CollIn :=
  if x.nel ≠ 0 ∧ (x.op ≠ op ∨ x.nel ≠ nel ∨ x.dkind ≠ dkind ∨ x.flags ≠ flags) then { x with bad := true }
  else { x with op, nel, dkind, flags
                data := (((List.range es.length).zip es).filter (fun e => first + e.1 < nel)).foldl (fun m e => put m (first + e.1) e.2) x.data }

/-- A collective-result item of a device is released (R431, R433). -/
def collItem (s : State) (d : Nat) (h ctl : W64) (ds : List W64) : State :=
  let inst := lo h
  let tree := fieldN h 32 4
  let op := fieldN h 36 3
  let same (x : CollIn) : Bool := x.dev == d && x.tree == tree && x.inst == inst && x.abort.isNone
  let x := (s.fab.collIn.find? same).getD { dev := d, tree, inst }
  let x := addElems x op (fieldN ctl 20 13) (fieldN ctl 6 2) (fieldN ctl 8 12) (ctl &&& 0x3F) (unpackElems op (fieldN h 39 13) ds)
  let s := { s with fab := { s.fab with collIn := s.fab.collIn.filter (fun y => !same y) ++ [x] } }
  match findColl s tree inst with
  | some (n, _, _) => collProgress s n
  | none => s

/-- COLLCTL: an abort ends the collective here and passes on; one that comes before this member has issued is kept for its
issue. A done tells that the result has been accepted (R461). -/
def takeCollctl (f : Flit) (s : State) : State :=
  let d := fSdev f
  let inst : W32 := BitVec.ofNat 32 (payField f 0 32)
  let tree := payField f 32 4
  let cause := payField f 38 8
  let detail := payField f 46 8
  let near := ((treeOf s tree).map treeNear).getD []
  match findColl s tree inst with
  | some (n, c, k) =>
    if payField f 36 2 = 0 then
      (if c.fault.isSome ∨ collDone k then s else collFail s n k cause detail (some d) (cause, detail))
    else updColl s n (fun k => { k with sent := k.sent.map (fun _ => 0) })
  | none =>
    if payField f 36 2 ≠ 0 ∨ s.fab.collIn.any (fun x => x.tree = tree ∧ x.inst = inst ∧ x.abort.isSome) then s
    else
      let s := dropCollIn s tree inst
      sendCollctl { s with fab := { s.fab with collIn := s.fab.collIn ++ [{ dev := d, tree, inst, abort := some (cause, detail) }] } }
        (near.filter (· ≠ d)) tree inst 0 cause detail

def execCollctl (f : Flit) (s : State) : Host.Outcome State Fault Refusal := .next (onPacket 0x0D f s (takeCollctl f))

/-! COLL (R466). -/

/-- An address in the scratchpad window whose range runs beyond the allocation. -/
def srcBeyond (t : Team) (k : CollCmd) : Bool :=
  let a := k.src
  decide (0 < k.c) && inScratch a && decide (scratchSize t < scratchOff a + (k.c - 1) * k.cstride + k.nel * collBytes k.op)

/-- The collective that a record describes. -/
def collRec (t : Team) (o : Nat) : CollCmd :=
  let d0 := recDw t o 0
  let d2 := recDw t o 2
  { inst := hi d0, tree := fieldN d0 28 4, op := fieldN d0 25 3, dkind := fieldN d0 13 2
    src := recDw t o 1 &&& 0x1FFFFFFFFFFFFFF, cstride := fieldN d2 32 16, c := fieldN d2 16 16, nel := fieldN d2 0 16
    res := recDw t o 3 &&& 0x1FFFFFFFFFFFFFF, cap := recDw t o 4 }

/-- The RES of a record is used (R459). -/
def usesRes (k : CollCmd) (te : TreeEnt) : Bool := k.dkind == 1 || (k.dkind == 0 && isRoot te)

/-- The first bad value of a collective record, in the order of its table. -/
def collFault (s : State) (c : Ctx) (o : Nat) : Option (Nat × Nat) :=
  let t := c.t
  let d0 := recDw t o 0
  let d5 := recDw t o 5
  let k := collRec t o
  let es := collBytes k.op
  let notag := d0.getLsbD 21
  let tag := fieldN d0 15 6
  let rsv (i lo n : Nat) : Bool := fieldN (recDw t o i) lo n != 0
  match s.fab.table with
  | none => some (0xB1, 1)
  | some g =>
    if (findColl s k.tree k.inst).isSome then some (0xB0, 9)
    else match g.trees[k.tree]? with
      | none => some (0xB0, 1)
      | some te =>
        if !te.isIn then some (0xB1, 4)
        else if 5 ≤ k.op then some (0xB0, 4)
        else if rsv 0 22 3 then some (0xB0, 3)
        else if notag ∧ tag ≠ 0 then some (0xB0, 8)
        else if !notag ∧ t.launch.tagn ≤ tag then some (0x81, 0)
        else if k.dkind = 3 then some (0xB0, 5)
        else if rsv 0 0 13 ∨ rsv 1 57 7 then some (0xB0, 3)
        else if k.src.toNat % es ≠ 0 ∨ srcBeyond t k then some (0xB0, 7)
        else if rsv 2 48 16 then some (0xB0, 3)
        else if (1 < k.c ∧ k.cstride < k.nel * es) ∨ k.cstride % es ≠ 0 then some (0xB0, 6)
        else if k.nel = 0 ∨ 4096 < k.nel ∨ (k.op = 4 ∧ k.nel < 2) then some (0xB0, 6)
        else if rsv 3 57 7 then some (0xB0, 3)
        else if usesRes k te ∧ (k.res.toNat % es ≠ 0 ∨ inScratch k.res) then some (0xB0, 7)
        else if rsv 5 10 54 then some (0xB0, 3)
        else if d5.getLsbD 9 ∧ isLead c.id then some (0xB0, 8)
        else if rsv 5 8 1 then some (0xB0, 3)
        else if (d5.getLsbD 9 ∧ c.gr.alloc ≤ fieldN d5 0 8) ∨ (!d5.getLsbD 9 ∧ fieldN d5 0 8 ≠ 0) then some (0xB0, 8)
        else if (List.range 10).any (fun j => recDw t o (6 + j) != 0) then some (0xB0, 3)
        else none

/-- The command of a `COLL`. -/
def collCmd (c : Ctx) (os o : Nat) : Cmd :=
  let d0 := recDw c.t o 0
  let d5 := recDw c.t o 5
  { src := c.id, lane := lowest c.act, core := c.t.core, ctx := c.t.launch.ctx, stream := os
    tag := tagOf (fieldN d0 15 6) (d0.getLsbD 21), stat := if d5.getLsbD 9 then some (fieldN d5 0 8) else none
    ident := BitVec.ofNat 64 o, body := .coll (collRec c.t o) }

/-- The collectives outstanding on the device (R453). -/
def collCount (s : State) : Nat := (s.cmds.filter (fun e => (collOf e.2).isSome)).length

def execColl (w : FWord) (os : BitVec 3) (s : State) : Host.Outcome State Fault Refusal :=
  let i := Instr.coll w os
  let off (c : Ctx) : Nat := (lo (laneIn i w s c (lowest c.act)).a).toNat
  runEff i w
    (fun c => do
      let k : Ctx := { c with act := oneLane (lowest c.act) }
      trapIf s.fab.table.isNone k 0xB1 1
      trapIf (off c % 128 != 0 || decide (scratchSize c.t < off c + 128)) k 0xB0 2
      recStage k (fun _ => collFault s c (off c))
      storeWait s c false
      streamWait c os.toNat
      if 16 ≤ collCount s ∨ !tagFree s c.id.team (collCmd c os.toNat (off c)).tag then throw .wait)
    noOut
    (fun c s' => (issueCmd s' .coll c.gr.ord (oneLane (lowest c.act)) (collCmd c os.toNat (off c))).2) s

/-! Start (R454). -/

/-- Read one contribution: its elements. -/
def readContribution (s : State) (n : Nat) (c : Cmd) (k : CollCmd) (i : Nat) : Except EngStop (List W64) := do
  let es := collBytes k.op
  let ls ← engBytes s n c .engRead (k.src + BitVec.ofNat 64 (i * k.cstride)) (k.nel * es)
  let bs ← engRead s c 0xB8 ls
  pure ((pieces es bs).map (fun p => BitVec.ofNat 64 (leNat p)))

/-- The fold of the contributions in ascending order, with its flags. -/
def ownFold (s : State) (n : Nat) (c : Cmd) (k : CollCmd) : Except EngStop (List W64 × W64) := do
  let xs ← (List.range k.c).mapM (readContribution s n c k)
  pure (xs.foldl (fun a x => let r := collCombine k.op a.1 x; (r.1, a.2 ||| r.2)) (collIdentity k.op k.nel, 0))

/-- What a collective that cannot start meets: a bad read ends it with COLL_DATA, DETAIL 1, and the others with COLL_ABORT. -/
def collReadFault (s : State) (n : Nat) (k : CollCmd) (f : CmdFault) : State :=
  collFail s n k f.cause (if f.cause = 0xB8 then 1 else f.detail) none (0xB6, 1)

/-- COLL_START: its stream allows it, and its neighbours can be reached. -/
def collStart (s : State) (n : Nat) : State :=
  match look s.cmds n with
  | none => s
  | some c => match collOf c with
    | none => s
    | some k =>
      if c.started ∨ c.fault.isSome ∨ !cmdMayStart s c then s
      else match (s.fab.collIn.find? (fun x => x.tree = k.tree ∧ x.inst = k.inst)).bind (·.abort), treeOf s k.tree with
        | some (cause, detail), _ =>
          updCmd (dropCollIn s k.tree k.inst) n (fun c => { c with fault := some { cause, detail, extra := zx k.inst } })
        | none, none => collFail s n k 0xB6 1 none (0xB6, 1)
        | none, some te =>
          if (treeNear te).any (fun d => !reachable s d) then collFail s n k 0xB6 1 none (0xB6, 1)
          else match ownFold s n c k with
            | .error e => engStop s n c e (collReadFault s n k)
            | .ok (xs, fl) =>
              collProgress (updColl (updCmd s n (fun c => { c with started := true, flags := c.flags ||| fl })) n
                (fun k => { k with own := some xs })) n

def execCollStart (n : Nat) (s : State) : Host.Outcome State Fault Refusal := .next (collStart s n)

/-! Delivery and completion (R459, R460). -/

/-- The bytes of a result at RES. -/
def resultBytes (k : CollCmd) (xs : List W64) : List Byte := xs.flatMap (fun x => leBytes (collBytes k.op) x.toNat)

/-- Write the result at RES. -/
def writeRes (s : State) (n : Nat) (c : Cmd) (k : CollCmd) (xs : List W64) : Except EngStop State := do
  let bs := resultBytes k xs
  let ls ← engBytes s n c .engWrite k.res bs.length
  let s ← engWrite s n c (ls.zip bs)
  pure (updColl s n (fun k => { k with written := true }))

/-- The words of a result as a send delivers them: word j goes to lane j mod 32, register floor(j / 32). -/
def resultLanes (k : CollCmd) (xs : List W64) : List SendLane :=
  let ws := xs.flatMap (fun x => if collBytes k.op = 8 then [lo x, hi x] else [lo x])
  ((List.range ws.length).zip ws).map (fun e => { lane := e.1 % 32, off := BitVec.ofNat 32 (e.1 / 32), val := zx e.2 })

/-- The send items of a capability of another device. -/
def sendItem (cap : W64) (d : Bool) (ls : List SendLane) : List W64 :=
  let dw (x : SendLane) : List W64 :=
    let o := x.off.toNat % 64 * 2 ^ 32
    if d then [BitVec.ofNat 64 o, x.val] else [BitVec.ofNat 64 (o + (lo x.val).toNat)]
  [BitVec.ofNat 64 (4 * 2 ^ 60 + (maskOf (fun l => ls.any (fun x => x.lane == l))).toNat + (if d then 2 ^ 32 else 0)), cap] ++ ls.flatMap dw

/-- Deliver a result through a capability of another device: one operation for each register of the window (log 19). The
lanes that run beyond the window, or all without the engine right, are refused here. -/
def deliverFar (s : State) (n : Nat) (c : Cmd) (k : CollCmd) (ls : List SendLane) : Option State :=
  let bad (l : Nat) : Bool := !k.cap.getLsbD 29 || ls.any (fun x => x.lane == l && decide (capCount k.cap ≤ x.off.toNat))
  let lanes := sendLanes ls
  let refused := lanes.filter bad
  let rows := (pieces 32 ls).map (fun r => r.filter (fun x => !bad x.lane)) |>.filter (fun r => !r.isEmpty)
  let d := capDev k.cap
  (srcnFor s c.src).map (fun r =>
    let a : Away := { dev := d, src := c.src, op := none, stream := c.stream, seq := c.seq, core := c.core, addr := k.cap, kind := .deliver n k.cap }
    let s := rows.foldl (fun s row => post (addAway s a) d
      { srcn := BitVec.ofNat 14 r, stream := c.stream, seq := c.seq, wm := markOf s c.src c.stream, body := .burst (packFlits [] [sendItem k.cap false row]) })
      (useSrcn s c.src r d c.stream)
    let s := updCmd s n (fun c => { c with left := c.left + rows.length })
    if refused = [] then s
    else reportRefusal s c.src c.core c.seq c.stream (.cap k.cap)
      { cause := if k.cap.getLsbD 29 then 0x71 else 0x70, detail := if k.cap.getLsbD 29 then 5 else 3
        lanes := maskOf (refused.contains ·), off := 0 })

/-- Deliver a result through the record's capability (R459, R304). -/
def deliverCap (s : State) (n : Nat) (c : Cmd) (k : CollCmd) (xs : List W64) : Option State :=
  let ls := resultLanes k xs
  if capDev k.cap ≠ deviceId s then
    match (if featureOn s 4 then peerFault s (capDev k.cap) else some (0xD0, 4)) with
    | some (cause, detail) => some (asyncFault s c.src (some c.lane) c.seq c.stream cause detail 0 k.cap 0)
    | none => deliverFar s n c k ls
  else
    let (s, r) := landSend s (.cap k.cap) false true ls
    some (match r with
      | none => s
      | some r => reportRefusal s c.src c.core c.seq c.stream (.cap k.cap) r)

/-- The result goes down to the children under DKIND 1. -/
def sendDown (s : State) (n : Nat) (c : Cmd) (k : CollCmd) (te : TreeEnt) (xs : List W64) : Option State :=
  te.children.foldl (fun r d => r.bind (fun s => (sendResult s n c k d xs false).map (·.2))) (some s)

/-- The delivery of a result at this member begins. -/
def collDeliver (s : State) (n : Nat) (c : Cmd) (k : CollCmd) (te : TreeEnt) (xs : List W64) : State :=
  if k.dkind = 2 then
    match deliverCap s n c k xs with
    | none => s
    | some s => updColl s n (fun k => { k with written := true })
  else match writeRes s n c k xs with
    | .error e => engStop s n c e (collReadFault s n k)
    | .ok s' =>
      if k.dkind ≠ 1 then s'
      else match sendDown s' n c k te xs with
        | none => s
        | some s' => s'

/-- A collective completes once it is performed at this member, or at its fault. -/
def collEnds (c : Cmd) (k : CollCmd) (te : Option TreeEnt) : Bool :=
  c.fault.isSome || (k.written && c.left == 0) ||
    (k.dkind != 1 && k.sent == some 0 && !(te.map isRoot).getD true)

/-- COLL_COMPLETE: delivery where it is due, then completion; a result that found no free source number goes on (R442). -/
def collComplete (s : State) (n : Nat) : State :=
  match look s.cmds n with
  | none => s
  | some c => match collOf c with
    | none => s
    | some k =>
      if collEnds c k (treeOf s k.tree) then completeCmd s n c 0
      else match k.final, treeOf s k.tree with
        | some xs, some te => if k.written then s else collDeliver s n c k te xs
        | _, _ => collProgress s n

def execCollComplete (n : Nat) (s : State) : Host.Outcome State Fault Refusal := .next (collComplete s n)

/-! FGRP (R467). -/

/-- The table's header as `FGRP.info` gives it. -/
def fgrpInfo (s : State) : W64 :=
  match s.fab.table with
  | none => 0
  | some t => BitVec.ofNat 64 (t.phase * 2 ^ 48 + t.self * 2 ^ 38 + t.ndev * 2 ^ 16 + t.sets.length * 2 ^ 8 + t.trees.length)

/-- The port that a device's packets take now. -/
def portNow (s : State) (d : Nat) : Nat := ((((peerOf s d).retx.getLast?).map (fun p => portFor s d p.route)).getD (portFor s d 0)).getD 63

def fgrpRoute (s : State) (d : Nat) : W64 :=
  let e := routeOf s d
  BitVec.ofNat 64 ((if isMember s d then 1 else 0) + (if d = deviceId s ∨ reachable s d then 2 else 0) + portNow s d * 4 + fieldN e 48 8 * 256)

def fgrpTree (s : State) (n : Nat) : W64 :=
  match treeOf s n with
  | none => 0
  | some t => BitVec.ofNat 64 (t.parent + t.children.length * 2 ^ 10 + (if t.isIn then 2 ^ 15 else 0) + t.ops * 2 ^ 16 +
      (if t.switch ≠ 0xFFFF then 2 ^ 21 else 0))

def execFgrp (w : FWord) (k : FgrpKind) (s : State) :=
  let i := Instr.fgrp w k
  let b (c : Ctx) (l : Nat) : Nat := (lo (laneIn i w s c l).b).toNat
  let bad (n : Nat) : Bool := match k with
    | .info => false
    | .route => decide (1023 < n)
    | .tree => decide (((s.fab.table).map (·.trees.length)).getD 0 ≤ n)
  runEff i w (fun c => stage c (fun _ => 0) (fun l => if bad (b c l) then some (0xB0, 1) else none))
    (fun c l => match k with
      | .info => { val := fgrpInfo s }
      | .route => { val := fgrpRoute s (b c l) }
      | .tree => { val := fgrpTree s (b c l) }) noEff s

end Sys2Proof.Machine
end

