-- ==== Sys2Proof/Machine/FabItems.lean ====
section
/-! DEFINITION. The operations of other devices: the items of a burst, and their release to slices, units and gateways (R431
to R433, R444, R445, R450). -/

namespace Sys2Proof.Machine

/-! Items (R431). -/

/-- An item: its header and the doublewords that follow. -/
structure Item where
  h : W64
  ds : List W64
  deriving DecidableEq, Repr

def itemType (i : Item) : Nat := fieldN i.h 60 4
/-- The doublewords after a header, from the header and the doubleword after it. -/
def itemLen (h next : W64) : Nat :=
  let n := fieldN h 52 8 + 1
  match fieldN h 60 4 with
  | 1 => (n + 7) / 8 + n
  | 2 => n
  | 3 => 3
  | 4 => 1 + laneCount (lo h) * (if h.getLsbD 32 then 2 else 1)
  | 5 => 1 + (fieldN h 39 13 * collBytes (fieldN h 36 3) + 7) / 8
  | 6 => 2 + imageRest next
  | _ => 0

/-- The items of a data flit, and whether one of types 7 to 15 ends the burst. `n` bounds how many. -/
def flitItems (n : Nat) (ws : List W64) : List Item × Bool :=
  match n, ws with
  | 0, _ => ([], false)
  | _, [] => ([], false)
  | n + 1, h :: rest =>
    if fieldN h 60 4 = 0 then ([], false)
    else if 7 ≤ fieldN h 60 4 then ([], true)
    else
      let k := itemLen h (rest.headD 0)
      let (is, stop) := flitItems n (rest.drop k)
      ({ h, ds := rest.take k } :: is, stop)

/-- The items of a burst. -/
def burstItems : List (List W64) → List Item × Bool
  | [] => ([], false)
  | f :: fs =>
    match flitItems 64 f with
    | (is, true) => (is, true)
    | (is, false) => let (js, stop) := burstItems fs; (is ++ js, stop)

/-! Guests (R442, R444). -/

/-- What the flit's header tells of a source of another device. -/
def guestOf (f : Flit) (left : Nat) : Guest := { dev := fSdev f, srcn := fSrcn f, stream := fStream f, seq := fSeq f, left }

/-- The watermark and the closed range that are known of a guest's stream, whatever the destination. -/
def allDests : Nat := 2 ^ 60
def guestMark (s : State) (src : SrcId) (stream : Nat) : Commit := commitOf s allDests src stream

/-- The last committed number at a destination is at least a number; 0 stands for none. -/
def raiseLast (s : State) (dest : Nat) (src : SrcId) (stream : Nat) (last : BitVec 24) : State :=
  if last = 0 then s else updCommit s dest src stream (fun c => { c with last := if c.last = 0 then last else seqMax c.last last })

/-- A guest's packet: what is known of its stream reaches its destination with it. -/
def guestPkt (s : State) (f : Flit) (n dest : Nat) (body : Body) : State :=
  let src := guestSrc (fSdev f) (fSrcn f)
  let m := guestMark s src (fStream f)
  let (k, s) := newId s
  let p : Pkt := { src, op := some n, ctx := noCtx, core := 0, dest, stream := fStream f, seq := fSeq f
                   wm := if fStream f = 0 then fWm f else wmMax m.wm (fWm f), flag := fSd f, body }
  let s := { s with pkts := put s.pkts k p }
  if fStream f = 0 then s else raiseLast s dest src (fStream f) m.last

/-- An operation of a guest with its packets. -/
def guestOp (s : State) (f : Flit) (left : Nat) (bodies : List (Nat × Body)) : State :=
  if bodies = [] then s
  else
    let (n, s) := newId s
    bodies.foldl (fun s b => guestPkt s f n b.1 b.2) { s with fab := { s.fab with guests := put s.fab.guests n (guestOf f left) } }

/-- The packet's number lies in a range that a CLOSE has ended (R450). -/
def closed (s : State) (f : Flit) : Bool :=
  fStream f != 0 && (let m := guestMark s (guestSrc (fSdev f) (fSrcn f)) (fStream f)
    m.last != 0 && seqGe m.last (fSeq f))

/-! Release of the items of a burst (R432, R433). -/

/-- The bytes of a write item. -/
def writeBytesOf (i : Item) : List (Nat × Byte) :=
  let n := fieldN i.h 52 8 + 1
  let a := (fieldN i.h 0 52) / 8 * 8
  (List.range n).flatMap (fun k => (List.range 8).filterMap (fun j =>
    if (i.ds.getD (k / 8) 0).getLsbD (8 * (k % 8) + j) then
      some (a + 8 * k + j, (i.ds.getD ((n + 7) / 8 + k) 0).extractLsb' (8 * j) 8)
    else none))

/-- The writes of a burst: one operation, with a packet for each home slice. -/
def releaseWrites (s : State) (f : Flit) (is : List Item) : State :=
  let bs := ((is.filter (fun i => itemType i == 1)).flatMap writeBytesOf).filter (fun b => local01 b.1)
  let bodies := byDest (fun b => homeSlice b.1) (fun bs => .store [{ lane := 0, bytes := bs }] false) bs
  guestOp s f bodies.length bodies

/-- The operands of a request item. -/
def itemOps (i : Item) : List W32 := [lo (i.ds.getD 1 0), hi (i.ds.getD 1 0), lo (i.ds.getD 2 0), hi (i.ds.getD 2 0)]
def itemPa (i : Item) : Nat := fieldN i.h 0 52

/-- The atomic operation of a code (R250). -/
def atOpOf (n : Nat) : AtOp :=
  match n with
  | 0 => .add
  | 1 => .exch
  | 2 => .cas
  | 3 => .and
  | 4 => .or
  | 5 => .xor
  | 6 => .min
  | _ => .max

/-- The atomics of a burst: packets by operation, width and slice. -/
def releaseAtomics (s : State) (f : Flit) (is : List Item) : State :=
  let xs := is.filter (fun i => itemType i == 3 && (i.ds.headD 0).getLsbD 63 && local01 (itemPa i))
  let key (i : Item) : Nat := fieldN (i.ds.headD 0) 59 4 * 256 + homeSlice (itemPa i)
  let lane (i : Item) : AtLane := { lane := fieldN (i.ds.headD 0) 16 5, pa := itemPa i, operand := i.ds.getD 1 0, cmp := i.ds.getD 2 0 }
  let bodies := (((xs.map key).eraseDups).map (fun k =>
    (k % 256, Body.atom 0 (atOpOf (k / 512)) ((k / 256).testBit 0) ((xs.filter (fun i => key i == k)).map lane))))
  guestOp s f xs.length bodies

/-- The header of a guest's request: that of a definition is known once its image is here. -/
def farHeader (n : Nat) (v : BitVec 8) : RmoHeader := { dw0 := if n < 8 then builtinHeader n else 0, version := v }

/-- The unit that executes a guest's request. The memory-side bit of the requester's mapping selects it (R388), and no item
carries that bit, so on an address of HBM4E it is a free choice, one for each page in a step (log 19). -/
def guestUnit (s : State) (pa : Nat) : Nat :=
  if tierOf pa = some 0 ∧ Config.choice s.fresh (2 ^ 53 + pa / 65536) % 2 = 1 then unitOf s pa else homeSlice pa

/-- The remote-opcode requests of a burst: packets by number, version and unit. -/
def releaseRmos (s : State) (f : Flit) (is : List Item) : State :=
  let xs := is.filter (fun i => itemType i == 3 && !(i.ds.headD 0).getLsbD 63 && local01 (itemPa i))
  let key (i : Item) : Nat := (fieldN (i.ds.headD 0) 8 5 * 256 + fieldN (i.ds.headD 0) 0 8) * 4096 + guestUnit s (itemPa i)
  let req (i : Item) : RmoReq := { lane := fieldN (i.ds.headD 0) 16 5, va := BitVec.ofNat 64 (itemPa i), pa := itemPa i, ops := itemOps i }
  let bodies := ((xs.map key).eraseDups).map (fun k =>
    let num := k / 1048576
    (k % 4096, Body.rmo num (farHeader num (BitVec.ofNat 8 (k / 4096))) none ((xs.filter (fun i => key i == k)).map req)))
  guestOp s f xs.length bodies

/-- The lanes of a send item. -/
def itemSends (i : Item) : List SendLane :=
  let d := i.h.getLsbD 32
  let ls := lanesOf (lo i.h)
  ((List.range ls.length).zip ls).map (fun e =>
    let x := i.ds.getD (1 + e.1 * (if d then 2 else 1)) 0
    { lane := e.2, off := BitVec.ofNat 32 (fieldN x 32 6), val := if d then i.ds.getD (2 + 2 * e.1) 0 else zx (lo x) })

/-- The sends of a burst: the items of one capability and width are one packet (R433). -/
def releaseSends (s : State) (f : Flit) (is : List Item) : State :=
  let xs := is.filter (fun i => itemType i == 4)
  let key (i : Item) : W64 × Bool := (i.ds.headD 0, i.h.getLsbD 32)
  ((xs.map key).eraseDups).foldl (fun s k =>
    guestOp s f 1 [(capDest s k.1, .send (.cap k.1) k.2 false ((xs.filter (fun i => key i == k)).flatMap itemSends))]) s

/-- Collective results. -/
def releaseColls (s : State) (f : Flit) (is : List Item) : State :=
  (is.filter (fun i => itemType i == 5)).foldl (fun s i => collItem s (fSdev f) i.h (i.ds.headD 0) (i.ds.drop 1)) s

/-- A definition image reaches the device, with its owner and context (R431). -/
def releaseImage (s : State) (i : Item) : State :=
  let n := fieldN i.h 0 5
  let v : BitVec 8 := i.h.extractLsb' 5 8
  let h := i.ds.headD 0
  let e : DefEntry := { defined := true, version := v, dw0 := h, image := imageOps h (i.ds.drop 2) }
  { s with images := put s.images (imageKey 2047 (fieldN i.h 13 10) (fieldN i.h 23 16) n v) e }

/-- The destination of a multicast's packet to this device. -/
def mcastHere : Nat := 3000

/-- A multicast that another device sends here (R452): no item of R431 holds virtual addresses, so which bursts without an
item are multicasts, and their context, addresses and data, are free (log 19). -/
def releaseMcast (s : State) (f : Flit) (flits : List (List W64)) : State :=
  match Config.mcastOf flits with
  | none => s
  | some (ctx, d, ws) =>
    let k := s.nextId + 1
    let s := guestOp s f 1 [(mcastHere, .mcast ws d)]
    { s with pkts := upd s.pkts k (fun p => { p with ctx := ctx.toNat, flag := false }) }

/-- The accesses of a load that one reply serves: one, or for reads every lane that reads the same bytes (R229). -/
def servedBy (op : LoadOp) (acc : Nat) (e : Nat × LoadAcc) : Bool :=
  e.1 == acc || (match op.kind with
    | .old _ => false
    | _ => (op.accs[acc]?).any (fun a => a.pas == e.2.pas))
/-- The accesses of a load that a reply binds. -/
def setAccAt (s : State) (load acc : Nat) (f : LoadAcc → LoadAcc) : State :=
  { s with loads := upd s.loads load (fun op => { op with accs := ((List.range op.accs.length).zip op.accs).map (fun e =>
      if servedBy op acc e ∧ e.2.val.isNone ∧ e.2.bad.isNone then f e.2 else e.2) }) }

/-- The bytes of a read-data item, by whole addresses. -/
def dataBytes (d : Nat) (i : Item) : List (Nat × Byte) :=
  ((List.range i.ds.length).zip i.ds).flatMap (fun e =>
    (List.range 8).map (fun j => (peerPa d (fieldN i.h 0 52 / 8 * 8 + 8 * e.1 + j), e.2.extractLsb' (8 * j) 8)))

/-- The L1s whose `PREF` asked for a line get it (R252). -/
def servePrefs (s : State) (ln : Nat) : State :=
  let ps := s.fab.prefs.filter (fun e => e.1 == ln)
  let s := { s with fab := { s.fab with prefs := s.fab.prefs.filter (fun e => e.1 != ln) } }
  ps.foldl (fun s e => fillLine s e.2 ln false) s

/-- Read data: it fills a line of the local L2 that was asked for, or binds a strong load's access (R446). -/
def releaseData (f : Flit) (s : State) (i : Item) : State :=
  let d := fSdev f
  let bs := dataBytes d i
  let a := peerPa d (fieldN i.h 0 52)
  let del' (s : State) (n : Nat) : State := { s with fab := { s.fab with away := del s.fab.away n } }
  match s.fab.away.find? (fun e => e.2.dev == d && (match e.2.kind with
    | .line ln => ln == a / 128
    | .value l k _ => decide ((((look s.loads l).bind (fun op => op.accs[k]?)).map (fun x => x.pas.headD 0)) = some a)
    | _ => false)) with
  | none => s
  | some (n, e) => match e.kind with
    | .line ln => servePrefs { del' s n with fab := { (del' s n).fab with
        copies := (bs.filter (fun b => b.1 / 128 == ln)).foldl (fun m b => put m b.1 b.2) s.fab.copies } } ln
    | .value l k _ => setAccAt (del' s n) l k (fun x =>
        { x with val := some (x.pas.map (fun p => ((bs.find? (fun b => b.1 == p)).map (·.2)).getD 0)) })
    | _ => s

/-- Release a verified burst: `f` is its BURST flit. -/
def releaseBurst (s : State) (f : Flit) (flits : List (List W64)) : State :=
  let (is, stop) := burstItems flits
  let s := if stop then countPort s f.port 1 else s
  let s := (is.filter (fun i => itemType i == 6)).foldl releaseImage s
  let s := (is.filter (fun i => itemType i == 2)).foldl (releaseData f) s
  let s := releaseColls s f is
  if closed s f then s
  else if is = [] ∧ !stop then releaseMcast s f flits
  else releaseSends (releaseRmos (releaseAtomics (releaseWrites s f is) f is) f is) f is

/-! Bursts (R431, R432). -/

/-- The BURST flit of a staged burst, as it arrived. -/
def burstFlit (b : Burst) : Flit := { port := b.port, src := fieldN (b.hdr.headD 0) 48 10, words := b.hdr }
/-- The data flits that a burst has. -/
def burstCount (b : Burst) : Nat := payField (burstFlit b) 0 3 + 1
def burstFull (b : Burst) : Bool := b.flits.length == burstCount b
def sameBurst (x y : Burst) : Bool :=
  x.port == y.port && fSdev (burstFlit x) == fSdev (burstFlit y) && fTsn (burstFlit x) == fTsn (burstFlit y)
def dropBurst (s : State) (b : Burst) : State := { s with fab := { s.fab with bursts := s.fab.bursts.filter (fun x => !sameBurst x b) } }
def putBurst (s : State) (b : Burst) : State :=
  { s with fab := { s.fab with bursts := s.fab.bursts.map (fun x => if sameBurst x b then b else x) } }

/-- A burst is discarded: its sender is to send it again. -/
def nakBurst (s : State) (b : Burst) : State := reply (dropBurst s b) (fSdev (burstFlit b)) 0x02 (fTsn (burstFlit b)).toNat

/-- A burst whose flits and tag are there is checked, and taken or discarded (R432). -/
def burstReady (s : State) (b : Burst) : State :=
  match b.tag with
  | none => s
  | some (t, _) =>
    if !burstFull b then s
    else if (burstTag b.hdr b.flits) ≠ t.toNat then nakBurst (countPort s b.port 2) b
    else acceptPkt (dropBurst s b) (fSdev (burstFlit b)) (fTsn (burstFlit b)) (fun s => releaseBurst s (burstFlit b) b.flits)

/-- BURST: staging begins while the port's buffer has room (R462). -/
def takeBurst (f : Flit) (s : State) : State :=
  let b : Burst := { port := f.port, hdr := f.words }
  let s := dropBurst s b
  if 64 ≤ (s.fab.bursts.filter (·.port == f.port)).length then s else { s with fab := { s.fab with bursts := s.fab.bursts ++ [b] } }

def execBurst (f : Flit) (s : State) : Host.Outcome State Fault Refusal := .next (onFlit 0x09 f s (takeBurst f))

/-- DATA_FLIT: the flit is staged in the oldest burst of its sender on the port that lacks one. -/
def execDataFlit (f : Flit) (s : State) : Host.Outcome State Fault Refusal :=
  .next (if !portUp s f.port ∨ f.words.length ≠ 64 then s
    else match s.fab.bursts.find? (fun b => b.port = f.port ∧ fSdev (burstFlit b) = f.src ∧ !burstFull b) with
      | none => s
      | some b => let b := { b with flits := b.flits ++ [f.words] }; burstReady (putBurst s b) b)

/-- BTAG: the tag is checked once every flit is there. -/
def takeBtag (f : Flit) (s : State) : State :=
  match s.fab.bursts.find? (fun b => sameBurst b { port := f.port, hdr := f.words }) with
  | none => s
  | some b => let b := { b with tag := some (flitDw f 2, s.cycle) }; burstReady (putBurst s b) b

def execBtag (f : Flit) (s : State) : Host.Outcome State Fault Refusal := .next (onFlit 0x0A f s (takeBtag f))

/-- BURST_TIMEOUT: bursts of a port that miss a flit 1 µs after their BTAG. -/
def execBurstTimeout (port : Nat) (s : State) : Host.Outcome State Fault Refusal :=
  .next ((s.fab.bursts.filter (fun b => b.port == port && !burstFull b && (match b.tag with
    | some (_, t) => decide (t + cycles1us ≤ s.cycle)
    | none => false))).foldl nakBurst s)

/-! Control flits that carry operations (R430, R444, R445, R450). -/

/-- READ: it goes to the home slice of its address. -/
def takeRead (f : Flit) (s : State) : State :=
  let pa := payField f 0 52
  if !local01 pa ∨ 7 < payField f 52 3 then s
  else guestOp s f 1 [(homeSlice pa, .peerRead pa (payField f 52 3) (payField f 55 1 == 1))]

def execRead (f : Flit) (s : State) : Host.Outcome State Fault Refusal := .next (onPacket 0x05 f s (takeRead f))

/-- SEND1: a single-lane 32-bit send. -/
def takeSend1 (f : Flit) (s : State) : State :=
  let cap : W64 := flitDw f 2
  if closed s f then s
  else guestOp s f 1 [(capDest s cap, .send (.cap cap) false false
    [{ lane := payField f 64 5, off := BitVec.ofNat 32 (payField f 69 6), val := BitVec.ofNat 64 (payField f 75 32) }])]

def execSend1 (f : Flit) (s : State) : Host.Outcome State Fault Refusal := .next (onPacket 0x08 f s (takeSend1 f))

/-- The destinations that hold something of a guest's stream. -/
def guestDests (s : State) (src : SrcId) (stream : Nat) : List Nat :=
  ((s.pkts.filter (fun e => e.2.src = src ∧ e.2.stream = stream)).map (·.2.dest) ++
    (s.commits.filter (fun c => c.src = src ∧ c.stream = stream)).map (·.dest)).eraseDups

/-- WMARK: the watermark reaches every destination of the stream here (R444); a late one has no effect. -/
def takeWmark (f : Flit) (s : State) : State :=
  let src := guestSrc (fSdev f) (fSrcn f)
  if fStream f = 0 then s
  else ((guestDests s src (fStream f)) ++ [allDests]).eraseDups.foldl (fun s d => wmAtSlice s { src, dest := d, stream := fStream f, wm := fWm f }) s

def execWmark (f : Flit) (s : State) : Host.Outcome State Fault Refusal := .next (onPacket 0x04 f s (takeWmark f))

/-- A packet of the range that a CLOSE ends. -/
def inClose (f : Flit) (p : Pkt) : Bool :=
  p.src == guestSrc (fSdev f) (fSrcn f) && p.stream == fStream f && seqGe p.seq (BitVec.ofNat 24 (payField f 0 24)) &&
    seqGe (BitVec.ofNat 24 (payField f 24 24)) p.seq

/-- CLOSE: packets of the range that are not performed are discarded, and its last number counts as committed (R450). -/
def takeClose (f : Flit) (s : State) : State :=
  let src := guestSrc (fSdev f) (fSrcn f)
  let last : BitVec 24 := BitVec.ofNat 24 (payField f 24 24)
  let s := { s with pkts := s.pkts.filter (fun e => !inClose f e.2) }
  ((guestDests s src (fStream f)) ++ [allDests]).eraseDups.foldl (fun s d =>
    let s := raiseLast s d src (fStream f) last
    if 1000000 ≤ d then s else drainHeld s.pkts.length s d src (fStream f)) s

/-- A packet of the range that has been committed and is not performed keeps the CLOSE waiting: it is taken, and acknowledged,
only when no operation of the range can be performed after it (R450). The sender sends it again meanwhile (R435). -/
def execClose (f : Flit) (s : State) : Host.Outcome State Fault Refusal :=
  .next (onFlit 0x0B f s (fun s =>
    if s.pkts.any (fun e => inClose f e.2 && pktTaken s e.1 e.2) then s else acceptPkt s (fSdev f) (fTsn f) (takeClose f)))

/-- INVAL: the local copy goes, also one that is on its way; INVACK answers (R445). -/
def takeInval (f : Flit) (s : State) : State :=
  let d := fSdev f
  let a := payField f 7 45 * 128
  let ln := peerPa d a / 128
  let s := dropPeerLines s (· == ln)
  let s := { s with fab := { s.fab with away := s.fab.away.filter (fun e => e.2.kind ≠ .line ln), prefs := s.fab.prefs.filter (fun e => e.1 ≠ ln) } }
  post s d { srcn := fSrcn f, body := .ctl 0x07 a }

def execInval (f : Flit) (s : State) : Host.Outcome State Fault Refusal := .next (onPacket 0x06 f s (takeInval f))

/-- INVACK: a holder has dropped the line; with the last one, writes to it go on (R90, R445). -/
def takeInvack (f : Flit) (s : State) : State :=
  let d := fSdev f
  let ln := payField f 7 45
  match look s.fab.dir ln with
  | none => s
  | some e =>
    let e := { e with devs := e.devs.filter (· ≠ d), waiting := e.waiting.filter (· ≠ d) }
    { s with fab := { s.fab with dir := if e.waiting = [] ∧ (e.bcast ∨ e.devs = []) then del s.fab.dir ln else put s.fab.dir ln e } }

def execInvack (f : Flit) (s : State) : Host.Outcome State Fault Refusal := .next (onPacket 0x07 f s (takeInvack f))

end Sys2Proof.Machine
end

