-- ==== Sys2Proof/Machine/Fabric.lean ====
section
/-! DEFINITION. Operations at other devices: acknowledgement, DONE, and what becomes of them when a device is unreachable
(R435, R437, R442, R444, R446, R449 to R451). -/

namespace Sys2Proof.Machine

/-! ACK (R435, R437, R442, R450, R460). -/

/-- What an acknowledged packet leaves behind. -/
def freed (d : Nat) (s : State) (p : FabPkt) : State :=
  let s := match p.coll with
    | some n => updColl s n (fun k => { k with sent := k.sent.map (· - 1) })
    | none => s
  match p.body with
  | .ctl 0x0C _ => retireAcked s p.srcn.toNat d
  | _ => s

/-- A device can be reached again, once a port of its route is up (R437): one CLOSE for each reported range goes before
everything else to it (R450). -/
def backAgain (s : State) (d : Nat) : State :=
  let x := peerOf s d
  if !x.unreach ∨ !(routePorts (routeOf s d)).any (portUp s) then s
  else
    let s := updPeer s d (fun x => { x with unreach := false, waiting := x.closes ++ x.waiting, closes := [] })
    pushOut ((peerOf s d).waiting.length) s d

/-- ACK: the packet and all up to the receiver's contiguous number are freed; refused packets go again. -/
def takeAckFlit (f : Flit) (s : State) : State :=
  let d := fSdev f
  let tsn : W32 := BitVec.ofNat 32 (payField f 0 32)
  let contig : W32 := BitVec.ofNat 32 (payField f 32 32)
  let done (p : FabPkt) : Bool := p.tsn == tsn || decide ((contig - p.tsn).toNat < 2 ^ 31)
  let x := peerOf s d
  let s := updPeer s d (fun x => { x with retx := x.retx.filter (fun p => !done p) })
  let s := (x.retx.filter done).foldl (freed d) s
  let s := resend (backAgain (heardFrom s d) d) d (·.refused)
  pushOut ((peerOf s d).waiting.length) s d

def execAck (f : Flit) (s : State) : Host.Outcome State Fault Refusal := .next (onFlit 0x01 f s (takeAckFlit f))

/-! DONE (R444, R446). -/

/-- The operation that a DONE answers: the oldest of its source, stream and number at the device. A reply that reports
success answers no line READ, whose reply is its data (log 19). -/
def awayOf (s : State) (f : Flit) : Option (Nat × Away) :=
  match look s.fab.srcns (fSrcn f).toNat with
  | none => none
  | some id => s.fab.away.find? (fun e => e.2.dev == fSdev f && e.2.src == id && e.2.stream == fStream f &&
      e.2.seq == fSeq f && (payField f 70 8 != 0 || (match e.2.kind with
        | .line _ => false
        | _ => true)))

/-- A part of an operation is performed; one that this device carried on for another device's multicast is a part of that. -/
def awayPart (s : State) (a : Away) : State :=
  match a.op with
  | some n => if isGuest a.src then guestPart s n 0 0 0 else performPart s a.src n
  | none => s

/-- A line could not be read: its units count as failed (R239). -/
def lineFailed (s : State) (ln : Nat) : State :=
  { s with fab := { s.fab with copies := (List.range 128).foldl (fun m j => put m (128 * ln + j) 0) s.fab.copies
                               prefs := s.fab.prefs.filter (fun e => e.1 ≠ ln) }
           bad := (List.range 16).foldl (fun m j => put m (16 * ln + j) true) s.bad }

/-- Bytes have been written at another device: their local copies in the L2 are updated (R446), and the L1 of the issuing
core, which owns no word of another device, gives up its copies (log 24). -/
def updateCopies (s : State) (core' : Nat) (bs : List (Nat × Byte)) : State :=
  dropOwn { s with fab := { s.fab with copies := bs.foldl (fun m b => if (look m b.1).isSome then put m b.1 b.2 else m) s.fab.copies } }
    core' (wordsOf (bs.map (·.1)))

/-- A part of an engine's writes at another device is performed. -/
def cmdPart (s : State) (n : Nat) : State := updCmd s n (fun c => { c with left := c.left - 1 })

/-- The compare and swap of a word has come back (log 19): it has succeeded when it found what it expected, and is tried again
with what it found. -/
def takeMerge (s : State) (a : Away) (cmd : Option Nat) (ws : List EngByte) (old : W32) (v : W64) (cause : Nat) : State :=
  let wd := a.addr.toNat / 4
  if cause ≠ 0 ∨ lo v = old then
    let new := mergeWord old ws
    let s := updateCopies s a.core ((List.range 4).map (fun j => (4 * wd + j, new.extractLsb' (8 * j) 8)))
    match cmd with
    | some n => cmdPart s n
    | none => awayPart s a
  else match srcnFor s a.src with
    | none => s
    | some k => postMerge s k a { stream := a.stream, seq := a.seq, wm := markOf s a.src a.stream, body := .ctl 0 0 } cmd wd ws (lo v)

/-- The join block is no longer one that a team's end has to decrement. -/
def popJoin (t : Team) (j : W64) : Team := if t.join = j then { t with join := 0 } else { t with joins := t.joins.erase j }

/-- COUNT of a join block at another device has been compared (R479): a fall from 1 leaves the continuation to queue, a COUNT of 0
is reported, and another value is tried next. -/
def takeLower (s : State) (a : Away) (j old v : W64) (cause : Nat) : State :=
  if cause ≠ 0 ∨ v = old then
    let s := updTeam (dropPeerLines s (· == a.addr.toNat / 128)) a.src.team (fun t =>
      { popJoin t j with contDue := if cause = 0 ∧ old = 1 then some j else t.contDue })
    match team s a.src.team with
    | some t =>
      if cause = 0 ∧ old = 0 then
        hostRecord s t.launch.ctx (hostWords t.launch.ctx 6 3 0xC5 false j (BitVec.ofNat 64 (t.launch.lid * 2 ^ 32 + t.index)) 0)
      else s
    | none => s
  else (postLower s a.src a.addr.toNat j v).getD s

/-- The bytes of a returned value that an access takes. -/
def valueBytes (s : State) (load acc : Nat) (v : W64) : List Byte :=
  match look s.loads load with
  | some op => match op.kind, (op.accs[acc]?).map (·.pas) with
    | .old d, _ => leBytes (if d then 8 else 4) v.toNat
    | _, some pas => leBytes pas.length v.toNat
    | _, none => []
  | none => []

/-- The record of a refused or failed remote-opcode request (R409, R410, R451). -/
def rmoRecord (s : State) (a : Away) (t : RmoTag) (cause detail : Nat) : State :=
  asyncFault s a.src (some t.lane) a.seq a.stream cause detail a.addr (rmoIdent t.num t.lane t.version) t.a01

/-- The physical address of an entry. -/
def awayPa (a : Away) : W64 :=
  match a.kind with
  | .value _ _ (some t) | .request t => BitVec.ofNat 64 t.pa
  | _ => a.addr

/-- A value, or its failure, comes back. -/
def takeValue (s : State) (a : Away) (load acc : Nat) (tag : Option RmoTag) (v : W64) (cause detail : Nat) : State :=
  let bad (s : State) : State := setAccAt s load acc (fun x => { x with bad := some { cause := 0x42, addr := awayPa a } })
  if cause = 0 then let bs := valueBytes s load acc v; setAccAt s load acc (fun x => { x with val := some bs })
  else match tag with
    | none => bad s
    | some t =>
      if cause = 0xA5 then bad s
      else rmoRecord (setAccAt s load acc (fun x => { x with val := some [], keep := true })) a t cause detail

/-- An operation at another device has ended: its reply's value, cause and detail. -/
def endAway (s : State) (a : Away) (v : W64) (cause detail : Nat) : State :=
  match a.kind with
  | .line ln => lineFailed s ln
  | .store bs => awayPart (updateCopies s a.core bs) a
  | .merge cmd ws old => takeMerge s a cmd ws old v cause
  | .value load acc tag => awayPart (takeValue s a load acc tag v cause detail) a
  | .request t => awayPart (if cause = 0 then s else rmoRecord s a t cause detail) a
  | .send cap =>
    awayPart (if cause = 0 then s else asyncFault s a.src (some (lowest (lo v))) a.seq a.stream cause detail 0 cap v) a
  | .mcast m => awayPart (if cause = 0 then s else asyncFault s a.src none a.seq a.stream 0xB7 detail 0 0 (BitVec.ofNat 64 m)) a
  | .engine n => cmdPart s n
  | .raise _ => dropPeerLines s (· == a.addr.toNat / 128)
  | .lower j old => takeLower s a j old v cause
  | .deliver n cap =>
    let s := if cause = 0 then s else asyncFault s a.src (some (lowest (lo v))) a.seq a.stream cause detail 0 cap v
    cmdPart s n

/-- DONE: an operation at another device is performed or refused; its flags are set. -/
def takeDone (f : Flit) (s : State) : State :=
  match awayOf s f with
  | none => s
  | some (n, a) =>
    let s := { s with fab := { s.fab with away := del s.fab.away n } }
    heirs s n (endAway (orTeamFlags s a.src (BitVec.ofNat 64 (payField f 64 6) ||| a.flags)) a (flitDw f 2) (payField f 70 8) (payField f 78 8))

def execDone (f : Flit) (s : State) : Host.Outcome State Fault Refusal :=
  .next (onFlit 0x03 f s (fun s => acceptPkt (heardFrom s (fSdev f)) (fSdev f) (fTsn f) (takeDone f)))

/-! A device becomes unreachable (R437, R449). -/

/-- The device that a packet of this device leaves for, if it leaves. -/
def leavesFor (s : State) (p : Pkt) : Option Nat :=
  if isGuest p.src then none
  else if 4096 ≤ p.dest ∧ p.dest < 1000000 then some ((p.dest - 4096) / 256)
  else if 2 ^ 50 ≤ p.dest ∧ p.dest < 2 ^ 60 ∧ (p.dest - 2 ^ 50) / 16384 ≠ deviceId s then some ((p.dest - 2 ^ 50) / 16384)
  else none

/-- The access of a load that belongs to a lane. -/
def accOf (s : State) (load lane : Nat) : Nat :=
  match look s.loads load with
  | some op => (op.accs.findIdx? (fun a => a.lane = lane)).getD 0
  | none => 0

/-- What a packet is, at the device that it leaves for: an entry for each part (R444). -/
def awaysOf (s : State) (d : Nat) (p : Pkt) : List Away :=
  let a (addr : W64) (k : AwayKind) : Away :=
    { dev := d, src := p.src, op := p.op, stream := p.stream, seq := p.seq, core := p.core, addr, kind := k }
  let pa (n : Nat) : W64 := BitVec.ofNat 64 n
  match p.body with
  | .store ws _ => let bs := ws.flatMap (·.bytes); [a (pa ((bs.map (·.1)).headD 0)) (.store bs)]
  | .ste ws _ _ => [a (pa ((ws.map (·.pa)).headD 0)) (.store [])]
  | .load l accs => (distinctAccs s l accs).map (fun k => a (pa (((((look s.loads l).bind (fun op => op.accs[k]?)).map (·.pas)).getD []).headD 0)) (.value l k none))
  | .atom l _ _ ls => ls.map (fun x => a (pa x.pa) (.value l (accOf s l x.lane) none))
  | .rmo num hdr l rs => rs.map (fun r =>
      let t : RmoTag := { num, version := hdr.version, lane := r.lane, a01 := rmoA01 r.ops, pa := r.pa }
      a r.va (match l with
        | some l => .value l (accOf s l r.lane) (some t)
        | none => .request t))
  | .send (.cap c) _ _ _ => [a c (.send c)]
  | .send _ _ _ _ => [a 0 (.send 0)]
  | .mcast ws _ => [a ((ws.map (·.2.1)).headD 0) (.mcast d)]
  | .cflush _ | .peerRead _ _ _ | .eng _ _ => []

/-- The parts of an operation that its packet counted for, beside those that its entries now count. -/
def splitOp (s : State) (p : Pkt) (parts : Nat) : State :=
  match p.op with
  | none => s
  | some n => updGroup s p.src (fun gr => { gr with ops := upd gr.ops n (fun o => { o with left := o.left + parts - bodyParts p.body }) })

/-- Packets that have not left yet become entries, so that they end with the others. -/
def takePkts (s : State) (d : Nat) : State :=
  (s.pkts.filter (fun e => leavesFor s e.2 == some d)).foldl (fun s e =>
    let xs := awaysOf s d e.2
    if xs = [] then s else xs.foldl addAway (splitOp { s with pkts := del s.pkts e.1 } e.2 xs.length)) s

/-- The first and the last of some sequence numbers. -/
def firstSeq (xs : List (BitVec 24)) : BitVec 24 := xs.foldl (fun m x => if seqGe x m then m else x) (xs.headD 0)
def lastSeq (xs : List (BitVec 24)) : BitVec 24 := xs.foldl seqMax (xs.headD 0)

/-- An entry that belongs to an operation of a source's streams: a read or a copy's write does not, and the delivery of a
collective's result and its writes do (R449). -/
def isStreamOp (s : State) (a : Away) : Bool :=
  let ofColl (n : Nat) : Bool := (((look s.cmds n).bind collOf).isSome)
  match a.kind with
  | .line _ => false
  | .engine n | .merge (some n) _ _ | .deliver n _ => ofColl n
  | _ => a.op.isSome

/-- The operations of a range count as performed for the watermark of their stream (R83). -/
def passRange (s : State) (src : SrcId) (stream : Nat) (a b : BitVec 24) : State :=
  advanceWm (updGroup s src (fun gr => { gr with ops := gr.ops.map (fun e =>
    (e.1, if e.2.stream = stream ∧ seqGe e.2.seq a ∧ seqGe b e.2.seq then { e.2 with passed := true } else e.2)) })) src stream

/-- One record for a range of a stream, and its CLOSE for later (R449, R450). -/
def reportRange (s : State) (d : Nat) (src : SrcId) (stream : Nat) (qs : List (BitVec 24)) : State :=
  let a := firstSeq qs
  let b := lastSeq qs
  let s := passRange s src stream a b
  let s := asyncFault s src none a stream 0xB3 0 0 0 (BitVec.ofNat 64 (b.toNat + d * 2 ^ 24))
  match srcnHas s src with
  | none => s
  | some n => updPeer s d (fun x => { x with closes := x.closes ++
      [{ srcn := BitVec.ofNat 14 n, stream, body := .ctl 0x0B (a.toNat + b.toNat * 2 ^ 24) }] })

/-- The records of a device's lost operations. -/
def reportLost (s : State) (d : Nat) (xs : List Away) : State :=
  let far := xs.filter (fun a => isStreamOp s a && a.stream != 0)
  let s := ((far.map (fun a => (a.src, a.stream))).eraseDups).foldl (fun s k =>
    reportRange s d k.1 k.2 ((far.filter (fun a => a.src == k.1 && a.stream == k.2)).map (·.seq))) s
  let near := xs.filter (fun a => isStreamOp s a && a.stream == 0)
  ((near.map (fun a => (a.src, a.op))).eraseDups).foldl (fun s k =>
    let id := ((near.find? (fun a => a.src == k.1 && a.op == k.2)).map (·.addr)).getD 0
    asyncFault s k.1 none 0 0 0xB3 0 0 id (BitVec.ofNat 64 (d * 2 ^ 24))) s

/-- A value that will not come: its register is marked (R239, R241). -/
def lostAcc (s : State) (load acc : Nat) (addr : W64) : State :=
  setAccAt s load acc (fun x => { x with bad := some { cause := 0xB4, addr } })

/-- The chunks that a copy has written when a write of the last of them is lost (R337). -/
def lostExtra (c : Cmd) : W64 :=
  match c.body with
  | .copy q => BitVec.ofNat 64 (q.chunk - 1)
  | _ => 0

/-- What a lost operation leaves: it counts as performed (R83). -/
def endLost (s : State) (a : Away) : State :=
  match a.kind with
  | .line _ | .raise _ => s
  | .lower j _ => updTeam s a.src.team (fun t => popJoin t j)
  | .value load acc _ => awayPart (lostAcc s load acc (awayPa a)) a
  | .merge none _ _ => awayPart s a
  | .engine n | .merge (some n) _ _ | .deliver n _ => updCmd s n (fun c =>
      let f : CmdFault := { cause := (lostCause c).1, detail := (lostCause c).2, addr := a.addr, extra := lostExtra c }
      { c with left := c.left - 1, fault := if isStreamOp s a then c.fault else some (c.fault.getD f) })
  | _ => awayPart s a

/-- Weak loads that wait for lines of the device end with marks too. -/
def loseLoads (s : State) (d : Nat) : State :=
  let gone (p : Nat) : Bool := tierOf p == some 3 && peerDev p == d && (look s.fab.copies p).isNone
  let mark (a : LoadAcc) : LoadAcc :=
    if a.val.isSome ∨ a.bad.isSome then a
    else match (a.pas ++ a.scale.toList).find? gone with
      | some p => { a with bad := some { cause := 0xB4, addr := BitVec.ofNat 64 p } }
      | none => a
  { s with loads := s.loads.map (fun e => (e.1, if e.2.strong then e.2 else { e.2 with accs := e.2.accs.map mark })) }

/-- The collectives of which a device is a neighbour end (R461). -/
def loseColls (s : State) (d : Nat) : State :=
  (s.cmds.filter (fun e => match collOf e.2 with
    | some k => ((treeOf s k.tree).map (fun te => (treeNear te).contains d)).getD false
    | none => false)).foldl (fun s e => collAbort s e.1 1) s

/-- A device becomes unreachable: every outstanding operation to it ends (R449). -/
def goUnreachable (s : State) (d : Nat) : State :=
  let s := updPeer s d (fun x => { x with unreach := true })
  let s := takePkts s d
  let xs := (s.fab.away.filter (fun e => e.2.dev == d)).map (·.2)
  let s := { s with fab := { s.fab with away := s.fab.away.filter (fun e => e.2.dev != d)
                                        prefs := s.fab.prefs.filter (fun e => peerDev (128 * e.1) != d) } }
  let s := xs.foldl endLost (reportLost s d xs)
  loseColls (loseLoads s d) d

/-- The moment of R437 has come: 20 µs without an answer, or every port of the route is down. -/
def unreachableNow (s : State) (d : Nat) : Bool :=
  let x := peerOf s d
  !x.unreach && isMember s d && d != deviceId s &&
    (!(routePorts (routeOf s d)).any (portUp s) || (match x.quiet with
      | some t => !x.retx.isEmpty && decide (t + cycles20us ≤ s.cycle)
      | none => false))

def execUnreachableTimeout (d : Nat) (s : State) : Host.Outcome State Fault Refusal :=
  .next (if unreachableNow s d then goUnreachable s d else s)

/-- LOSS_OF_SIGNAL: a wavelength fails; devices whose every port is down by it are unreachable (R427, R437). -/
def lossOfSignal (s : State) (port wave : Nat) : State :=
  let s := { s with fab := { s.fab with ports := set 0 s.fab.ports port (get 0 s.fab.ports port &&& ~~~(1#32 <<< wave)) } }
  ((List.range 1024).filter (fun d => unreachableNow s d && !(routePorts (routeOf s d)).any (portUp s))).foldl goUnreachable s

def execLossOfSignal (port wave : Nat) (s : State) : Host.Outcome State Fault Refusal := .next (lossOfSignal s port wave)

end Sys2Proof.Machine
end

