-- ==== Sys2Proof/Machine/FabOut.lean ====
section
/-! DEFINITION. Operations that leave the device, as flits (R430, R431, R433, R444, R445), and `MCAST` (R452, R465). -/

namespace Sys2Proof.Machine

/-! Packets that leave (R444). -/

/-- The header of a packet's flits: the source's watermark as it stands (R428). -/
def outHead (s : State) (p : Pkt) (k : Nat) (body : FabBody) : FabPkt :=
  { srcn := BitVec.ofNat 14 k, stream := p.stream, sd := p.flag, seq := p.seq, wm := if p.stream = 0 then 0 else currentWm s p, body }

/-- The bits that an element store of another device writes, and its flags (R248): the scale of the block is that of the local
copy of its line, and a nibble is written alone (log 19). -/
def farElem (s : State) (rm : BitVec 2) (ftz : Bool) (x : SteLane) : List EngByte × W64 :=
  let (bs, f) := steBytes s x rm ftz
  let mask : Byte := match x.el with
    | .e => 0xFF
    | .lo => 0x0F
    | .hi => 0xF0
  (bs.map (fun b => { pa := b.1, val := b.2, mask }), f)

/-- The scales that an element store must know beforehand. -/
def elemNeeds (xs : List SteLane) : List Nat := xs.flatMap (fun x => x.scale.toList)

/-- The entry of a packet's writes at another device. -/
def storeAway (d : Nat) (p : Pkt) (flags : W64) : Away :=
  { dev := d, src := p.src, op := p.op, stream := p.stream, seq := p.seq, core := p.core, addr := 0, kind := .store [], flags }

/-- The packet leaves as writes, those of each word of sub-byte elements for themselves, with the flags that their DONE sets. -/
def sendElems (s : State) (n d : Nat) (p : Pkt) (es : List (List EngByte × W64)) : State :=
  let words (e : List EngByte × W64) : Nat := ((e.1.map (·.pa)).headD 0) / 4
  let part (e : List EngByte × W64) : Bool := e.1.any (·.mask != 0xFF)
  let whole := es.filter (fun e => !part e)
  let groups := (if whole = [] then [] else [whole]) ++
    (((es.filter part).map words).eraseDups).map (fun wd => (es.filter part).filter (fun e => words e == wd))
  let r := groups.foldl (fun (r : Option (Nat × State)) g => r.bind (fun x =>
    (sendEngine x.2 (storeAway d p (g.foldl (fun f e => f ||| e.2) 0)) (outHead s p 0 (.ctl 0 0)) none .store (g.flatMap (·.1))).map
      (fun y => (x.1 + y.1, y.2)))) (some (0, { s with pkts := del s.pkts n }))
  match r with
  | none => s
  | some (k, s) => splitOp s p k

/-- The packet leaves as writes of bytes. -/
def sendStore (s : State) (n d : Nat) (p : Pkt) (bs : List (Nat × Byte)) : State :=
  sendElems s n d p [(bs.map (fun b => { pa := b.1, val := b.2 }), 0)]

/-- A packet leaves as one burst, or one flit, with its entries. -/
def sendBody (s : State) (n d : Nat) (p : Pkt) (body : FabBody) : State :=
  match srcnFor s p.src with
  | none => s
  | some k =>
    let xs := awaysOf s d p
    let s' := splitOp { s with pkts := del s.pkts n } p xs.length
    post (xs.foldl addAway (useSrcn s' p.src k d p.stream)) d (outHead s p k body)

/-- The READs of a strong load (R445). -/
def sendReads (s : State) (n d : Nat) (p : Pkt) : State :=
  match srcnFor s p.src with
  | none => s
  | some k =>
    (awaysOf s d p).foldl (fun s a =>
      let size := match a.kind with
        | .value l j _ => (((look s.loads l).bind (fun op => op.accs[j]?)).map (fun x => x.pas.length)).getD 1
        | _ => 1
      post (addAway s a) d (outHead s p k (.ctl 0x05 (peerAddr a.addr.toNat + Nat.log2 size * 2 ^ 52 + 2 ^ 55))))
      (useSrcn { s with pkts := del s.pkts n } p.src k d 0)

/-- The send items of a packet: at most 31 pairs, or 62 words, in a data flit (R433). -/
def sendItems (cap : W64) (d : Bool) (ls : List SendLane) : List (List W64) := (pieces (if d then 31 else 62) ls).map (sendItem cap d)

/-- A send leaves: SEND1 for a single 32-bit lane. -/
def sendBodyOf (cap : W64) (d : Bool) (ls : List SendLane) : FabBody :=
  match ls with
  | [x] => if d then .burst (packFlits [] (sendItems cap d ls))
    else .ctl 0x08 (cap.toNat + x.lane * 2 ^ 64 + x.off.toNat % 64 * 2 ^ 69 + (lo x.val).toNat * 2 ^ 75)
  | ls => .burst (packFlits [] (sendItems cap d ls))

/-- A packet of this device that goes to another one leaves it. -/
def fabricSend (s : State) (n d : Nat) (p : Pkt) : State :=
  if waitsAfter s p then s
  else if (match p.body with
    | .cflush _ => false
    | _ => !reachable s d) then goUnreachable s d
  else match p.body with
    | .cflush lines => flushLines s n p lines
    | .store ws _ => sendStore s n d p (ws.flatMap (·.bytes))
    | .ste ws rm ftz =>
      if linesMissing s (elemNeeds ws) ≠ [] then askLines s p.src p.core (linesMissing s (elemNeeds ws))
      else sendElems s n d p (ws.map (farElem s rm ftz))
    | .load _ _ => sendReads s n d p
    | .atom _ op w ls =>
      sendBody s n d p (.burst (packFlits [] (ls.map (fun x => requestItem x.pa (requestDw true op.ctorIdx w x.lane 0 0) x.operand x.cmp))))
    | .rmo num hdr _ rs =>
      sendBody s n d p (.burst (packFlits [] (rs.map (fun r => requestItem r.pa (requestDw false 0 false r.lane num hdr.version)
        (rmoA01 r.ops) (pair64 (r.ops.getD 2 0) (r.ops.getD 3 0))))))
    | .send (.cap c) w _ ls => sendBody s n d p (sendBodyOf c w ls)
    | .mcast _ _ => sendBody s n d p (.burst (Config.mcastFlits s.fresh d))
    | .send _ _ _ _ | .peerRead _ _ _ | .eng _ _ => s

/-- The flit of a watermark message to another device (R78, R444). -/
def sendWmark (s : State) (d : Nat) (m : WmMsg) : State :=
  match srcnHas s m.src with
  | none => s
  | some k => post s d { srcn := BitVec.ofNat 14 k, stream := m.stream, wm := m.wm, body := .ctl 0x04 0 }

/-! MCAST (R452, R465). -/

/-- The members of a set. -/
def setOf (s : State) (n : Nat) : Option (List Nat) := s.fab.table.bind (fun t => t.sets[n]?)

/-- The checks of the set (R443, R465). -/
def setCheck (s : State) (c : Ctx) (n : Nat) : Except Stop Unit :=
  match s.fab.table with
  | none => .error (.trap 0xB1 1 c.act 0)
  | some t => match t.sets[n]? with
    | none => .error (.trap 0xB0 1 c.act 0)
    | some ds => match ds.findSome? (peerFault s) with
      | some (cause, detail) => .error (.trap cause detail c.act 0)
      | none => .ok ()

def execMcast (w : FWord) (d : Bool) (os : BitVec 3) (s : State) : Host.Outcome State Fault Refusal :=
  let i := Instr.mcast w d os
  let va (c : Ctx) (l : Nat) : W64 := (laneIn i w s c l).a
  let set' (c : Ctx) : Nat := (lo (laneIn i w s c (lowest c.act)).b).toNat
  runEff i w
    (fun c => do
      setCheck s c (set' c)
      stage c (va c) (fun l => if nonCanonical (va c l) then some (0x41, 1) else none)
      stage c (va c) (fun l => if inScratch (va c l) then some (0xB0, 7) else none)
      stage c (va c) (fun l => alignFault (if d then 8 else 4) (va c l))
      storeWait s c false
      streamWait c os.toNat)
    noOut
    (fun c s' =>
      let ws := (lanesOf c.act).map (fun l => (l, va c l, if d then (laneIn i w s c l).c else zx (lo (laneIn i w s c l).c)))
      sendOp s' c { kind := .mcast, stream := os.toNat, seq := 0, ord := c.gr.ord, lanes := c.act, left := 0 }
        (((setOf s (set' c)).getD []).map (fun m => (if m = deviceId s then mcastHere else destDev m 0, .mcast ws d)))) s

/-- A multicast's packet as an engine command sees it: its requester is the packet's number. -/
def mcastCmd (p : Pkt) : Cmd :=
  let q : CollCmd := { inst := 0, tree := 0, op := 0, dkind := 0, src := 0, cstride := 0, c := 0, nel := 0, res := 0, cap := 0 }
  { src := p.src, lane := 0, core := p.core, ctx := p.ctx, stream := p.stream, seq := p.seq, body := .coll q }

/-- This member refuses its writes; they count as performed (R452). -/
def mcastRefuse (s : State) (n : Nat) (p : Pkt) (detail : Nat) : State :=
  let s := { s with pkts := del s.pkts n }
  match p.op with
  | none => s
  | some o =>
    if isGuest p.src then guestPart s o 0 0xB7 detail
    else performPart (asyncFault s p.src none p.seq p.stream 0xB7 detail 0 0 (BitVec.ofNat 64 (deviceId s))) p.src o

/-- The writes of a multicast at this member, in lane order. -/
def mcastWrites (s : State) (n : Nat) (p : Pkt) (ws : List (Nat × W64 × W64)) (d : Bool) : Except EngStop (List EngByte) := do
  let k := if d then 8 else 4
  let ls ← ws.mapM (fun x => do
    let locs ← engBytes s n (mcastCmd p) .engWrite x.2.1 k
    pure ((locs.filter (fun l => !isScr l)).zip (leBytes k x.2.2.toNat) |>.map (fun b => engByteOf (b.1, { pa := 0, val := b.2 }))))
  pure ls.flatten

/-- The watermark of a multicast's source, as this member knows it. -/
def mcastWm (s : State) (p : Pkt) : BitVec 24 :=
  if isGuest p.src then wmMax (commitOf s allDests p.src p.stream).wm (seenWm s p) else currentWm s p

/-- The parts of a multicast's packet in the place of the one that its operation counted for it. -/
def mcastParts (s : State) (p : Pkt) (parts : Nat) : State :=
  match p.op with
  | none => s
  | some o =>
    if isGuest p.src then { s with fab := { s.fab with guests := upd s.fab.guests o (fun g => { g with left := g.left + parts - 1 }) } }
    else splitOp s p parts

/-- A member's writes go to their home slices, one packet for each, and those that its pages put on another device go there
once the operations before them are performed. -/
def mcastSplit (s : State) (n : Nat) (p : Pkt) (bs : List EngByte) : State :=
  let far := bs.filter (fun b => tierOf b.pa == some 3)
  let near := bs.filter (fun b => tierOf b.pa != some 3)
  let wm := mcastWm s p
  if far ≠ [] ∧ ((srcnFor s p.src).isNone ∨ !(p.stream == 0 || seqGe wm (p.seq - 1))) then s
  else
    let ds := (near.map (fun b => homeSlice b.pa)).eraseDups
    let s' := ds.foldl (fun s d =>
      let (k, s) := newId s
      { s with pkts := put s.pkts k { p with dest := d, wm, held := false, body := .eng none (near.filter (fun b => homeSlice b.pa == d)) } })
      { s with pkts := del s.pkts n }
    let (k, s') := ((far.map (fun b => peerDev b.pa)).eraseDups).foldl (fun (r : Nat × State) dv =>
      match sendEngine r.2 { storeAway dv p 0 with stream := 0, seq := 0 } { body := .ctl 0 0 } none .store (far.filter (fun b => peerDev b.pa == dv)) with
      | none => r
      | some (j, s) => (r.1 + j, s)) (ds.length, s')
    mcastParts s' p k

/-- A multicast's packet at this member: it translates after the issue, and a context that does not exist, or a translation
that the host declines, refuses its writes (R452). -/
def mcastLocal (s : State) (n : Nat) (p : Pkt) (ws : List (Nat × W64 × W64)) (d : Bool) : State :=
  if !(read64 s (ctxEntry s p.ctx)).getLsbD 63 then mcastRefuse s n p 2
  else match mcastWrites s n p ws d with
    | .error e => engStop s n (mcastCmd p) e (fun _ => mcastRefuse s n p 1)
    | .ok bs => mcastSplit s n p bs

end Sys2Proof.Machine
end

