-- ==== Sys2Proof/Machine/Arrive.lean ====
section
/-! DEFINITION. Stratus: its regions (R20 to R23), and the arrival of packets and watermark messages (R18, R19, R77, R78, R444). -/

namespace Sys2Proof.Machine

/-! Regions (R20 to R23). -/

def region (s : State) (r : Nat) : Region := (look s.regions r).getD {}
def updRegion (s : State) (r : Nat) (f : Region → Region) : State := { s with regions := put s.regions r (f (region s r)) }

/-- The frequency of a level in MHz (R21). -/
def levelMhz (l : Nat) : Nat := [625, 750, 875, 1000, 1250, 1500, 1750, 2000].getD l 1250
/-- Core cycles, of 1,750 MHz, in which n cycles of a region pass. -/
def regionCycles (r : Region) (n : Nat) : Nat := (n * 1750 + levelMhz r.level - 1) / levelMhz r.level

/-- The leaf of a core or a slice among those of all dies, 17 to a die (R17). -/
def coreLeaf (c : Nat) : Nat := 17 * (c / 144) + c % 144 / 9
/-- The leaf of a destination: slices and gateways have one, the bridges of a die leaf 16. -/
def destLeaf (s : State) (dest : Nat) : Option Nat :=
  if dest < 256 then some (17 * (dest / 64) + dest % 64 / 4)
  else if 1000000 ≤ dest ∧ dest < 2 ^ 48 then (team s ((dest - 1000000) / 64)).map (fun t => coreLeaf t.core)
  else none
/-- The region of a leaf (R20). -/
def leafRegion (l : Nat) : Nat := 5 * (l / 17) + l % 17 / 4
/-- The spine switches of a leaf's die: region 4. -/
def spineRegion (l : Nat) : Nat := 5 * (l / 17) + 4

/-- The regions through which a packet goes from one leaf to another (R17, R18): only its own within a leaf, else both ends
and the spines of their dies. A packet without a leaf of its own at an end crosses a bridge there. -/
def pathOf (a b : Option Nat) : List Nat :=
  match a, b with
  | some x, some y => if x = y then [leafRegion x] else [leafRegion x, spineRegion x, spineRegion y, leafRegion y].eraseDups
  | some x, none | none, some x => [leafRegion x, spineRegion x]
  | none, none => []

/-- A `SENDN` goes over its link to a group on the link's core, and not over Stratus (R301, R302). -/
def byLink (s : State) (p : Pkt) : Bool :=
  match p.body with
  | .send (.port k _ _) _ _ _ => !decide (1000000 ≤ p.dest ∧ p.dest < 2 ^ 48) ||
      (match team s ((p.dest - 1000000) / 64) with
      | some t => t.core == k && t.status != .saved
      | none => true)
  | _ => false

/-- The regions through which a packet goes, and a watermark message. -/
def pktPath (s : State) (p : Pkt) : List Nat :=
  if byLink s p then []
  else
    let from? : Option Nat := if isGuest p.src then none
      else match p.body with
        | .send (.port k _ _) _ _ _ => some (coreLeaf k)
        | _ => some (coreLeaf p.core)
    pathOf from? (destLeaf s p.dest)
def wmPath (s : State) (m : WmMsg) : List Nat := pathOf ((team s m.src.team).map (fun t => coreLeaf t.core)) (destLeaf s m.dest)

/-- The switches of some regions forward flits. -/
def regionsUp (s : State) (rs : List Nat) : Bool := rs.all (fun r => !(region s r).down && (region s r).wake.isNone)

/-- Something is on its way through a region. -/
def regionTraffic (s : State) (r : Nat) : Bool :=
  s.pkts.any (fun e => !e.2.held && !pktTaken s e.1 e.2 && !waitsAfter s e.2 && (pktPath s e.2).contains r) ||
    s.wms.any (fun e => (wmPath s e.2).contains r)

/-- REGION_GOVERNOR_WINDOW: at the end of 1,024 region cycles the level follows the mean occupancy, in percent (R21). While a
region is down it has no window: DESIGN CHOICE, the spec does not say whether its governor goes on (log 26). -/
def execRegionGovernorWindow (r occupancy : Nat) (s : State) : Host.Outcome State Fault Refusal :=
  .next (
    let x := region s r
    if x.down ∨ s.cycle < x.windowAt + regionCycles x 1024 then s
    else updRegion s r (fun x => { x with windowAt := s.cycle
                                          level := if 75 < occupancy then min 7 (x.level + 1) else if occupancy < 25 then x.level - 1 else x.level }))

/-- A border FIFO of a region holds a flit: one that is on its way through the region may have come so far, a free choice. -/
def fifoHolds (s : State) (r : Nat) : Bool := regionTraffic s r && Config.choice s.fresh 0 % 2 == 0

/-- REGION_POWER_DOWN: after 8,192 region cycles without a flit, with empty border FIFOs (R22, R23). -/
def execRegionPowerDown (r : Nat) (s : State) : Host.Outcome State Fault Refusal :=
  .next (
    let x := region s r
    if x.down ∨ x.wake.isSome ∨ s.cycle < x.idleSince + regionCycles x 8192 ∨ fifoHolds s r then s
    else updRegion s r (fun x => { x with down := true, downAt := s.cycle }))

/-- The region cycle in which a core cycle falls. -/
def regionCycle (x : Region) (t : Nat) : Nat := t * levelMhz x.level / 1750

/-- REGION_WAKE: a flit arrives at a border FIFO of a region that is down: it is accepted 64 region cycles later, or 6 if the
region went down in this region cycle (R22, R23). -/
def execRegionWake (r : Nat) (s : State) : Host.Outcome State Fault Refusal :=
  .next (
    let x := region s r
    if !x.down ∨ !regionTraffic s r then s
    else updRegion s r (fun x => { x with down := false, idleSince := s.cycle
                                          wake := some (s.cycle + regionCycles x (if regionCycle x x.downAt = regionCycle x s.cycle then 6 else 64)) }))

/-- REGION_WAKE_ACCEPT: the region accepts the flit. -/
def execRegionWakeAccept (r : Nat) (s : State) : Host.Outcome State Fault Refusal :=
  .next (match (region s r).wake with
    | some t => if t ≤ s.cycle then updRegion s r (fun x => { x with wake := none, idleSince := s.cycle }) else s
    | none => s)

/-- A flit has passed through some regions. -/
def passRegions (s : State) (rs : List Nat) : State := rs.foldl (fun s r => updRegion s r (fun x => { x with idleSince := s.cycle })) s

/-! Arrival. -/

/-- A packet arrives: at the slice or unit, at a gateway, at the fabric engine for another device, or as this member's part
of a multicast; one that its slice holds is looked at again. -/
def arrivePkt (s : State) (n : Nat) (p : Pkt) : State :=
  if p.held then
    match p.body with
    | .send _ _ _ _ => s
    | _ => arriveSlice s n p
  else if pktTaken s n p || waitsAfter s p || !regionsUp s (pktPath s p) then s
  else
    let s := passRegions s (pktPath s p)
    match leavesFor s p with
    | some d => heirs s n (fabricSend s n d p)
    | none => match p.body with
      | .mcast ws d => mcastLocal s n p ws d
      | .send _ _ _ _ => arriveGateway s n p
      | _ => arriveSlice s n p

def execPacketArrival (n : Nat) (s : State) : Host.Outcome State Fault Refusal :=
  .next (match look s.pkts n with
    | none => s
    | some p => arrivePkt s n p)

/-- A watermark message reaches its destination, here or through the fabric (R77, R78, R444). -/
def arriveWm (s : State) (n : Nat) (m : WmMsg) : State :=
  if 4096 ≤ m.dest ∧ m.dest < 1000000 then sendWmark { s with wms := del s.wms n } ((m.dest - 4096) / 256) m
  else if 2 ^ 50 ≤ m.dest ∧ (m.dest - 2 ^ 50) / 16384 ≠ deviceId s then sendWmark { s with wms := del s.wms n } ((m.dest - 2 ^ 50) / 16384) m
  else if regionsUp s (wmPath s m) then wmAtSlice (passRegions { s with wms := del s.wms n } (wmPath s m)) m
  else s

def execWatermarkMessage (n : Nat) (s : State) : Host.Outcome State Fault Refusal :=
  .next (match look s.wms n with
    | none => s
    | some m => arriveWm s n m)

end Sys2Proof.Machine
end

