-- ==== Sys2Proof/Machine/Fetch.lean ====
section
/-! DEFINITION. Instruction fetch and the instruction cache of a core (R509, R530). -/

namespace Sys2Proof.Machine

/-- The word address of a PC. -/
def wordOf (pc : W64) : W64 := pc &&& ~~~7#64

/-- The key of a word in an instruction cache: its context and address. -/
def icKey (ctx : Nat) (pc : W64) : Nat := ctx * 2 ^ 57 + pc.toNat / 8

/-- What a fetch gives: a word, a precise fault at the PC, an uncorrectable unit, a walk to wait for, or a peer line to wait for. -/
inductive FetchRes where
  | word (w : W64)
  | bad (cause detail : Nat)
  | data (addr : W64)
  | walk
  | lines (lns : List Nat)
  deriving DecidableEq, Repr

/-- Fetch the word of a PC (R509, R530): from the core's instruction cache, else read at its home slice. An uncorrectable unit
of the word is met as any reader of R239 meets it (log 26). -/
def fetch (s : State) (c ctx : Nat) (id : SrcId) (pc : W64) : FetchRes :=
  match look (core s c).icache (icKey ctx pc) with
  | some w => .word w
  | none =>
    if pc >>> 57 != 0 then .bad 0x41 1
    else match translate s c ctx .fetch (.src id) (wordOf pc) with
      | .walk => .walk
      | .bad cause detail => .bad cause detail
      | .ok pa _ =>
        if linesMissing s [pa] ≠ [] then .lines (linesMissing s [pa])
        else if (look s.bad (pa / 8)).isSome then .data (BitVec.ofNat 64 (pa / 8 * 8))
        else .word (BitVec.ofNat 64 (leNat ((List.range 8).map (fun k => homeByte s (pa + k)))))

/-- The words that an instruction cache holds: 64 KiB (R1). -/
def icWords : Nat := 8192

/-- The n-th entry of an instruction cache leaves it; its value is one that later fetches of the word may still give (R530). -/
def giveUp (k : CoreSt) (n : Nat) : CoreSt :=
  match k.icache[n]? with
  | some e => { k with icache := k.icache.eraseIdx n, icPast := put k.icPast e.1 (e.2 :: get [] k.icPast e.1) }
  | none => k

/-- The instruction cache after a fetch: a full one gives up a word of no stated choice. -/
def cacheWord (s : State) (c ctx : Nat) (pc w : W64) : State :=
  updCore s c (fun k =>
    let k := if k.icache.length < icWords ∨ (look k.icache (icKey ctx pc)).isSome then k
      else giveUp k (Config.choice s.fresh (icKey ctx pc) % icWords)
    { k with icache := put k.icache (icKey ctx pc) w })

/-- The free choice of R530 for the next fetches of a word (log 26): the cache gives the word up, so that they read it again, or
they give a value that the core has fetched since its cache was discarded. -/
def recode (c key : Nat) (past : Option Nat) (s : State) : State :=
  updCore s c (fun k =>
    match past with
    | none => giveUp k (k.icache.findIdx (fun e => e.1 == key))
    | some n => match (get [] k.icPast key)[n]? with
      | some w => { k with icache := put k.icache key w, icPast := put k.icPast key ((look k.icache key).toList ++ get [] k.icPast key) }
      | none => k)

/-- The word that a PC of a source runs; a D-form slot runs its dictionary entry (R109). -/
def wordAt (s : State) (id : SrcId) (t : Team) (pc : W64) : Option Instr :=
  match fetch s t.core t.launch.ctx id pc with
  | .word w => match decode (isLead id) (pc &&& 3).toNat w with
    | .ok (.dFormSlot c0 c1 c2) =>
      let c := ([some c0, c1, c2].getD (pc &&& 3).toNat none).getD c0
      (decodeEntry c.off (get 0x8000000000000000 t.dict c.index.toNat)).toOption
    | .ok i => some i
    | .error _ => none
  | _ => none

end Sys2Proof.Machine
end

