-- ==== Sys2Proof/Machine/Async.lean ====
section
/-! DEFINITION. The asynchronous fault ring: arrival and delivery of records (R49 to R53, R264). -/

namespace Sys2Proof.Machine

/-- The group to which a record of a team that cannot reach its issuer goes (R52): the lowest-numbered live group. -/
def lowestLive (t : Team) : Option Nat := (liveGroups t).head?

/-- Whether the source of a record still lives. -/
def issuerLives (t : Team) (g : Nat) : Bool := ((look t.groups g).map (fun gr => decide (gr.live ≠ 0))).getD false

/-- The issuing source of a record's first doubleword: a group number, or 32 for the lead (R49). -/
def recIssuer (w : W64) : Nat := if w.getLsbD 49 then 32 else fieldN w 44 5

/-- FAULT_RING_OVERFLOW stands for no group (R53). -/
def isOverflow (w : W64) : Bool := fieldN w 0 8 == 0x1F

/-- Where a record is delivered: its issuer, else the lowest live group (R50, R52, R53, R264). -/
def recTarget (t : Team) (r : RingRec) : Option Nat :=
  let w := r.words.headD 0
  if !isOverflow w && issuerLives t (recIssuer w) then some (recIssuer w) else lowestLive t

/-- A record that no group can take goes to the host fault queue, and its launch is faulted (R52). -/
def recToHost (s : State) (o : Origin) (r : RingRec) : State :=
  let w := r.words.headD 0
  let s := faultLaunch s o (fieldN w 0 8) (fieldN w 8 8)
  hostRecord s o.ctx (hostWords o.ctx 7 (fieldN w 8 8) (fieldN w 0 8) false (r.words.getD 1 0)
    (BitVec.ofNat 64 (o.lid * 2 ^ 32 + o.index)) (r.words.getD 3 0))

/-- A record reaches its team's ring (R49, R53). -/
def ringPut (t : Team) (r : RingRec) : Team :=
  if t.ring.length < 32 then { t with ring := t.ring ++ [r] } else { t with lost := min 0xFFFF (t.lost + 1) }

/-- A record arrives; that of a team which has ended goes to the host (R52). -/
def recArrive (s : State) (n : Nat) (m : RecMsg) : State :=
  let s := { s with recs := del s.recs n }
  let r : RingRec := { words := m.words, lane := m.lane }
  match team s m.team, m.origin with
  | some t, _ => if (recTarget t r).isNone then recToHost s (originOf t) r else updTeam s m.team (ringPut · r)
  | none, some o => recToHost s o r
  | none, none => s

def execFaultRecordArrival (n : Nat) (s : State) : Host.Outcome State Fault Refusal :=
  .next (match look s.recs n with
    | none => s
    | some m => recArrive s n m)

/-- A record leaves the ring; the room takes an overflow record while records were lost (R53). -/
def ringTake (t : Team) (k : Nat) : Team :=
  let t := { t with ring := t.ring.eraseIdx k }
  if t.lost = 0 then t
  else { t with ring := t.ring ++ [{ words := [recHead false 0 0 0 0 0x1F, 0, 0, BitVec.ofNat 64 t.lost] }], lost := 0 }

/-- A lane waits at a barrier or at its `RTT`, where no record breaks its wait (R51). -/
def unbroken : LaneWait → Bool
  | .bar _ _ _ | .pbar _ _ | .held _ _ _ | .rtt => true
  | .vgrow _ _ _ | .timer _ _ => false

/-- Some lane waits at an `ACQ` or a `REL`, which no record breaks (R251). -/
def atFence (s : State) (t : Team) (id : SrcId) (gr : Group) : Bool :=
  (lanesOf gr.live).any (fun l => (look gr.wait l).isNone && (match wordAt s id t (pcOf gr l) with
    | some (.acq w) => (predLanes gr w (oneLane l)) != 0 && !(srcLoads s id).isEmpty
    | some (.rel w) => (predLanes gr w (oneLane l)) != 0 && !relDone gr
    | _ => false))

/-- A source can take a record now: it is not in its routine, some live lane is at an instruction boundary, and it waits
neither inside a word that it has begun, a `DICTLD` (R271) among them, nor at a fence (R251). -/
def canDeliver (s : State) (t : Team) (id : SrcId) (gr : Group) : Bool :=
  !gr.inTrap && t.status == .resident && (lanesOf gr.live).any (fun l => !((look gr.wait l).map unbroken).getD false) &&
    !insideWord s id gr && !(isLead id && t.dictBusy.isSome) && !atFence s t id gr

/-- The record's lane, where it is one of the issuer's live lanes (R50). -/
def recLane (t : Team) (id : SrcId) (gr : Group) (r : RingRec) : Option Nat :=
  let w := r.words.headD 0
  if isLead id ∨ isOverflow w ∨ recIssuer w ≠ id.g ∨ !issuerLives t id.g then none
  else r.lane.bind (fun l => if gr.live.getLsbD l then some l else none)

/-- The first doubleword of a record as it is delivered: an overflow record names the group that takes it (R53). -/
def deliveredWords (id : SrcId) (r : RingRec) : List W64 :=
  if isOverflow (r.words.headD 0) then recHead false id.g 0 0 0 0x1F :: r.words.drop 1 else r.words

/-- Deliver the k-th record of the ring to a source (R50, R264). -/
def deliver (s : State) (id : SrcId) (t : Team) (gr : Group) (k : Nat) (r : RingRec) : State :=
  let s := updTeam s id.team (ringTake · k)
  let w := r.words.headD 0
  let gr' := discardChain gr
  let lanes : Mask := match recLane t id gr r with
    | some l => oneLane l
    | none => 0
  let tpc := if isLead id ∧ recIssuer w = 32 then pcOf gr' 0 else if lanes = 0 then 0 else pcOf gr' (lowest lanes)
  enterTrapWith s id true (fieldN w 0 8) (fieldN w 8 8) lanes tpc (r.words.getD 2 0) (deliveredWords id r)

/-- ASYNC_FAULT_DELIVERY: the first record of the ring that goes to the source is delivered; a record that nobody can
take goes to the host. -/
def asyncDeliver (s : State) (tm g : Nat) : State :=
  match team s tm with
  | none => s
  | some t =>
    let rs := (List.range t.ring.length).zip t.ring
    match rs.find? (fun e => (recTarget t e.2).isNone) with
    | some (k, r) => recToHost (updTeam s tm (ringTake · k)) (originOf t) r
    | none =>
      match rs.find? (fun e => recTarget t e.2 = some g), look t.groups g with
      | some (k, r), some gr => if canDeliver s t ⟨tm, g⟩ gr then deliver s ⟨tm, g⟩ t gr k r else s
      | _, _ => s

def execAsyncFaultDelivery (tm g : Nat) (s : State) : Host.Outcome State Fault Refusal := .next (asyncDeliver s tm g)

end Sys2Proof.Machine
end

