-- ==== Sys2Proof/Machine/Sweep.lean ====
section
/-! DEFINITION. Sweeps: the word, the translation of the ranges with their flush, the channel trees and completion (R415 to
R424). -/

namespace Sys2Proof.Machine

/-- The bytes of an element (R415). -/
def sweepElem (op : Nat) : Nat := if op = 3 then 8 else 4
/-- The bytes of the result (R421). -/
def sweepRes (op : Nat) : Nat := if op = 2 ∨ op = 3 then 8 else 4

/-- The first bad value of range i of a record (R415). -/
def sweepRangeBad (t : Team) (o e i : Nat) : Option (Nat × Nat) :=
  let b := recDw t (o + 0x10 + 16 * i) 0
  let n := recDw t (o + 0x10 + 16 * i) 1
  if 2 ^ 57 ≤ b.toNat then some (0xA6, 2)
  else if b.toNat % e ≠ 0 then some (0xA6, 5)
  else if inScratch b then some (0xA6, 8)
  else if 2 ^ 41 ≤ n.toNat then some (0xA6, 2)
  else if n.toNat % e ≠ 0 ∨ 2 ^ 40 < n.toNat then some (0xA6, 5)
  else none

/-- The first bad value of a sweep record at an offset, in field order (R415, R416). -/
def sweepFault (c : Ctx) (o : Nat) : Option (Nat × Nat) :=
  let t := c.t
  let d0 := recDw t o 0
  let tag := fieldN d0 18 6
  let sten := d0.getLsbD 16
  let streg := fieldN d0 8 8
  let op := fieldN d0 0 3
  let res := recDw t o 1
  if o % 128 ≠ 0 ∨ scratchSize t < o + 128 then some (0xA6, 1)
  else if 2 ^ 32 ≤ d0.toNat then some (0xA6, 2)
  else if !d0.getLsbD 17 ∧ t.launch.tagn ≤ tag then some (0x81, 0)
  else if d0.getLsbD 17 ∧ tag ≠ 0 then some (0xA6, 7)
  else if sten ∧ isLead c.id then some (0xA6, 6)
  else if (sten ∧ c.gr.alloc ≤ streg) ∨ (!sten ∧ streg ≠ 0) then some (0xA6, 6)
  else if 4 ≤ op then some (0xA6, 3)
  else if 2 ^ 57 ≤ res.toNat then some (0xA6, 2)
  else if res.toNat % sweepRes op ≠ 0 ∨ inScratch res then some (0xA6, 4)
  else match (List.range (fieldN d0 3 2 + 1)).findSome? (sweepRangeBad t o (sweepElem op)) with
    | some f => some f
    | none => if (List.range 6).any (fun k => recDw t (o + 0x50) k ≠ 0) then some (0xA6, 2) else none

/-- The sweep that a record describes. -/
def sweepCmd (c : Ctx) (o l : Nat) : Cmd :=
  let d0 := recDw c.t o 0
  { src := c.id, lane := l, core := c.t.core, ctx := c.t.launch.ctx, stream := fieldN d0 5 3
    tag := tagOf (fieldN d0 18 6) (d0.getLsbD 17)
    stat := if d0.getLsbD 16 then some (fieldN d0 8 8) else none
    ident := BitVec.ofNat 64 o
    body := .sweep {
      op := fieldN d0 0 3, res := recDw c.t o 1
      ranges := (List.range (fieldN d0 3 2 + 1)).map (fun i =>
        ((recDw c.t (o + 0x10 + 16 * i) 0).toNat, (recDw c.t (o + 0x10 + 16 * i) 1).toNat)) } }

def execSweep (w : FWord) (s : State) : Host.Outcome State Fault Refusal :=
  let off (c : Ctx) (l : Nat) : Nat := (lo (laneIn (.sweep w) w s c l).a).toNat
  engineWord (.sweep w) w (fun c => recStage c (fun l => sweepFault c (off c l))) (fun c l => sweepCmd c (off c l) l) s

/-! Start (R417, R418). -/

/-- The virtual pages of the ranges. -/
def sweepPages (q : SweepCmd) : List Nat :=
  (q.ranges.flatMap (fun r => if r.2 = 0 then [] else
    (List.range ((r.1 + r.2 - 1) / 65536 - r.1 / 65536 + 1)).map (r.1 / 65536 + ·))).eraseDups

/-- A declined translation of a sweep (R423); a feature that is off keeps its cause (R524). -/
def sweepCause (f : CmdFault) : CmdFault := if f.cause = 0xD0 then f else { f with cause := 0xA7, detail := 2 }

/-- Translate one page of the ranges: its physical address. -/
def sweepPage (s : State) (n : Nat) (c : Cmd) (p : Nat) : Except EngStop Nat :=
  let va := BitVec.ofNat 64 (p * 65536)
  if 2 ^ 57 ≤ p * 65536 ∨ inScratch va ∨ inCounters va then engFault 0xA7 1 va
  else match engPage s n c .engRead va with
    | .ok (some (pa, _)) => if tierOf pa = some 0 then .ok pa else engFault 0xA7 1 va
    | .ok none => engFault 0xA7 1 va
    | .error (.fault f) => .error (.fault (if f.cause = 0xA7 then { f with detail := 1 } else sweepCause f))
    | .error e => .error e

/-- Translate pages as far as they go. -/
def sweepTranslate (s : State) (n : Nat) (c : Cmd) (got : FMap Nat) : List Nat → FMap Nat × Option EngStop
  | [] => (got, none)
  | p :: ps =>
    match sweepPage s n c p with
    | .ok pa => sweepTranslate s n c (put got p pa) ps
    | .error e => (got, some e)

/-- The physical address of a byte of the ranges. -/
def sweepPa (q : SweepCmd) (va : Nat) : Nat := (look q.pages (va / 65536)).getD 0 + va % 65536

/-- The range flush (R418): no line of the ranges stays in a slice. -/
def rangeFlush (s : State) (q : SweepCmd) : State :=
  { s with l2 := s.l2.filter (fun e => !q.ranges.any (fun r =>
      q.pages.any (fun p => decide (p.2 ≤ e.1 * 128 ∧ e.1 * 128 < p.2 + 65536) &&
        decide (r.1 < p.1 * 65536 + (e.1 * 128 - p.2) + 128) && decide (p.1 * 65536 + (e.1 * 128 - p.2) < r.1 + r.2)))) }

/-- SWEEP_START: the translation of the ranges, after which the sweep asks for leave, and, once it has leave, the flush. -/
def sweepStart (s : State) (n : Nat) : State :=
  match look s.cmds n with
  | none => s
  | some c => match c.body with
    | .sweep q =>
      if c.started ∨ c.fault.isSome ∨ !cmdMayStart s c then s
      else match c.leave with
        | .unasked =>
          let (got, e) := sweepTranslate s n c q.pages ((sweepPages q).filter (fun p => (look q.pages p).isNone))
          let s := updCmd s n (fun c => { c with body := .sweep { q with pages := got }, leave := if e.isNone then .wanted else .unasked })
          match e with
          | none => s
          | some e => engRun s n c (.error e)
        | .granted => updCmd (rangeFlush s q) n (fun c => { c with started := true })
        | _ => s
    | _ => s

def execSweepStart (n : Nat) (s : State) : Host.Outcome State Fault Refusal := .next (sweepStart s n)

/-! The channel trees (R419, R420). -/

/-- The elements of the ranges in ascending physical address, each with its address. -/
def sweepElems (q : SweepCmd) : List Nat :=
  sortBy id (q.ranges.flatMap (fun r => (List.range (r.2 / sweepElem q.op)).map (fun k => sweepPa q (r.1 + k * sweepElem q.op))))

/-- Where an element stands: channel, pseudo-channel, bank group and bank. -/
def sweepPlace (s : State) (pa : Nat) : List Nat :=
  let c := channelOf s pa
  let p := Config.dramPlace c.1 c.2
  [c.1, p.1, p.2.1, p.2.2]

/-- The value of a sweep as bytes, and its flags (R420, R421). -/
def sweepValue (s : State) (q : SweepCmd) : List Byte × W64 :=
  let es := (sweepElems q).map (fun pa => (sweepPlace s pa, pa))
  let word (pa : Nat) : W32 := BitVec.ofNat 32 (leNat (readBytes s pa 4))
  let vals {α : Type} (f : Nat → α) : List (List Nat × α) := es.map (fun e => (e.1, f e.2))
  match q.op with
  | 0 => let r := foldParts sumF 4 (vals word); (leBytes 4 (r.1.getD 0x80000000).toNat, r.2)
  | 1 => let r := foldParts maxF 4 (vals word); (leBytes 4 (r.1.getD 0xFF800000).toNat, r.2)
  | 2 =>
    let r := foldParts (fun (a b : Int) => (a + b, 0)) 4 (vals (fun pa => (word pa).toInt))
    let (v, f) := satInt 64 .sat (r.1.getD 0)
    (leBytes 8 v.toNat, f)
  | _ =>
    let r := foldParts lse3 4 (vals (fun pa => [word pa, word (pa + 4)]))
    ((r.1.getD [0xFF800000, 0]).flatMap (fun w => leBytes 4 w.toNat), r.2)

/-- Read the elements, combine them and write the result at RES. -/
def runTrees (s : State) (n : Nat) (c : Cmd) (q : SweepCmd) : Except EngStop State := do
  let pas := (sweepElems q).flatMap (fun pa => (List.range (sweepElem q.op)).map (pa + ·))
  if isMoving s pas then throw .wait
  match badUnit s pas with
  | some e => engFault 0xA8 1 e.addr
  | none =>
    let (bs, f) := sweepValue s q
    let ls ← match engBytes s n c .engWrite q.res bs.length with
      | .error (.fault f) => throw (.fault (sweepCause f))
      | r => r
    let s ← engWrite s n c (ls.zip bs)
    pure (updCmd s n (fun c => { c with flags := f, body := .sweep { q with written := true } }))

/-- SWEEP_COMPLETE (R423). -/
def sweepComplete (s : State) (n : Nat) : State :=
  match look s.cmds n with
  | none => s
  | some c => match c.body with
    | .sweep q =>
      if c.fault.isSome then completeCmd s n c 0
      else if !c.started then s
      else
        let s := if q.written then s else engRun s n c (runTrees s n c q)
        match look s.cmds n with
        | none => s
        | some c => match c.body with
          | .sweep q => if c.fault.isSome ∨ (q.written ∧ c.left = 0) then completeCmd s n c 0 else s
          | _ => s
    | _ => s

def execSweepComplete (n : Nat) (s : State) : Host.Outcome State Fault Refusal := .next (sweepComplete s n)

end Sys2Proof.Machine
end

