-- ==== Sys2Proof/Machine/Matrix.lean ====
section
/-! DEFINITION. The matrix array: descriptors, queues and paths, block summation, its words and its events (R335, R347 to
R387). -/

namespace Sys2Proof.Machine

/-! Operand formats (R347). -/

/-- A matrix format: its element format code (R318), planes, slices and group (0 narrow, 1 wide, 2 FP64, 3 integer, 4 INT32). -/
structure MFmt where
  elem : Nat
  planes : Nat
  slices : Nat
  group : Nat
  deriving DecidableEq, Repr

/-- The matrix format of a code. -/
def mfmt (code : Nat) : MFmt :=
  match code with
  | 0 => ⟨5, 2, 1, 0⟩
  | 1 | 3 => ⟨3, 4, 1, 0⟩
  | 2 | 4 => ⟨4, 3, 1, 0⟩
  | 5 => ⟨6, 8, 1, 0⟩
  | 6 => ⟨6, 8, 1, 3⟩
  | 7 => ⟨7, 8, 1, 3⟩
  | 8 => ⟨1, 11, 1, 0⟩
  | 9 => ⟨2, 8, 1, 0⟩
  | 10 => ⟨17, 11, 2, 1⟩
  | 11 => ⟨16, 24, 2, 1⟩
  | 12 => ⟨18, 53, 4, 2⟩
  | 13 => ⟨8, 16, 1, 3⟩
  | 14 => ⟨9, 16, 1, 3⟩
  | _ => ⟨19, 32, 2, 4⟩

/-- K of a format (R348). -/
def matK (code : Nat) : Nat := 128 / (mfmt code).slices
/-- A format whose elements stand in blocks with scales. -/
def matMx (code : Nat) : Bool := code = 0 || code = 3 || code = 4 || code = 5
/-- A format that selects a 64-bit accumulator. -/
def matWide (code : Nat) : Bool := (mfmt code).group = 2 || (mfmt code).group = 4
/-- The bits of an element. -/
def matBits (code : Nat) : Nat := fmtBits (mfmt code).elem
/-- The pairs of R349. -/
def matPairs (a b : Nat) : Bool := (mfmt a).group == (mfmt b).group

/-! Descriptors (R350, R351, R377, R378, R382, R383). -/

def descPitch (d : Nat) : Nat := d / 2 ^ 23 % 128
def descGeom (d : Nat) : Nat := d / 2 ^ 21 % 4
def descFmt (d : Nat) : Nat := d / 2 ^ 17 % 16
def descBank (d : Nat) : Nat := d / 2 ^ 16 % 2
def descRows (d : Nat) : Nat := d / 2 ^ 8 % 256 + 1
def descRow0 (d : Nat) : Nat := d % 256
def storeAf (d : Nat) : Nat := d / 2 ^ 30 % 4
def storeRnd (d : Nat) : Nat := d / 2 ^ 20 % 8
def storeOfmt (d : Nat) : Nat := d / 2 ^ 16 % 16

/-- The elements that one scale covers. -/
def matBlock (geom : Nat) : Nat := 8 * 2 ^ geom
/-- The scales of one A row, and the scale rows of B. -/
def matScales (d : Nat) : Nat := if matMx (descFmt d) then matK (descFmt d) / matBlock (descGeom d) else 0
/-- The bytes of an A row with its scales, and of a B row. -/
def aRowBytes (d : Nat) : Nat := matK (descFmt d) * matBits (descFmt d) / 8 + matScales d
def bRowBytes (d : Nat) : Nat := 32 * matBits (descFmt d)
/-- The bits of an element of an output image. -/
def outBits (d : Nat) : Nat :=
  match storeOfmt d with
  | 0 => if 2 ≤ storeAf d then 64 else 32
  | 1 | 2 | 7 => 16
  | 3 | 4 | 6 => 8
  | 5 | 8 => 32
  | _ => 8
/-- The bytes of an output row. -/
def outRowBytes (d : Nat) : Nat := 32 * outBits d
/-- The distance of two rows (R350), and a pitch that is too small. -/
def pitchOf (d row : Nat) : Nat := if descPitch d = 0 then (row + 31) / 32 * 32 else 32 * descPitch d
def pitchBad (d row : Nat) : Bool := descPitch d != 0 && decide (32 * descPitch d < row)

/-- The bytes from the first to the last of an image. -/
def imageSpan (member d : Nat) : Nat :=
  if member = 0 then
    (if matMx (descFmt d) then matK (descFmt d) * pitchOf d (bRowBytes d) + matScales d * 256
     else (matK (descFmt d) - 1) * pitchOf d (bRowBytes d) + bRowBytes d)
  else if member = 1 then (descRows d - 1) * pitchOf d (aRowBytes d) + aRowBytes d
  else (descRows d - 1) * pitchOf d (outRowBytes d) + outRowBytes d

/-- Rows from ROW0 beyond the last, or an odd first row of a 64-bit accumulator. -/
def rowsBad (d : Nat) (wide : Bool) : Bool :=
  decide (256 < descRow0 d + descRows d * (if wide then 2 else 1)) || (wide && descRow0 d % 2 == 1)

/-- TAGEN and TAG: a tag without TAGEN, and a tag beyond the team's (R39). -/
def tagCtlBad (t : Team) (x : Nat) : Option (Nat × Nat) :=
  if !x.testBit 6 ∧ x % 64 ≠ 0 then some (0x90, 7)
  else if x.testBit 6 ∧ t.launch.tagn ≤ x % 64 then some (0x81, 0)
  else none

/-- The first bad value of the descriptor of an `MLOADB`, `MMA` or `MZERO` (R377). -/
def descFault (t : Team) (member d : Nat) : Option (Nat × Nat) :=
  let geomBad : Bool := (descGeom d == 0) == matMx (descFmt d)
  if member = 2 then
    if 2 ^ 16 ≤ d then some (0x90, 1) else if rowsBad d false then some (0x90, 5) else none
  else if 2 ^ 30 ≤ d then some (0x90, 1)
  else if geomBad ∨ pitchBad d (if member = 0 then bRowBytes d else aRowBytes d) then some (0x90, 2)
  else if member = 0 then
    if descRows d ≠ 1 ∨ d.testBit 7 then some (0x90, 1) else tagCtlBad t (d % 128)
  else if rowsBad d (matWide (descFmt d)) then some (0x90, 5)
  else none

/-- The output format goes with the accumulator format (R382). -/
def outAllowed (af o : Nat) : Bool :=
  match o with
  | 0 => true
  | 1 | 2 | 3 | 4 => af == 0 || af == 2
  | 5 => af == 2
  | 6 | 7 => af == 1 || af == 3
  | 8 => af == 3
  | _ => false

/-- The first bad value of a store descriptor and its tag control (R382). -/
def storeFault (t : Team) (d sc : Nat) : Option (Nat × Nat) :=
  let r := storeRnd d
  let o := storeOfmt d
  if !outAllowed (storeAf d) o ∨ 6 ≤ r ∨ (r = 5 ∧ (o = 0 ∨ 6 ≤ o)) then some (0x90, 6)
  else if rowsBad d (decide (2 ≤ storeAf d)) then some (0x90, 5)
  else if pitchBad d (outRowBytes d) then some (0x90, 2)
  else if 128 ≤ sc then some (0x90, 7)
  else tagCtlBad t sc

/-- The address checks (R378). -/
def imageFault (t : Team) (a : W64) (span : Nat) : Option (Nat × Nat) :=
  if a.toNat % 32 ≠ 0 ∨ nonCanonical a then some (0x90, 3)
  else if inScratch a ∧ scratchSize t < scratchOff a + span then some (0x90, 4)
  else none

/-- The check of a position word (R383). -/
def posFault (d : Nat) (wide : Bool) : Option (Nat × Nat) :=
  if 2 ^ 11 ≤ d then some (0x90, 1) else if wide ∧ d % 2 = 1 then some (0x90, 5) else none

/-- The checks of a command whose image begins at an address. -/
def matFault (t : Team) (member d : Nat) (a : W64) : Option (Nat × Nat) :=
  match descFault t member d with
  | some f => some f
  | none => if member = 2 then none else imageFault t a (imageSpan member d)

/-! Rows, banks and their owners (R353, R354). -/

/-- The rows that a command touches. -/
def matRows (m : MatCmd) : List Nat :=
  let d := m.desc.toNat
  let span (n : Nat) : List Nat := (List.range n).map (descRow0 d + ·)
  match m.member with
  | 0 => []
  | 1 => span (descRows d * (if matWide (descFmt d) then 2 else 1))
  | 2 => span (descRows d)
  | 4 => span (descRows d * (if 2 ≤ storeAf d then 2 else 1))
  | _ => if m.d then [d % 256, d % 256 + 1] else [d % 256]

/-- The bank that a command touches. -/
def matBank (m : MatCmd) : Option Nat := if m.member ≤ 1 then some (descBank m.desc.toNat) else none

def arrayOf (s : State) (k : Nat) : MatArray := (core s k).array
def updArray (s : State) (k : Nat) (f : MatArray → MatArray) : State := updCore s k (fun c => { c with array := f c.array })
def bankOf (a : MatArray) (b : Nat) : Bank := if b = 0 then a.bank0 else a.bank1
def setBank (a : MatArray) (b : Nat) (x : Bank) : MatArray := if b = 0 then { a with bank0 := x } else { a with bank1 := x }
/-- The key of a source's queue. -/
def queueKey (id : SrcId) : Nat := 64 * id.team + id.g
def queueOf (a : MatArray) (id : SrcId) : List Nat := (look a.queues (queueKey id)).getD []

/-- The keys of a row's elements. -/
def rowKeys (r : Nat) : List Nat := (List.range 256).map (256 * r + ·)
/-- Set a row to zero. -/
def zeroRow (a : MatArray) (r : Nat) : MatArray :=
  { a with acc := a.acc.filter (fun e => e.1 / 256 != r), accBad := a.accBad.filter (fun e => e.1 / 128 != r) }

/-- Release the rows and banks of a team (R353). -/
def releaseArray (a : MatArray) (tm : Nat) : MatArray :=
  let a := ((a.rowOwner.filter (fun e => e.2 == tm)).map (·.1)).foldl zeroRow a
  let free (b : Bank) : Bank := if b.owner = some tm then {} else b
  { a with rowOwner := a.rowOwner.filter (fun e => e.2 != tm), bank0 := free a.bank0, bank1 := free a.bank1 }

/-! Issue (R355). -/

/-- Put a command at the end of its source's queue. -/
def enterQueue (s : State) (k : Nat) (id : SrcId) (n : Nat) : State :=
  updArray s k (fun a => { a with queues := put a.queues (queueKey id) (queueOf a id ++ [n]) })

/-- The issue of a matrix command. -/
def issueMat (s : State) (ord : Nat) (lanes : Mask) (c : Cmd) : State :=
  let (n, s) := issueCmd s .matrix ord lanes c
  enterQueue s c.core c.src n

/-- The IDENT of a command's record (R387). -/
def matIdent (member : Nat) (d : W32) : W64 := BitVec.ofNat 64 (d.toNat + member * 2 ^ 32)

/-- The commands that ask Ceiling for leave (R372). -/
def asksLeave (m : MatCmd) : Bool := m.member == 0 || m.member == 1 || m.member == 4

/-- A command of the lowest executing lane. -/
def matCmd (c : Ctx) (m : MatCmd) (tag : Option Nat) (stream : Nat) : Cmd :=
  { src := c.id, lane := lowest c.act, core := c.t.core, ctx := c.t.launch.ctx, stream, tag, ident := matIdent m.member m.desc
    rmode := rmodeOf c.t.flags, ftz := ftzOf c.t.flags
    sr := if isLead c.id then leadSr c else get 0 c.gr.sr (lowest c.act)
    leave := if asksLeave m then .unasked else .granted, body := .mat m }

/-- The follow-on command of a copy. -/
def followOn (c : Cmd) (q : CopyCmd) : Cmd :=
  let m : MatCmd := { member := q.fkind - 1, desc := q.farg, addr := BitVec.ofNat 64 q.dst.base }
  { src := c.src, lane := c.lane, core := c.core, ctx := c.ctx, rmode := c.rmode, ftz := c.ftz, ident := matIdent m.member q.farg
    tag := if m.member = 0 then tagOf (q.farg.toNat % 64) (!q.farg.getLsbD 6) else none, body := .mat m }

/-- The copy is a `CPYM` whose destination is written and whose follow-on has not been handed over (R335). -/
def handReady (s : State) (c : Cmd) : Option CopyCmd :=
  match c.body with
  | .copy q => if q.kind ≠ 2 ∨ q.handed ∨ c.fault.isSome ∨ !c.started ∨ q.chunk < chunks q ∨ c.left ≠ 0 ∨ !cmdResident s c then none else some q
  | _ => none

/-- A copy of a source waits only for room to hand its follow-on over: it takes that room ahead of the source's later words
(R335). -/
def handWaits (s : State) (id : SrcId) : Bool :=
  s.cmds.any (fun e => e.2.src == id && (handReady s e.2).any (fun q => tagFree s id.team (followOn e.2 q).tag))

/-- The word of a command waits: for its tag, for room in its source's queue, and for a hand-over of its source that takes
the room first (R335, R355). -/
def matWaits (s : State) (c : Ctx) (x : Cmd) : Bool :=
  !tagFree s c.id.team x.tag || decide (4 ≤ (queueOf (arrayOf s c.t.core) c.id).length) || handWaits s c.id

/-- The meaning of the words that queue a command: its checks, its waits and its entry. The registers of an `MREAD` are
written when the command runs (R383), so the word itself writes none. -/
def matWord (i : Instr) (w : FWord) (check : Ctx → Option (Nat × Nat)) (cmd : Ctx → Cmd) (eff : Ctx → State → State) (s : State) :
    Host.Outcome State Fault Refusal :=
  finish s (do
    let c ← prologue i w s
    if c.act = 0 then pure (commitWord i w s c (fun _ => {}))
    else
      match check c with
      | some (cause, detail) => trapIf true c cause detail
      | none => pure ()
      storeWait s c false
      streamWait c (cmd c).stream
      if matWaits s c (cmd c) then throw .wait
      pure (eff c (issueMat (commitWord i { w with ws := true } s c (fun _ => {})) c.gr.ord c.act (cmd c))))

/-- The operands of the lowest executing lane. -/
def lowIn (i : Instr) (w : FWord) (s : State) (c : Ctx) : LaneIn := laneIn i w s c (lowest c.act)

/-- MLOADB, MMA and MZERO. -/
def matDescWord (i : Instr) (w : FWord) (member : Nat) (z : Bool) (s : State) : Host.Outcome State Fault Refusal :=
  let d (c : Ctx) : W32 := lo (lowIn i w s c).b
  let a (c : Ctx) : W64 := if member = 2 then 0 else (lowIn i w s c).a
  matWord i w (fun c => matFault c.t member (d c).toNat (a c))
    (fun c => matCmd c { member, desc := d c, addr := a c, z } (if member = 0 then tagOf ((d c).toNat % 64) (!(d c).getLsbD 6) else none) 0)
    noEff s

def execMloadb (w : FWord) (s : State) := matDescWord (.mloadb w) w 0 false s
def execMma (w : FWord) (z : Bool) (s : State) := matDescWord (.mma w z) w 1 z s
def execMzero (w : FWord) (s : State) := matDescWord (.mzero w) w 2 false s

def execMstore (w : FWord) (os : BitVec 3) (s : State) : Host.Outcome State Fault Refusal :=
  let i := Instr.mstore w os
  let x (c : Ctx) : LaneIn := lowIn i w s c
  let d (c : Ctx) : W32 := lo (x c).b
  let sc (c : Ctx) : Nat := (lo (x c).c).toNat
  matWord i w
    (fun c => match storeFault c.t (d c).toNat (sc c) with
      | some f => some f
      | none => match imageFault c.t (x c).a (imageSpan 4 (d c).toNat) with
        | some f => some f
        | none => if storeRnd (d c).toNat = 5 ∧ !featureOn s 6 then some (0xD0, 6) else none)
    (fun c => matCmd c { member := 4, desc := d c, addr := (x c).a } (tagOf (sc c % 64) (!(sc c).testBit 6)) os.toNat)
    noEff s

/-- The registers that an `MREAD` writes, with their lanes. -/
def mreadDsts (reg : Nat) (wide : Bool) (lanes : Mask) : List (Nat × Nat) :=
  (lanesOf lanes).flatMap (fun l => if wide then [(reg, l), (reg + 1, l)] else [(reg, l)])

def execMread (w : FWord) (d : Bool) (s : State) : Host.Outcome State Fault Refusal :=
  let i := Instr.mread w d
  let p (c : Ctx) : W32 := lo (lowIn i w s c).b
  let lanes (c : Ctx) : Mask := if w.ws then 0 else c.act
  matWord i w (fun c => posFault (p c).toNat d)
    (fun c => matCmd c { member := 5, desc := p c, d, reg := w.dst.toNat, lanes := lanes c } none 0)
    (fun c s => updGroup s c.id (fun gr => { gr with sb := pend gr.sb (mreadDsts w.dst.toNat d (lanes c)) })) s

def execMwrite (w : FWord) (d : Bool) (s : State) : Host.Outcome State Fault Refusal :=
  let i := Instr.mwrite w d
  let p (c : Ctx) : W32 := lo (lowIn i w s c).b
  matWord i w (fun c => posFault (p c).toNat d)
    (fun c => matCmd c { member := 6, desc := p c, d, lanes := c.act, data := (lanesOf c.act).foldl (fun m l => put m l (laneIn i w s c l).c) [] } none 0)
    noEff s

/-! The reservation and the status (R384 to R386). -/

def execMres (w : FWord) (s : State) :=
  let free (c : Ctx) : Bool := (arrayOf s c.t.core).reserved.all (· == c.id.team)
  runEff (.mres w) w noCheck (fun c _ => { pd := some (free c) })
    (fun c s' => if free c then updArray s' c.t.core (fun a => { a with reserved := some c.id.team }) else s') s

def execMrel (w : FWord) (all : Bool) (s : State) :=
  runEff (.mrel w all) w
    (fun c => if all ∧ queueOf (arrayOf s c.t.core) c.id ≠ [] then throw .wait else pure ())
    noOut
    (fun c s' => updArray s' c.t.core (fun a =>
      let a := if a.reserved = some c.id.team then { a with reserved := none } else a
      if all then releaseArray a c.id.team else a)) s

/-- One bank's byte of the status word. -/
def bankStatus (b : Bank) (tm : Nat) : Nat :=
  let mine : Bool := b.owner == some tm
  let other : Bool := b.owner.any (· != tm)
  (if mine then 128 else 0) + (if b.valid then 64 else 0) + (if other then 0 else b.fmt % 16 * 4 + b.geom % 4)

/-- The status word (R386). -/
def matStatus (a : MatArray) (id : SrcId) : W64 :=
  BitVec.ofNat 64 (a.parity.toNat * 2 ^ 48 + a.eccfix.toNat * 2 ^ 32 + (if a.reserved = some id.team then 2 ^ 23 else 0) +
    (if a.reserved.any (· != id.team) then 2 ^ 22 else 0) + (queueOf a id).length % 8 * 2 ^ 19 +
    bankStatus a.bank1 id.team * 2 ^ 8 + bankStatus a.bank0 id.team)

def execMstat (w : FWord) (s : State) :=
  runEff (.mstat w) w noCheck (fun c _ => { val := matStatus (arrayOf s c.t.core) c.id }) noEff s

/-! The paths (R356, R372). -/

/-- A command's own part. -/
def matOf (s : State) (n : Nat) : Option (Cmd × MatCmd) :=
  match look s.cmds n with
  | none => none
  | some c => match c.body with
    | .mat m => some (c, m)
    | _ => none

/-- Two commands touch the same bank or a common row. -/
def conflicts (x y : MatCmd) : Bool :=
  (matBank x).any (fun b => matBank y == some b) || (matRows x).any (fun r => (matRows y).contains r)

/-- The part of a queue before a command. -/
def earlier (q : List Nat) (n : Nat) : List Nat := q.takeWhile (· != n)

/-- A command is the first of its queue that has not started: its head (R356). -/
def isHead (s : State) (c : Cmd) (n : Nat) : Bool :=
  let q := queueOf (arrayOf s c.core) c.src
  !c.started && q.contains n && (earlier q n).all (fun k => (look s.cmds k).all (·.started))

/-- The command on the other path touches the same bank. -/
def otherUses (s : State) (a : MatArray) (m : MatCmd) : Bool :=
  match (if m.member = 0 then a.computing else a.loading).bind (matOf s) with
  | some (_, o) => (matBank m).any (fun b => matBank o == some b)
  | none => false

/-- A head is ready (R356, R79). -/
def matReady (s : State) (n : Nat) : Bool :=
  match matOf s n with
  | none => false
  | some (c, m) =>
    let a := arrayOf s c.core
    cmdResident s c && isHead s c n && c.leave == .granted && cmdMayStart s c && !otherUses s a m &&
      (earlier (queueOf a c.src) n).all (fun k => (matOf s k).all (fun x => !conflicts x.2 m)) &&
      a.reserved.all (· == c.src.team) && !s.tfaults.any (fun e => e.2.waiters.contains (.cmd n))

/-- The command is one of the load path. -/
def onLoadPath (s : State) (n : Nat) : Bool := (matOf s n).any (fun x => x.2.member == 0)

/-- The queue that a path takes next: the first after the last one with a ready head of that path, in a circle. -/
def nextQueue (s : State) (a : MatArray) (load : Bool) : Option Nat :=
  let ks := (a.queues.filter (fun e => e.2.any (fun n => onLoadPath s n == load && matReady s n))).map (·.1)
  let last := if load then a.lastLoad else a.lastCompute
  match ks.find? (fun k => decide (last < k)) with
  | some k => some k
  | none => ks.head?

/-- The claim of rows and bank at the start: the fault of an owner of another team (R353). -/
def claimFault (a : MatArray) (tm : Nat) (m : MatCmd) : Option CmdFault :=
  match (matRows m).find? (fun r => (look a.rowOwner r).any (· != tm)) with
  | some r => some { cause := 0x91, detail := 1, extra := BitVec.ofNat 64 r }
  | none =>
    match matBank m with
    | some b => if (bankOf a b).owner.any (· != tm) then some { cause := 0x91, detail := 2 } else none
    | none => none

/-- The claims. -/
def claim (a : MatArray) (tm : Nat) (m : MatCmd) : MatArray :=
  let a := { a with rowOwner := (matRows m).foldl (fun o r => put o r tm) a.rowOwner }
  match matBank m with
  | some b => setBank a b { bankOf a b with owner := some tm }
  | none => a

/-- The bank of an `MMA` is empty, or its format is no partner of A (R380). -/
def bankFault (a : MatArray) (m : MatCmd) : Option CmdFault :=
  if m.member ≠ 1 then none
  else
    let d := m.desc.toNat
    let b := bankOf a (descBank d)
    if !b.valid then some { cause := 0x92, detail := 1, extra := BitVec.ofNat 64 (descRow0 d) }
    else if !matPairs (descFmt d) b.fmt then some { cause := 0x92, detail := 2, extra := BitVec.ofNat 64 (descRow0 d) }
    else none

/-- The shadow of an `MMA` (R365). -/
def takeShadow (a : MatArray) (m : MatCmd) : MatCmd :=
  if m.member ≠ 1 ∨ m.row ≠ 0 then m
  else
    let rs := matRows m
    { m with shadow := a.acc.filter (fun e => rs.contains (e.1 / 256)), shadowBad := a.accBad.filter (fun e => rs.contains (e.1 / 128)) }

/-- MATRIX_COMMAND_START: a free path starts the ready head of its next queue. -/
def matStart (s : State) (n : Nat) : State :=
  match matOf s n with
  | none => s
  | some (c, m) =>
    let a := arrayOf s c.core
    let load : Bool := m.member == 0
    let key := queueKey c.src
    if (if load then a.loading else a.computing).isSome ∨ !matReady s n ∨ nextQueue s a load ≠ some key then s
    else
      let own := claimFault a c.src.team m
      let a' := if own.isSome then a else claim a c.src.team m
      let fault := if own.isSome then own else bankFault a' m
      let a' := if load then { a' with loading := some n, lastLoad := key } else { a' with computing := some n, lastCompute := key }
      updCmd (updArray s c.core (fun _ => a')) n (fun c => { c with started := true, fault, body := .mat (takeShadow a m) })

def execMatrixCommandStart (n : Nat) (s : State) : Host.Outcome State Fault Refusal := .next (matStart s n)

/-! Block summation (R359 to R364). -/

/-- The accumulator format of a code. -/
def accFmt (code : Nat) : Fmt := if (mfmt code).group = 2 then fp64 else fp32

/-- An element with the power of two of its scale. -/
structure MEl where
  v : Fp
  xs : Int := 0
  deriving DecidableEq, Repr

/-- Decode an element with its scale (R359, R362, R363). -/
def matElem (code raw : Nat) (x : Option Nat) (ftz : Bool) (acc : Fmt) : MEl :=
  let v := elemRaw (mfmt code).elem false raw
  match x with
  | some 255 => { v := .nan (v == .nan true) }
  | _ =>
    let xs : Int := match x with
      | some e => (e : Int) - 127 - (if code = 5 then 6 else 0)
      | none => 0
    match v with
    | .fin neg m e =>
      if ftz && 3 > (mfmt code).group && m != 0 && isTiny acc { neg, m, e := e + xs } then { v := .fin neg 0 e, xs } else { v, xs }
    | v => { v, xs }

/-- The unbiased exponent of a non-zero element of w planes. -/
def unbiased (w : Nat) : MEl → Option Int
  | ⟨.fin _ m e, _⟩ => if m = 0 then none else some (e + w - 1)
  | _ => none

/-- The largest exponent of a block. -/
def maxExp (w : Nat) (es : List MEl) : Int := (es.filterMap (unbiased w)).foldl max ((es.filterMap (unbiased w)).headD 0)

/-- floor(s * 2^k) with a sign. -/
def windowed (neg : Bool) (m : Nat) (k : Int) : Int :=
  let x := if 0 ≤ k then m * pow2 k else m / pow2 (-k)
  if neg then -(x : Int) else x

/-- The integer and the exponent that stand for an element in a block: in a window of W bits below the largest exponent,
or exactly. -/
def blockTerm (win : Option (Nat × Int)) (w : Nat) (e : MEl) : Option (Int × Int) :=
  match e.v with
  | .fin neg m ex =>
    if m = 0 then none
    else match win with
      | some (bits, big) => some (windowed neg m (bits - (big - (ex + w - 1))), big - bits - w + 1 + e.xs)
      | none => some (if neg then -(m : Int) else m, ex + e.xs)
  | _ => none

/-- The sign of a product that is infinite, and the products of infinity and zero. -/
def infProd (a b : Fp) : Option Bool :=
  match a, b with
  | .inf p, .inf q => some (p != q)
  | .inf p, .fin q m _ => if m = 0 then none else some (p != q)
  | .fin p m _, .inf q => if m = 0 then none else some (p != q)
  | _, _ => none
def infZero (a b : Fp) : Bool :=
  match a, b with
  | .inf _, .fin _ m _ => m == 0
  | .fin _ m _, .inf _ => m == 0
  | _, _ => false

/-- A sum of integers times powers of two. -/
def sumTerms (ts : List (Int × Int)) : Fp :=
  let b := (ts.map (·.2)).foldl min ((ts.map (·.2)).headD 0)
  let x : Int := (ts.map (fun t => t.1 * ((pow2 (t.2 - b) : Nat) : Int))).sum
  .fin (x < 0) x.natAbs (if x = 0 then 0 else b)

/-- The block sum of a row's and a column's elements (R361, R363), with NV. -/
def blockSum (fa fb : Nat) (as bs : List MEl) : Fp × W64 :=
  let ps := as.zip bs
  let vs := ps.map (fun p => (p.1.v, p.2.v))
  let nan : Bool := vs.any (fun p => anyNan [p.1, p.2])
  let zi : Bool := vs.any (fun p => infZero p.1 p.2)
  let signs := vs.filterMap (fun p => infProd p.1 p.2)
  let mixed : Bool := signs.contains true && signs.contains false
  let nv : W64 := nvIf (vs.flatMap (fun p => [p.1, p.2])) ||| (if zi || mixed then flagNV else 0)
  if nan || zi || mixed then (.nan false, nv)
  else match signs with
    | n :: _ => (.inf n, nv)
    | [] =>
      let wa := (mfmt fa).planes
      let wb := (mfmt fb).planes
      let narrow : Bool := (mfmt fa).group == 0
      let ta := if narrow then some (30 - wa, maxExp wa as) else none
      let tb := if narrow then some (8, maxExp wb bs) else none
      (sumTerms (ps.filterMap (fun p => match blockTerm ta wa p.1, blockTerm tb wb p.2 with
        | some x, some y => some (x.1 * y.1, x.2 + y.2)
        | _, _ => none)), nv)

/-- The integer of an exact value. -/
def fpInt : Fp → Int
  | .fin n m e => scaled n m e
  | _ => 0

/-- One block's sum into an accumulator element (R360): its new bits and the flags. -/
def accumulate (fa : Nat) (ftz : Bool) (acc : Nat) (t : Fp) : Nat × W64 :=
  if 3 ≤ (mfmt fa).group then
    let n := if matWide fa then 64 else 32
    let sgn (x : W64) : Int := if n = 64 then x.toInt else (lo x).toInt
    let (t', f) := satInt n .sat (fpInt t)
    let (r, g) := satInt n .sat (sgn (BitVec.ofNat 64 acc) + sgn t')
    (r.toNat % 2 ^ n, f ||| g)
  else
    let f := accFmt fa
    let r : FRes := match t with
      | .nan _ => { bits := nanEnc f }
      | .inf n => infRes f n
      | .fin neg m e => roundFp f .rne .sat ftz { neg, m, e }
    let x := addFp f .rne .sat ftz (decodeFp f acc) (decodeFp f r.bits)
    (x.bits, (r.flags ||| x.flags) &&& (flagNV ||| flagSAT))

/-! Rows of an `MMA` (R354, R365, R380). -/

/-- An element of some bytes. -/
def rowElem (bs : List Byte) (bits k : Nat) : Nat := leNat ((bs.drop (bits * k / 8)).take (max 1 (bits / 8))) / 2 ^ (bits * k % 8) % 2 ^ bits

/-- The elements of an A row from its bytes. -/
def aRow (d : Nat) (ftz : Bool) (acc : Fmt) (bs : List Byte) : List MEl :=
  let code := descFmt d
  let scales := bs.drop (matK code * matBits code / 8)
  (List.range (matK code)).map (fun k =>
    matElem code (rowElem bs (matBits code) k) (if matMx code then some ((scales.drop (k / matBlock (descGeom d))).headD 0).toNat else none) ftz acc)

/-- The elements of column n of a bank. -/
def bColumn (b : Bank) (ftz : Bool) (acc : Fmt) (n : Nat) : List MEl :=
  (List.range (matK b.fmt)).map (fun k =>
    matElem b.fmt (get 0 b.data (256 * k + n)).toNat
      (if matMx b.fmt then some (get 0 b.scales (256 * (k / matBlock b.geom) + n)) else none) ftz acc)

/-- An accumulator element of A row i, in rows of the array. -/
def accRow (d i : Nat) : Nat := descRow0 d + i * (if matWide (descFmt d) then 2 else 1)
def readAcc (a : MatArray) (wide : Bool) (r n : Nat) : Nat :=
  (get 0 a.acc (256 * r + n)).toNat + (if wide then (get 0 a.acc (256 * (r + 1) + n)).toNat * 2 ^ 32 else 0)
def writeAcc (a : MatArray) (wide : Bool) (r n x : Nat) : MatArray :=
  let acc := set 0 a.acc (256 * r + n) (BitVec.ofNat 32 x)
  { a with acc := if wide then set 0 acc (256 * (r + 1) + n) (BitVec.ofNat 32 (x / 2 ^ 32)) else acc }

/-- All K-blocks of one element, from its start value (R360). -/
def dot (fa fb : Nat) (ftz : Bool) (start : Nat) (as bs : List MEl) : Nat × W64 :=
  (List.range (matK fa / 32)).foldl (fun x j =>
    let (t, f) := blockSum fa fb ((as.drop (32 * j)).take 32) ((bs.drop (32 * j)).take 32)
    let (y, g) := accumulate fa ftz x.1 t
    (y, x.2 ||| (f &&& flagNV) ||| g)) (start, 0)

/-- Compute one A row into the array. -/
def mmaRow (m : MatCmd) (ftz : Bool) (b : Bank) (x : MatArray × W64) (i : Nat) (bytes : List Byte) : MatArray × W64 :=
  let d := m.desc.toNat
  let fa := descFmt d
  let as := aRow d ftz (accFmt fa) bytes
  (List.range 256).foldl (fun x n =>
    let (v, f) := dot fa b.fmt ftz (if m.z then 0 else readAcc x.1 (matWide fa) (accRow d i) n) as (bColumn b ftz (accFmt fa) n)
    (writeAcc x.1 (matWide fa) (accRow d i) n v, x.2 ||| f)) x

/-- The A rows of the next pair. -/
def pairRows (m : MatCmd) : List Nat := [m.row, m.row + 1].filter (· < descRows m.desc.toNat)
/-- The rows of the array that an A row stands for. -/
def accRows (d i : Nat) : List Nat := if matWide (descFmt d) then [accRow d i, accRow d i + 1] else [accRow d i]
/-- An uncorrectable unit in some rows. -/
def badRow (bad : FMap Bool) (rs : List Nat) : Option Nat := rs.find? (fun r => bad.any (fun e => e.1 / 128 == r))

/-- The rows restored from the shadow: a row whose copy is uncorrectable becomes zero (R370). -/
def restoreRows (a : MatArray) (m : MatCmd) : MatArray :=
  (matRows m).foldl (fun a r =>
    let a := zeroRow a r
    if (badRow m.shadowBad [r]).isSome then a
    else { a with acc := (rowKeys r).foldl (fun x k => set 0 x k (get 0 m.shadow k)) a.acc }) a

/-- What a command reads, row by row (R358, R369). -/
def readRows (s : State) (n : Nat) (c : Cmd) (starts : List (W64 × Nat)) : Except EngStop (List (List Byte)) :=
  starts.mapM (fun e => do
    let ls ← engBytes s n c .engRead e.1 e.2
    engRead s c 0x94 ls)

/-- The next row pair: its rows are computed and committed. -/
def runPair (s : State) (n : Nat) (c : Cmd) (m : MatCmd) : Except EngStop State := do
  let d := m.desc.toNat
  let a := arrayOf s c.core
  let rs := pairRows m
  match (if m.z then none else badRow a.accBad (rs.flatMap (accRows d))) with
  | some r =>
    match badRow m.shadowBad (matRows m) with
    | some q => throw (.fault { cause := 0x93, detail := 2, extra := BitVec.ofNat 64 q })
    | none => throw (.fault { cause := 0x93, detail := 1, extra := BitVec.ofNat 64 r })
  | none =>
    let bytes ← readRows s n c (rs.map (fun i => (m.addr + BitVec.ofNat 64 (i * pitchOf d (aRowBytes d)), aRowBytes d)))
    let b := bankOf a (descBank d)
    let (a, f) := (rs.zip bytes).foldl (fun x e => mmaRow m c.ftz b x e.1 e.2) (a, 0)
    let a := { a with accBad := a.accBad.filter (fun e => !(rs.flatMap (accRows d)).contains (e.1 / 128)) }
    pure (updCmd (updArray s c.core (fun _ => a)) n (fun c => { c with flags := c.flags ||| f, body := .mat { m with row := m.row + 2 } }))

/-- A fault that waits for service concerns a command (R368). -/
def inService (s : State) (n : Nat) (c : Cmd) (va : W64) : Bool :=
  s.tfaults.any (fun e => e.2.ctx == c.ctx && e.2.page == pageOf va && e.2.waiters.contains (.cmd n))

/-- A command leaves its path and stands at the head of its queue again; an `MMA` with its rows restored (R368). -/
def backOut (s : State) (n : Nat) (c : Cmd) (m : MatCmd) : State :=
  let s := updArray s c.core (fun a =>
    let a := if m.member = 1 then restoreRows a m else a
    { a with loading := if a.loading = some n then none else a.loading, computing := if a.computing = some n then none else a.computing })
  updCmd s n (fun c => { c with started := false, flags := 0, body := .mat { m with row := 0, shadow := [], shadowBad := [] } })

/-- What becomes of an `MMA` or an `MLOADB` that cannot read (R368, R369, R370): with a fault the rows are restored, or the
bank left empty, and the record names the row concerned. -/
def matStop (s : State) (n : Nat) (c : Cmd) (m : MatCmd) (e : EngStop) : State :=
  let lost (f : CmdFault) : State :=
    let s := updArray s c.core (fun a =>
      if m.member = 1 then restoreRows a m else setBank a (descBank m.desc.toNat) { owner := (bankOf a (descBank m.desc.toNat)).owner })
    let row := if m.member = 1 ∧ f.cause ≠ 0x93 then BitVec.ofNat 64 (accRow m.desc.toNat m.row) else f.extra
    updCmd s n (fun c => { c with fault := some { f with extra := row } })
  match e with
  | .walk _ va => if inService s n c va then backOut s n c m else engStop s n c e lost
  | e => engStop s n c e lost

/-- MMA_ROW_PAIR_COMMIT. -/
def matPair (s : State) (n : Nat) : State :=
  match matOf s n with
  | none => s
  | some (c, m) =>
    if m.member ≠ 1 ∨ (arrayOf s c.core).computing ≠ some n ∨ c.fault.isSome ∨ descRows m.desc.toNat ≤ m.row then s
    else match runPair s n c m with
      | .ok s => s
      | .error e => matStop s n c m e

def execMmaRowPairCommit (n : Nat) (s : State) : Host.Outcome State Fault Refusal := .next (matPair s n)

/-! The end of a command on its path (R357, R379 to R383). -/

/-- A command leaves its path and its queue. -/
def leaveQueue (a : MatArray) (id : SrcId) (n : Nat) : MatArray :=
  let q := (queueOf a id).filter (· != n)
  { a with queues := if q = [] then del a.queues (queueKey id) else put a.queues (queueKey id) q
           loading := if a.loading = some n then none else a.loading
           computing := if a.computing = some n then none else a.computing }

/-- The bank that a B image gives (R351, R379). -/
def readBank (s : State) (n : Nat) (c : Cmd) (m : MatCmd) : Except EngStop Bank := do
  let d := m.desc.toNat
  let code := descFmt d
  let pitch := pitchOf d (bRowBytes d)
  let rows ← readRows s n c ((List.range (matK code)).map (fun k => (m.addr + BitVec.ofNat 64 (k * pitch), bRowBytes d)))
  let scales ← readRows s n c ((List.range (matScales d)).map (fun q => (m.addr + BitVec.ofNat 64 (matK code * pitch + q * 256), 256)))
  let table {α : Type} (f : List Byte → Nat → α) (rs : List (List Byte)) : FMap α :=
    ((List.range rs.length).zip rs).flatMap (fun e => (List.range 256).map (fun j => (256 * e.1 + j, f e.2 j)))
  pure { valid := true, fmt := code, geom := descGeom d, owner := some c.src.team
         data := (table (fun r j => BitVec.ofNat 64 (rowElem r (matBits code) j)) rows).filter (fun e => e.2 != 0)
         scales := (table (fun r j => ((r.drop j).headD 0).toNat) scales).filter (fun e => e.2 != 0)
         load := some (m.desc, m.addr) }

/-- Free the registers of an `MREAD` (R383). -/
def freeMread (s : State) (c : Cmd) (m : MatCmd) : State :=
  if m.member ≠ 5 then s else updGroup s c.src (fun gr => { gr with sb := unpend gr.sb (mreadDsts m.reg m.d m.lanes) })

/-- The column of a lane, and the ERR address of a unit of the accumulator (R370, R383). -/
def matCol (m : MatCmd) (l : Nat) : Nat := m.desc.toNat / 2 ^ 8 % 8 * 32 + l
def accAddr (r n : Nat) : W64 := BitVec.ofNat 64 (2 ^ 63 + r * 256 + n)

/-- One lane of an `MREAD`. -/
def mreadLane (a : MatArray) (m : MatCmd) (gr : Group) (l : Nat) : Group :=
  let r := m.desc.toNat % 256
  let n := matCol m l
  let rs := if m.d then [(r, m.reg), (r + 1, m.reg + 1)] else [(r, m.reg)]
  match rs.find? (fun e => (look a.accBad (128 * e.1 + n / 2)).isSome) with
  | some e =>
    { gr with err := rs.foldl (fun x f => if gr.alloc ≤ f.2 then x else put x (32 * f.2 + l) { cause := 0x42, addr := accAddr e.1 n }) gr.err }
  | none => rs.foldl (fun gr e => returnReg false gr e.2 l (get 0 a.acc (256 * e.1 + n))) gr

/-- Deliver an `MREAD`. -/
def deliverMread (s : State) (c : Cmd) (m : MatCmd) : State :=
  updGroup s c.src (fun gr => (lanesOf m.lanes).foldl (mreadLane (arrayOf s c.core) m) gr)

/-- One lane of an `MWRITE`: its unit becomes correct (R370). -/
def mwriteLane (m : MatCmd) (a : MatArray) (l : Nat) : MatArray :=
  let r := m.desc.toNat % 256
  let n := matCol m l
  let x := (get 0 m.data l).toNat
  let mend (a : MatArray) (r : Nat) : MatArray := { a with accBad := a.accBad.filter (fun e => e.1 != 128 * r + n / 2) }
  let a := writeAcc (mend a r) m.d r n x
  if m.d then mend a (r + 1) else a

/-- The rows of an `MSTORE` up to an uncorrectable unit, and the fault that one is (R370, R382). -/
def storeRows (a : MatArray) (m : MatCmd) : Nat × Option CmdFault :=
  let d := m.desc.toNat
  let k := if 2 ≤ storeAf d then 2 else 1
  match (List.range (descRows d)).find? (fun i => (badRow a.accBad ((List.range k).map (descRow0 d + i * k + ·))).isSome) with
  | some i => (i, some { cause := 0x93, detail := 1, extra := BitVec.ofNat 64 (descRow0 d + i * k) })
  | none => (descRows d, none)

/-- The end of a command on its path, with its effect there. -/
def endOnPath (s : State) (n : Nat) (c : Cmd) (m : MatCmd) : State :=
  let s := updArray s c.core (fun a => leaveQueue a c.src n)
  completeCmd (freeMread s c m) n c 0

/-- MATRIX_COMMAND_COMPLETE. -/
def matComplete (s : State) (n : Nat) : State :=
  match matOf s n with
  | none => s
  | some (c, m) =>
    let a := arrayOf s c.core
    let d := m.desc.toNat
    if (if m.member = 0 then a.loading else a.computing) ≠ some n then s
    else if c.fault.isSome then endOnPath s n c m
    else match m.member with
      | 0 =>
        match readBank s n c m with
        | .ok b => endOnPath (updArray s c.core (fun a => setBank a (descBank d) b)) n c m
        | .error e => matStop s n c m e
      | 1 => if descRows d ≤ m.row then endOnPath s n c m else s
      | 2 => endOnPath (updArray s c.core (fun a => (matRows m).foldl zeroRow a)) n c m
      | 4 =>
        let (k, f) := storeRows a m
        let s := updArray s c.core (fun a => leaveQueue a c.src n)
        updCmd s n (fun c => { c with fault := f, body := .mat { m with hasRead := true, upTo := k, rows := a.acc.filter (fun e => (matRows m).contains (e.1 / 256)) } })
      | 5 => endOnPath (deliverMread s c m) n c m
      | _ => endOnPath (updArray s c.core (fun a => (lanesOf m.lanes).foldl (mwriteLane m) a)) n c m

def execMatrixCommandComplete (n : Nat) (s : State) : Host.Outcome State Fault Refusal := .next (matComplete s n)

/-! The writes of an `MSTORE` (R382). -/

/-- The element format of an output format. -/
def outElem (o : Nat) : Nat :=
  match o with
  | 5 => 16
  | 6 => 6
  | 7 => 8
  | 8 => 19
  | o => o

/-- An accumulator element as a value (R382). -/
def accValue (af x : Nat) : Fp :=
  match af with
  | 0 => decodeFp fp32 x
  | 1 => intFp (BitVec.ofNat 32 x).toInt
  | 2 => decodeFp fp64 x
  | _ => intFp (BitVec.ofNat 64 x).toInt

/-- One element of an output row: its bits, the stochastic state after it and the flags. -/
def outElement (c : Cmd) (d x : Nat) (sr : W32) : Nat × W32 × W64 :=
  if storeOfmt d = 0 then (x, sr, 0)
  else
    let rm := rmOf (BitVec.ofNat 3 (storeRnd d))
    let v := accValue (storeAf d) x
    let sr := if rm = .rs then xorshift sr else sr
    let r := elemEncode (outElem (storeOfmt d)) (rndOf rm (cmdFlags c) sr (spacing v)) c.ftz v
    (r.bits, sr, r.flags)

/-- The bytes of an output row, with the stochastic state and the flags after it. -/
def outRow (c : Cmd) (m : MatCmd) (i : Nat) : List Byte × W32 × W64 :=
  let d := m.desc.toNat
  let wide : Bool := decide (2 ≤ storeAf d)
  let r := descRow0 d + i * (if wide then 2 else 1)
  let x (n : Nat) : Nat := (get 0 m.rows (256 * r + n)).toNat + (if wide then (get 0 m.rows (256 * (r + 1) + n)).toNat * 2 ^ 32 else 0)
  (List.range 256).foldl (fun y n =>
    let (b, sr, f) := outElement c d (x n) y.2.1
    (y.1 ++ leBytes (outBits d / 8) b, sr, y.2.2 ||| f)) ([], c.sr, 0)

/-- Write the next output row. -/
def writeRow (s : State) (n : Nat) (c : Cmd) (m : MatCmd) : Except EngStop State := do
  let d := m.desc.toNat
  let (bs, sr, f) := outRow c m m.row
  let ls ← engBytes s n c .engWrite (m.addr + BitVec.ofNat 64 (m.row * pitchOf d (outRowBytes d))) bs.length
  let s ← engWrite s n c (ls.zip bs)
  pure (updCmd s n (fun c => { c with sr, flags := c.flags ||| f, body := .mat { m with row := m.row + 1 } }))

/-- The end of an `MSTORE` whose rows are performed. -/
def storeEnd (s : State) (n : Nat) : State :=
  match matOf s n with
  | some (c, m) => if m.upTo ≤ m.row ∧ c.left = 0 then completeCmd s n c 0 else s
  | none => s

/-- MSTORE_COMPLETE: the next row is performed, and with the last one the command completes. -/
def matStore (s : State) (n : Nat) : State :=
  match matOf s n with
  | none => s
  | some (c, m) =>
    if m.member ≠ 4 ∨ !m.hasRead then s
    else if m.upTo ≤ m.row then storeEnd s n
    else
      let s := match writeRow s n c m with
        | .ok s => s
        | .error e => engStop s n c e (fun f => updCmd s n (fun c =>
            { c with fault := some { f with extra := BitVec.ofNat 64 (descRow0 m.desc.toNat + m.row * (if 2 ≤ storeAf m.desc.toNat then 2 else 1)) }
                     body := .mat { m with upTo := m.row } }))
      storeEnd s n

def execMstoreComplete (n : Nat) (s : State) : Host.Outcome State Fault Refusal := .next (matStore s n)

/-- SEQUENCER_PARITY_ERROR: the steps are repeated and PARITY counts (R371). -/
def parityError (s : State) (n : Nat) : State :=
  match matOf s n with
  | none => s
  | some (c, _) =>
    let a := arrayOf s c.core
    if a.computing = some n ∨ a.loading = some n then
      updArray s c.core (fun a => { a with parity := if a.parity = 0xFFFF then a.parity else a.parity + 1 })
    else s

def execSequencerParityError (n : Nat) (s : State) : Host.Outcome State Fault Refusal := .next (parityError s n)

/-! The follow-on of a `CPYM` (R335, R377). -/

/-- The order of a command in its source. -/
def cmdOrd (s : State) (c : Cmd) : Nat := ((c.op.bind (fun o => (group s c.src).bind (fun gr => look gr.ops o))).map (·.ord)).getD 0

/-- The address and the row that the record of a refused follow-on names (R387): the image's address where that is what
fails, and the first row of an `MMA`; the descriptor of an `MLOADB` names no row. -/
def refusedAt (q : CopyCmd) (cause detail : Nat) : W64 × W64 :=
  (if cause = 0x90 ∧ (detail = 3 ∨ detail = 4) then BitVec.ofNat 64 q.dst.base else 0,
   if q.fkind = 2 then BitVec.ofNat 64 (descRow0 q.farg.toNat) else 0)

/-- CPYM_HANDOVER: the follow-on enters the queue once there is room and its tag is free; a bad descriptor is reported. -/
def handover (s : State) (n : Nat) : State :=
  match look s.cmds n with
  | none => s
  | some c => match handReady s c, team s c.src.team with
    | some q, some t =>
      let f := followOn c q
      let done (s : State) : State := updCmd s n (fun c => { c with body := .copy { q with handed := true } })
      match matFault t (q.fkind - 1) q.farg.toNat (BitVec.ofNat 64 q.dst.base) with
      | some (cause, detail) =>
        let (addr, row) := refusedAt q cause detail
        done (asyncFault s c.src (some c.lane) 0 0 cause detail addr f.ident row)
      | none =>
        if 4 ≤ (queueOf (arrayOf s c.core) c.src).length ∨ !tagFree s c.src.team f.tag then s
        else done (issueMat s (cmdOrd s c) (oneLane c.lane) f)
    | _, _ => s

def execCpymHandover (n : Nat) (s : State) : Host.Outcome State Fault Refusal := .next (handover s n)

end Sys2Proof.Machine
end

