-- ==== Sys2Proof/Machine/Ceiling.lean ====
section
/-! DEFINITION. Ceiling: leave for heavy commands, within a pool for each window (R4, R372, R525, R526). -/

namespace Sys2Proof.Machine

/-- The charge of a command in pJ (R525). -/
def chargeOf (c : Cmd) : Nat :=
  match c.body with
  | .copy q => copyBytes q * 8
  | .sweep q => (q.ranges.map (·.2)).sum * 8
  | .mat m =>
    let d := m.desc.toNat
    match m.member with
    | 0 => (matK (descFmt d) * bRowBytes d + matScales d * 256) * 8
    | 1 => (descRows d + 1) / 2 * (mfmt (descFmt d)).planes * 2300
    | _ => descRows d * outRowBytes d * 8
  | .coll _ => 0

/-- A charge fits the window's pool, or is the window's first (R526). -/
def fitsPool (x : Ceiling) (charge : Nat) : Bool :=
  x.spent == 0 || decide ((x.spent + charge) * 1280 ≤ (x.pcap - 600) * 10 ^ 6 * x.scale)

/-- Grant waiting requests from the oldest, until one does not fit. -/
def grantFrom (s : State) : List Nat → State
  | [] => { s with ceil := { s.ceil with queue := [] } }
  | n :: ns =>
    match look s.cmds n with
    | none => grantFrom s ns
    | some c =>
      if fitsPool s.ceil (chargeOf c) then
        grantFrom (updCmd { s with ceil := { s.ceil with spent := s.ceil.spent + chargeOf c } } n (fun c => { c with leave := .granted })) ns
      else { s with ceil := { s.ceil with queue := n :: ns } }

/-- The window of the current cycle: at its start the pool is fresh and waiting requests are granted. -/
def newWindow (s : State) : State :=
  let w := s.cycle / 1750
  if s.ceil.window = w then s else grantFrom { s with ceil := { s.ceil with window := w, spent := 0 } } s.ceil.queue

/-- CEILING_WINDOW. -/
def execCeilingWindow (s : State) : Host.Outcome State Fault Refusal := .next (newWindow s)

/-- A command wants leave now: a copy or a sweep that has started, or the head of a matrix queue (R4, R372). -/
def wantsLeave (s : State) (n : Nat) (c : Cmd) : Bool :=
  match c.body with
  | .mat m => asksLeave m && c.leave == .unasked && cmdResident s c && isHead s c n
  | _ => c.leave == .wanted

/-- A request from a higher quad has arrived in this cycle, so one of this quad cannot arrive behind it (R526). -/
def afterHigher (s : State) (quad : Nat) : Bool := s.ceil.last.any (fun x => x.1 == s.cycle && decide (quad < x.2))

/-- LEAVE_REQUEST: a request reaches Ceiling and is granted, or waits behind the older ones. -/
def askLeave (s : State) (n : Nat) : State :=
  match look s.cmds n with
  | none => s
  | some c =>
    if c.fault.isSome ∨ !wantsLeave s n c ∨ afterHigher s (quadOf c.core) then s
    else
      let s := updCmd (newWindow s) n (fun c => { c with leave := .queued })
      grantFrom { s with ceil := { s.ceil with last := some (s.cycle, quadOf c.core) } } (s.ceil.queue ++ [n])

def execLeaveRequest (n : Nat) (s : State) : Host.Outcome State Fault Refusal := .next (askLeave s n)

end Sys2Proof.Machine
end

