-- ==== Sys2Proof/Machine/ZenQueue.lean ====
section
/-! DEFINITION. Zenith's accesses to memory, its queues and their registers, pushes and the pending lists (R469 to R474,
R509, R531). -/

namespace Sys2Proof.Machine

/-! Accesses to memory under a context (R509). -/

/-- Why Zenith cannot access its bytes yet, or at all. -/
inductive ZStop where
  | walk (k : AccKind) (va : W64)
  | lines (lns : List Nat)        -- peer lines to ask for
  | holders (lns : List Nat)      -- lines that other devices hold
  | wait
  | bad (cause detail : Nat) (va : W64)
  deriving DecidableEq, Repr

/-- Zenith as a source of the fabric (log 20). -/
def zenSrc : SrcId := ⟨2 ^ 39, 0⟩

/-- The other tasks under which Zenith waits for translations (`taskSlot`). -/
def taskHead (q : Nat) : Nat := 4 * q + 1
def taskPlace (q : Nat) : Nat := 4 * q + 2
def taskEnd (tm : Nat) : Nat := 2 ^ 20 + 2 * tm
def taskSave (tm : Nat) : Nat := 2 ^ 20 + 2 * tm + 1
def taskCtx (ctx : Nat) : Nat := 2 ^ 60 + ctx

/-- Translate one address. The scratchpad and counter windows are no memory of Zenith's. -/
def zenPa (s : State) (ctx : Nat) (k : AccKind) (task : Nat) (va : W64) : Except ZStop Nat :=
  if nonCanonical va then .error (.bad 0x41 1 va)
  else if inScratch va then .error (.bad 0x50 1 va)
  else if inCounters va then .error (.bad 0x50 2 va)
  else match translate s zenCore ctx k (.zen task) va with
    | .ok pa _ => .ok pa
    | .bad cause detail => .error (.bad cause detail va)
    | .walk => .error (.walk k va)

/-- The physical bytes of n bytes from an address. -/
def zenPas (s : State) (ctx : Nat) (k : AccKind) (task : Nat) (va : W64) (n : Nat) : Except ZStop (List Nat) :=
  (List.range n).mapM (fun j => zenPa s ctx k task (va + BitVec.ofNat 64 j))

/-- Read n bytes, as strong loads do (R70). -/
def zenRead (s : State) (ctx task : Nat) (va : W64) (n : Nat) : Except ZStop (List Byte) := do
  let pas ← zenPas s ctx .zenith task va n
  if isMoving s pas then throw .wait
  else if linesMissing s pas ≠ [] then throw (.lines (linesMissing s pas))
  else match badUnit s pas with
    | some _ => throw (.bad 0x42 0 va)
    | none => pure (pas.map (homeByte s))

/-- The doublewords of some bytes. -/
def dwords (bs : List Byte) : List W64 := (pieces 8 bs).map (fun b => BitVec.ofNat 64 (leNat b))
/-- The bytes of some doublewords. -/
def dwordBytes (ws : List W64) : List Byte := ws.flatMap (fun w => leBytes 8 w.toNat)

/-- Read n doublewords. -/
def zenDwords (s : State) (ctx task : Nat) (va : W64) (n : Nat) : Except ZStop (List W64) :=
  (zenRead s ctx task va (8 * n)).map dwords

/-- Send a write of Zenith's to the other devices among its bytes (log 20). -/
def zenPeers (s : State) (bs : List (Nat × Byte)) : Option State :=
  ((bs.map (fun b => peerDev b.1)).eraseDups).foldl (fun r d => match r with
    | none => none
    | some s =>
      let a : Away := { dev := d, src := zenSrc, op := none, stream := 0, seq := 0, core := 0, addr := 0, kind := .store [] }
      (sendWrites s a { body := .ctl 0 0 } .store (bs.filter (fun b => peerDev b.1 == d))).map (·.2)) (some s)

/-- Write bytes from an address, at their home slices. -/
def zenWrite (s : State) (ctx task : Nat) (va : W64) (bs : List Byte) : Except ZStop State := do
  let pas ← zenPas s ctx .zenWrite task va bs.length
  if isMoving s pas then throw .wait
  else if heldAway s pas ≠ [] then throw (.holders (heldAway s pas))
  else
    let ws := pas.zip bs
    match zenPeers s (ws.filter (fun b => tierOf b.1 == some 3)) with
    | none => throw .wait
    | some s => pure (engineWrite s (ws.filter (fun b => tierOf b.1 != some 3)))

/-- A task's declined accesses are over. -/
def dropDeclined (s : State) (task : Nat) : State := { s with declined := s.declined.filter (fun d => d.waiter ≠ .zen task) }

/-- Write bytes; a write that the host declines is dropped (log 20). -/
def zenWriteDrop (s : State) (ctx task : Nat) (va : W64) (bs : List Byte) : Except ZStop State :=
  match zenWrite s ctx task va bs with
  | .error (.bad _ _ _) => .ok (dropDeclined s task)
  | r => r

/-- What becomes of a step of Zenith's that cannot be completed now: it asks for what it lacks and is tried again, or a
fault is dealt with. -/
def zenStop (s : State) (ctx task : Nat) (e : ZStop) (onBad : Nat → Nat → W64 → State → State) : State :=
  match e with
  | .walk k va => if waitsFor s ctx va k (.zen task) then s else requestWalk s zenCore ctx (va &&& 0x1FFFFFFFFFFFFFF) k (.zen task)
  | .lines l => askLines s zenSrc zenCore l
  | .holders l => invalLines s l
  | .wait => s
  | .bad cause detail va => onBad cause detail va (dropDeclined s task)

/-- Run a step of Zenith's. -/
def zenRun (s : State) (ctx task : Nat) (onBad : Nat → Nat → W64 → State → State) (r : Except ZStop State) : State :=
  match r with
  | .ok s => s
  | .error e => zenStop s ctx task e onBad

/-- A step whose faults change nothing. -/
def noBad (_ _ : Nat) (_ : W64) (s : State) : State := s

/-- A word that Zenith cannot complete now. -/
def zenWord (s : State) (ctx task : Nat) (r : Except ZStop State) : State :=
  match r with
  | .ok s => s
  | .error e => { zenStop s ctx task e noBad with cur := { s.cur with stalled := true } }

/-! Reports (R500, R511, log 20). -/

/-- A report of Zenith's to a host's fault queue, and to that of a context's host (R510). -/
def zenPut (s : State) (h ctx cause detail : Nat) (addr ident : W64) : State :=
  hostPut s h (hostWords ctx 6 detail cause false addr ident 0)
def zenReport (s : State) (ctx cause detail : Nat) (addr ident : W64) : State := zenPut s (hostOf ctx) ctx cause detail addr ident

/-! Queues (R469). -/

def zq (s : State) (q : Nat) : ZQueue := (look s.zen.queues q).getD {}
def updQ (s : State) (q : Nat) (f : ZQueue → ZQueue) : State :=
  { s with zen := { s.zen with queues := put s.zen.queues q (f (zq s q)) } }

/-- The number of slots and the slots in use. -/
def qSize (x : ZQueue) : Nat := 2 ^ x.log2n.toNat
def qUsed (x : ZQueue) : Nat := (x.tail - x.head).toNat
/-- Zenith takes the queue. -/
def qTaken (x : ZQueue) : Bool := x.enable && decide (6 ≤ x.log2n.toNat) && decide (x.log2n.toNat ≤ 20)
/-- The address of the slot of a count. -/
def slotVa (x : ZQueue) (n : W32) : W64 := x.base + BitVec.ofNat 64 (64 * (n.toNat % qSize x))
/-- The slot's eight doublewords. -/
def slotWords (r : Mark) : List W64 := (r.words ++ List.replicate 8 0).take 8
/-- The kind of a record (R472). -/
def recKind (ws : List W64) : Nat := fieldN (ws.headD 0) 61 3

/-- QCFG as it reads. -/
def qcfgWord (q : Nat) (x : ZQueue) : W64 :=
  BitVec.ofNat 64 (x.ctx.toNat * 2 ^ 48 + x.slice.toNat * 2 ^ 32 + x.runest.toNat * 2 ^ 16 + (if x.ovf then 2 ^ 15 else 0) +
    x.log2n.toNat * 2 ^ 6 + q / 32 * 2 ^ 5 + (if x.enable then 2 ^ 4 else 0) + x.pri.toNat)

/-- The host may change CTX, LOG2N and QBASE (R469). -/
def qIdle (x : ZQueue) : Bool := !x.enable && x.head == x.tail

/-- A write of QCFG (R469); a host that sets ENABLE lets a declined slot write be tried again (R531). -/
def writeQcfg (x : ZQueue) (v : W64) : ZQueue :=
  { x with ctx := if qIdle x then v.extractLsb' 48 16 else x.ctx, slice := v.extractLsb' 32 8, runest := v.extractLsb' 16 16
           ovf := x.ovf && !v.getLsbD 15, log2n := if qIdle x then v.extractLsb' 6 5 else x.log2n, enable := v.getLsbD 4
           pri := v.extractLsb' 0 3, stuck := x.stuck && !v.getLsbD 4 }

/-- Queue q belongs to host port q div 32. -/
def ownsQueue (h q : Nat) : Bool := decide (q < 64) && q / 32 == h

def execQcfgWrite (h q : Nat) (v : W64) (s : State) : Host.Outcome State Fault Refusal :=
  .next (if ownsQueue h q then
    let s := updQ s q (writeQcfg · v)
    { s with zen := { s.zen with enabled := s.zen.enabled || v.getLsbD 4 } } else s)
def execQbaseWrite (h q : Nat) (v : W64) (s : State) : Host.Outcome State Fault Refusal :=
  .next (if ownsQueue h q then updQ s q (fun x => if qIdle x then { x with base := v &&& 0x01FFFFFFFFFFFFC0 } else x) else s)

/-! Launches in the counter table (R483). -/

/-- A launch that is not finished: its count has not reached 0. -/
def cntLive (c : Cnt) : Bool := (c.state == 1 || c.state == 5) && decide (0 < c.count)
/-- The entry of a launch that lives, by its key and `seq`. -/
def liveRun (s : State) (key run : Nat) : Option Cnt :=
  match look s.lcnt key with
  | some c => if c.seq = run ∧ cntLive c then some c else none
  | none => none
def updCnt (s : State) (key : Nat) (f : Cnt → Cnt) : State := { s with lcnt := upd s.lcnt key f }
/-- The launch that a program record names: DW3 [63:32] in the queue's context. -/
def recKey (x : ZQueue) (ws : List W64) : Nat := lcntKey x.ctx.toNat (fieldN (ws.getD 3 0) 32 32)

/-- A graph that runs, by its slot and `seq`. -/
def liveGraph (s : State) (slot run : Nat) : Bool := (look s.zen.gcnt slot).any (fun g => g.seq == run && g.state == 1)

/-- The work that a record belongs to still lives: a host's record always does. -/
def markLive (s : State) (x : ZQueue) (r : Mark) : Bool :=
  r.run == 0 || (match r.node with
    | some (slot, _) => liveGraph s slot r.run
    | none => (liveRun s (recKey x r.words) r.run).isSome)

/-! Pushes (R470, R471, R474, R531). -/

/-- A continuation that Zenith pushed: no record of a host or of a graph's node is one (R473). -/
def isCont (r : Mark) : Bool := recKind r.words == 2 && r.run != 0 && r.node.isNone

/-- A continuation takes its index as a slot becomes its own (R471, R474): the record, and NEXT raised. -/
def takeIndex (s : State) (x : ZQueue) (r : Mark) : Mark × State :=
  if isCont r then
    match liveRun s (recKey x r.words) r.run with
    | some c => ({ r with words := r.words.set 3 (r.words.getD 3 0 ||| BitVec.ofNat 64 c.next) },
        updCnt s (recKey x r.words) (fun c => { c with next := c.next + 1 }))
    | none => (r, s)
  else (r, s)

/-- Write a record into the tail's slot and advance TAIL. -/
def enterSlot (s : State) (q : Nat) (r : Mark) : Except ZStop State := do
  let x := zq s q
  let r := { r with held := false, faulted := false }
  let s ← zenWrite s x.ctx.toNat (taskSlot q) (slotVa x x.tail) (dwordBytes (slotWords r))
  pure (updQ s q (fun x => { x with tail := x.tail + 1, marks := put x.marks x.tail.toNat r }))

/-- The host declines a slot's write (R531): that of the queue's context. -/
def slotDeclined (q : Nat) (s : State) : State :=
  let x := zq s q
  zenReport (updQ s q (fun x => { x with enable := false, stuck := true })) x.ctx.toNat 0xC0 4 (slotVa x x.tail) 0

/-- The first record of the pending list enters the ring, if there is room; one that waited for a slot takes its index first. -/
def enterRing (s : State) (q : Nat) : State :=
  let x := zq s q
  match x.pending with
  | [] => s
  | r :: rest =>
    if !markLive s x r then updQ s q (fun x => { x with pending := rest })
    else if x.stuck ∨ qSize x ≤ qUsed x then s
    else
      let (r, s) := if r.held then takeIndex s x r else (r, s)
      let r := { r with held := false }
      zenRun (updQ s q (fun x => { x with pending := r :: rest })) x.ctx.toNat (taskSlot q) (fun _ _ _ => slotDeclined q)
        ((enterSlot s q r).map (fun s => updQ s q (fun x => { x with pending := rest })))

/-- Records wait in the pending list of R471: for a slot, or for the host since the slot's write met a translation fault (R531). -/
def listHeld (s : State) (q : Nat) : Bool :=
  let x := zq s q
  x.stuck || x.pending.any (fun r => r.held || r.faulted) || s.tfaults.any (fun e => e.2.waiters.contains (.zen (taskSlot q)))

/-- The slots that a push finds free: none while the pending list is not empty (R471, R531). Records that only wait for a walk
have their slots, and their indices, and are on their way there (log 20). -/
def qFree (s : State) (q : Nat) : Nat :=
  let x := zq s q
  if listHeld s q then 0 else qSize x - qUsed x - x.pending.length

/-- Push a record: it takes the next slot and enters the ring, or waits in the pending list behind the earlier ones. -/
def pushRec (s : State) (q : Nat) (r : Mark) : State :=
  let x := zq s q
  let full : Bool := qFree s q == 0
  let (r, s) := if full then (r, s) else takeIndex s x r
  let s := updQ s q (fun x => { x with pending := x.pending ++ [{ r with held := full }] })
  if x.pending = [] then enterRing s q else s

def execPendingListEntry (q : Nat) (s : State) : Host.Outcome State Fault Refusal := .next (enterRing s q)

/-- A host's write to the QPUSH window (R470): one write of 64 bytes that covers it pushes a record. -/
def hostPush (h q off : Nat) (data : List Byte) (s : State) : State :=
  let x := zq s q
  if !ownsQueue h q then s
  else if off ≠ 0 ∨ data.length ≠ 64 then zenPut s h x.ctx.toNat 0xC6 3 0 0
  else if qFree s q = 0 then updQ s q (fun x => { x with ovf := true })
  else pushRec s q { words := dwords data }
def execQpushWindowWrite (h q off : Nat) (data : List Byte) (s : State) : Host.Outcome State Fault Refusal := .next (hostPush h q off data s)

/-- The head record leaves its queue (R476). -/
def leaveHead (s : State) (q : Nat) : State :=
  updQ s q (fun x => { x with head := x.head + 1, prog := none, marks := del x.marks x.head.toNat, blocked := none, woke := none })
/-- The list of a queue's saved teams changes; where another team becomes the queue's next, it has not waited yet (R491). -/
def setSaved (x : ZQueue) (ts : List Nat) : ZQueue :=
  if ts.head? = x.saved.head? then { x with saved := ts } else { x with saved := ts, blocked := none, woke := none }

/-- The head record of a queue, as memory holds it. -/
def headWords (s : State) (q : Nat) : Except ZStop (List W64) :=
  zenDwords s (zq s q).ctx.toNat (taskHead q) (slotVa (zq s q) (zq s q).head) 8
/-- A queue has a record at its head that no team comes from yet. -/
def headReady (x : ZQueue) : Bool := qTaken x && x.prog.isNone && x.head != x.tail

/-- The host declines the read of a head record: the queue is disabled as R531 does for a write (log 20). -/
def headDeclined (q : Nat) (s : State) : State :=
  let x := zq s q
  zenReport (updQ s q (fun x => { x with enable := false })) x.ctx.toNat 0xC0 4 (slotVa x x.head) 0
/-- A record of no kind is skipped and counted (R472). -/
def skipHead (detail : Nat) (s : State) (q : Nat) : State :=
  let x := zq s q
  let s := zenReport (leaveHead s q) x.ctx.toNat 0xC6 detail (slotVa x x.head) 0
  { s with zen := { s.zen with skipped := s.zen.skipped + 1 } }

end Sys2Proof.Machine
end

