-- ==== Sys2Proof/Machine/ZenLaunch.lean ====
section
/-! DEFINITION. Zenith's counters, launch records, graphs and phases (R31 to R33, R129, R483 to R488). -/

namespace Sys2Proof.Machine

/-! Counters of phases and jobs (R483). -/

/-- New work of a context is taken: an entry counts it, and runs. -/
def countUp (m : FMap Cnt) (ctx : Nat) : FMap Cnt := put m ctx { count := ((look m ctx).getD {}).count + 1, state := 1 }
/-- Work of a context is finished: the entry completes when its count reaches 0. -/
def countDown (m : FMap Cnt) (ctx : Nat) : FMap Cnt :=
  upd m ctx (fun c => { c with count := c.count - 1, state := if c.count = 1 ∧ c.state = 1 then 2 else c.state })

/-- A launch or a graph of a context is taken, and finishes (R488). -/
def phaseUp (s : State) (ctx : Nat) : State := { s with zen := { s.zen with pcnt := countUp s.zen.pcnt ctx, jcnt := countUp s.zen.jcnt ctx } }
def phaseDown (s : State) (ctx : Nat) : State := { s with zen := { s.zen with pcnt := countDown s.zen.pcnt ctx, jcnt := countDown s.zen.jcnt ctx } }

/-! Graph progress (R487). -/

def updGraph (s : State) (slot : Nat) (f : Graph → Graph) : State := { s with zen := { s.zen with gcnt := upd s.zen.gcnt slot f } }
/-- Change a node. -/
def updNode (g : Graph) (j : Nat) (f : GNode → GNode) : Graph := { g with nodes := g.nodes.modify j f }

/-- A node finishes, or becomes unreachable. -/
def endNode (g : Graph) (j st : Nat) : Graph := { updNode g j (fun x => { x with state := st }) with count := g.count - 1 }
/-- The successors of some nodes that have not been pushed become unreachable, and theirs in turn; n bounds the number of
rounds. -/
def unreachable (n : Nat) (g : Graph) (js : List Nat) : Graph :=
  match n with
  | 0 => g
  | n + 1 =>
    let next := (js.flatMap (fun j => ((g.nodes[j]?).map (·.succs)).getD [])).eraseDups.filter (fun j => (g.nodes[j]?).any (·.state == 0))
    if next = [] then g else unreachable n (next.foldl (fun g j => endNode g j 4) g) next
/-- A node completes: each successor has one unfinished predecessor less. -/
def lowerSuccs (g : Graph) (j : Nat) : Graph :=
  (((g.nodes[j]?).map (·.succs)).getD []).foldl (fun g k => updNode g k (fun x => { x with left := x.left - 1 })) g
/-- The nodes that can be pushed. -/
def readyNodes (g : Graph) : List Nat := (List.range g.nodes.length).filter (fun j => (g.nodes[j]?).any (fun x => x.state == 0 && x.left == 0))

/-- Push the launch record of a node. -/
def pushNode (slot run : Nat) (s : State) (j : Nat) : State :=
  match (look s.zen.gcnt slot).bind (fun g => g.nodes[j]?) with
  | some x => pushRec (updGraph s slot (fun g => updNode g j (fun x => { x with state := 1 }))) x.queue
      { words := x.record, node := some (slot, j), run }
  | none => s

/-- A graph whose nodes have all finished completes. -/
def graphEnd (s : State) (slot : Nat) : State :=
  match look s.zen.gcnt slot with
  | some g =>
    if g.state = 1 ∧ g.count = 0 then
      phaseDown (updGraph s slot (fun g => { g with state := if g.nodes.all (·.state == 2) then 2 else 5 })) g.ctx
    else s
  | none => s

/-- The launch of a node has ended (R487). -/
def nodeDone (s : State) (slot run j : Nat) (ok : Bool) : State :=
  if !liveGraph s slot run then s
  else
    let s := updGraph s slot (fun g =>
      if ok then lowerSuccs (endNode g j 2) j else unreachable (g.nodes.length + 1) (endNode g j 3) [j])
    let s := (((look s.zen.gcnt slot).map readyNodes).getD []).foldl (pushNode slot run) s
    graphEnd s slot

/-- The node of a launch, if it runs one. -/
def nodeOf (s : State) (n : Option (Nat × Nat)) (run : Nat) (ok : Bool) : State :=
  match n with
  | some (slot, j) => nodeDone s slot run j ok
  | none => s

/-- The `seq` of the graph in a slot. -/
def graphRun (s : State) (n : Option (Nat × Nat)) : Nat := (n.bind (fun e => (look s.zen.gcnt e.1).map (·.seq))).getD 0

/-! Completion of a launch (R33, R485, R489). -/

/-- Write a launch's completion word, if it has one. -/
def writeCompl (s : State) (ctx task : Nat) (compl v : W64) : Except ZStop State :=
  if compl = 0 then .ok s else zenWriteDrop s ctx task compl (leBytes 8 v.toNat)

/-- A launch's count has reached 0: its entry reaches its final state, and its phase, job and graph hear of it. -/
def launchEnds (s : State) (key : Nat) (c : Cnt) (state : Nat) : State :=
  let s := updCnt s key (fun c => { c with state, count := 0 })
  nodeOf (phaseDown s c.launch.ctx) c.node (graphRun s c.node) (state == 2)

/-- Drop the head record of a launch's queue, if it belongs to the launch. -/
def dropProg (s : State) (q key run : Nat) : State :=
  match (zq s q).prog with
  | some p => if p.key = key ∧ p.run = run then leaveHead s q else s
  | none => s

/-- A saved team is discarded (R30, R82): it stands on no core while its operations drain. -/
def discardSaved (s : State) (tm : Nat) : State :=
  match team s tm with
  | none => s
  | some t =>
    let s := updTeam s tm (fun t => { t with core := zenCore })
    let s := updQ s t.queue (fun x => setSaved x (x.saved.filter (· ≠ tm)))
    updTeam s tm (fun t => { t with cancelReq := true })

/-- Nothing of a team is outstanding. -/
def drained (s : State) (tm : Nat) (t : Team) : Bool :=
  t.groups.all (fun e => e.2.live == 0 && e.2.ops.isEmpty && e.2.defWait.isNone) && t.ring.isEmpty && t.dictBusy.isNone &&
  !s.loads.any (fun e => e.2.src.team == tm) && !s.cmds.any (fun e => e.2.src.team == tm) && !s.pkts.any (fun e => e.2.src.team == tm) &&
  !s.acks.any (fun e => e.2.src.team == tm) && !s.rmoAcks.any (fun e => e.2.src.team == tm) && !s.recs.any (fun e => e.2.team == tm) &&
  !s.fab.away.any (fun e => e.2.src.team == tm) && !s.invals.any (fun e => e.2.src.any (·.team == tm))

/-- The last team of a launch has nothing left to do: its end stands against a cancel (R490). -/
def lastEnds (s : State) (c : Cnt) : Bool :=
  c.count == 1 && s.teams.any (fun e => e.2.run == c.seq && e.2.status != .saved && drained s e.1 e.2)

/-- Cancel a launch (R489), unless its last team is ending (R490). Records of it that stand in its queue are dropped when their
turn comes (log 20). -/
def cancelLaunch (s : State) (key task : Nat) : Except ZStop State :=
  match look s.lcnt key with
  | none => .ok s
  | some c =>
    if !cntLive c || lastEnds s c then .ok s
    else
      let ts := (s.teams.filter (fun e => e.2.run == c.seq)).map (·.1)
      let s := launchEnds s key c 3
      let s := dropProg s c.queue key c.seq
      let s := ts.foldl (fun s tm =>
        if (team s tm).any (·.status == .saved) then discardSaved s tm else updTeam s tm (fun t => { t with cancelReq := true })) s
      if ts = [] then writeCompl s c.launch.ctx task c.launch.compl 0xFF else .ok s

/-! Launch records (R31, R32, R129, R484). -/

/-- A launch record's fields. -/
def launchOf (ws : List W64) : Launch :=
  let f (k lo n : Nat) : Nat := fieldN (ws.getD k 0) lo n
  { kcode := ws.getD 0 0 &&& 0x01FFFFFFFFFFFFF8, frame := ws.getD 1 0 &&& 0x01FFFFFFFFFFFFF8, compl := ws.getD 2 0 &&& 0x01FFFFFFFFFFFFF8
    extz := f 3 47 16, exty := f 3 31 16, extx := f 3 0 31
    rmode := BitVec.ofNat 2 (f 4 39 2), ftz := f 4 38 1 == 1, barlog := f 4 33 5, tagn := f 4 26 7, tagbase := f 4 20 6
    scrkb := f 4 10 10, regb := f 4 5 5, grpm1 := f 4 0 5
    remap := f 5 32 1 == 1, chmap := f 5 16 16, ctx := f 5 0 16
    gslot := f 6 32 16, lid := f 6 0 32, save := ws.getD 7 0 &&& 0x01FFFFFFFFFFF000 }

/-- The first true condition of a list. -/
def firstTrue (l : List (Bool × Nat)) : Option Nat := (l.find? (·.1)).map (·.2)

/-- A running graph of a context. -/
def graphRuns (s : State) (ctx slot : Nat) : Bool := (look s.zen.gcnt slot).any (fun g => g.state == 1 && g.ctx == ctx)

/-- The first cause that refuses a launch record (R31, R484), in the order of its fields (log 14). -/
def recordCause (s : State) (ctx : Nat) (ws : List W64) : Option Nat :=
  let l := launchOf ws
  let off (k : Nat) (m : W64) : Bool := ws.getD k 0 &&& m != 0
  firstTrue [
    (off 0 0xFE00000000000007, 0xC1), (l.kcode == 0, 0xC1), (off 1 0xFE00000000000007, 0xC1), (off 2 0xFE00000000000007, 0xC1),
    (off 3 0x8000000000000000, 0xC1), (l.extz == 0 || l.exty == 0 || l.extx == 0, 0xC1),
    (decide (2 ^ 31 < l.extx * l.exty * l.extz), 0xC1),
    (off 4 0xFFFFFE0000000000, 0xC1), (decide (1 ≤ l.barlog ∧ l.barlog ≤ 9), 0xC1), (decide (64 < l.tagbase + l.tagn), 0xC1),
    (decide (768 < l.scrkb), 0xC1), (decide (4096 < (l.grpm1 + 1) * (8 * (l.regb + 1))), 0xC3),
    (off 5 0xFFFFFFFE00000000, 0xC1), (l.chmap != s.chmapId.toNat && !l.remap, 0xC2),
    (l.ctx != ctx || !(read64 s (ctxEntry s l.ctx)).getLsbD 63, 0xC1),
    (off 6 0xFFFF000000000000, 0xC1), (l.gslot != 0xFFFF && !graphRuns s ctx l.gslot, 0xC1),
    ((look s.lcnt (lcntKey ctx l.lid)).any cntLive, 0xC1), (off 7 0xFE00000000000FFF, 0xC1)]

/-- A bad header of a kernel image (R129). -/
def headerBad (l : Launch) (h : List W64) : Bool :=
  let f (k lo n : Nat) : Nat := fieldN (h.getD k 0) lo n
  h.getD 0 0 != 0x5A4B0001 || f 1 32 3 != 0 || f 1 0 32 == 0 || f 1 0 3 != 0 ||
  f 2 43 21 != 0 || decide (1024 < f 2 32 11) || f 2 0 3 != 0 || f 3 37 27 != 0 || decide (24 < f 3 32 5) || f 3 0 3 != 0 ||
  f 4 29 35 != 0 || decide (l.scrkb < f 4 19 10) || l.grpm1 != f 4 14 5 || decide (l.regb < f 4 9 5) || f 4 0 9 != 0 ||
  [5, 6, 7].any (fun k => h.getD k 0 != 0)

/-- The launch with what its image's header gives. -/
def withHeader (l : Launch) (h : List W64) : Launch :=
  let f (k lo n : Nat) : Nat := fieldN (h.getD k 0) lo n
  { l with leadoff := f 1 32 32, laneoff := f 1 0 32, dictn := f 2 32 11, dictoff := f 2 0 32 }

/-- Check a launch record and its image's header: the cause of a refusal, or the launch. A header that the host declines to
map refuses the launch (log 20). -/
def checkLaunch (s : State) (ctx task : Nat) (ws : List W64) : Except ZStop (Except Nat Launch) :=
  match recordCause s ctx ws with
  | some c => .ok (.error c)
  | none => match zenDwords s ctx task (launchOf ws).kcode 8 with
    | .ok h => .ok (if headerBad (launchOf ws) h then .error 0xC1 else .ok (withHeader (launchOf ws) h))
    | .error (.bad _ _ _) => .ok (.error 0xC1)
    | .error e => .error e

/-- Room for one entry more in the table of launches: the oldest finished one goes (R483). -/
def makeRoom (s : State) (key : Nat) : State :=
  if s.lcnt.length < 4096 ∨ (look s.lcnt key).isSome then s
  else
    let done := s.lcnt.filter (fun e => !cntLive e.2)
    match done.find? (fun e => done.all (fun x => decide (e.2.seq ≤ x.2.seq))) with
    | some e => { s with lcnt := del s.lcnt e.1 }
    | none => s
/-- All entries of the table are running. -/
def lcntFull (s : State) : Bool := decide (4096 ≤ (s.lcnt.filter (fun e => cntLive e.2)).length)

/-- Refuse a launch (R32). A duplicate of a live launch leaves that launch's entry as it is. -/
def refuseLaunch (s : State) (q cause : Nat) (ws : List W64) (r : Mark) : Except ZStop State := do
  let x := zq s q
  let l := launchOf ws
  let key := lcntKey x.ctx.toNat l.lid
  let (n, s) := newId (dropDeclined s (taskHead q))
  let s := if (look s.lcnt key).any cntLive then s
    else let s := makeRoom s key; { s with lcnt := put s.lcnt key { state := 4, cause, seq := n, launch := l, queue := q } }
  let s ← writeCompl s x.ctx.toNat (taskHead q) l.compl (BitVec.ofNat 64 cause)
  let s := leaveHead s q
  let s := match r.issuer with
    | some (id, lane) => asyncFault s id (some lane) 0 0 cause 0 0 (BitVec.ofNat 64 l.lid) 0 r.origin
    | none => s
  pure (nodeOf s r.node r.run false)

/-- Accept a launch (R474, R476, R483, R488). -/
def acceptLaunch (s : State) (q : Nat) (l : Launch) (r : Mark) : State :=
  let key := lcntKey l.ctx l.lid
  let (n, s) := newId (makeRoom s key)
  let teams := l.extx * l.exty * l.extz
  let s := { s with lcnt := put s.lcnt key { count := teams, state := 1, next := teams, seq := n, launch := l, queue := q, node := r.node } }
  let s := phaseUp s l.ctx
  updQ s q (fun x => { x with prog := some { key, run := n, next := 0, last := teams, entry := l.kcode + BitVec.ofNat 64 l.laneoff, frame := l.frame } })

/-- The mark of the head's record. -/
def headMark (x : ZQueue) : Mark := (look x.marks x.head.toNat).getD { words := [] }
/-- A phase mark has stopped the context of a queue. -/
def halted (s : State) (x : ZQueue) : Bool := (look s.zen.halts x.ctx.toNat).isSome

/-- Take a launch record from the head. A node's record whose graph is over is dropped (R489). -/
def takeLaunch (s : State) (q : Nat) : Except ZStop State := do
  let x := zq s q
  let ws ← headWords s q
  if recKind ws ≠ 0 ∨ lcntFull s then pure s
  else if !markLive s x (headMark x) then pure (leaveHead s q)
  else match ← checkLaunch s x.ctx.toNat (taskHead q) ws with
    | .ok l => pure (acceptLaunch s q l (headMark x))
    | .error cause => refuseLaunch s q cause ws (headMark x)

/-- Take the head of a queue, where its kind and the context allow. -/
def takeHead (s : State) (q : Nat) (f : State → Except ZStop State) : State :=
  if !headReady (zq s q) ∨ halted s (zq s q) then s
  else zenRun s (zq s q).ctx.toNat (taskHead q) (fun _ _ _ => headDeclined q) (f s)

/-- LAUNCH_RECORD_TAKE. -/
def execLaunchRecordTake (q : Nat) (s : State) : Host.Outcome State Fault Refusal := .next (takeHead s q (takeLaunch · q))

/-! Graphs (R486). -/

/-- A node from its sixteen doublewords. -/
def graphNode (ws : List W64) : GNode :=
  { record := ws.take 8, left := fieldN (ws.getD 8 0) 32 16, queue := fieldN (ws.getD 8 0) 0 6
    succs := (List.range (fieldN (ws.getD 8 0) 48 16)).map (fun i => fieldN (ws.getD (9 + i / 4) 0) (16 * (i % 4)) 16) }

/-- The nodes' first fault, as DETAIL of ZEN_GRAPH. -/
def nodesBad (s : State) (ctx slot : Nat) (raw : List (List W64)) : Option Nat :=
  let ns := raw.map graphNode
  let edges := ns.flatMap (fun n => n.succs)
  firstTrue [
    (raw.any (fun ws => fieldN (ws.getD 8 0) 6 26 != 0 || [13, 14, 15].any (fun k => ws.getD k 0 != 0)), 1),
    (raw.any (fun ws => decide (16 < fieldN (ws.getD 8 0) 48 16)), 2),
    (edges.any (fun k => decide (ns.length ≤ k)), 2),
    ((List.range ns.length).any (fun j => ((ns[j]?).map (·.left)).getD 0 != edges.count j), 2),
    (ns.any (fun n => fieldN (n.record.getD 6 0) 32 16 != slot || (zq s n.queue).ctx.toNat != ctx), 2)]

/-- Read and check a graph's descriptor: its nodes, or the DETAIL of ZEN_GRAPH. A descriptor that the host declines to map
has a bad header (log 20). -/
def readGraph (s : State) (ctx task slot : Nat) (ws : List W64) : Except ZStop (Except Nat (List GNode)) :=
  let va := ws.getD 0 0 &&& 0x01FFFFFFFFFFFFFF
  let read : Except ZStop (Except Nat (List GNode)) := do
    let n := (← zenDwords s ctx task va 1).getD 0 0
    if n = 0 ∨ 4096 < n.toNat then pure (.error 1)
    else
      let raw ← (List.range n.toNat).mapM (fun j => zenDwords s ctx task (va + BitVec.ofNat 64 (64 + 128 * j)) 16)
      match nodesBad s ctx slot raw with
      | some d => pure (.error d)
      | none => if (look s.zen.gcnt slot).any (·.state == 1) then pure (.error 3) else pure (.ok (raw.map graphNode))
  if fieldN (ws.getD 0 0) 57 4 ≠ 0 ∨ va.toNat % 64 ≠ 0 ∨ ws.getD 1 0 >>> 10 ≠ 0 ∨ (ws.drop 2).any (· != 0) then .ok (.error 1)
  else match read with
    | .error (.bad _ _ _) => .ok (.error 1)
    | r => r

/-- The graph that runs in a slot ends there: its entry no longer stands for it (R483, R486, log 20). -/
def displaceGraph (s : State) (slot : Nat) : State :=
  match look s.zen.gcnt slot with
  | some g => if g.state = 1 then phaseDown s g.ctx else s
  | none => s

/-- Refuse a graph: GCNT then holds state 4, whichever of the three faults it is (R486). -/
def refuseGraph (s : State) (q slot detail : Nat) : State :=
  let x := zq s q
  let (n, s) := newId (displaceGraph (leaveHead (dropDeclined s (taskHead q)) q) slot)
  let s := { s with zen := { s.zen with gcnt := put s.zen.gcnt slot { ctx := x.ctx.toNat, state := 4, cause := 0xC8, detail, seq := n } } }
  zenReport s x.ctx.toNat 0xC8 detail (slotVa x x.head) (BitVec.ofNat 64 slot)

/-- Start a graph (R487). -/
def startGraph (s : State) (q slot : Nat) (nodes : List GNode) : State :=
  let ctx := (zq s q).ctx.toNat
  let (n, s) := newId (leaveHead s q)
  let s := { s with zen := { s.zen with gcnt := put s.zen.gcnt slot { ctx, count := nodes.length, state := 1, seq := n, nodes } } }
  let s := phaseUp s ctx
  (((look s.zen.gcnt slot).map readyNodes).getD []).foldl (pushNode slot n) s

/-- Take a graph-start record from the head. -/
def takeGraph (s : State) (q : Nat) : Except ZStop State := do
  let x := zq s q
  let ws ← headWords s q
  if recKind ws ≠ 4 then pure s
  else
    let slot := fieldN (ws.getD 1 0) 0 10
    match ← readGraph s x.ctx.toNat (taskHead q) slot ws with
    | .ok nodes => pure (startGraph s q slot nodes)
    | .error d => pure (refuseGraph s q slot d)

/-- GRAPH_START. -/
def execGraphStart (q : Nat) (s : State) : Host.Outcome State Fault Refusal := .next (takeHead s q (takeGraph · q))

/-! Phases (R488). -/

/-- Take a phase mark: its context takes no launch record, graph start or phase mark any longer. One with a non-zero field
is skipped (log 20). -/
def takeMark (s : State) (q : Nat) : Except ZStop State := do
  let x := zq s q
  let ws ← headWords s q
  if recKind ws ≠ 5 then pure s
  else if ws.getD 0 0 &&& 0x1E00000000000007 ≠ 0 ∨ (ws.drop 1).any (· != 0) then pure (skipHead 2 s q)
  else pure { s with zen := { s.zen with halts := put s.zen.halts x.ctx.toNat { queue := q, table := ws.getD 0 0 &&& 0x01FFFFFFFFFFFFF8 } } }

/-- PHASE_MARK. -/
def execPhaseMark (q : Nat) (s : State) : Host.Outcome State Fault Refusal := .next (takeHead s q (takeMark · q))

/-- An array of a group table: nothing of it where the host declines to map it. -/
def tablePart (s : State) (ctx task : Nat) (table : W64) (off n : Nat) : Except ZStop (Nat × List W64 × Bool) :=
  match zenDwords s ctx task (table + BitVec.ofNat 64 off) n with
  | .ok ws => .ok (off, ws, true)
  | .error (.bad _ _ _) => .ok (off, [], false)
  | .error e => .error e
/-- A doubleword of some parts, by its offset. -/
def partWord (ps : List (Nat × List W64 × Bool)) (off : Nat) : W64 :=
  (ps.findSome? (fun p => if p.1 ≤ off ∧ (off - p.1) % 8 = 0 then p.2.1[(off - p.1) / 8]? else none)).getD 0

/-- Read and check a group table (R438 to R441): its first doubleword with it, or with the DETAIL of GROUP_TABLE; a part that
the host declines to map counts as a bad header (log 20). -/
def readTable (s : State) (ctx task : Nat) (table : W64) : Except ZStop (W64 × Except Nat GroupTable) := do
  let h ← tablePart s ctx task table 0 8
  let f (k lo n : Nat) : Nat := fieldN (h.2.1.getD k 0) lo n
  let parts ← if !h.2.2 then pure [h] else do
    let a ← tablePart s ctx task table (f 2 0 64) 1024
    let b ← tablePart s ctx task table (f 3 0 64) (16 * f 1 16 7)
    let c ← tablePart s ctx task table (f 4 0 64) (4 * f 1 0 5)
    pure [h, a, b, c]
  pure (partWord parts 0, match loadTable s.fresh (partWord parts) with
    | .error d => .error d
    | .ok t => if parts.all (·.2.2) then .ok t else .error 1)

/-- The reconfiguration window: peer lines and peer directories go, and the ports are trained again (R427, R446). -/
def openWindow (s : State) : State :=
  let s := dropPeerLines s (fun _ => true)
  { s with fab := { s.fab with dir := [], ports := (List.range 48).map (fun p => (p, Config.training s.fresh p)) } }

/-- The new phase of a context: devices whose ports have come up can be reached again (R437), and the mark leaves its head. -/
def newPhase (s : State) (ctx q : Nat) : State :=
  let s := leaveHead ((s.fab.peers.map (·.1)).foldl backAgain s) q
  { s with zen := { s.zen with pcnt := del s.zen.pcnt ctx, halts := del s.zen.halts ctx } }

/-- A table that fails to load leaves the context stopped, and no table in force (R440). -/
def tableFails (s : State) (ctx : Nat) (h : Halt) (detail : Nat) (dw0 : W64) : State :=
  let s := { s with fab := { s.fab with table := none, self := some (deviceId s) }
                    zen := { s.zen with halts := put s.zen.halts ctx { h with failed := true } } }
  hostPut s (h.queue / 32) (hostWords ctx 7 detail 0xB2 false h.table 0 dw0)

/-- The work of a context's phase is over. -/
def phaseOver (s : State) (ctx : Nat) : Bool := ((look s.zen.pcnt ctx).map (·.count)).getD 0 == 0

/-- Open the window for a context that a mark has stopped. -/
def reconfigure (s : State) (ctx : Nat) (h : Halt) : Except ZStop State :=
  if h.table = 0 then .ok (newPhase (openWindow s) ctx h.queue)
  else do
    let (dw0, t) ← readTable s ctx (taskCtx ctx) h.table
    let s := dropDeclined (openWindow s) (taskCtx ctx)
    match t with
    | .ok t => pure (newPhase { s with fab := { s.fab with table := some t } } ctx h.queue)
    | .error d => pure (tableFails s ctx h d dw0)

/-- RECONFIGURATION_WINDOW. -/
def execReconfigurationWindow (ctx : Nat) (s : State) : Host.Outcome State Fault Refusal :=
  .next (match look s.zen.halts ctx with
    | some h => if h.failed ∨ !phaseOver s ctx then s else zenRun s ctx (taskCtx ctx) noBad (reconfigure s ctx h)
    | none => s)

end Sys2Proof.Machine
end

