-- ==== Sys2Proof/Machine/ZenPlace.lean ====
section
/-! DEFINITION. Zenith's placement: core quads, the cores that can take a team, dispatch and restore (R129, R130, R374, R476,
R477, R481, R482, R493, R494, R530). -/

namespace Sys2Proof.Machine

/-! Core quads (R482). -/

def quad (s : State) (q : Nat) : Quad := (look s.zen.quads q).getD {}
def updQuad (s : State) (q : Nat) (f : Quad → Quad) : State := { s with zen := { s.zen with quads := put s.zen.quads q (f (quad s q)) } }
/-- The teams that occupy a core. -/
def teamsOn (s : State) (c : Nat) : List (Nat × Team) := s.teams.filter (fun e => e.2.core == c && e.2.status != .saved)
/-- The teams that occupy a quad's cores. -/
def quadTeams (s : State) (q : Nat) : List (Nat × Team) :=
  s.teams.filter (fun e => decide (e.2.core < 576) && quadOf e.2.core == q && e.2.status != .saved)
/-- The quads that are gated. -/
def gatedQuads (s : State) : List Nat := (List.range 144).filter (fun q => !(quad s q).awake && (quad s q).wake.isNone)

/-- Wake a quad: 900 ns, or nothing if it was gated in this cycle. -/
def wakeQuad (s : State) (q : Nat) : State :=
  updQuad s q (fun x => if x.gatedAt = some s.cycle then { x with awake := true, gatedAt := none } else { x with wake := some (s.cycle + 1575) })

/-- QUAD_WAKE_DONE. -/
def execQuadWakeDone (q : Nat) (s : State) : Host.Outcome State Fault Refusal :=
  .next (if (quad s q).wake.any (fun t => decide (t ≤ s.cycle)) then
    updQuad s q (fun x => { x with awake := true, wake := none, emptyAt := s.cycle }) else s)

/-- QUAD_POWER_GATE: 20 µs without a resident team. -/
def execQuadPowerGate (q : Nat) (s : State) : Host.Outcome State Fault Refusal :=
  .next (if (quad s q).awake ∧ (quadTeams s q).isEmpty ∧ (quad s q).emptyAt + 35000 ≤ s.cycle then
    updQuad s q (fun x => { x with awake := false, gatedAt := some s.cycle }) else s)

/-- A quad's last team may have left it. -/
def noteEmpty (s : State) (c : Nat) : State :=
  if c < 576 ∧ (quadTeams s (quadOf c)).isEmpty then updQuad s (quadOf c) (fun x => { x with emptyAt := s.cycle }) else s

/-! Room on a core (R39, R374, R481). -/

/-- What a team needs of a core. -/
structure Need where
  groups : Nat
  regs : Nat
  scrkb : Nat
  tags : W64
  rows : List Nat := []
  bank0 : Bool := false
  bank1 : Bool := false
  saved : Bool := false
  deriving DecidableEq, Repr

/-- The core tags of a launch's window. -/
def windowTags (l : Launch) : W64 := BitVec.ofNat 64 ((2 ^ l.tagn - 1) * 2 ^ l.tagbase)
/-- The needs of a new team of a launch, and of a saved team. -/
def launchNeed (l : Launch) : Need :=
  { groups := l.grpm1 + 1, regs := (l.grpm1 + 1) * (8 * (l.regb + 1)), scrkb := l.scrkb, tags := windowTags l }
def savedNeed (t : Team) : Need :=
  { groups := (liveGroups t).length, regs := teamRegs t, scrkb := t.launch.scrkb, tags := windowTags t.launch
    rows := t.savedArray.rows, bank0 := t.savedArray.own0, bank1 := t.savedArray.own1, saved := true }

/-- The group slots that the live groups of some teams occupy (log 10). -/
def usedSlots (ts : List (Nat × Team)) : List Nat := ts.flatMap (fun e => (liveGroups e.2).map (fun g => e.2.slots.getD g 48))
def freeSlots (ts : List (Nat × Team)) : List Nat := (List.range 48).filter (fun k => !(usedSlots ts).contains k)

/-- A core takes a team beside some of its teams, the others' state left out. -/
def fits (s : State) (c : Nat) (n : Need) (gone : Nat → Bool) : Bool :=
  let ts := (teamsOn s c).filter (fun e => !gone e.1)
  let out := (teamsOn s c).filter (fun e => gone e.1)
  let a := (core s c).array
  let free (o : Option Nat) : Bool := o.all gone
  let busy : W64 := out.foldl (fun m e => m &&& ~~~windowTags e.2.launch) (core s c).busy
  decide (ts.length < 8) && decide (n.groups ≤ (freeSlots ts).length) &&
  decide ((ts.map (fun e => teamRegs e.2)).sum + n.regs ≤ 4096) &&
  decide ((ts.map (fun e => e.2.launch.scrkb)).sum + n.scrkb ≤ 768) &&
  ts.all (fun e => windowTags e.2.launch &&& n.tags == 0) && busy &&& n.tags == 0 &&
  (!n.saved || (n.rows.all (fun r => free (look a.rowOwner r)) && (!n.bank0 || free a.bank0.owner) && (!n.bank1 || free a.bank1.owner) &&
    free a.reserved))

/-- No team is left out. -/
def noTeam (_ : Nat) : Bool := false

/-- The awake cores that can take a team. -/
def placesFor (s : State) (n : Need) : List Nat := (List.range 576).filter (fun c => (quad s (quadOf c)).awake && fits s c n noTeam)
/-- The core that takes it: the fewest free team slots, then the lowest identifier. -/
def pickCore (s : State) (n : Need) : Option Nat :=
  (placesFor s n).foldl (fun b c => match b with
    | some x => if (teamsOn s x).length < (teamsOn s c).length then some c else b
    | none => some c) none

/-- The time that a team has been resident, in ns. -/
def residentNs (t : Team) : Nat := t.timer * 4 / 7

/-- E of R482: the shortest time, by estimate, until a team's end gives an awake core room. -/
def waitEstimate (s : State) (n : Need) : Option Nat :=
  ((s.teams.filter (fun e => decide (e.2.core < 576) && e.2.status != .saved && (quad s (quadOf e.2.core)).awake &&
      fits s e.2.core n (· == e.1))).map (fun e => (zq s e.2.queue).runest.toNat - residentNs e.2)).min?

/-- The quad that was woken for a queue's next team is still waking. -/
def wakesFor (s : State) (q : Nat) : Bool := (zq s q).woke.any (fun g => (quad s g).wake.isSome)

/-- A queue's next team finds no place (R482, R491): the gated quad with the lowest identifier is woken for it, unless a team ends
soon or a quad is waking for it already (log 20). -/
def noPlace (s : State) (q : Nat) (n : Need) : State :=
  let s := updQ s q (fun x => { x with blocked := some (x.blocked.getD s.cycle) })
  if wakesFor s q ∨ (waitEstimate s n).any (fun e => decide (e ≤ 900)) then s
  else match gatedQuads s with
    | g :: _ => updQ (wakeQuad s g) q (fun x => { x with woke := some g })
    | [] => s

/-! A team comes to a core. -/

/-- Slots for the groups of a team, a free choice of the free ones (log 10). -/
def chooseSlots (s : State) (c n : Nat) : List Nat :=
  let f := freeSlots (teamsOn s c)
  let k := Config.choice s.fresh 2 % max 1 f.length
  (f.drop k ++ f.take k).take n

/-- The core before a team's first issue: the steps of R63, the instruction cache (R530) and the tags of its window (R58,
R314). -/
def readyCore (s : State) (c : Nat) (l : Launch) (tags busy : W64) : State :=
  updCore (acquireL1 s c) c (fun k =>
    { k with icache := [], icPast := [], stuck := none
             tags := (k.tags &&& ~~~windowTags l) ||| (tags <<< l.tagbase)
             busy := (k.busy &&& ~~~windowTags l) ||| (busy <<< l.tagbase) })

/-- The header cache of a team's context (R393, R400). -/
def headersOf (s : State) (ctx : Nat) : FMap RmoHeader :=
  (s.defs.filter (fun e => e.1 / 32 == defTable s ctx && e.2.defined)).map (fun e => (e.1 % 32, { dw0 := e.2.dw0, version := e.2.version }))

/-- A group at dispatch (R130, R199). -/
def newGroup (l : Launch) (index : Nat) (entry : W64) (g : Nat) : Group :=
  setPc { live := 0xFFFFFFFF, alloc := 8 * (l.regb + 1)
          sr := (List.range 32).foldl (fun m k => set 0 m k (resetSr index (l.grpm1 + 1) g k)) [] } 0xFFFFFFFF entry
/-- The lead at dispatch (R257, R258). -/
def newLead (l : Launch) (index : Nat) (frame : W64) : Group :=
  let ws : List W32 := [lo frame, hi frame, lo l.kcode, hi l.kcode, BitVec.ofNat 32 index, BitVec.ofNat 32 (l.grpm1 + 1)]
  setPc { live := 1, alloc := 64, v := ((List.range 6).zip ws).foldl (fun m e => set 0 m (32 * e.1) e.2) [] } 1
    (if l.leadoff = 0 then implicitPc else l.kcode + BitVec.ofNat 64 l.leadoff)

/-- A team at dispatch. -/
def newTeam (s : State) (q : Nat) (p : HeadProg) (l : Launch) (c order : Nat) (dict : List W64) : Team :=
  { launch := l, index := p.next, core := c, slots := chooseSlots s c (l.grpm1 + 1), dispatched := s.cycle, order
    flags := launchFlags l, barLog := if l.barlog = 0 then 24 else l.barlog
    dict := ((List.range l.dictn).zip dict).foldl (fun m e => set 0x8000000000000000 m e.1 e.2) []
    headers := headersOf s l.ctx
    groups := (List.range (l.grpm1 + 1)).map (fun g => (g, newGroup l p.next p.entry g)) ++ [(32, newLead l p.next p.frame)]
    entry := p.entry, queue := q, run := p.run, join := p.join }

/-- The words of the dictionary; one that the host declines to map is free (log 20). -/
def readDict (s : State) (task : Nat) (l : Launch) : Except ZStop (List W64) :=
  (List.range l.dictn).mapM (fun k =>
    match zenDwords s l.ctx task (l.kcode + BitVec.ofNat 64 (l.dictoff + 8 * k)) 1 with
    | .ok ws => .ok (ws.headD 0)
    | .error (.bad _ _ _) => .ok (pair64 (Config.freeW32 s.fresh (2 * k)) (Config.freeW32 s.fresh (2 * k + 1)))
    | .error e => .error e)

/-- Place the next team of a queue's head on a core (R130, R476). -/
def dispatchOn (s : State) (q : Nat) (p : HeadProg) (l : Launch) (c : Nat) : Except ZStop State := do
  let dict ← readDict s (taskPlace q) l
  let (tm, s) := newId (dropDeclined s (taskPlace q))
  let t := newTeam s q p l c tm dict
  let s := readyCore { s with teams := put s.teams tm t } c l 0 0
  let s := updQ s q (fun x => { x with prog := some { p with next := p.next + 1 }, blocked := none, woke := none })
  let s := if p.next + 1 = p.last then leaveHead s q else s
  pure { s with zen := { s.zen with lastQueue := q } }

/-! Restore (R58, R237, R299, R374, R493, R494). -/

/-- The offsets of Zenith's own regions in a save area. -/
def ownRegions (t : Team) : List Nat := List.range ((296 + 16 * groupCount t) * 1024)

/-- A command that pre-emption stops and a cancel drops: a copy, or a matrix command that has not read its rows (R340, R373). -/
def heldCmd (c : Cmd) : Bool :=
  match c.body with
  | .copy _ => true
  | .mat m => !m.hasRead
  | _ => false

/-- Drop a command: it ends without its effect, as if by a fault that nobody reports (R82, R341, R375). -/
def dropCmd (s : State) (n : Nat) (c : Cmd) : State :=
  let s := match c.body with
    | .mat m => freeMread (updArray s c.core (fun a => leaveQueue a c.src n)) c m
    | _ => s
  let s := { s with cmds := del s.cmds n, ceil := { s.ceil with queue := s.ceil.queue.filter (· ≠ n) }
                    declined := s.declined.filter (fun d => d.waiter ≠ .cmd n) }
  let s := endTag s c.src.team c.tag false
  match c.op with
  | some o => performOp s c.src o
  | none => s
/-- Drop the held commands of a team. -/
def dropCmds (s : State) (tm : Nat) : State :=
  (s.cmds.filter (fun e => e.2.src.team == tm && heldCmd e.2)).foldl (fun s e => dropCmd s e.1 e.2) s

/-- A saved team stands on no core any longer. -/
def offCore (s : State) (tm q : Nat) : State :=
  updTeam (updQ s q (fun x => setSaved x (x.saved.filter (· ≠ tm)))) tm (fun t => { t with core := zenCore })

/-- A saved team whose area fails its check ends (R493). -/
def saveFails (s : State) (tm : Nat) (t : Team) : State :=
  let s := endGroups (offCore (dropCmds (launchFaulted s t 0xC7 2) tm) tm t.queue) tm
  zenReport s t.launch.ctx 0xC7 2 (BitVec.ofNat 64 (saveBase t)) (BitVec.ofNat 64 (t.launch.lid * 2 ^ 32 + t.index))

/-- The bytes of a save area up to the end of the scratchpad. -/
def areaBytes (t : Team) : Nat := (296 + 48 * groupCount t + t.launch.scrkb) * 1024
/-- A group with the registers that its save area holds. -/
def withSaved (t : Team) (bs : List Byte) (g : Nat) (gr : Group) : Group :=
  if 32 ≤ g ∨ gr.live = 0 then gr
  else { gr with v := (List.range gr.alloc).foldl (fun m n => (List.range 32).foldl (fun m l =>
    set 0 m (32 * n + l) (BitVec.ofNat 32 (leNat ((bs.drop (saveReg t g n l - saveBase t)).take 4)))) m) [] }
/-- A saved team with the scratchpad that its save area holds (R493). -/
def withScratch (t : Team) (bs : List Byte) : Team :=
  { t with scratch := (List.range (t.launch.scrkb * 1024)).foldl (fun m k => set 0 m k (bs.getD (saveScr t k - saveBase t) 0)) [] }
/-- A team as it comes back: registers and scratchpad from its area. -/
def backTeam (s : State) (t : Team) (bs : List Byte) (c order : Nat) : Team :=
  { withScratch t bs with
           status := .resident, core := c, slots := backSlots, dispatched := s.cycle, order, preemptReq := false, savedPages := []
           headers := headersOf s t.launch.ctx
           groups := t.groups.map (fun e => (e.1, withSaved t bs e.1 e.2))
           savedArray := {} }
where
  /-- A slot for each live group. -/
  backSlots : List Nat :=
    let f := chooseSlots s c (liveGroups t).length
    (List.range (groupCount t)).map (fun g => f.getD ((liveGroups t).idxOf g) 0)

/-- The matrix array with a restored team's part of it (R374). -/
def backArray (t : Team) (tm : Nat) (b0 b1 : Bank) (a : MatArray) : MatArray :=
  let v := t.savedArray
  { a with rowOwner := v.rows.foldl (fun m r => put m r tm) a.rowOwner
           acc := v.acc.foldl (fun m e => put m e.1 e.2) a.acc
           accBad := v.bad.foldl (fun m e => put m e.1 e.2) a.accBad
           bank0 := if v.own0 then b0 else a.bank0, bank1 := if v.own1 then b1 else a.bank1
           queues := v.queues.foldl (fun m e => put m e.1 e.2) a.queues
           reserved := if v.reserved then some tm else a.reserved }

/-- The number and the command under which Zenith replays an `MLOADB` of a team (R374). -/
def replayNo (tm b : Nat) : Nat := 2 ^ 62 + 2 * tm + b
def replayCmd (tm : Nat) (t : Team) (c : Nat) (m : MatCmd) : Cmd :=
  { src := ⟨tm, 0⟩, lane := 0, core := c, ctx := t.launch.ctx, body := .mat m }
/-- Replay the `MLOADB` of a bank, without leave of its own (R4 is silent; log 26); one that faults leaves the bank empty (log 20). -/
def replay (s : State) (tm : Nat) (t : Team) (c b : Nat) : Except EngStop Bank :=
  match (if b = 0 then t.savedArray.bank0 else t.savedArray.bank1) with
  | none => .ok { owner := some tm }
  | some (desc, addr) =>
    let m : MatCmd := { member := 0, desc, addr }
    match readBank s (replayNo tm b) (replayCmd tm t c m) m with
    | .error (.fault _) => .ok { owner := some tm }
    | r => r

/-- The save area of a team as it then is; the regions that are Zenith's own pass their check (R493). -/
def readArea (s : State) (tm : Nat) (t : Team) : Except ZStop (List Byte) := do
  let bs ← zenRead s t.launch.ctx (taskSave tm) (BitVec.ofNat 64 (saveBase t)) (areaBytes t)
  if (ownRegions t).any (fun k => bs.getD k 0 != Config.saveByte t.saveNo k) then throw (.bad 0xC7 2 0) else pure bs

/-- A saved team comes back to a core; its streams announce their watermarks again (R81). -/
def restoreOn (s : State) (q tm : Nat) (t : Team) (c : Nat) (bs : List Byte) (b0 b1 : Bank) : State :=
  let (n, s) := newId s
  let s := { s with teams := put s.teams tm (backTeam s t bs c n)
                    cmds := s.cmds.map (fun e => (e.1, if e.2.src.team = tm ∧ heldCmd e.2 then { e.2 with core := c } else e.2))
                    declined := s.declined.filter (fun d => d.waiter ≠ .cmd (replayNo tm 0) ∧ d.waiter ≠ .cmd (replayNo tm 1)) }
  let s := updArray (readyCore s c t.launch t.savedTags t.savedBusy) c (backArray t tm b0 b1)
  let s := updQ s q (fun x => { x with saved := x.saved.filter (· ≠ tm), blocked := none, woke := none })
  resumeWms { s with zen := { s.zen with lastQueue := q } } tm

/-- Try to restore the first saved team of a queue: the state, and whether it is restored. Each bank's `MLOADB` is replayed from
its image as it then is, one in the scratchpad from the save area (R374, R493). -/
def tryRestore (s : State) (q tm : Nat) : State × Bool :=
  match team s tm with
  | none => (updQ s q (fun x => setSaved x (x.saved.filter (· ≠ tm))), false)
  | some t => match pickCore s (savedNeed t) with
    | none => (noPlace s q (savedNeed t), false)
    | some c => match readArea s tm t with
      | .error e => (zenStop s t.launch.ctx (taskSave tm) e (fun _ _ _ s => saveFails s tm t), false)
      | .ok bs =>
        let now := updTeam s tm (withScratch · bs)
        match replay now tm t c 0, replay now tm t c 1 with
        | .error e, _ => (engStop s (replayNo tm 0) (replayCmd tm t c { member := 0, desc := 0 }) e (fun _ => s), false)
        | _, .error e => (engStop s (replayNo tm 1) (replayCmd tm t c { member := 0, desc := 0 }) e (fun _ => s), false)
        | .ok b0, .ok b1 => (restoreOn s q tm t c bs b0 b1, true)

/-! The order of service (R476). -/

/-- The record at the head of a queue begins to yield teams: kinds 1 to 3 as Zenith wrote them; kinds 6 and 7 are skipped. -/
def takeProg (s : State) (q : Nat) : Except ZStop State := do
  let x := zq s q
  let ws ← headWords s q
  let m := headMark x
  let f (k lo n : Nat) : Nat := fieldN (ws.getD k 0) lo n
  if recKind ws = 0 ∨ recKind ws = 4 ∨ recKind ws = 5 then pure s
  else if 6 ≤ recKind ws ∨ slotWords m ≠ ws then pure (nodeOf (skipHead 3 s q) m.node m.run false)
  else match liveRun s (recKey x ws) m.run with
    | none => pure (leaveHead s q)
    | some c =>
      let range : Bool := recKind ws == 3
      let p : HeadProg :=
        { key := recKey x ws, run := m.run, next := f 3 0 31, last := f 3 0 31 + (if range then f 2 0 31 else 1)
          entry := if range then c.launch.kcode + BitVec.ofNat 64 c.launch.laneoff else ws.getD 0 0 &&& 0x01FFFFFFFFFFFFF8
          frame := ws.getD 1 0, join := if range then 0 else ws.getD 2 0 }
      pure (updQ s q (fun x => { x with prog := some p }))

/-- Try to place the next team of a queue's head. -/
def tryTeam (s : State) (q : Nat) (p : HeadProg) : State × Bool :=
  match liveRun s p.key p.run with
  | none => (leaveHead s q, false)
  | some cnt => match pickCore s (launchNeed cnt.launch) with
    | none => (noPlace s q (launchNeed cnt.launch), false)
    | some c => match dispatchOn s q p cnt.launch c with
      | .ok s => (s, true)
      | .error e => (zenStop s cnt.launch.ctx (taskPlace q) e noBad, false)

/-- Serve one queue: its saved teams first, then its head. -/
def serveQueue (s : State) (q : Nat) : State × Bool :=
  match (zq s q).saved with
  | tm :: _ => tryRestore s q tm
  | [] =>
    let s := if (zq s q).prog.isSome ∨ (zq s q).head = (zq s q).tail then s
      else zenRun s (zq s q).ctx.toNat (taskHead q) (fun _ _ _ => headDeclined q) (takeProg s q)
    match (zq s q).prog with
    | some p => tryTeam s q p
    | none => (s, false)

/-- The queues that have work, in the order in which they are considered. -/
def queueOrder (s : State) : List Nat :=
  sortBy (fun q => (7 - (zq s q).pri.toNat) * 64 + (q + 63 - s.zen.lastQueue) % 64)
    ((List.range 64).filter (fun q => qTaken (zq s q) && ((zq s q).head != (zq s q).tail || !(zq s q).saved.isEmpty)))

/-- Serve queues until one dispatches a team. -/
def serve (s : State) : List Nat → State
  | [] => s
  | q :: qs => match serveQueue s q with
    | (s, true) => s
    | (s, false) => serve s qs

/-- DISPATCH. -/
def execDispatch (s : State) : Host.Outcome State Fault Refusal := .next (serve s (queueOrder s))

end Sys2Proof.Machine
end

