-- ==== Sys2Proof/Machine/ZenTeam.lean ====
section
/-! DEFINITION. How a team leaves its core: pre-emption and its triggers, cancel, and the team's end (R30, R33, R56, R57, R81,
R82, R145, R273, R274, R298, R340, R341, R367, R373, R375, R463, R479, R480, R482, R485, R489 to R493). -/

namespace Sys2Proof.Machine

/-! Triggers (R34, R145, R491). -/

/-- The resident team of a launch with the highest index. -/
def topTeam (s : State) (run : Nat) : Option (Nat × Team) :=
  (s.teams.filter (fun e => e.2.run == run && e.2.status == .resident)).foldl (fun b e => match b with
    | some x => if x.2.index < e.2.index then some e else b
    | none => some e) none

/-- Ask for the pre-emption of a team, or of the highest resident team of its launch in its place. -/
def preempt (s : State) (tm : Nat) : State :=
  match team s tm with
  | none => s
  | some t =>
    if t.status ≠ .resident ∨ t.launch.save = 0 then s
    else match topTeam s t.run with
      | some (v, _) => updTeam s v (fun t => { t with preemptReq := true })
      | none => s

/-- The best of some teams: the smallest first number, then the largest second one. -/
def bestTeam (f g : Team → Nat) (ts : List (Nat × Team)) : Option Nat :=
  (ts.foldl (fun (b : Option (Nat × Team)) e => match b with
    | some x => if f e.2 < f x.2 ∨ (f e.2 = f x.2 ∧ g x.2 < g e.2) then some e else b
    | none => some e) none).map (·.1)

/-- The teams that may be chosen. -/
def victims (s : State) (p : Nat → Team → Bool) : List (Nat × Team) :=
  s.teams.filter (fun e => e.2.status == .resident && e.2.launch.save != 0 && p e.1 e.2)

/-- The priority of a team's queue. -/
def teamPri (s : State) (t : Team) : Nat := (zq s t.queue).pri.toNat

/-- A queue's next team has found no place for 2 µs: a team of lower priority goes. -/
def priorityTimeout (s : State) (q : Nat) : State :=
  let x := zq s q
  if x.blocked.any (fun b => decide (b + 3500 ≤ s.cycle)) then
    match bestTeam (teamPri s) (·.order) (victims s (fun _ t => decide (teamPri s t < x.pri.toNat))) with
    | some tm => preempt (updQ s q (fun x => { x with blocked := some s.cycle })) tm
    | none => s
  else s
def execPriorityPreemptTimeout (q : Nat) (s : State) : Host.Outcome State Fault Refusal := .next (priorityTimeout s q)

/-- Every 50 µs: the lone team of a quad goes, if a core of another awake quad could take it. -/
def packingCheck (s : State) (q : Nat) : State :=
  if s.cycle < (quad s q).packAt + 87500 then s
  else
    let s := updQuad s q (fun x => { x with packAt := s.cycle })
    match quadTeams s q with
    | [(tm, t)] => if (placesFor s (savedNeed t)).any (fun c => quadOf c != q) then preempt s tm else s
    | _ => s
def execPowerPackingCheck (q : Nat) (s : State) : Host.Outcome State Fault Refusal := .next (packingCheck s q)

/-- A team has been resident longer than its queue's slice, while a queue of the same priority cannot place its head. -/
def overSlice (s : State) (t : Team) : Bool :=
  let x := zq s t.queue
  x.slice != 0 && decide (t.dispatched + x.slice.toNat * 1750 < s.cycle) && s.zen.queues.any (fun e => e.2.pri == x.pri && e.2.blocked.isSome)
def sliceExpiry (s : State) (tm : Nat) : State :=
  if bestTeam (·.dispatched) (fun _ => 0) (victims s (fun _ t => overSlice s t)) = some tm then preempt s tm else s
def execTimeSliceExpiry (tm : Nat) (s : State) : Host.Outcome State Fault Refusal := .next (sliceExpiry s tm)

/-- HOST_PREEMPT_REQUEST. -/
def execHostPreemptRequest (tm : Nat) (s : State) : Host.Outcome State Fault Refusal := .next (preempt s tm)

/-- REGISTER_DEADLOCK_BREAK: the condition of R145 has held for 1,024 cycles; the resident team that was dispatched last goes,
unless one of the core is about to. -/
def deadlockBreak (s : State) (c : Nat) : State :=
  if !(core s c).stuck.any (fun b => decide (b + 1024 ≤ s.cycle)) ∨ (teamsOn s c).any (·.2.preemptReq) then s
  else match bestTeam (fun _ => 0) (·.order) (victims s (fun _ t => t.core == c)) with
    | some tm => preempt (updCore s c (fun k => { k with breaking := true })) tm
    | none => s
def execRegisterDeadlockBreak (c : Nat) (s : State) : Host.Outcome State Fault Refusal := .next (deadlockBreak s c)

/-! Pre-emption takes effect (R56, R57, R254, R274, R298, R340, R373, R492, R493). -/

/-- A load whose return ends before the save. -/
def plainLoad (o : LoadOp) : Bool :=
  match o.kind with
  | .old _ => false
  | _ => true

/-- A command of a team stands on a path of its array with a fault that it has not reported. -/
def faultOnPath (s : State) (tm : Nat) (a : MatArray) : Bool :=
  (a.loading.toList ++ a.computing.toList).any (fun n => (look s.cmds n).any (fun c => c.src.team == tm && c.fault.isSome))

/-- The team is at an instruction boundary where it can be saved. A team none of whose threads is left ends and is not saved
(R492). -/
def atBoundary (s : State) (tm : Nat) (t : Team) : Bool :=
  t.groups.any (fun e => e.2.live != 0) &&
  !counting s (·.src.team == tm) && !s.loads.any (fun e => e.2.src.team == tm && plainLoad e.2) && t.dictBusy.isNone && !s.invals.any (fun e => e.2.src.any (·.team == tm)) &&
  t.groups.all (fun e => e.2.defWait.isNone && e.2.enq.all (fun q => (q.left.head?).any (fun c => !tagFree s tm c.tag))) &&
  !faultOnPath s tm (arrayOf s t.core)

/-- A wait that pre-emption abandons: its word issues again (R57, R145, R274). -/
def abandoned : LaneWait → Bool
  | .vgrow _ _ _ | .timer _ _ => true
  | _ => false
/-- A group as it is saved. -/
def saveGroup (gr : Group) : Group :=
  let gr := settleEnq (discardChain gr)
  { gr with wait := gr.wait.filter (fun e => !abandoned e.2) }

/-- The part of the matrix array that a team's image holds (R373). -/
def saveArray (a : MatArray) (tm : Nat) : SavedArray :=
  let rows := (a.rowOwner.filter (fun e => e.2 == tm)).map (·.1)
  let own (b : Bank) : Bool := b.owner == some tm
  let load (b : Bank) : Option (W32 × W64) := if own b then b.load else none
  { rows, acc := a.acc.filter (fun e => rows.contains (e.1 / 256)), bad := a.accBad.filter (fun e => rows.contains (e.1 / 128))
    bank0 := load a.bank0, bank1 := load a.bank1, own0 := own a.bank0, own1 := own a.bank1
    queues := a.queues.filter (fun e => e.1 / 64 == tm), reserved := a.reserved == some tm }

/-- A team leaves the array: its rows, its banks, its queues, its places on the paths and its reservation. -/
def leaveArray (s : State) (a : MatArray) (tm : Nat) : MatArray :=
  let away (n : Option Nat) : Option Nat := n.filter (fun n => !(look s.cmds n).any (fun c => c.src.team == tm))
  let a := releaseArray a tm
  { a with queues := a.queues.filter (fun e => e.1 / 64 != tm), loading := away a.loading, computing := away a.computing
           reserved := if a.reserved = some tm then none else a.reserved }

/-- An `MLOADB` that is stopped leaves its bank empty, so that nothing of it is replayed from a checkpoint (R373). -/
def stopLoad (s : State) (a : MatArray) (tm : Nat) : MatArray :=
  match a.loading.bind (matOf s) with
  | some (c, m) =>
    if c.src.team = tm then setBank a (descBank m.desc.toNat) { owner := (bankOf a (descBank m.desc.toNat)).owner } else a
  | none => a

/-- A command as its team is saved: a matrix command that has not read its rows stands in its queue again and its request for
leave is withdrawn; an `MMA` keeps its resume row (R367). A command that was granted leave keeps the grant (R4 is silent; log 26). -/
def saveCmd (tm : Nat) (c : Cmd) : Cmd :=
  match c.body with
  | .mat m => if c.src.team = tm ∧ !m.hasRead then
      { c with started := false, leave := if c.leave = .queued then .unasked else c.leave } else c
  | _ => c

/-- The bytes of a group's registers, in the order of its save area. -/
def regBytes (gr : Group) : List Byte := (List.range (32 * gr.alloc)).flatMap (fun k => leBytes 4 (readV gr (k / 32) (k % 32)).toNat)

/-- The physical places of the pages of a save area. -/
def areaPages (s : State) (ctx task base n : Nat) : Except ZStop (FMap Nat) :=
  ((List.range ((base + n - 1) / 65536 + 1 - base / 65536)).map (base / 65536 + ·)).mapM (fun p => do
    let va := max base (p * 65536)
    let pa ← zenPa s ctx .zenWrite task (BitVec.ofNat 64 va)
    pure (p, pa - va % 65536))

/-- Write a team's save area: Zenith's own regions, whose contents are free (log 17), registers and scratchpad. -/
def writeArea (s : State) (tm : Nat) (t : Team) (no : Nat) : Except ZStop State := do
  let w (s : State) (a : Nat) (bs : List Byte) : Except ZStop State :=
    zenWrite s t.launch.ctx (taskSave tm) (BitVec.ofNat 64 a) bs
  let s ← w s (saveBase t) ((ownRegions t).map (Config.saveByte no))
  let s ← (t.groups.filter (fun e => decide (e.1 < 32) && e.2.live != 0)).foldlM (fun s e => w s (saveReg t e.1 0 0) (regBytes e.2)) s
  w s (saveScr t 0) (scratchRead t 0 (t.launch.scrkb * 1024))

/-- A queue with one saved team more (R494). -/
def addSaved (s : State) (x : ZQueue) (tm : Nat) (t : Team) : ZQueue :=
  let losers := if x.losers.contains t.run then x.losers else x.losers ++ [t.run]
  let place (n : Nat) : Nat := ((team s n).map (fun u => losers.idxOf u.run * 2 ^ 31 + u.index)).getD 0
  { setSaved x (sortBy place (x.saved ++ [tm])) with losers }

/-- Save a team. -/
def saveTeam (s : State) (tm : Nat) (t : Team) : Except ZStop State := do
  let (no, s) := newId s
  let t := { t with groups := t.groups.map (fun e => (e.1, saveGroup e.2)) }
  let s ← writeArea s tm t no
  let pages ← areaPages s t.launch.ctx (taskSave tm) (saveBase t) (areaBytes t)
  let a := stopLoad s (arrayOf s t.core) tm
  let tags := teamTags t (core s t.core).tags
  let busy := teamTags t (core s t.core).busy
  let held := (s.cmds.filter (fun e => e.2.src.team == tm && heldCmd e.2 && !isCopy e.2)).map (·.1)
  let s := updArray s t.core (fun _ => leaveArray s a tm)
  let s := updCore s t.core (fun k => { k with tags := k.tags &&& ~~~windowTags t.launch, busy := k.busy &&& ~~~windowTags t.launch })
  let t := { t with status := .saved, preemptReq := false, savedTags := tags, savedBusy := busy, savedArray := saveArray a tm, savedPages := pages
                    saveNo := no }
  let s := { s with teams := put s.teams tm t
                    cmds := s.cmds.map (fun e => (e.1, saveCmd tm e.2))
                    ceil := { s.ceil with queue := s.ceil.queue.filter (fun n => !held.contains n) } }
  pure (noteEmpty (updQ s t.queue (fun x => addSaved s x tm t)) t.core)

/-- A save that the host declines leaves the team where it is (R492). -/
def saveDeclined (s : State) (tm : Nat) (t : Team) : State :=
  zenReport (updTeam s tm (fun t => { t with preemptReq := false })) t.launch.ctx 0xC7 1 (BitVec.ofNat 64 (saveBase t))
    (BitVec.ofNat 64 (t.launch.lid * 2 ^ 32 + t.index))

/-- The registers that a save has freed go to the `VGROW` that issued earliest, where the allocator has asked for it (R145). -/
def grantFreed (s : State) (c : Nat) : State :=
  if (core s c).breaking then
    match vgrowsOn s c with
    | e :: _ => grantVgrow s e.2.2
    | [] => s
  else s

/-- PREEMPTION_EFFECT: a higher-index team that has come to a core meanwhile takes the team's place (R491). -/
def preemptEffect (s : State) (tm : Nat) : State :=
  match team s tm with
  | none => s
  | some t =>
    if !t.preemptReq ∨ t.status ≠ .resident ∨ t.cancelReq ∨ !atBoundary s tm t then s
    else if (topTeam s t.run).any (fun e => e.1 != tm) then preempt (updTeam s tm (fun t => { t with preemptReq := false })) tm
    else match saveTeam s tm t with
      | .ok s => grantFreed s t.core
      | .error e => zenStop s t.launch.ctx (taskSave tm) e (fun _ _ _ s => saveDeclined s tm t)
def execPreemptionEffect (tm : Nat) (s : State) : Host.Outcome State Fault Refusal := .next (preemptEffect s tm)

/-! Cancel (R30, R82, R273, R341, R375, R463). -/

/-- The watermark of every stream of a source moves to its last number. -/
def finishStreams (s : State) (id : SrcId) : State :=
  match group s id with
  | none => s
  | some gr => (gr.streams.map (·.1)).foldl (fun s k =>
      sendWms (updGroup s id (fun gr => { gr with streams := upd gr.streams k (fun x => { x with wm := x.next }) })) id k
        (streamOf gr k).next) s

/-- The collectives of a team whose result has not been sent or delivered are abandoned. -/
def abandonColls (s : State) (tm : Nat) : State :=
  ((s.cmds.filter (fun e => e.2.src.team == tm && (collOf e.2).any (fun k => !collSent k))).map (·.1)).foldl (fun s n => collAbort s n 2) s

/-- A team ends by a cancel; its issued operations drain. -/
def cancelTeam (s : State) (tm : Nat) : State :=
  match team s tm with
  | none => s
  | some t =>
    if !t.cancelReq ∨ t.status = .ending then s
    else
      let s := endGroups (if t.status = .saved then offCore s tm t.queue else s) tm
      let s := updTeam s tm (fun t => { t with dictBusy := none, preemptReq := false
                                               groups := t.groups.map (fun e => (e.1, { e.2 with enq := [], defWait := none, dropVer := none })) })
      let s := abandonColls (dropCmds s tm) tm
      let s := if t.status = .saved then s else updArray s t.core (fun a => leaveArray s a tm)
      (t.groups.map (·.1)).foldl (fun s g => finishStreams s ⟨tm, g⟩) s
def execTeamCancel (tm : Nat) (s : State) : Host.Outcome State Fault Refusal := .next (cancelTeam s tm)

/-! The end of a team (R273, R480). -/


/-- A team leaves its core and the machine (R353, R442, R482). -/
def removeTeam (s : State) (tm : Nat) (t : Team) : State :=
  let s := (t.groups.map (·.1)).foldl (fun s g => retireSrc s ⟨tm, g⟩) s
  let s := if t.core < 576 then updArray s t.core (fun a => leaveArray s a tm) else s
  let s := { s with teams := del s.teams tm, commits := s.commits.filter (fun c => c.src.team ≠ tm), wms := s.wms.filter (fun e => e.2.src.team ≠ tm)
                    declined := (dropDeclined (dropDeclined s (taskEnd tm)) (taskSave tm)).declined }
  let s := updQ s t.queue (fun x => { x with runest := BitVec.ofNat 16 (min 65535 ((7 * x.runest.toNat + residentNs t) / 8)) })
  noteEmpty s t.core

/-- A continuation record as a program wrote it: the DETAIL of ZEN_RECORD (R473, R478). -/
def contBad (ws : List W64) : Option Nat :=
  firstTrue [(recKind ws != 2, 1),
    (ws.getD 0 0 &&& 0x1E00000000000007 != 0 || ws.getD 1 0 &&& 0xFE00000000000007 != 0 || ws.getD 2 0 != 0 || ws.getD 3 0 != 0, 2)]

/-- A held continuation that cannot be queued (R480): the launch has one outstanding less, and is faulted. -/
def contFails (s : State) (t : Team) (cause detail : Nat) (addr : W64) : State :=
  let s := launchFaulted (updCnt s (lcntKey t.launch.ctx t.launch.lid) (fun c => { c with count := c.count - 1 })) t cause detail
  zenReport s t.launch.ctx cause detail addr (BitVec.ofNat 64 (t.launch.lid * 2 ^ 32 + t.index))

/-- The next index of a launch, and those that its continuations will take that wait for slots. -/
def indexAhead (s : State) (q key run : Nat) : Nat :=
  ((look s.lcnt key).map (·.next)).getD 0 + ((zq s q).pending.filter (fun r => r.run == run && recKind r.words == 2 && r.held)).length

/-- Queue the continuation of a join block whose COUNT has reached 0 (R479, R480). -/
def queueCont (s : State) (tm : Nat) (t : Team) (j : W64) : Except ZStop State :=
  let fail (cause detail : Nat) : Except ZStop State := .ok (contFails (dropDeclined s (taskEnd tm)) t cause detail j)
  match zenDwords s t.launch.ctx (taskEnd tm) (j + 0x20) 4 with
  | .error (.bad _ _ _) => fail 0xC6 1
  | .error e => .error e
  | .ok ws => match contBad ws with
    | some d => fail 0xC6 d
    | none =>
      if 2 ^ 31 ≤ indexAhead s t.queue (lcntKey t.launch.ctx t.launch.lid) t.run then fail 0xC4 1
      else .ok (pushRec s t.queue { words := ws.take 2 ++ [0, BitVec.ofNat 64 (t.launch.lid * 2 ^ 32)], run := t.run })

/-- Decrement a join block (R479). A block that the host declines to map is left alone (log 20). -/
def joinDown (tm : Nat) (t : Team) (s : State) (j : W64) : Except ZStop State :=
  match zenDwords s t.launch.ctx (taskEnd tm) j 1 with
  | .error (.bad _ _ _) => .ok (dropDeclined s (taskEnd tm))
  | .error e => .error e
  | .ok ws =>
    let n := ws.headD 0
    if n = 0 then .ok (zenReport s t.launch.ctx 0xC5 3 j (BitVec.ofNat 64 (t.launch.lid * 2 ^ 32 + t.index)))
    else do
      let s ← zenWriteDrop s t.launch.ctx (taskEnd tm) j (leBytes 8 (n - 1).toNat)
      if n = 1 then queueCont s tm t j else pure s

/-- The launch's count falls by one for a team that has ended; with the last one the launch completes (R33, R485). The last
team of a cancelled launch writes its completion word. -/
def countTeam (s : State) (tm : Nat) (t : Team) : Except ZStop State :=
  let key := lcntKey t.launch.ctx t.launch.lid
  match liveRun s key t.run with
  | some c =>
    if c.count = 1 then do
      let s ← writeCompl s t.launch.ctx (taskEnd tm) t.launch.compl 0
      let s := updQ s t.queue (fun x => { x with losers := x.losers.filter (· ≠ t.run) })
      pure (launchEnds s key c (if c.fault then 5 else 2))
    else .ok (updCnt s key (fun c => { c with count := c.count - 1 }))
  | none => if s.teams.any (fun e => e.2.run == t.run) then .ok s else writeCompl s t.launch.ctx (taskEnd tm) t.launch.compl 0xFF

/-- The decrements of a team's end: of the block that its child record names, and of the blocks that it holds. -/
def teamJoins (t : Team) : List W64 := (if t.join = 0 then [] else [t.join]) ++ t.joins

/-- The first of some join blocks that lies in another device's memory, with the address of its COUNT there. -/
def peerJoin (s : State) (tm : Nat) (t : Team) : List W64 → Except ZStop (Option (W64 × Nat))
  | [] => .ok none
  | j :: js => match zenPa s t.launch.ctx .zenWrite (taskEnd tm) j with
    | .ok pa => if tierOf pa = some 3 then .ok (some (j, pa)) else peerJoin s tm t js
    | .error (.bad _ _ _) => peerJoin s tm t js
    | .error e => .error e

/-- COUNT of a block in another device's memory is lowered there (R478, R479), once earlier changes of it are performed. -/
def lowerAway (s : State) (tm : Nat) (j : W64) (pa : Nat) : Except ZStop State :=
  if counting s (fun a => a.addr.toNat == pa) then .error .wait
  else match postLower s ⟨tm, 32⟩ pa j (BitVec.ofNat 64 (leNat ((List.range 8).map (fun k => homeByte s (pa + k))))) with
    | some s => .ok s
    | none => .error .wait

/-- The end of a team: it comes in steps where join blocks of the team lie in other devices' memory, the count of the launch
falling with the last. -/
def endTeam (s : State) (tm : Nat) (t : Team) : Except ZStop State := do
  if (liveRun s (lcntKey t.launch.ctx t.launch.lid) t.run).isNone then countTeam (removeTeam s tm t) tm t
  else match t.contDue with
    | some j => queueCont (updTeam s tm (fun t => { t with contDue := none })) tm t j
    | none => match ← peerJoin s tm t (teamJoins t) with
      | some (j, pa) => lowerAway s tm j pa
      | none =>
        let s ← (teamJoins t).foldlM (joinDown tm t) s
        countTeam (removeTeam s tm t) tm t

/-- TEAM_END. -/
def teamEnd (s : State) (tm : Nat) : State :=
  match team s tm with
  | none => s
  | some t => if t.status = .saved ∨ !drained s tm t then s else zenRun s t.launch.ctx (taskEnd tm) noBad (endTeam s tm t)
def execTeamEnd (tm : Nat) (s : State) : Host.Outcome State Fault Refusal := .next (teamEnd s tm)

end Sys2Proof.Machine
end

