-- ==== Sys2Proof/Machine/Zenith.lean ====
section
/-! DEFINITION. The words of Zenith: `SPAWN`, `GROW`, `LAUNCH`, `CANCEL` and `CNTRD` (R489, R490, R495 to R499). -/

namespace Sys2Proof.Machine

/-! What the words share. -/

/-- The key of an issue's launch. -/
def ownKey (c : Ctx) : Nat := lcntKey c.t.launch.ctx c.t.launch.lid
/-- The launch of an issue: a word waits once the launch is over, since its team is about to end. -/
def ownLaunch (s : State) (c : Ctx) : Except Stop Cnt :=
  match liveRun s (ownKey c) c.t.run with
  | some x => .ok x
  | none => .error .wait

/-- A stage of the accesses of some lanes: bounds, alignment and translation (R225 to R228). -/
def laneAccess (s : State) (c : Ctx) (k : AccKind) (al n : Nat) (ls : List Nat) (va : Nat → W64) : Except Stop Unit := do
  let on (l : Nat) (f : W64 → Option (Nat × Nat)) : Option (Nat × Nat) := if ls.contains l then f (va l) else none
  stage c va (fun l => on l (fun a => rangeFault c.t a n))
  stage c va (fun l => on l (alignFault al))
  stage c va (fun l => on l (fun a => transFault s c k a n))
  match ls.findSome? (fun l => needsWalk s c k (va l) n) with
  | some a => .error (.walk c.t.core c.t.launch.ctx a k (srcWaiter c))
  | none => .ok ()

/-- Some bytes that a word reads as strong loads do (R70). -/
def strongBytes (s : State) (c : Ctx) (k : AccKind) (va : W64) (n : Nat) : List Byte :=
  if inScratch va then scratchRead c.t (scratchOff va) n
  else if inCounters va then counterBytes s (counterOff va) n
  else (physBytes s c k va n).map (homeByte s)
/-- The memory bytes among them. -/
def strongPas (s : State) (c : Ctx) (k : AccKind) (va : W64) (n : Nat) : List Nat :=
  if inScratch va || inCounters va then [] else physBytes s c k va n

/-- Storage that moves keeps a word waiting; an uncorrectable unit faults it (R239). -/
def readable (s : State) (c : Ctx) (pas : List Nat) : Except Stop Unit :=
  if isMoving s pas then .error .wait
  else match badUnit s pas with
    | some e => .error (.dataError c.act e.addr)
    | none => .ok ()

/-- A word that needs peer lines asks for them and waits. -/
def askWord (s : State) (c : Ctx) (lns : List Nat) : State :=
  if lns.all (lineAsked s) then { s with cur := { s.cur with stalled := true } } else askLines s c.id c.t.core lns

/-! SPAWN (R496). -/

/-- The entry of the children. -/
def spawnEntry (w : FWord) (s : State) (c : Ctx) : W64 :=
  match w.b with
  | .imm i => (c.pc &&& ~~~7#64) + (i.signExtend 64 <<< 3)
  | .sel _ => (laneIn (.spawn w) w s c (lowest c.act)).b
/-- F of a lane. -/
def spawnFrame (w : FWord) (s : State) (c : Ctx) (l : Nat) : W64 := (laneIn (.spawn w) w s c l).a
/-- The lanes whose frame names a join block, and J of a lane. -/
def frameLanes (w : FWord) (s : State) (c : Ctx) : List Nat := (lanesOf c.act).filter (fun l => spawnFrame w s c l != 0)
def spawnJoin (w : FWord) (s : State) (c : Ctx) (l : Nat) : W64 :=
  if spawnFrame w s c l = 0 then 0 else BitVec.ofNat 64 (leNat (strongBytes s c .load (spawnFrame w s c l) 8))
/-- The lanes with a join block, their blocks, and those that the team does not hold. -/
def joinLanes (w : FWord) (s : State) (c : Ctx) : List Nat := (lanesOf c.act).filter (fun l => spawnJoin w s c l != 0)
def spawnBlocks (w : FWord) (s : State) (c : Ctx) : List W64 := ((joinLanes w s c).map (spawnJoin w s c)).eraseDups
def newBlocks (w : FWord) (s : State) (c : Ctx) : List W64 := (spawnBlocks w s c).filter (fun j => !c.t.joins.contains j)
/-- The lanes that stand for the new blocks: the lowest of each. -/
def newLanes (w : FWord) (s : State) (c : Ctx) : List Nat :=
  (newBlocks w s c).filterMap (fun j => (joinLanes w s c).find? (fun l => spawnJoin w s c l == j))

/-- The checks before J is read. -/
def spawnCheckF (w : FWord) (s : State) (c : Ctx) : Except Stop Unit := do
  trapIf (badLeadTarget (spawnEntry w s c)) c 0x0E 0
  stage c (spawnFrame w s c) (fun l => if spawnFrame w s c l >>> 57 != 0 || (spawnFrame w s c l).toNat % 8 != 0 then some (0xC5, 1) else none)
  memWait s c false
  if !relDone c.gr then throw .wait
  laneAccess s c .load 8 8 (frameLanes w s c) (spawnFrame w s c)
  readable s c ((frameLanes w s c).flatMap (fun l => strongPas s c .load (spawnFrame w s c l) 8))

/-- The memory that holds the blocks' records, and their COUNTs. -/
def recordPas (w : FWord) (s : State) (c : Ctx) : List Nat := (newBlocks w s c).flatMap (fun j => physBytes s c .zenith (j + 0x20) 32)
def countPas (s : State) (c : Ctx) (j : W64) : List Nat := physBytes s c .zenWrite j 8

/-- The checks once J is read. -/
def spawnCheckJ (w : FWord) (s : State) (c : Ctx) : Except Stop Unit := do
  let j := spawnJoin w s c
  stage c j (fun l => if j l != 0 && ((j l).toNat % 64 != 0 || j l >>> 57 != 0 || inScratch (j l)) then some (0xC5, 1) else none)
  trapIf (decide (4 < c.t.joins.length + (newBlocks w s c).length)) c 0xC5 2
  laneAccess s c .zenith 8 32 (newLanes w s c) (fun l => j l + 0x20)
  laneAccess s c .zenWrite 8 8 (joinLanes w s c) j
  readable s c (recordPas w s c ++ (spawnBlocks w s c).flatMap (countPas s c))

/-- The checks of the records, the queue and the indices. -/
def spawnCheckQ (w : FWord) (s : State) (c : Ctx) : Except Stop Unit := do
  let rec_ (l : Nat) : Option Nat := contBad (dwords (strongBytes s c .zenith (spawnJoin w s c l + 0x20) 32))
  stage c (spawnJoin w s c) (fun l => if (newLanes w s c).contains l then (rec_ l).map (fun d => (0xC6, d)) else none)
  trapIf (decide (qFree s c.t.queue < laneCount c.act)) c 0xC0 3
  let x ← ownLaunch s c
  trapIf (decide (2 ^ 31 < x.next + laneCount c.act)) c 0xC4 1

/-- Raise the COUNTs of the blocks at their home slices (R478): by one for each child, and by one more for a hold (R479). The
lanes stall until another device has raised its own. -/
def raiseCounts (w : FWord) (s0 : State) (c : Ctx) (s : State) : Option State :=
  (spawnBlocks w s0 c).foldl (fun r j => r.bind (fun s =>
    let pas := countPas s0 c j
    let n := BitVec.ofNat 64 (leNat (pas.map (readByte s)))
    let k := ((joinLanes w s0 c).filter (fun l => spawnJoin w s0 c l == j)).length + (if c.t.joins.contains j then 0 else 1)
    if tierOf (pas.headD 0) = some 3 then postRaise s c.id (pas.headD 0) k
    else some (engineWrite s (pas.zip (leBytes 8 (n + BitVec.ofNat 64 k).toNat))))) (some s)

/-- A child's record (R473). -/
def childRecord (w : FWord) (s : State) (c : Ctx) (next l : Nat) : Mark :=
  { words := [BitVec.ofNat 64 (2 ^ 61) ||| spawnEntry w s c, spawnFrame w s c l, spawnJoin w s c l,
      BitVec.ofNat 64 (c.t.launch.lid * 2 ^ 32 + next + (lanesOf c.act).idxOf l)], run := c.t.run }

/-- The step at Zenith. -/
def spawnStep (w : FWord) (s : State) (c : Ctx) (x : Cnt) : Option State :=
  let n := laneCount c.act
  let s' := commitWord (.spawn w) w s c (fun l => { val := BitVec.ofNat 64 (x.next + (lanesOf c.act).idxOf l) })
  let s' := onTeam c (fun t => { t with joins := t.joins ++ newBlocks w s c }) s'
  let s' := updCnt s' (ownKey c) (fun x => { x with count := x.count + (newBlocks w s c).length + n, next := x.next + n })
  (raiseCounts w s c s').map (fun s' => (lanesOf c.act).foldl (fun s' l => pushRec s' c.t.queue (childRecord w s c x.next l)) s')

def execSpawn (w : FWord) (s : State) : Host.Outcome State Fault Refusal :=
  finish s (do
    let c ← prologue (.spawn w) w s
    if c.act = 0 then pure (advance (.spawn w) w s c)
    else
      spawnCheckF w s c
      let frames := linesMissing s ((frameLanes w s c).flatMap (fun l => strongPas s c .load (spawnFrame w s c l) 8))
      if frames ≠ [] then pure (askWord s c frames)
      else
        spawnCheckJ w s c
        let blocks := linesMissing s (recordPas w s c)
        let held := heldAway s ((spawnBlocks w s c).flatMap (countPas s c))
        if blocks ≠ [] then pure (askWord s c blocks)
        else
          spawnCheckQ w s c
          let x ← ownLaunch s c
          if held ≠ [] then pure { invalLines s held with cur := { s.cur with stalled := true } }
          else match spawnStep w s c x with
            | some s => pure s
            | none => throw .wait)

/-! GROW (R497). -/

/-- The count of a `GROW`. -/
def growCount (w : FWord) (s : State) (c : Ctx) : Int :=
  match w.b with
  | .imm i => i.toInt
  | .sel _ => (lo (laneIn (.grow w) w s c (lowest c.act)).a).toInt

/-- The range record. -/
def rangeRecord (c : Ctx) (next n : Nat) : Mark :=
  { words := [BitVec.ofNat 64 (3 * 2 ^ 61), c.t.launch.frame, BitVec.ofNat 64 n, BitVec.ofNat 64 (c.t.launch.lid * 2 ^ 32 + next)], run := c.t.run }

/-- The index that a `GROW` finds next. -/
def nextIndex (s : State) (c : Ctx) : Nat := ((look s.lcnt (ownKey c)).map (·.next)).getD 0

def execGrow (w : FWord) (s : State) : Host.Outcome State Fault Refusal :=
  runEff (.grow w) w
    (fun c => do
      trapIf (decide (growCount w s c < 0)) c 0xC4 2
      let x ← ownLaunch s c
      trapIf (decide (2 ^ 31 < x.next + (growCount w s c).toNat)) c 0xC4 1
      trapIf (decide (0 < growCount w s c) && qFree s c.t.queue == 0) c 0xC0 3)
    (fun c _ => val (BitVec.ofNat 64 (nextIndex s c)))
    (fun c s' =>
      let n := (growCount w s c).toNat
      if n = 0 then s'
      else pushRec (updCnt s' (ownKey c) (fun x => { x with count := x.count + n, next := x.next + n })) c.t.queue (rangeRecord c (nextIndex s c) n)) s

/-! LAUNCH (R498). -/

/-- The queue and the record's address. -/
def launchQueue (w : FWord) (s : State) (c : Ctx) : Nat :=
  match w.b with
  | .imm i => i.toNat
  | .sel _ => (lo (laneIn (.launch w) w s c (lowest c.act)).b).toNat
def launchAddr (w : FWord) (s : State) (c : Ctx) : W64 := (laneIn (.launch w) w s c (lowest c.act)).a

/-- The checks of a `LAUNCH`. -/
def launchCheck (w : FWord) (s : State) (c : Ctx) : Except Stop Unit := do
  let q := launchQueue w s c
  let a := launchAddr w s c
  memWait s c false
  if !relDone c.gr then throw .wait
  trapIf (decide (64 ≤ q)) c 0xC0 1
  trapIf (!(zq s q).enable || (zq s q).ctx.toNat != c.t.launch.ctx) c 0xC0 2
  trapIf (qFree s q == 0) c 0xC0 3
  trapIf (a.toNat % 64 != 0 || (rangeFault c.t a 64).isSome) c 0xC5 1 a
  laneAccess s c .load 8 64 [lowest c.act] (fun _ => a)
  readable s c (strongPas s c .load a 64)

def execLaunch (w : FWord) (s : State) : Host.Outcome State Fault Refusal :=
  finish s (do
    let c ← prologue (.launch w) w s
    if c.act = 0 then pure (advance (.launch w) w s c)
    else
      launchCheck w s c
      let lns := linesMissing s (strongPas s c .load (launchAddr w s c) 64)
      if lns ≠ [] then pure (askWord s c lns)
      else pure (pushRec (advance (.launch w) w s c) (launchQueue w s c)
        { words := dwords (strongBytes s c .load (launchAddr w s c) 64), issuer := some (c.id, lowest c.act), origin := some (originOf c.t) }))

/-! CANCEL and CNTRD (R489, R490, R499). -/

/-- The name that a word gives. -/
def entryName (i : Instr) (w : FWord) (s : State) (c : Ctx) : Nat :=
  match w.b with
  | .imm k => k.toNat
  | .sel _ => (lo (laneIn i w s c (lowest c.act)).a).toNat
/-- The checks of a name (R499): a phase or a job is named by the selector ZERO and the immediate 0, so another selector
faults whatever its register holds. -/
def nameCheck (lvl : Level) (a : Sel) (n : Nat) (c : Ctx) : Except Stop Unit :=
  match lvl with
  | .l => .ok ()
  | .g => trapIf (decide (1023 < n)) c 0xC9 1
  | .p | .j => trapIf (a != .zero || n != 0) c 0xC9 2

/-- The task under which a source's `CANCEL` waits for translations. -/
def taskSrc (id : SrcId) : Nat := 2 ^ 61 + 64 * id.team + id.g

/-- Cancel the live launches of a context that meet a condition. -/
def cancelAll (s : State) (ctx task : Nat) (p : Cnt → Bool) : Except ZStop State :=
  ((s.lcnt.filter (fun e => e.2.launch.ctx == ctx && cntLive e.2 && p e.2)).map (·.1)).foldlM (fun s k => cancelLaunch s k task) s

/-- A running graph of a context is forced to its final state. -/
def stopGraph (ctx : Nat) (s : State) (slot : Nat) : State :=
  if graphRuns s ctx slot then phaseDown (updGraph s slot (fun g => { g with state := 3, count := 0 })) ctx else s

/-- An entry of a phase or a job is forced to its final state. -/
def forced (m : FMap Cnt) (ctx : Nat) : FMap Cnt := upd m ctx (fun c => { c with state := 3, count := 0 })
/-- An entry that has not reached a final state. -/
def entryRuns (m : FMap Cnt) (ctx : Nat) : Bool := (look m ctx).any (·.state == 1)

/-- Cancel all work of a context. -/
def cancelCtx (s : State) (ctx task : Nat) : Except ZStop State :=
  cancelAll (((s.zen.gcnt.map (·.1))).foldl (stopGraph ctx) s) ctx task (fun _ => true)

/-- The effect of a `CANCEL` on the entry that it names. -/
def cancelEntry (s : State) (ctx task : Nat) (lvl : Level) (n : Nat) : Except ZStop State :=
  match lvl with
  | .l => if (look s.lcnt (lcntKey ctx n)).any (·.state == 1) then cancelLaunch s (lcntKey ctx n) task else .ok s
  | .g => if graphRuns s ctx n then cancelAll (stopGraph ctx s n) ctx task (fun c => c.launch.gslot == n) else .ok s
  | .p => if entryRuns s.zen.pcnt ctx then
      (cancelCtx s ctx task).map (fun s => { s with zen := { s.zen with pcnt := forced s.zen.pcnt ctx } }) else .ok s
  | .j => if entryRuns s.zen.jcnt ctx then
      (cancelCtx s ctx task).map (fun s => { s with zen := { s.zen with jcnt := forced s.zen.jcnt ctx } }) else .ok s

/-- A team that has cancelled its own launch ends at its next instruction boundary (R490). -/
def endOwn (c : Ctx) (s : State) : State :=
  if (team s c.id.team).any (·.cancelReq) then { s with agenda := .event (.teamCancel c.id.team) :: s.agenda } else s

def execCancel (w : FWord) (lvl : Level) (s : State) : Host.Outcome State Fault Refusal :=
  let i := Instr.cancel w lvl
  finish s (do
    let c ← prologue i w s
    if c.act = 0 then pure (advance i w s c)
    else
      let n := entryName i w s c
      nameCheck lvl w.a n c
      match cancelEntry (advance i w s c) c.t.launch.ctx (taskSrc c.id) lvl n with
      | .ok s => pure (endOwn c (dropDeclined s (taskSrc c.id)))
      | .error e => pure (zenWord s c.t.launch.ctx (taskSrc c.id) (.error e)))

/-- The result word of `CNTRD`. -/
def entryWord (state cause count : Nat) : W64 := BitVec.ofNat 64 (state % 16 * 2 ^ 60 + cause % 256 * 2 ^ 48 + count % 2 ^ 48)
def cntWord (c : Option Cnt) : W64 := (c.map (fun c => entryWord c.state c.cause c.count)).getD 0
/-- The entry that a name means. -/
def readEntry (s : State) (ctx : Nat) (lvl : Level) (n : Nat) : W64 :=
  match lvl with
  | .l => cntWord (look s.lcnt (lcntKey ctx n))
  | .g => match look s.zen.gcnt n with
    | some g => if g.ctx = ctx then entryWord g.state g.cause g.count else 0
    | none => 0
  | .p => cntWord (look s.zen.pcnt ctx)
  | .j => cntWord (look s.zen.jcnt ctx)

def execCntrd (w : FWord) (lvl : Level) (s : State) : Host.Outcome State Fault Refusal :=
  let i := Instr.cntrd w lvl
  runEff i w (fun c => nameCheck lvl w.a (entryName i w s c) c)
    (fun c _ => val (readEntry s c.t.launch.ctx lvl (entryName i w s c))) noEff s

end Sys2Proof.Machine
end

