-- ==== Sys2Proof/Machine/Forms.lean ====
section
/-! DEFINITION. The P-form word (R105 to R108) and the D-form slot with the team's dictionary (R109 to R112, R271). -/

namespace Sys2Proof.Machine

/-! P-form. -/

/-- The F-form fields of a half: `X d, d, s`, or `X d, s` for a unary operation (R108). -/
def halfWord (h : PHalf) : FWord :=
  if unaryP h.op then { pr := h.pr, dst := h.dst, a := h.src } else { pr := h.pr, dst := h.dst, a := .v h.dst, b := .sel h.src }

/-- The F-form instruction whose effect a half has. -/
def halfInstr (h : PHalf) : Instr :=
  let w := halfWord h
  match h.op with
  | .iadd => .iadd w .wrap
  | .isub => .isub w .wrap
  | .imul => .imul w
  | .imin u => .imin w u
  | .imax u => .imax w u
  | .iand => .iand w false
  | .ior => .ior w false
  | .ixor => .ixor w false
  | .shl => .shl w
  | .shr => .shr w
  | .sar => .sar w
  | .rot => .rot w
  | .mov => .mov w false none
  | .popc => .popc w
  | .clz => .clz w
  | .brev => .brev w
  | .fadd rm => .fadd w rm false
  | .fsub rm => .fsub w rm false
  | .fmul rm => .fmul w rm false
  | .fmin rm => .fmin w rm
  | .fmax rm => .fmax w rm
  | .hadd2 rm => .hadd2 w rm false
  | .hmul2 rm => .hmul2 w rm false
  | .badd2 rm => .badd2 w rm false
  | .bmul2 rm => .bmul2 w rm false
  | .frcp => .frcp w
  | .frsq => .frsq w
  | .fsqrt => .fsqrt w
  | .fexp2 => .fexp2 w
  | .flog2 => .flog2 w
  | .fsin => .fsin w
  | .fcos => .fcos w

/-- What a half computes in a lane. -/
def halfFn (h : PHalf) : LaneIn → LaneOut :=
  match h.op with
  | .iadd => addR 32 .wrap false
  | .isub => addR 32 .wrap true
  | .imul => imulR
  | .imin u => minmaxR u false
  | .imax u => minmaxR u true
  | .iand => iandR false
  | .ior => iorR false
  | .ixor => ixorR false
  | .shl => shlR
  | .shr => shrR
  | .sar => sarR
  | .rot => rotR
  | .mov => movR false
  | .popc => popcR
  | .clz => clzR
  | .brev => brevR
  | .fadd rm => farithR fp32 addFp rm false
  | .fsub rm => farithR fp32 subFp rm false
  | .fmul rm => farithR fp32 mulFp rm false
  | .fmin _ => fminmaxR fp32 false
  | .fmax _ => fminmaxR fp32 true
  | .hadd2 rm => packedR fp16 addFp rm false
  | .hmul2 rm => packedR fp16 mulFp rm false
  | .badd2 rm => packedR bf16 addFp rm false
  | .bmul2 rm => packedR bf16 mulFp rm false
  | .frcp => specialR 0
  | .frsq => specialR 1
  | .fsqrt => specialR 5
  | .fexp2 => specialR 6
  | .flog2 => specialR 2
  | .fsin => specialR 3
  | .fcos => specialR 4

/-- The context of a half: its own predicate (R99, R107). -/
def halfCtx (c : Ctx) (h : PHalf) : Ctx := { c with act := predLanes c.gr (halfWord h) c.at_ }

/-- The checks of a half's queue and registers. -/
def halfChecks (c : Ctx) (h : PHalf) : Except Stop Unit := do
  let c := halfCtx c h
  let i := halfInstr h
  queueCheck (halfWord h) (shape i) c
  if c.act = 0 then pure () else regChecks (halfWord h) (shape i) (none, false) c

/-- The half that reads the queue, if one does: an entry is popped once (R152). -/
def queueHalf (a b : PHalf) : PHalf := if a.src = .q ∨ (a.src = .qp ∧ b.src ≠ .q) then a else b

/-- The beginning of a P-form word: the chain's rules, which it meets as its halves do (R108, log 11), then half A, then
half B (R141, R131). -/
def pPrologue (a b : PHalf) (s : State) : Except Stop Ctx := do
  let c ← ctxOf s (halfWord a)
  let q := queueHalf a b
  chainCheck (halfInstr q) (halfWord q) (shape (halfInstr q)) s { c with act := (halfCtx c a).act ||| (halfCtx c b).act }
  halfChecks c a
  halfChecks c b
  pure c

/-- The results of a half, from sources read before either half writes (R107). -/
def halfOut (s : State) (c : Ctx) (h : PHalf) (l : Nat) : LaneOut := halfFn h (laneIn (halfInstr h) (halfWord h) s (halfCtx c h) l)

/-- The state after a P-form word: both halves' results. -/
def commitPForm (a b : PHalf) (s : State) (c : Ctx) : State :=
  let q := queueHalf a b
  let gr := beginIssue (halfInstr q) (halfWord q) s c none
  let gr := writeResults (halfInstr a) (halfWord a) (halfCtx c a) (halfOut s c a) gr
  let gr := writeResults (halfInstr b) (halfWord b) (halfCtx c b) (halfOut s c b) gr
  endIssue (halfWord a) s c gr (max ((latencyOf (halfInstr a)).getD 0) ((latencyOf (halfInstr b)).getD 0))
    (orFlags (halfCtx c a) (halfOut s c a) ||| orFlags (halfCtx c b) (halfOut s c b))

/-- P_FORM_WORD (R107). -/
def execPFormWord (a b : PHalf) (s : State) : Host.Outcome State Fault Refusal :=
  finish s (do
    let c ← pPrologue a b s
    pure (commitPForm a b s c))

/-! D-form. -/

/-- The meaning of a dictionary entry as if it stood at the slot's PC (R110). Lead-only words and events are no entries:
`decodeEntry` refuses them. -/
def execEntry (i : Instr) (s : State) : Host.Outcome State Fault Refusal :=
  match i with
  | .iadd w m => execIadd w m s
  | .isub w m => execIsub w m s
  | .iaddc w p c0 => execIaddc w p c0 s
  | .isubb w p c0 => execIsubb w p c0 s
  | .ineg w sat => execIneg w sat s
  | .iabs w sat => execIabs w sat s
  | .imul w => execImul w s
  | .imulh w u => execImulh w u s
  | .imad w => execImad w s
  | .imadw w u => execImadw w u s
  | .iadd64 w m => execIadd64 w m s
  | .isub64 w m => execIsub64 w m s
  | .shf64 w dir => execShf64 w dir s
  | .imin w u => execImin w u s
  | .imax w u => execImax w u s
  | .iand w d => execIand w d s
  | .ior w d => execIor w d s
  | .ixor w d => execIxor w d s
  | .inot w d => execInot w d s
  | .ilop3 w f0 f1 => execIlop3 w f0 f1 s
  | .shl w => execShl w s
  | .shr w => execShr w s
  | .sar w => execSar w s
  | .rot w => execRot w s
  | .bfe w s0 => execBfe w s0 s
  | .bfi w => execBfi w s
  | .popc w => execPopc w s
  | .clz w => execClz w s
  | .brev w => execBrev w s
  | .icmp w cond u d => execIcmp w cond u d s
  | .sel w p neg d => execSel w p neg d s
  | .mov w d xdst => execMov w d xdst s
  | .movi w d => execMovi w d s
  | .movhi w => execMovhi w s
  | .lea w sh s0 => execLea w sh s0 s
  | .pand w neg => execPand w neg s
  | .por w neg => execPor w neg s
  | .pxor w neg => execPxor w neg s
  | .pnot w => execPnot w s
  | .pset w z => execPset w z s
  | .fadd w rm sat => execFadd w rm sat s
  | .fsub w rm sat => execFsub w rm sat s
  | .fmul w rm sat => execFmul w rm sat s
  | .fdivs w rm sat => execFdivs w rm sat s
  | .dadd w rm sat => execDadd w rm sat s
  | .dsub w rm sat => execDsub w rm sat s
  | .dmul w rm sat => execDmul w rm sat s
  | .ffma w nab nc rm sat => execFfma w nab nc rm sat s
  | .dfma w nab nc rm sat => execDfma w nab nc rm sat s
  | .fmin w rm => execFmin w rm s
  | .fmax w rm => execFmax w rm s
  | .dmin w rm => execDmin w rm s
  | .dmax w rm => execDmax w rm s
  | .fcmp w cond rm s0 => execFcmp w cond rm s0 s
  | .dcmp w cond rm s0 => execDcmp w cond rm s0 s
  | .frnd w rm => execFrnd w rm s
  | .drnd w rm => execDrnd w rm s
  | .fclass w fmt rm => execFclass w fmt rm s
  | .hadd2 w rm sat => execHadd2 w rm sat s
  | .hmul2 w rm sat => execHmul2 w rm sat s
  | .badd2 w rm sat => execBadd2 w rm sat s
  | .bmul2 w rm sat => execBmul2 w rm sat s
  | .hfma2 w rm sat => execHfma2 w rm sat s
  | .bfma2 w rm sat => execBfma2 w rm sat s
  | .dot4i w ua ub sat rm => execDot4i w ua ub sat rm s
  | .frcp w => execFrcp w s
  | .frsq w => execFrsq w s
  | .fsqrt w => execFsqrt w s
  | .fexp2 w => execFexp2 w s
  | .flog2 w => execFlog2 w s
  | .fsin w => execFsin w s
  | .fcos w => execFcos w s
  | .cvt w k rm => execCvt w k rm s
  | .cvt8 w op => execCvt8 w op s
  | .cvt4E2m1 w rm => execCvt4E2m1 w rm s
  | .cvt4Pack w => execCvt4Pack w s
  | .cvt4Fp32 w n => execCvt4Fp32 w n s
  | .cvtx w fmt o => execCvtx w fmt o s
  | .sclxFp32 w rm => execSclxFp32 w rm s
  | .sclxFp64 w rm => execSclxFp64 w rm s
  | .sclxX8 w inv rm => execSclxX8 w inv rm s
  | .sclxBlk w fmt => execSclxBlk w fmt s
  | .ld w sz pol acq => execLd w sz pol acq s
  | .lds w sz acq => execLds w sz acq s
  | .st w sz os rel => execSt w sz os rel s
  | .sts w sz os rel => execSts w sz os rel s
  | .lde w el pol acq => execLde w el pol acq s
  | .ste w el os rel => execSte w el os rel s
  | .ldx w x pol acq => execLdx w x pol acq s
  | .stx w x os rel => execStx w x os rel s
  | .atom w op os ar => execAtom w op os ar s
  | .atomx w op os ar => execAtomx w op os ar s
  | .acq w => execAcq w s
  | .rel w => execRel w s
  | .sjoin w => execSjoin w s
  | .pref w l2 => execPref w l2 s
  | .cflush w => execCflush w s
  | .cinv w => execCinv w s
  | .bra w => execBra w s
  | .brx w => execBrx w s
  | .call w => execCall w s
  | .ret w => execRet w s
  | .exit w => execExit w s
  | .nop w => execNop w s
  | .yield w => execYield w s
  | .bkpt w => execBkpt w s
  | .trap w => execTrap w s
  | .rtt w => execRtt w s
  | .bar w n arv => execBar w n arv s
  | .pbar w n k => execPbar w n k s
  | .vote w m inv => execVote w m inv s
  | .lead w => execLead w s
  | .shfl w m d seg => execShfl w m d seg s
  | .xset w x => execXset w x s
  | .xadd w x => execXadd w x s
  | .xget w x f => execXget w x f s
  | .dqtake w pd => execDqtake w pd s
  | .vgrow w => execVgrow w s
  | .vshrink w => execVshrink w s
  | .krd w => execKrd w s
  | .kwr w => execKwr w s
  | .flagarm w off => execFlagarm w off s
  | .spawn w => execSpawn w s
  | .grow w => execGrow w s
  | .launch w => execLaunch w s
  | .cancel w lvl => execCancel w lvl s
  | .cntrd w lvl => execCntrd w lvl s
  | .capmk w snd eng => execCapmk w snd eng s
  | .caprv w => execCaprv w s
  | .rarm w acq nbr => execRarm w acq nbr s
  | .rdisarm w => execRdisarm w s
  | .rpend w => execRpend w s
  | .sendr w d os => execSendr w d os s
  | .sendn w dir os => execSendn w dir os s
  | .cpy w => execCpy w s
  | .cpyg w => execCpyg w s
  | .cpym w => execCpym w s
  | .cpypf w => execCpypf w s
  | .twaitany w => execTwaitany w s
  | .twaitall w => execTwaitall w s
  | .tffr w => execTffr w s
  | .tclr w => execTclr w s
  | .mloadb w => execMloadb w s
  | .mma w z => execMma w z s
  | .mzero w => execMzero w s
  | .mstore w os => execMstore w os s
  | .mread w d => execMread w d s
  | .mwrite w d => execMwrite w d s
  | .mres w => execMres w s
  | .mrel w all => execMrel w all s
  | .mstat w => execMstat w s
  | .rmoN w n os => execRmoN w n os s
  | .rmoR w n os => execRmoR w n os s
  | .rmdef w => execRmdef w s
  | .rmdrop w => execRmdrop w s
  | .rmqry w => execRmqry w s
  | .sweep w => execSweep w s
  | .mcast w d os => execMcast w d os s
  | .coll w os => execColl w os s
  | .fgrp w k => execFgrp w k s
  | .tlbinv w ctx => execTlbinv w ctx s
  | .pgacc w ca => execPgacc w ca s
  | .pFormWord a b => execPFormWord a b s
  | _ => .next s

/-- The code of a slot. -/
def slotCode (c0 : DCode) (c1 c2 : Option DCode) (k : Nat) : DCode := (([some c0, c1, c2].getD k none).getD c0)

/-- A `DICTLD` in progress keeps a slot that names an entry of its range waiting (R271). -/
def entryBusy (t : Team) (n : Nat) : Bool :=
  match t.dictBusy with
  | some (first, count) => decide (first ≤ n) && decide (n < first + count)
  | none => false

/-- D_FORM_SLOT: the entry of the slot's code, after its offset (R110, R112). -/
def execDFormSlot (c0 : DCode) (c1 c2 : Option DCode) (s : State) : Host.Outcome State Fault Refusal :=
  match team s s.cur.id.team, group s s.cur.id with
  | some t, some gr =>
    let c := slotCode c0 c1 c2 (s.cur.pc &&& 3).toNat
    let lanes := issueLanes gr s.cur.pc s.cur.lanes
    if lanes = 0 ∨ entryBusy t c.index.toNat then .next { s with cur := { s.cur with stalled := true } }
    else match decodeEntry c.off (get 0x8000000000000000 t.dict c.index.toNat) with
      | .ok i => execEntry i s
      | .error e => .next (enterTrap s s.cur.id e.1 e.2 lanes s.cur.pc 0)
  | _, _ => .next { s with cur := { s.cur with stalled := true } }

end Sys2Proof.Machine
end

