-- ==== Sys2Proof/Machine/System.lean ====
section
/-! DEFINITION. The system controller: starts, Dawn mode, attestation, features, thermal limits, freeze and the management
registers; channels; and the host registers without an instruction of their own (R510, R513, R520 to R529). -/

namespace Sys2Proof.Machine

def updSys (s : State) (f : SysCtl → SysCtl) : State := { s with sys := f s.sys }

/-! Starts (R520, R521). -/

/-- Bytes of the image in flash, and its fields. -/
def imageBytes (s : State) (off n : Nat) : List Byte := (List.range n).map (fun k => Config.flashByte s.sys.flashNo (off + k))
def imageSvn (s : State) : Nat := leNat (imageBytes s 0x8 4)
def imageLen (s : State) : Nat := leNat (imageBytes s 0xC 4)
def imageKey_ (s : State) : List Byte := imageBytes s 0x10 2592
def imageBody (s : State) : List Byte := imageBytes s 0x2000 (imageLen s)

/-- The image's header is bad: its magic number, its length or its pad (log 8). -/
def headerFails (s : State) : Bool :=
  leNat (imageBytes s 0 8) != 0x5A464957 || decide (imageLen s < 2 ^ 20) || decide (2 ^ 26 < imageLen s) ||
  (imageBytes s 0x1C43 957).any (· != 0)

/-- The code of the first start step that fails, or 0. -/
def failedStep (s : State) : Nat :=
  (firstTrue [
    (headerFails s, 1), (!Config.keyTrusted (imageKey_ s), 2), (decide (imageSvn s < Config.minSvn), 3),
    (!Config.signed (imageBody s) (imageKey_ s) (imageBytes s 0xA30 4627), 4),
    (Config.partFails s.fresh 5, 5), (Config.partFails s.fresh 6, 6), (Config.partFails s.fresh 7, 7)]).getD 0

/-- STARTFAIL.COUNT, and the register with a new COUNT and LAST. -/
def failCount (s : State) : Nat := fieldN s.startFail 0 2
def failWord (count last : Nat) : W64 := BitVec.ofNat 64 (last * 16 + count)
def lastStep (s : State) : Nat := fieldN s.startFail 4 4

/-- The module after its reset, before a start: what survives is the fused count with the registers that are kept, the image
in flash, the pin, the sensor, and the model's own counters. -/
def wiped (s : State) (mode : Mode) : State :=
  { State.reset with
    fresh := s.fresh, nextId := s.nextId, startNo := s.startNo, mem := s.mem, bad := s.bad, startFail := s.startFail, dawnWhy := 0
    sys := { mode, freezePin := s.sys.freezePin, trips := s.sys.trips, temp := s.sys.temp, flashNo := s.sys.flashNo } }

/-- Dawn mode for a reason. -/
def dawnMode (s : State) (why : Nat) : State := { wiped s .dawn with dawnWhy := BitVec.ofNat 64 why }

/-- A start that passes every step (R427, R520): memory is zero, the links are trained. -/
def passedStart (s : State) : State :=
  let s := wiped s .running
  { s with mem := [], bad := [], startNo := s.startNo + 1, startFail := failWord 0 (lastStep s), sys := { s.sys with trips := 0 }
           fab := { s.fab with ports := (List.range 48).map (fun p => (p, Config.training s.fresh p)) } }

/-- The reason for Dawn mode after failed starts: thermal trips alone, or starts. -/
def dawnReason (s : State) : Nat := if 3 ≤ s.sys.trips then 3 else 1

/-- Run the start steps: a failing one ends the start. With RECOVER and COUNT 3, a failure enters Dawn mode again at once. -/
def runStart (s : State) (recover : Bool) : State :=
  if failCount s = 3 ∧ !recover then dawnMode s (dawnReason s)
  else match failedStep s with
    | 0 => passedStart s
    | n =>
      let s' := { s with startFail := failWord (min 3 (failCount s + 1)) n }
      if failCount s = 3 then dawnMode s' 1 else wiped s' .failed

/-- A thermal trip counts as a failed start once the host resets, unless the module has cooled below 95 °C (R527). -/
def countTrip (s : State) : State :=
  if s.sys.trip ∧ 95 * 16 ≤ Config.temperature s.fresh then
    { updSys s (fun x => { x with trips := x.trips + 1 }) with startFail := failWord (min 3 (failCount s + 1)) (lastStep s) }
  else s

/-- A reset by a host. -/
def resetModule (s : State) (k : ResetKind) : State :=
  let s := countTrip s
  match k with
  | .dawn => dawnMode s 2
  | .start => runStart s false
  | .recover => runStart s true

/-- A DAWNREQ has reset the module in this cycle: its reset stands against a RESETREQ of the same cycle (R529). -/
def dawnNow (s : State) : Bool := s.sys.mode == .dawn && s.dawnWhy == 2 && s.cycle == 0

/-- A host asks for a reset: it waits while a copy into flash is under way (R529). -/
def askReset (s : State) (k : ResetKind) : State :=
  if s.sys.mode = .off ∨ dawnNow s then s
  else if s.sys.flashBusy.isSome then updSys s (fun x => { x with waiting := x.waiting ++ [k] })
  else resetModule s k

/-- A host's function has management registers. -/
def isHost (h : Nat) : Bool := decide (h < 2)
/-- The effect of a host's access. -/
def hostEff (h : Nat) (s t : State) : State := if isHost h && s.sys.mode != .off then t else s

def execResetreqStart (h : Nat) (s : State) : Host.Outcome State Fault Refusal := .next (hostEff h s (askReset s .start))
def execResetreqRecover (h : Nat) (s : State) : Host.Outcome State Fault Refusal := .next (hostEff h s (askReset s .recover))
def execDawnreqEnter (h : Nat) (s : State) : Host.Outcome State Fault Refusal := .next (hostEff h s (askReset s .dawn))

/-- POWER_ON: power is applied and the module starts. -/
def execPowerOn (s : State) : Host.Outcome State Fault Refusal := .next (if s.sys.mode = .off then runStart s false else s)
/-- POWER_LOSS: volatile state is lost; a copy into flash that it breaks off leaves a free image (log 8). -/
def execPowerLoss (s : State) : Host.Outcome State Fault Refusal :=
  .next (if s.sys.mode = .off then s
    else
      let (n, s) := newId s
      { wiped (if s.sys.flashBusy.isSome then updSys s (fun x => { x with flashNo := n }) else s) .off with mem := [], bad := [] })

/-! Attestation (R522). -/

/-- The measurement M. -/
def measured (s : State) : List Byte := (List.range 64).map (Config.measure (imageBody s))
/-- Bytes 0 to 179 of a report. -/
def reportBody (s : State) (nonce : List W64) : List Byte :=
  (List.range 64).map Config.bootRom ++ measured s ++ leBytes 16 s.featAccept.toNat ++ leBytes 4 (imageSvn s) ++
    nonce.flatMap (fun x => leBytes 8 x.toNat)
/-- The report. -/
def report (s : State) (nonce : List W64) : List Byte :=
  reportBody s nonce ++ (List.range 4627).map (Config.signature (measured s) (reportBody s nonce)) ++ List.replicate 153 0

/-- The nonce doublewords that a host has written. -/
def nonceOf (s : State) (h : Nat) : List W64 := (((look s.sys.nonce h).getD []) ++ List.replicate 4 0).take 4
/-- QUOTE_REQUEST: the write of the last nonce doubleword; it replaces a request that is not answered. -/
def execQuoteRequest (h : Nat) (v : W64) (s : State) : Host.Outcome State Fault Refusal :=
  .next (hostEff h s (updSys s (fun x => { x with nonce := put x.nonce h ((nonceOf s h).set 3 v), quote := some (h, (nonceOf s h).set 3 v)
                                                  quoteDone := put x.quoteDone h false })))

/-- QUOTE_REPORT_WRITTEN: at an address where no memory is, the machine stops. -/
def execQuoteReportWritten (s : State) : Host.Outcome State Fault Refusal :=
  match s.sys.quote with
  | none => .next s
  | some (h, nonce) =>
    let pa := (get 0 s.sys.quoteAddr h).toNat
    if (tierOf pa).isNone then .fault (.hole pa)
    else
      let bs := (List.range 4960).map (pa + ·) |>.zip (report s nonce)
      match zenPeers s (bs.filter (fun b => tierOf b.1 == some 3)) with
      | none => .next s
      | some s => .next (updSys (engineWrite s (bs.filter (fun b => tierOf b.1 != some 3)))
          (fun x => { x with quote := none, quoteDone := put x.quoteDone h true }))

/-! Flash (R529). -/

/-- FLASH_COPY_START: a write of FLASHCTL with START; it is ignored while a copy is under way. -/
def execFlashCopyStart (h : Nat) (v : W64) (s : State) : Host.Outcome State Fault Refusal :=
  .next (hostEff h s (if s.sys.flashBusy.isSome ∨ !v.getLsbD 63 then s
    else updSys s (fun x => { x with flashBusy := some h, flashLen := put x.flashLen h (v.setWidth 32) })))

/-- The reset that waiting requests make: Dawn mode wins, then RECOVER. -/
def waitingReset (ks : List ResetKind) : Option ResetKind :=
  if ks.contains .dawn then some .dawn else if ks.contains .recover then some .recover else ks.head?

/-- FLASH_COPY_DONE: a copy that fails leaves the previous image; a reset that waited follows. -/
def execFlashCopyDone (s : State) : Host.Outcome State Fault Refusal :=
  .next (match s.sys.flashBusy with
    | none => s
    | some h =>
      let (n, s) := newId s
      let fails := Config.flashFails s.fresh
      let ks := s.sys.waiting
      let s := updSys s (fun x => { x with flashBusy := none, waiting := [], flashErr := put x.flashErr h fails, flashNo := if fails then x.flashNo else n })
      match waitingReset ks with
      | some k => resetModule s k
      | none => s)

/-! Features, power and temperature (R523, R525, R527). -/

/-- FEATURE_ACCEPT_WRITE: ignored once a queue has been enabled; every defined feature is offered, and the high half has no
bits. -/
def execFeatureAcceptWrite (h : Nat) (high : Bool) (v : W64) (s : State) : Host.Outcome State Fault Refusal :=
  .next (hostEff h s (if high ∨ s.zen.enabled then s else { s with featAccept := v.setWidth 8 }))

/-- PCAP_WRITE. -/
def execPcapWrite (h : Nat) (v : W64) (s : State) : Host.Outcome State Fault Refusal :=
  let watts := fieldN v 0 12
  .next (hostEff h s (if 1000 ≤ watts ∧ watts ≤ 3600 then { s with ceil := { s.ceil with pcap := watts } } else s))

/-- s × 1,280 at a temperature. -/
def scaleAt (temp : Nat) : Nat := if temp < 95 * 16 then 1280 else if 105 * 16 < temp then 320 else 1280 - 6 * (temp - 95 * 16)

/-- THERMAL_SAMPLE: every 10 µs; at 110 °C the module freezes (R527, R528). -/
def execThermalSample (s : State) : Host.Outcome State Fault Refusal :=
  .next (
    let t := Config.temperature s.fresh % 65536
    if s.cycle < s.sys.sampledAt + 17500 then s
    else
      let s := { updSys s (fun x => { x with temp := t, sampledAt := s.cycle }) with ceil := { s.ceil with scale := scaleAt t } }
      if 110 * 16 ≤ t then updSys s (fun x => { x with frozen := true, trip := true }) else s)

/-! Freeze (R528). -/

def execFreezeRequest (h : Nat) (s : State) : Host.Outcome State Fault Refusal :=
  .next (hostEff h s (updSys s (fun x => { x with freezeReq := true, frozen := true })))
/-- A write of 0 to FREEZE: refused during a thermal trip, and without a resume while the pin is held. -/
def execFreezeResume (h : Nat) (s : State) : Host.Outcome State Fault Refusal :=
  .next (hostEff h s (if s.sys.trip then s else updSys s (fun x => { x with freezeReq := false, frozen := x.frozen && x.freezePin })))
def execFreezePinAssert (s : State) : Host.Outcome State Fault Refusal :=
  .next (updSys s (fun x => { x with freezePin := true, frozen := x.frozen || x.mode != .off }))
def execFreezePinRelease (s : State) : Host.Outcome State Fault Refusal := .next (updSys s (fun x => { x with freezePin := false }))

/-! Channels (R512, R513). -/

/-- The group of a channel: three of tier 0, and tier 1. -/
def chanGroup (c : Nat) : Nat := if c < 384 then c % 3 else 3
/-- The channels of a group that are out of service. -/
def outOfService (s : State) (g : Nat) : Nat := (s.sys.channels.filter (fun e => chanGroup e.1 == g)).length

/-- CHANNEL_RETIRE: the channel is retired or narrowed, a free choice, and its storage begins to move; with the reserve used up
it stays in service, and the request is counted. -/
def execChannelRetire (c : Nat) (s : State) : Host.Outcome State Fault Refusal :=
  .next (
    let g := chanGroup c
    if 448 ≤ c ∨ (look s.sys.channels c).isSome ∨ s.moving.contains g then s
    else if (if g = 3 then 2 else 4) ≤ outOfService s g then updSys s (fun x => { x with declined := x.declined + 1 })
    else { updSys s (fun x => { x with channels := put x.channels c (1 + Config.choice s.fresh 0 % 2) }) with moving := s.moving ++ [g] })

/-- The group of a 2 MiB region. -/
def regionGroup (r : Nat) : Nat := channelGroup (r * 2 ^ 21)
/-- CHANNEL_MAP_CHANGE: a move ends, for a retired channel of the region's group or for a new hash function of the region. -/
def execChannelMapChange (r fn : Nat) (s : State) : Host.Outcome State Fault Refusal :=
  .next (
    if !local01 (r * 2 ^ 21) ∨ 8 ≤ fn ∨ (!s.moving.contains (regionGroup r) ∧ get 0 s.chanFn r = fn) then s
    else { s with moving := s.moving.filter (· ≠ regionGroup r), chanFn := set 0 s.chanFn r fn, chmapId := s.chmapId + 1 })

/-! Registers without an instruction of their own (R7, R510, R529). The translation registers have numbers of the model's
(log 21). -/

/-- The number of the model's for a translation register: 0 CTXTBL, 1 FQBASE, 2 FQCFG, 3 FQHEAD, 4 INVCTL. -/
def transReg (k : Nat) : Nat := 2 ^ 16 + k

/-- A write of a translation register. -/
def writeTrans (h k : Nat) (v : W64) (s : State) : State :=
  let drain (s : State) : State := drainHost (host s h).waiting.length s h
  match k with
  | 0 => updHost s h (fun r => { r with ctxtbl := v &&& 0x000FFFFFFFF80000 })
  | 1 => updHost s h (fun r => { r with fqbase := v &&& 0x000FFFFFFFFFF000 })
  | 2 => drain (updHost s h (fun r => { r with fqEnable := v.getLsbD 31, fqLog2n := fieldN v 0 5 }))
  | 3 => drain (updHost s h (fun r => { r with fqHead := v.setWidth 32 }))
  | 4 => if v.getLsbD 0 then s else updHost s h (fun r => { r with invctl := (v &&& 0xFFFFFFFFFFFFFF82) ||| (r.invctl &&& 1) })
  | _ => s

/-- A write of a management register by its offset in the host's register space. -/
def writeMgmt (h off : Nat) (v : W64) (s : State) : State :=
  match off with
  | 0x028 => updSys s (fun x => { x with quoteAddr := put x.quoteAddr h (v &&& 0x000FFFFFFFFFFFC0) })
  | 0x030 => updSys s (fun x => { x with nonce := put x.nonce h ((nonceOf s h).set 0 v) })
  | 0x038 => updSys s (fun x => { x with nonce := put x.nonce h ((nonceOf s h).set 1 v) })
  | 0x040 => updSys s (fun x => { x with nonce := put x.nonce h ((nonceOf s h).set 2 v) })
  | 0x058 => updSys s (fun x => { x with flashAddr := put x.flashAddr h (v &&& 0x000FFFFFFFFFF000) })
  | 0x060 => if s.sys.flashBusy.isSome ∨ v.getLsbD 63 then s else updSys s (fun x => { x with flashLen := put x.flashLen h (v.setWidth 32) })
  | _ => s

/-- REGISTER_WRITE. -/
def execRegisterWrite (h reg : Nat) (v : W64) (s : State) : Host.Outcome State Fault Refusal :=
  .next (hostEff h s (if 2 ^ 16 ≤ reg then writeTrans h (reg - 2 ^ 16) v s else if 0x8000 ≤ reg then writeMgmt h (reg - 0x8000) v s else s))

/-! What can happen while the module is frozen, or does not run (R521, R528). -/

/-- Events that need no clock domain: accesses to the management registers, power and the pin. -/
def outside : Instr → Bool
  | .powerOn | .powerLoss | .resetreqStart _ | .resetreqRecover _ | .dawnreqEnter _ | .freezeRequest _ | .freezeResume _
  | .freezePinAssert | .freezePinRelease | .quoteRequest _ _ | .flashCopyStart _ _ | .featureAcceptWrite _ _ _ | .pcapWrite _ _ => true
  | .registerWrite _ r _ => decide (0x8000 ≤ r) && decide (r < 2 ^ 16)
  | _ => false
/-- Events of the host interface and the controller, which run in Dawn mode too. -/
def basic : Instr → Bool
  | .registerWrite _ _ _ | .qcfgWrite _ _ _ | .qbaseWrite _ _ _ | .quoteReportWritten | .flashCopyDone | .thermalSample => true
  | i => outside i

/-- A move that can be made now. -/
def canMove (s : State) : Move → Bool
  | .event i => outside i || (!s.sys.frozen && (match s.sys.mode with
    | .running => true
    | .off => false
    | _ => basic i))
  | .tick => !s.sys.frozen && s.sys.mode != .off
  | _ => !s.sys.frozen && s.sys.mode == .running

/-- The module runs: no freeze, and a passed start. -/
def running (s : State) : Bool := !s.sys.frozen && s.sys.mode == .running

end Sys2Proof.Machine
end

