-- ==== Sys2Proof/Machine/Dispatch.lean ====
section
/-! DEFINITION. The meaning of every instruction and event: one arm for each row of the opcode table. -/

namespace Sys2Proof.Machine

def exec (i : Instr) (s : State) : Host.Outcome State Fault Refusal :=
  match i with
  | .iadd w m => Sys2Proof.Machine.execIadd w m s
  | .isub w m => Sys2Proof.Machine.execIsub w m s
  | .iaddc w p c0 => Sys2Proof.Machine.execIaddc w p c0 s
  | .isubb w p c0 => Sys2Proof.Machine.execIsubb w p c0 s
  | .ineg w sat => Sys2Proof.Machine.execIneg w sat s
  | .iabs w sat => Sys2Proof.Machine.execIabs w sat s
  | .imul w => Sys2Proof.Machine.execImul w s
  | .imulh w u => Sys2Proof.Machine.execImulh w u s
  | .imad w => Sys2Proof.Machine.execImad w s
  | .imadw w u => Sys2Proof.Machine.execImadw w u s
  | .iadd64 w m => Sys2Proof.Machine.execIadd64 w m s
  | .isub64 w m => Sys2Proof.Machine.execIsub64 w m s
  | .shf64 w dir => Sys2Proof.Machine.execShf64 w dir s
  | .imin w u => Sys2Proof.Machine.execImin w u s
  | .imax w u => Sys2Proof.Machine.execImax w u s
  | .iand w d => Sys2Proof.Machine.execIand w d s
  | .ior w d => Sys2Proof.Machine.execIor w d s
  | .ixor w d => Sys2Proof.Machine.execIxor w d s
  | .inot w d => Sys2Proof.Machine.execInot w d s
  | .ilop3 w f0 f1 => Sys2Proof.Machine.execIlop3 w f0 f1 s
  | .shl w => Sys2Proof.Machine.execShl w s
  | .shr w => Sys2Proof.Machine.execShr w s
  | .sar w => Sys2Proof.Machine.execSar w s
  | .rot w => Sys2Proof.Machine.execRot w s
  | .bfe w s0 => Sys2Proof.Machine.execBfe w s0 s
  | .bfi w => Sys2Proof.Machine.execBfi w s
  | .popc w => Sys2Proof.Machine.execPopc w s
  | .clz w => Sys2Proof.Machine.execClz w s
  | .brev w => Sys2Proof.Machine.execBrev w s
  | .icmp w cond u d => Sys2Proof.Machine.execIcmp w cond u d s
  | .sel w p neg d => Sys2Proof.Machine.execSel w p neg d s
  | .mov w d xdst => Sys2Proof.Machine.execMov w d xdst s
  | .movi w d => Sys2Proof.Machine.execMovi w d s
  | .movhi w => Sys2Proof.Machine.execMovhi w s
  | .lea w sh s0 => Sys2Proof.Machine.execLea w sh s0 s
  | .pand w neg => Sys2Proof.Machine.execPand w neg s
  | .por w neg => Sys2Proof.Machine.execPor w neg s
  | .pxor w neg => Sys2Proof.Machine.execPxor w neg s
  | .pnot w => Sys2Proof.Machine.execPnot w s
  | .pset w z => Sys2Proof.Machine.execPset w z s
  | .fadd w rm sat => Sys2Proof.Machine.execFadd w rm sat s
  | .fsub w rm sat => Sys2Proof.Machine.execFsub w rm sat s
  | .fmul w rm sat => Sys2Proof.Machine.execFmul w rm sat s
  | .fdivs w rm sat => Sys2Proof.Machine.execFdivs w rm sat s
  | .dadd w rm sat => Sys2Proof.Machine.execDadd w rm sat s
  | .dsub w rm sat => Sys2Proof.Machine.execDsub w rm sat s
  | .dmul w rm sat => Sys2Proof.Machine.execDmul w rm sat s
  | .ffma w nab nc rm sat => Sys2Proof.Machine.execFfma w nab nc rm sat s
  | .dfma w nab nc rm sat => Sys2Proof.Machine.execDfma w nab nc rm sat s
  | .fmin w rm => Sys2Proof.Machine.execFmin w rm s
  | .fmax w rm => Sys2Proof.Machine.execFmax w rm s
  | .dmin w rm => Sys2Proof.Machine.execDmin w rm s
  | .dmax w rm => Sys2Proof.Machine.execDmax w rm s
  | .fcmp w cond rm s0 => Sys2Proof.Machine.execFcmp w cond rm s0 s
  | .dcmp w cond rm s0 => Sys2Proof.Machine.execDcmp w cond rm s0 s
  | .frnd w rm => Sys2Proof.Machine.execFrnd w rm s
  | .drnd w rm => Sys2Proof.Machine.execDrnd w rm s
  | .fclass w fmt rm => Sys2Proof.Machine.execFclass w fmt rm s
  | .hadd2 w rm sat => Sys2Proof.Machine.execHadd2 w rm sat s
  | .hmul2 w rm sat => Sys2Proof.Machine.execHmul2 w rm sat s
  | .badd2 w rm sat => Sys2Proof.Machine.execBadd2 w rm sat s
  | .bmul2 w rm sat => Sys2Proof.Machine.execBmul2 w rm sat s
  | .hfma2 w rm sat => Sys2Proof.Machine.execHfma2 w rm sat s
  | .bfma2 w rm sat => Sys2Proof.Machine.execBfma2 w rm sat s
  | .dot4i w ua ub sat rm => Sys2Proof.Machine.execDot4i w ua ub sat rm s
  | .frcp w => Sys2Proof.Machine.execFrcp w s
  | .frsq w => Sys2Proof.Machine.execFrsq w s
  | .fsqrt w => Sys2Proof.Machine.execFsqrt w s
  | .fexp2 w => Sys2Proof.Machine.execFexp2 w s
  | .flog2 w => Sys2Proof.Machine.execFlog2 w s
  | .fsin w => Sys2Proof.Machine.execFsin w s
  | .fcos w => Sys2Proof.Machine.execFcos w s
  | .cvt w k rm => Sys2Proof.Machine.execCvt w k rm s
  | .cvt8 w op => Sys2Proof.Machine.execCvt8 w op s
  | .cvt4E2m1 w rm => Sys2Proof.Machine.execCvt4E2m1 w rm s
  | .cvt4Pack w => Sys2Proof.Machine.execCvt4Pack w s
  | .cvt4Fp32 w n => Sys2Proof.Machine.execCvt4Fp32 w n s
  | .cvtx w fmt o => Sys2Proof.Machine.execCvtx w fmt o s
  | .sclxFp32 w rm => Sys2Proof.Machine.execSclxFp32 w rm s
  | .sclxFp64 w rm => Sys2Proof.Machine.execSclxFp64 w rm s
  | .sclxX8 w inv rm => Sys2Proof.Machine.execSclxX8 w inv rm s
  | .sclxBlk w fmt => Sys2Proof.Machine.execSclxBlk w fmt s
  | .ld w sz pol acq => Sys2Proof.Machine.execLd w sz pol acq s
  | .lds w sz acq => Sys2Proof.Machine.execLds w sz acq s
  | .st w sz os rel => Sys2Proof.Machine.execSt w sz os rel s
  | .sts w sz os rel => Sys2Proof.Machine.execSts w sz os rel s
  | .lde w el pol acq => Sys2Proof.Machine.execLde w el pol acq s
  | .ste w el os rel => Sys2Proof.Machine.execSte w el os rel s
  | .ldx w x pol acq => Sys2Proof.Machine.execLdx w x pol acq s
  | .stx w x os rel => Sys2Proof.Machine.execStx w x os rel s
  | .atom w op os ar => Sys2Proof.Machine.execAtom w op os ar s
  | .atomx w op os ar => Sys2Proof.Machine.execAtomx w op os ar s
  | .acq w => Sys2Proof.Machine.execAcq w s
  | .rel w => Sys2Proof.Machine.execRel w s
  | .sjoin w => Sys2Proof.Machine.execSjoin w s
  | .pref w l2 => Sys2Proof.Machine.execPref w l2 s
  | .cflush w => Sys2Proof.Machine.execCflush w s
  | .cinv w => Sys2Proof.Machine.execCinv w s
  | .bra w => Sys2Proof.Machine.execBra w s
  | .brx w => Sys2Proof.Machine.execBrx w s
  | .call w => Sys2Proof.Machine.execCall w s
  | .ret w => Sys2Proof.Machine.execRet w s
  | .exit w => Sys2Proof.Machine.execExit w s
  | .nop w => Sys2Proof.Machine.execNop w s
  | .yield w => Sys2Proof.Machine.execYield w s
  | .bkpt w => Sys2Proof.Machine.execBkpt w s
  | .trap w => Sys2Proof.Machine.execTrap w s
  | .rtt w => Sys2Proof.Machine.execRtt w s
  | .bar w n arv => Sys2Proof.Machine.execBar w n arv s
  | .pbar w n k => Sys2Proof.Machine.execPbar w n k s
  | .vote w m inv => Sys2Proof.Machine.execVote w m inv s
  | .lead w => Sys2Proof.Machine.execLead w s
  | .shfl w m d seg => Sys2Proof.Machine.execShfl w m d seg s
  | .xset w x => Sys2Proof.Machine.execXset w x s
  | .xadd w x => Sys2Proof.Machine.execXadd w x s
  | .xget w x f => Sys2Proof.Machine.execXget w x f s
  | .dqtake w pd => Sys2Proof.Machine.execDqtake w pd s
  | .vgrow w => Sys2Proof.Machine.execVgrow w s
  | .vshrink w => Sys2Proof.Machine.execVshrink w s
  | .krd w => Sys2Proof.Machine.execKrd w s
  | .kwr w => Sys2Proof.Machine.execKwr w s
  | .flagarm w off => Sys2Proof.Machine.execFlagarm w off s
  | .spawn w => Sys2Proof.Machine.execSpawn w s
  | .grow w => Sys2Proof.Machine.execGrow w s
  | .launch w => Sys2Proof.Machine.execLaunch w s
  | .cancel w lvl => Sys2Proof.Machine.execCancel w lvl s
  | .cntrd w lvl => Sys2Proof.Machine.execCntrd w lvl s
  | .capmk w snd eng => Sys2Proof.Machine.execCapmk w snd eng s
  | .caprv w => Sys2Proof.Machine.execCaprv w s
  | .rarm w acq nbr => Sys2Proof.Machine.execRarm w acq nbr s
  | .rdisarm w => Sys2Proof.Machine.execRdisarm w s
  | .rpend w => Sys2Proof.Machine.execRpend w s
  | .sendr w d os => Sys2Proof.Machine.execSendr w d os s
  | .sendn w dir os => Sys2Proof.Machine.execSendn w dir os s
  | .cpy w => Sys2Proof.Machine.execCpy w s
  | .cpyg w => Sys2Proof.Machine.execCpyg w s
  | .cpym w => Sys2Proof.Machine.execCpym w s
  | .cpypf w => Sys2Proof.Machine.execCpypf w s
  | .twaitany w => Sys2Proof.Machine.execTwaitany w s
  | .twaitall w => Sys2Proof.Machine.execTwaitall w s
  | .tffr w => Sys2Proof.Machine.execTffr w s
  | .tclr w => Sys2Proof.Machine.execTclr w s
  | .mloadb w => Sys2Proof.Machine.execMloadb w s
  | .mma w z => Sys2Proof.Machine.execMma w z s
  | .mzero w => Sys2Proof.Machine.execMzero w s
  | .mstore w os => Sys2Proof.Machine.execMstore w os s
  | .mread w d => Sys2Proof.Machine.execMread w d s
  | .mwrite w d => Sys2Proof.Machine.execMwrite w d s
  | .mres w => Sys2Proof.Machine.execMres w s
  | .mrel w all => Sys2Proof.Machine.execMrel w all s
  | .mstat w => Sys2Proof.Machine.execMstat w s
  | .rmoN w n os => Sys2Proof.Machine.execRmoN w n os s
  | .rmoR w n os => Sys2Proof.Machine.execRmoR w n os s
  | .rmdef w => Sys2Proof.Machine.execRmdef w s
  | .rmdrop w => Sys2Proof.Machine.execRmdrop w s
  | .rmqry w => Sys2Proof.Machine.execRmqry w s
  | .sweep w => Sys2Proof.Machine.execSweep w s
  | .mcast w d os => Sys2Proof.Machine.execMcast w d os s
  | .coll w os => Sys2Proof.Machine.execColl w os s
  | .fgrp w k => Sys2Proof.Machine.execFgrp w k s
  | .sld w d acq => Sys2Proof.Machine.execSld w d acq s
  | .slds w d acq => Sys2Proof.Machine.execSlds w d acq s
  | .sst w d os rel => Sys2Proof.Machine.execSst w d os rel s
  | .qpush w d => Sys2Proof.Machine.execQpush w d s
  | .qpusha w => Sys2Proof.Machine.execQpusha w s
  | .dqpush w all => Sys2Proof.Machine.execDqpush w all s
  | .brc w k => Sys2Proof.Machine.execBrc w k s
  | .scmp w cond u d comb => Sys2Proof.Machine.execScmp w cond u d comb s
  | .lwait w bar => Sys2Proof.Machine.execLwait w bar s
  | .ltime w bar => Sys2Proof.Machine.execLtime w bar s
  | .dictld w => Sys2Proof.Machine.execDictld w s
  | .lexit w => Sys2Proof.Machine.execLexit w s
  | .tlbinv w ctx => Sys2Proof.Machine.execTlbinv w ctx s
  | .pgacc w ca => Sys2Proof.Machine.execPgacc w ca s
  | .pFormWord a b => Sys2Proof.Machine.execPFormWord a b s
  | .dFormSlot c0 c1 c2 => Sys2Proof.Machine.execDFormSlot c0 c1 c2 s
  | .loadReturn load => Sys2Proof.Machine.execLoadReturn load s
  | .storeAcknowledge ack => Sys2Proof.Machine.execStoreAcknowledge ack s
  | .packetArrival pkt => Sys2Proof.Machine.execPacketArrival pkt s
  | .watermarkMessage msg => Sys2Proof.Machine.execWatermarkMessage msg s
  | .ownershipConflictWindowEnd slice => Sys2Proof.Machine.execOwnershipConflictWindowEnd slice s
  | .barrierComplete team bar => Sys2Proof.Machine.execBarrierComplete team bar s
  | .phaseComplete team bar => Sys2Proof.Machine.execPhaseComplete team bar s
  | .barrierTimeout team bar => Sys2Proof.Machine.execBarrierTimeout team bar s
  | .registerDeadlockBreak core => Sys2Proof.Machine.execRegisterDeadlockBreak core s
  | .vgrowGrant team group => Sys2Proof.Machine.execVgrowGrant team group s
  | .faultRecordArrival rec => Sys2Proof.Machine.execFaultRecordArrival rec s
  | .asyncFaultDelivery team src => Sys2Proof.Machine.execAsyncFaultDelivery team src s
  | .sendCommit pkt => Sys2Proof.Machine.execSendCommit pkt s
  | .copyStart cmd => Sys2Proof.Machine.execCopyStart cmd s
  | .copyChunk cmd => Sys2Proof.Machine.execCopyChunk cmd s
  | .cpymHandover cmd => Sys2Proof.Machine.execCpymHandover cmd s
  | .copyComplete cmd => Sys2Proof.Machine.execCopyComplete cmd s
  | .matrixCommandStart cmd => Sys2Proof.Machine.execMatrixCommandStart cmd s
  | .mmaRowPairCommit cmd => Sys2Proof.Machine.execMmaRowPairCommit cmd s
  | .matrixCommandComplete cmd => Sys2Proof.Machine.execMatrixCommandComplete cmd s
  | .mstoreComplete cmd => Sys2Proof.Machine.execMstoreComplete cmd s
  | .sequencerParityError cmd => Sys2Proof.Machine.execSequencerParityError cmd s
  | .rmoExecute unit => Sys2Proof.Machine.execRmoExecute unit s
  | .rmoAcknowledge ack => Sys2Proof.Machine.execRmoAcknowledge ack s
  | .definitionFetch unit => Sys2Proof.Machine.execDefinitionFetch unit s
  | .sweepStart cmd => Sys2Proof.Machine.execSweepStart cmd s
  | .sweepComplete cmd => Sys2Proof.Machine.execSweepComplete cmd s
  | .leaveRequest cmd => Sys2Proof.Machine.execLeaveRequest cmd s
  | .ceilingWindow => Sys2Proof.Machine.execCeilingWindow s
  | .ack f => Sys2Proof.Machine.execAck f s
  | .nak f => Sys2Proof.Machine.execNak f s
  | .done f => Sys2Proof.Machine.execDone f s
  | .wmark f => Sys2Proof.Machine.execWmark f s
  | .read f => Sys2Proof.Machine.execRead f s
  | .inval f => Sys2Proof.Machine.execInval f s
  | .invack f => Sys2Proof.Machine.execInvack f s
  | .send1 f => Sys2Proof.Machine.execSend1 f s
  | .burst f => Sys2Proof.Machine.execBurst f s
  | .dataFlit f => Sys2Proof.Machine.execDataFlit f s
  | .btag f => Sys2Proof.Machine.execBtag f s
  | .close f => Sys2Proof.Machine.execClose f s
  | .retire f => Sys2Proof.Machine.execRetire f s
  | .collctl f => Sys2Proof.Machine.execCollctl f s
  | .probe f => Sys2Proof.Machine.execProbe f s
  | .resendTimeout dev => Sys2Proof.Machine.execResendTimeout dev s
  | .probeTimer dev => Sys2Proof.Machine.execProbeTimer dev s
  | .burstTimeout port => Sys2Proof.Machine.execBurstTimeout port s
  | .unreachableTimeout dev => Sys2Proof.Machine.execUnreachableTimeout dev s
  | .lossOfSignal port wave => Sys2Proof.Machine.execLossOfSignal port wave s
  | .collStart coll => Sys2Proof.Machine.execCollStart coll s
  | .collComplete coll => Sys2Proof.Machine.execCollComplete coll s
  | .qpushWindowWrite host queue off data => Sys2Proof.Machine.execQpushWindowWrite host queue off data s
  | .qcfgWrite host queue v => Sys2Proof.Machine.execQcfgWrite host queue v s
  | .qbaseWrite host queue v => Sys2Proof.Machine.execQbaseWrite host queue v s
  | .pendingListEntry queue => Sys2Proof.Machine.execPendingListEntry queue s
  | .dispatch => Sys2Proof.Machine.execDispatch s
  | .launchRecordTake queue => Sys2Proof.Machine.execLaunchRecordTake queue s
  | .graphStart queue => Sys2Proof.Machine.execGraphStart queue s
  | .phaseMark queue => Sys2Proof.Machine.execPhaseMark queue s
  | .reconfigurationWindow ctx => Sys2Proof.Machine.execReconfigurationWindow ctx s
  | .teamEnd team => Sys2Proof.Machine.execTeamEnd team s
  | .teamCancel team => Sys2Proof.Machine.execTeamCancel team s
  | .priorityPreemptTimeout queue => Sys2Proof.Machine.execPriorityPreemptTimeout queue s
  | .powerPackingCheck quad => Sys2Proof.Machine.execPowerPackingCheck quad s
  | .timeSliceExpiry team => Sys2Proof.Machine.execTimeSliceExpiry team s
  | .hostPreemptRequest team => Sys2Proof.Machine.execHostPreemptRequest team s
  | .preemptionEffect team => Sys2Proof.Machine.execPreemptionEffect team s
  | .quadWakeDone quad => Sys2Proof.Machine.execQuadWakeDone quad s
  | .quadPowerGate quad => Sys2Proof.Machine.execQuadPowerGate quad s
  | .pageWalk walk => Sys2Proof.Machine.execPageWalk walk s
  | .fqreplyRetry host rec => Sys2Proof.Machine.execFqreplyRetry host rec s
  | .fqreplyDecline host rec => Sys2Proof.Machine.execFqreplyDecline host rec s
  | .invctlPage host v => Sys2Proof.Machine.execInvctlPage host v s
  | .invctlContext host v => Sys2Proof.Machine.execInvctlContext host v s
  | .invalidationComplete inv => Sys2Proof.Machine.execInvalidationComplete inv s
  | .regionGovernorWindow region occupancy => Sys2Proof.Machine.execRegionGovernorWindow region occupancy s
  | .regionPowerDown region => Sys2Proof.Machine.execRegionPowerDown region s
  | .regionWake region => Sys2Proof.Machine.execRegionWake region s
  | .regionWakeAccept region => Sys2Proof.Machine.execRegionWakeAccept region s
  | .lwaitTimerReached team => Sys2Proof.Machine.execLwaitTimerReached team s
  | .powerOn => Sys2Proof.Machine.execPowerOn s
  | .resetreqStart host => Sys2Proof.Machine.execResetreqStart host s
  | .resetreqRecover host => Sys2Proof.Machine.execResetreqRecover host s
  | .dawnreqEnter host => Sys2Proof.Machine.execDawnreqEnter host s
  | .freezeRequest host => Sys2Proof.Machine.execFreezeRequest host s
  | .freezeResume host => Sys2Proof.Machine.execFreezeResume host s
  | .freezePinAssert => Sys2Proof.Machine.execFreezePinAssert s
  | .freezePinRelease => Sys2Proof.Machine.execFreezePinRelease s
  | .thermalSample => Sys2Proof.Machine.execThermalSample s
  | .quoteRequest host v => Sys2Proof.Machine.execQuoteRequest host v s
  | .quoteReportWritten => Sys2Proof.Machine.execQuoteReportWritten s
  | .flashCopyStart host v => Sys2Proof.Machine.execFlashCopyStart host v s
  | .flashCopyDone => Sys2Proof.Machine.execFlashCopyDone s
  | .featureAcceptWrite host high v => Sys2Proof.Machine.execFeatureAcceptWrite host high v s
  | .pcapWrite host v => Sys2Proof.Machine.execPcapWrite host v s
  | .channelRetire channel => Sys2Proof.Machine.execChannelRetire channel s
  | .channelMapChange region channelMap => Sys2Proof.Machine.execChannelMapChange region channelMap s
  | .registerWrite host reg v => Sys2Proof.Machine.execRegisterWrite host reg v s
  | .powerLoss => Sys2Proof.Machine.execPowerLoss s

end Sys2Proof.Machine
end

