-- ==== Sys2Proof/Machine/Timing.lean ====
section
/-! DEFINITION. What an instruction word needs of the pipes and of the scoreboard, and how long its result takes (R134,
R143, R206, R249): the selection of words to issue rests on it. -/

namespace Sys2Proof.Machine

/-- The pipe that a word takes (R134). -/
inductive Pipe where
  | either | a | b | none | both
  deriving DecidableEq, Repr

/-- The pipe of a word by its class. -/
def pipeF (i : Instr) : Pipe :=
  match i with
  | .nop _ => .none
  | .pFormWord _ _ => .both
  | i => match encF i with
    | some (f, _, _) => if f / 32 = 0 then .either else if f / 32 ≤ 2 then .a else .b
    | none => .b

/-- The F-form words whose operands a word has: itself, or the halves of a P-form word. -/
def partsOf : Instr → List Instr
  | .pFormWord a b => [halfInstr a, halfInstr b]
  | i => [i]

/-! The scoreboard's keys of a lane. -/

/-- The key of a register, of a predicate and of a latch. -/
def regKey (n l : Nat) : Nat := 32 * n + l
def predKey (p l : Nat) : Nat := 2 ^ 14 + 32 * p + l
def latchKey (k l : Nat) : Nat := 2 ^ 15 + 32 * k + l

/-- The predicates that a word reads: its guard, its predicate operands and the one that MOD names. -/
def readPreds (i : Instr) (w : FWord) : List Nat :=
  [w.pr.toNat] ++ (sources (shape i) w).filterMap (fun e => match e with
    | (.pred, .v n) => some n.toNat
    | _ => none) ++ (match i with
    | .iaddc _ p _ | .isubb _ p _ | .sel _ p _ _ => [p.toNat]
    | _ => [])

/-- The latches that a word reads. -/
def readLatches (i : Instr) (w : FWord) : List Nat :=
  (sources (shape i) w).filterMap (fun e => match e with
    | (.none, _) => none
    | (_, .latch k) => some k.toNat
    | _ => none)

/-- The scoreboard keys of the sources of a word in a lane (R132). -/
def sourceKeys (gr : Group) (i : Instr) (l : Nat) : List Nat :=
  (partsOf i).flatMap (fun p => match encF p with
    | some (_, _, w) => (readRegs gr (shape p) w l).map (regKey · l) ++ (readPreds p w).map (predKey · l) ++
        (readLatches p w).map (latchKey · l)
    | none => [])

/-- The scoreboard keys of what one F-form word writes in a lane. -/
def resultKeys (gr : Group) (i : Instr) (l : Nat) : List Nat :=
  match encF i with
  | some (_, _, w) =>
    (dstRegs gr (shape i) w (xdstOf i).1 (xdstOf i).2 l).map (regKey · l) ++ ((predDst i w).toList).map (predKey · l) ++
      (if w.dl = 0 then [] else [latchKey (w.dl.toNat - 1) l]) ++ (if w.hsrc = 0 then [] else [latchKey w.hlat.toNat l])
  | none => []

/-! Occupancy and latency (R206). -/


/-- The registers that an `LDX` or `STX` transfers in the lane with most of them (R249). -/
def transferLen (gr : Group) (x : BitVec 2) (lanes : Mask) : Nat :=
  (lanesOf lanes).foldl (fun n l =>
    let y := get {} gr.x (32 * x.toNat + l)
    max n (y.limit.toNat - y.index.toInt.toNat)) 0

/-- The cycles for which a word holds its pipe. -/
def occupancyOf (gr : Group) (lanes : Mask) (i : Instr) : Nat :=
  match i with
  | .fdivs _ _ _ => 8
  | .dadd _ _ _ | .dsub _ _ _ | .dmul _ _ _ | .dfma _ _ _ _ _ | .dmin _ _ | .dmax _ _ | .dcmp _ _ _ _ | .drnd _ _ => 2
  | .frcp _ | .frsq _ | .fsqrt _ | .fexp2 _ | .flog2 _ | .fsin _ | .fcos _ => 2
  | .ldx _ x _ _ | .stx _ x _ _ => max 1 ((transferLen gr x lanes + 7) / 8)
  | .pFormWord a b => max (if isSpecial a.op then 2 else 1) (if isSpecial b.op then 2 else 1)
  | _ => 1
where
  /-- A half that is a special function. -/
  isSpecial : POp → Bool
    | .frcp | .frsq | .fsqrt | .fexp2 | .flog2 | .fsin | .fcos => true
    | _ => false

/-- A word has an indexed operand (R143). -/
def isIndexed (i : Instr) : Bool :=
  (partsOf i).any (fun p => match encF p with
    | some (_, _, w) => (xdstOf p).1.isSome || (sources (shape p) w).any (fun e => match e with
      | (.none, _) => false
      | (_, .idx _) => true
      | _ => false)
    | none => false)

/-! Readiness. -/

/-- The registers of an index window in a lane (R249). -/
def xWindow (gr : Group) (x : BitVec 2) (l : Nat) : List Nat :=
  let y := get {} gr.x (32 * x.toNat + l)
  (List.range (y.limit.toNat - y.index.toInt).toNat).map ((y.base.toNat + y.index.toInt).toNat + ·)

/-- The registers that a word reads or writes in a lane, by whatever path: those of a remote opcode by its header (R408), those of
an `LDX` or `STX` by its index register (R249). -/
def usedRegs (t : Team) (gr : Group) (i : Instr) (l : Nat) : List Nat :=
  let named (sh : Shape) (p : Instr) (w : FWord) : List Nat := readRegs gr sh w l ++ dstRegs gr sh w (xdstOf p).1 (xdstOf p).2 l
  (partsOf i).flatMap (fun p => match encF p with
    | some (_, _, w) =>
      (match p with
      | .rmoN _ n _ => ((headerOf t n.toNat).map (fun h => named (rmoShape h.dw0 false w) p w)).getD []
      | .rmoR _ n _ => ((headerOf t n.toNat).map (fun h => named (rmoShape h.dw0 true w) p w)).getD []
      | p => named (shape p) p w) ++ (match p with
      | .ldx _ x _ _ | .stx _ x _ _ => xWindow gr x l
      | _ => [])
    | none => [])

/-- A lane's sources are ready at a cycle, and none of the word's registers waits for a load, an atomic or an arrival (R132,
R289). -/
def laneReady (t : Team) (gr : Group) (now : Nat) (i : Instr) (l : Nat) : Bool :=
  (sourceKeys gr i l).all (fun k => get 0 gr.ready k ≤ now) && (usedRegs t gr i l).all (fun n => regReady gr n l)

/-- The group's scoreboard after a word has issued for some lanes; what has become ready is forgotten. -/
def noteLatency (gr : Group) (now : Nat) (i : Instr) (lanes : Mask) : Group :=
  let old := gr.ready.filter (fun e => now < e.2)
  let add (m : FMap Nat) (p : Instr) : FMap Nat := match latencyOf p with
    | some n => (lanesOf lanes).foldl (fun m l => (resultKeys gr p l).foldl (fun m k => put m k (now + n)) m) m
    | none => m
  { gr with ready := (partsOf i).foldl add old }

/-- The pipes that a word can take now, as alternatives: each a list of pipes (0 is A, 1 is B) that must be free. -/
def freePipes (held : Nat → Bool) (p : Pipe) : List (List Nat) :=
  (match p with
  | .either => [[0], [1]]
  | .a => [[0]]
  | .b => [[1]]
  | .both => [[0, 1]]
  | .none => [[]]).filter (fun ps => ps.all (fun x => !held x))

/-- Distinct pipes for two words, if there are; a word that takes both never pairs (R134). -/
def assign (held : Nat → Bool) (p q : Pipe) : Option (List Nat × List Nat) :=
  if p = .both ∨ q = .both then none
  else ((freePipes held p).flatMap (fun x => (freePipes held q).map (fun y => (x, y)))).find? (fun e => e.1.all (fun k => !e.2.contains k))

end Sys2Proof.Machine
end

