-- ==== Sys2Proof/Machine/Issue.lean ====
section
/-! DEFINITION. Decoding and issuing words, and the selection of an issue opportunity (R92 to R94, R113, R132 to R134,
R138 to R142, R256). -/

namespace Sys2Proof.Machine

/-- The number of code slots of a word (R93). -/
def slotCount (w : W64) : Nat := if fieldN w 62 2 = 3 then max 1 (fieldN w 60 2) else 1

/-- The current issue is at a PC of a source, for chosen lanes. -/
def withCur (s : State) (id : SrcId) (pc : W64) (lanes : Mask) (slots : Nat) : State :=
  { s with cur := { id, pc, lanes, slots, stalled := false } }

/-- The lanes that a fault at a PC names: those that hold it. -/
def faultLanes (s : State) (id : SrcId) (pc : W64) (lanes : Mask) : Mask :=
  match group s id with
  | some gr => issueLanes gr pc lanes
  | none => 0

/-- The word at the implicit PC. -/
def implicitLexit : Instr := .lexit {}

/-- Decode and run a word at a PC for some lanes (R113, R114). -/
def runWord (s : State) (id : SrcId) (pc w : W64) (lanes : Mask) : Host.Outcome State Fault Refusal :=
  let s := withCur s id pc lanes (slotCount w)
  if faultLanes s id pc lanes = 0 then .next { s with cur := { s.cur with stalled := true } }
  else match decode (isLead id) (pc &&& 3).toNat w with
    | .ok i => exec i s
    | .error e => .next (enterTrap s id e.1 e.2 (faultLanes s id pc lanes) pc 0)

/-- Fetch, decode and run the word at a PC of a source. -/
def issueWord (s : State) (id : SrcId) (pc : W64) (lanes : Mask) : Host.Outcome State Fault Refusal :=
  match team s id.team with
  | none => .next { s with cur := { s.cur with stalled := true } }
  | some t =>
    if isLead id ∧ pc = implicitPc then exec implicitLexit (withCur s id pc lanes 1)
    else match fetch s t.core t.launch.ctx id pc with
      | .word w => runWord (cacheWord s t.core t.launch.ctx pc w) id pc w lanes
      | .bad cause detail => .next (enterTrap (withCur s id pc lanes 1) id cause detail (faultLanes s id pc lanes) pc pc)
      | .data addr => finish (withCur s id pc lanes 1) (.error (.dataError (faultLanes s id pc lanes) addr))
      | .lines l =>
        if l.all (lineAsked s) then .next { withCur s id pc lanes 1 with cur := { (withCur s id pc lanes 1).cur with stalled := true } }
        else .next (askLines (withCur s id pc lanes 1) id t.core l)
      | .walk => finish (withCur s id pc lanes 1) (.error (.walk t.core t.launch.ctx (wordOf pc) .fetch (.src id)))

/-! Words beside a chain (R138). -/

/-- The issue of a PC for some lanes is the chain's word: the chain's lanes are at it and some of them are chosen. With no chain
every issue is a word on its own. -/
def chainAt (gr : Group) (pc : W64) (lanes : Mask) : Bool :=
  match gr.chain with
  | some c => lanes &&& c.lanes != 0 && (lanesOf c.lanes).any (fun l => pcOf gr l == pc)
  | none => true

/-- The lanes of the chain in progress. -/
def chainLanes (gr : Group) : Mask := ((gr.chain).map (·.lanes)).getD 0

/-- Issue a word for lanes outside the chain in progress: the chain is set aside while the word runs. If the word takes
a trap, the chain is discarded first (R140). -/
def issueBeside (s : State) (id : SrcId) (gr : Group) (pc : W64) (lanes : Mask) : Host.Outcome State Fault Refusal :=
  let lanes := lanes &&& ~~~chainLanes gr
  match issueWord (updGroup s id (fun g => { g with chain := none, latchLeft := [] })) id pc lanes with
  | .next s' =>
    if ((group s' id).map (fun g => g.inTrap || g.live == 0)).getD true && !gr.inTrap then issueWord (updGroup s id discardChain) id pc lanes
    else .next (updGroup s' id (fun g => { g with chain := gr.chain, latchLeft := gr.latchLeft }))
  | r => r

/-- Issue the word at a PC of a source. -/
def issueAt (s : State) (id : SrcId) (pc : W64) (lanes : Mask) : Host.Outcome State Fault Refusal :=
  match group s id with
  | none => .next s
  | some gr => if chainAt gr pc lanes then issueWord s id pc lanes else issueBeside s id gr pc lanes

/-! Selection (R132 to R134, R256). -/

/-- The pipe of the word at a PC; a word that cannot be fetched or decoded takes none. -/
def pipeAt (s : State) (id : SrcId) (t : Team) (pc : W64) : Pipe := ((wordAt s id t pc).map pipeF).getD .none

/-- A pipe of the scheduler of a core is held now (R206). -/
def pipeHeld (s : State) (c sched : Nat) (p : Nat) : Bool := decide (s.cycle < get 0 (core s c).pipes (2 * sched + p))

/-- The entries that a word takes from the uniform queue and from the decision queue were pushed at least two cycles ago
(R265, R268). -/
def queuesReady (t : Team) (gr : Group) (now : Nat) (i : Instr) : Bool :=
  (partsOf i).all (fun p =>
    (match encF p with
    | some (_, _, w) => !readsQp (shape p) w || gr.uqRead == t.uqWrite ||
        (match look t.uqAt (gr.uqRead.toNat % 64) with
        | some n => decide (n + 2 ≤ now)
        | none => true)
    | none => true) &&
    (match p with
    | .dqtake _ _ => gr.dqAt.length < gr.dq.length || gr.dq.isEmpty ||
        (gr.dqAt[gr.dqAt.length - gr.dq.length]?).all (fun n => decide (n + 2 ≤ now))
    | _ => true))

/-- An issue at a PC for some lanes would not wait (R132): tried on the state, without keeping the result. -/
def goes (s : State) (id : SrcId) (pc : W64) (lanes : Mask) : Bool :=
  match issueAt s id pc lanes with
  | .next s' => !s'.cur.stalled
  | _ => true

/-- The lanes among some at a PC whose sources are ready (R132, R289). -/
def readyLanes (s : State) (id : SrcId) (t : Team) (gr : Group) (pc : W64) (lanes : Mask) : Mask :=
  match wordAt s id t pc with
  | some i => maskOf (fun l => lanes.getLsbD l && laneReady t gr s.cycle i l)
  | none => lanes

/-- What broke a chain is ready (R142). -/
def holdDone (s : State) (id : SrcId) (t : Team) (gr : Group) (h : Hold) : Bool :=
  decide (h.until_ ≤ s.cycle) && h.regs.all (fun r => regReady gr r.1 r.2) && h.fetch.all (fun pc =>
    match fetch s t.core t.launch.ctx id pc with
    | .walk | .lines _ => false
    | _ => true)

/-- A PC is that of the first word of a broken chain, which does not issue again yet (R142). -/
def heldBack (s : State) (id : SrcId) (t : Team) (gr : Group) (pc : W64) : Bool :=
  gr.hold.any (fun h => h.first == pc && !holdDone s id t gr h)

/-- The runnable lanes among those at a PC (R132, R289): their sources are ready, a pipe is free, and the word would not
wait for them. -/
def runnableAt (s : State) (id : SrcId) (t : Team) (gr : Group) (sched : Nat) (pc : W64) (lanes : Mask) : Mask :=
  if heldBack s id t gr pc then 0
  else match wordAt s id t pc with
  | some i =>
    let m := readyLanes s id t gr pc lanes
    if m ≠ 0 ∧ queuesReady t gr s.cycle i ∧ freePipes (pipeHeld s t.core sched) (pipeF i) ≠ [] ∧ goes s id pc m then m else 0
  | none => if goes s id pc lanes then lanes else 0

/-- The PCs that the live lanes of a group hold without waiting, lowest first. -/
def heldPcs (gr : Group) : List W64 :=
  (((lanesOf gr.live).filter (fun l => (look gr.wait l).isNone)).map (pcOf gr)).eraseDups |> sortBy BitVec.toNat

/-- The PCs with runnable lanes, and these lanes (R132); inside a chain only the chain's word, once the results of the
chain's earlier words are ready in all its lanes, and none while its load is outstanding. -/
def runnablePcs (s : State) (id : SrcId) (t : Team) (gr : Group) (sched : Nat) : List (W64 × Mask) :=
  match gr.chain with
  | some c => (((lanesOf c.lanes).map (pcOf gr)).eraseDups).filterMap (fun pc =>
    if (match wordAt s id t pc with
      | some i => (lanesOf c.lanes).all (fun l => (sourceKeys gr i l).all (fun k => get 0 gr.ready k ≤ s.cycle)) &&
          queuesReady t gr s.cycle i && freePipes (pipeHeld s t.core sched) (pipeF i) != []
      | none => true) && goes s id pc c.lanes then some (pc, c.lanes) else none)
  | none => (heldPcs gr).filterMap (fun pc =>
    let m := runnableAt s id t gr sched pc (lanesAt gr pc)
    if m = 0 then none else some (pc, m))

/-- A chain holds its scheduler; one that a load opened from the issue of its second word (R138, R142). -/
def holdsScheduler (gr : Group) : Bool :=
  match gr.chain with
  | some c => 2 ≤ c.len || c.load.isNone
  | none => false

/-- What a chain's next word waits for beside the chain's own words (R142), if anything: results that other words write, registers
with a return or an arrival pending, pipes that other words hold, or its fetch. While the load that opened the chain is
outstanding the word is not looked at. -/
def outsideWait (s : State) (id : SrcId) (t : Team) (gr : Group) (sched : Nat) : Option Hold :=
  match gr.chain with
  | none => none
  | some ch =>
    let pc := pcOf gr (lowest ch.lanes)
    let ls := lanesOf ch.lanes
    if ch.load.any (fun n => (look s.loads n).isSome) then none
    else match fetch s t.core t.launch.ctx id pc, wordAt s id t pc with
      | .walk, _ | .lines _, _ => if goes s id pc ch.lanes then none else some { first := ch.first, fetch := some pc }
      | _, some i =>
        let late := (ls.flatMap (sourceKeys gr i)).filter (fun k => s.cycle < get 0 gr.ready k && !gr.ownKeys.contains k)
        let regs := ls.flatMap (fun l => ((usedRegs t gr i l).filter (fun n => !regReady gr n l)).map (·, l))
        let ends (p : Nat) : Nat := get 0 (core s t.core).pipes (2 * sched + p)
        let others (p : Nat) : Bool := pipeHeld s t.core sched p && look gr.ownPipes p != some (ends p)
        let pipes := if freePipes others (pipeF i) = [] then [0, 1].filter others else []
        if late = [] ∧ regs = [] ∧ pipes = [] then none
        else some { first := ch.first, until_ := (late.map (get 0 gr.ready) ++ pipes.map ends).foldl max 0, regs }
      | _, none => none

/-- A scheduler's groups before its opportunity: a chain with an outside wait is broken (R142), and a trap held for an instruction
boundary is taken (R156). -/
def settleGroups (s : State) (c sched : Nat) (slots : List (Nat × SrcId)) : State :=
  (slots.filter (fun e => e.1 % 4 = sched)).foldl (fun s e =>
    match team s e.2.team, group s e.2 with
    | some t, some gr =>
      let s := match outsideWait s e.2 t gr sched with
        | some h => updGroup s e.2 (fun g => { discardChain g with hold := some h })
        | none => s
      if gr.heldTraps ≠ [] ∧ !gr.inTrap ∧ !insideWord s e.2 gr ∧ t.core = c then takeHeld s e.2 else s
    | _, _ => s) s

/-- The highest AGE among some lanes. -/
def ageOf (gr : Group) (m : Mask) : Nat := (((lanesOf m).map (get 0 gr.age)).max?).getD 0

/-- The first of a list by a number, larger first; the list's order breaks ties. -/
def bestBy {α : Type} (f : α → Nat) : List α → Option α
  | [] => none
  | x :: xs => match bestBy f xs with
    | some y => if f x < f y then some y else some x
    | none => some x

/-- A word that opens a chain (R138). -/
def opensChain (i : Instr) : Bool :=
  match encF i with
  | some (_, _, w) => usesLatch w
  | none => false

/-- The choice of an opportunity (R133, R134): the primary PC and perhaps a secondary one. Beside a primary word that opens
a chain, a secondary word that would open one does not issue (R138). -/
def choosePcs (s : State) (id : SrcId) (t : Team) (gr : Group) (sched : Nat) (pcs : List (W64 × Mask)) : List (W64 × Mask) :=
  match pcs with
  | [] => []
  | p :: rest =>
    let aged := rest.filter (fun q => ageOf gr q.2 = 64)
    let second := match aged with
      | q :: _ => some q
      | [] => bestBy (fun q => laneCount q.2) rest
    match second with
    | none => [p]
    | some q =>
      let opens (x : W64 × Mask) : Bool := ((wordAt s id t x.1).map opensChain).getD false
      if (assign (pipeHeld s t.core sched) (pipeAt s id t p.1) (pipeAt s id t q.1)).isSome then
        (if opens p && opens q then [p] else [p, q])
      else if ageOf gr q.2 = 64 then [q] else [p]

/-- AGE and SLOTBIT after an opportunity (R133). -/
def ageGroup (gr : Group) (pcs chosen : List (W64 × Mask)) : Group :=
  let m (ps : List (W64 × Mask)) : Mask := ps.foldl (fun m p => m ||| p.2) 0
  let run := m pcs
  let iss := m chosen
  { gr with
    age := (lanesOf run).foldl (fun a l => set 0 a l (if iss.getLsbD l then 0 else min 64 (get 0 a l + 1))) gr.age
    slotBit := (gr.slotBit &&& ~~~iss) ||| m (chosen.drop 1) }

/-- The pipes that the chosen words take. -/
def takenPipes (s : State) (id : SrcId) (t : Team) (sched : Nat) (chosen : List (W64 × Mask)) : List (W64 × Mask × List Nat) :=
  let held := pipeHeld s t.core sched
  match chosen with
  | [p, q] => match assign held (pipeAt s id t p.1) (pipeAt s id t q.1) with
    | some (x, y) => [(p.1, p.2, x), (q.1, q.2, y)]
    | none => []
  | ps => ps.map (fun p => (p.1, p.2, ((freePipes held (pipeAt s id t p.1)).head?).getD []))

/-- What a word of a chain, or one that opens one, makes the chain's own (R142). -/
def noteChain (now : Nat) (i : Instr) (lanes : Mask) (pipes : List Nat) (gr : Group) : Group :=
  if gr.chain.isNone ∧ !opensChain i then gr
  else
    let keys := (lanesOf lanes).flatMap (fun l => (partsOf i).flatMap (fun p => resultKeys gr p l))
    let old (own : FMap Nat) : FMap Nat := if gr.chain.isSome then own else []
    { gr with ownKeys := keys ++ (if gr.chain.isSome then gr.ownKeys else [])
              ownPipes := pipes.foldl (fun m p => put m p (now + occupancyOf gr lanes i)) (old gr.ownPipes) }

/-- The scoreboard, the pipes and the scheduler once the chosen words issue (R132, R143, R206). One more cycle pays for the indexed
operands of both words of an opportunity together (log 26). -/
def occupy (s : State) (id : SrcId) (t : Team) (gr : Group) (sched : Nat) (chosen : List (W64 × Mask)) : State :=
  let words := (takenPipes s id t sched chosen).filterMap (fun e => (wordAt s id t e.1).map (fun i => (i, e.2.1, e.2.2)))
  let s := updGroup s id (fun g => words.foldl (fun g e => noteChain s.cycle e.1 e.2.1 e.2.2 (noteLatency g s.cycle e.1 e.2.1))
    { g with uqSeen := some (s.cycle, g.uqRead), hold := g.hold.filter (fun h => !holdDone s id t gr h) })
  let next := s.cycle + (if words.any (fun e => isIndexed e.1) then 2 else 1)
  updCore s t.core (fun k =>
    { k with schedAt := put k.schedAt sched next
             pipes := words.foldl (fun m e => e.2.2.foldl (fun m p => put m (2 * sched + p) (s.cycle + occupancyOf gr e.2.1 e.1)) m) k.pipes })

/-- A group slot of a core: its number, its source and its state. -/
def groupSlots (s : State) (c : Nat) : List (Nat × SrcId) :=
  s.teams.flatMap (fun e => if e.2.core = c ∧ e.2.status = .resident then
    (List.range (groupCount e.2)).filterMap (fun g => if liveMask e.2 g ≠ 0 ∧ started e.2 then some (e.2.slots.getD g g, ⟨e.1, g⟩) else none) else [])
where
  /-- The groups begin in the cycle after the lead's first issue (R257). -/
  started (t : Team) : Bool := match look t.groups 32 with
    | some l => l.started.any (fun n => decide (n ≤ s.cycle))
    | none => true
  /-- The live lanes of a group of a team. -/
  liveMask (t : Team) (g : Nat) : Mask := match look t.groups g with
    | some gr => gr.live
    | none => 0

/-- Put the numbers after the last choice first, each part in rising order. -/
def rotate {α : Type} (last : Nat) (xs : List (Nat × α)) : List (Nat × α) :=
  let ys := sortBy (·.1) xs
  ys.filter (fun e => last < e.1) ++ ys.filter (fun e => e.1 ≤ last)

/-- A group can take an opportunity: its runnable PCs, if any. -/
def readyPcs (s : State) (id : SrcId) (sched : Nat) : List (W64 × Mask) :=
  match team s id.team, group s id with
  | some t, some gr => runnablePcs s id t gr sched
  | _, _ => []

/-- The group that a scheduler chooses (R132): the holder of a chain, else the next ready one in round-robin order; a
group in its `YIELD` comes last (R180). -/
def chooseGroup (s : State) (c sched : Nat) : Option (Nat × SrcId × List (W64 × Mask)) :=
  let slots := (groupSlots s c).filter (fun e => e.1 % 4 = sched)
  let cand (xs : List (Nat × SrcId)) := xs.findSome? (fun e => match readyPcs s e.2 sched with
    | [] => none
    | ps => some (e.1, e.2, ps))
  let yields (e : Nat × SrcId) : Bool := ((group s e.2).map (fun g => decide (s.cycle < g.yieldUntil))).getD false
  match slots.find? (fun e => ((group s e.2).map holdsScheduler).getD false) with
  | some e => cand [e]
  | none =>
    let order := rotate (get 0 (core s c).lastSlot sched) slots
    cand (order.filter (fun e => !yields e) ++ order.filter yields)

/-- An issue opportunity of a scheduler (R132 to R134), at most one in a cycle: the chosen words become the next moves. -/
def opportunity (s : State) (c sched : Nat) : State :=
  if s.cycle < get 0 (core s c).schedAt sched then s
  else
  let s := settleGroups s c sched (groupSlots s c)
  match chooseGroup s c sched with
  | none => s
  | some (slot, id, pcs) =>
    match team s id.team, group s id with
    | some t, some gr =>
      let chosen := if gr.chain.isSome then pcs.take 1 else choosePcs s id t gr sched pcs
      let s := occupy s id t gr sched chosen
      let s := updGroup s id (fun g => ageGroup g pcs chosen)
      let s := updCore s c (fun k => { k with lastSlot := put k.lastSlot sched slot })
      { s with agenda := chosen.map (fun p => Move.issueAt id p.1 p.2) ++ s.agenda }
    | _, _ => s

/-- A push of the uniform queue finds it full by the read pointers at the beginning of the cycle (R265, R267); one whose predicate
is false pushes nothing (R99). -/
def pushHeld (s : State) (id : SrcId) (l : Group) : Bool :=
  match team s id.team with
  | some t =>
    let before (g : Group) : Group := match g.uqSeen with
      | some (n, r) => if n = s.cycle then { g with uqRead := r } else g
      | none => g
    uqFull { t with groups := t.groups.map (fun e => (e.1, before e.2)) } &&
      (match fetch s t.core t.launch.ctx id (pcOf l 0) with
      | .word w => match decode true 0 w with
        | .ok (.qpush w _) | .ok (.qpusha w) => predLanes l w 1 != 0
        | _ => false
      | _ => false)
  | none => false

/-- Note the cycle of the pushes that a lead's word makes (R265, R268): the team before it, and after it. -/
def notePushes (now : Nat) (t t' : Team) : Team :=
  { t with uqAt := if t'.uqWrite = t.uqWrite then t.uqAt else put t.uqAt (t.uqWrite.toNat % 64) now
           groups := t.groups.map (fun e => (e.1, match look t'.groups e.1 with
             | some g => if e.2.dq.length < g.dq.length then { e.2 with dqAt := e.2.dqAt.drop (e.2.dqAt.length - 15) ++ [now] } else e.2
             | none => e.2)) }

/-- The state before a lead's word, with the cycle of its pushes noted. -/
def notePush (s : State) (id : SrcId) (pc : W64) : State :=
  match issueAt s id pc 1 with
  | .next s' => match team s' id.team with
    | some t' => updTeam s id.team (fun t => notePushes s.cycle t t')
    | none => s
  | _ => s

/-- The lead threads of a core that can issue. -/
def readyLeads (s : State) (c : Nat) : List (Nat × SrcId) :=
  s.teams.filterMap (fun e =>
    if e.2.core = c ∧ e.2.status = .resident then
      match look e.2.groups 32 with
      | some l => if l.live ≠ 0 ∧ !pushHeld s ⟨e.1, 32⟩ l ∧ goes s ⟨e.1, 32⟩ (pcOf l 0) 1 then some (e.1, ⟨e.1, 32⟩) else none
      | none => none
    else none)

/-- The word of a lead issues, as against one that asks for a walk or a peer line: it changes its team. -/
def leadIssues (s : State) (id : SrcId) (pc : W64) : Bool :=
  match issueAt s id pc 1 with
  | .next s' => team s' id.team != team s id.team
  | _ => true

/-- A turn of a lead unit (R256), at most one in a cycle: the next ready lead in round-robin order. -/
def leadTurn (s : State) (c : Nat) : State :=
  if s.cycle < (core s c).leadAt then s
  else match rotate (core s c).lastLead (readyLeads s c) with
  | [] => s
  | (t, id) :: _ =>
    match group s id with
    | some l =>
      let s := updCore s c (fun k => { k with lastLead := t, leadAt := s.cycle + 1 })
      let first := if leadIssues s id (pcOf l 0) then some (l.started.getD (s.cycle + 1)) else l.started
      { updGroup (notePush s id (pcOf l 0)) id (fun g => { g with started := first }) with agenda := Move.issueAt id (pcOf l 0) 1 :: s.agenda }
    | none => s

/-! Time. -/

/-- A group waits in `VGROW` or at a barrier with all its live lanes (R145). -/
def groupBlocked (gr : Group) : Bool :=
  (lanesOf gr.live).all (fun l => match look gr.wait l with
    | some (.vgrow _ _ _) | some (.bar _ _ _) | some (.pbar _ _) | some (.held _ _ _) => true
    | _ => false)
/-- The condition of R145 on a core: every resident group waits so, and at least one in `VGROW`. -/
def coreBlocked (s : State) (c : Nat) : Bool :=
  let gs := (groupSlots s c).filterMap (fun e => group s e.2)
  gs.all groupBlocked && gs.any (fun gr => (vgrowWait gr).isSome)

/-- The settings of FLAGS that a cycle has seen stand in FLAGS (R155). -/
def settleFlags (now : Nat) (t : Team) : Team := { t with flags := flagsAt t now, due := t.due.filter (fun e => now < e.1) }

/-- One cycle passes: the timers of the resident teams count (R149, R259), the flits that have left are gone, and the
allocators watch their cores (R145). -/
def tick (s : State) : State :=
  { s with cycle := s.cycle + 1
           fab := { s.fab with sent := [] }
           cores := s.cores.map (fun e => (e.1, { e.2 with
             stuck := if coreBlocked s e.1 then some (e.2.stuck.getD s.cycle) else none
             breaking := e.2.breaking && coreBlocked s e.1 }))
           teams := s.teams.map (fun e => (e.1, settleFlags s.cycle (if e.2.status = .resident then { e.2 with timer := e.2.timer + 1 } else e.2))) }

/-- An error of the parts (R239, R370, R514, log 23): marks appear, and a corrected bit is counted in ECCFIX, which stops at
its greatest value (R352). -/
def upset (u : Upset) (s : State) : State :=
  match u with
  | .memory n block =>
    if !(tierOf (8 * n)).any (fun t => decide (t < 3)) then s
    else if block ∧ tierOf (8 * n) = some 0 then { s with bad := (List.range 64).foldl (fun m j => put m (n / 64 * 64 + j) true) s.bad }
    else { s with bad := put s.bad n true }
  | .hostPort n failed =>
    if tierOf (8 * n) ≠ some 2 then s
    else { s with portBad := if failed then put s.portBad n true else del s.portBad n }
  | .accUnit c n => if 576 ≤ c ∨ 32768 ≤ n then s else updArray s c (fun a => { a with accBad := put a.accBad n true })
  | .shadowUnit k n => updCmd s k (fun c =>
      match c.body with
      | .mat m => { c with body := .mat (if m.member = 1 ∧ (matRows m).contains (n / 128) then { m with shadowBad := put m.shadowBad n true } else m) }
      | _ => c)
  | .accBit c => if 576 ≤ c then s else updArray s c (fun a => { a with eccfix := if a.eccfix = 0xFFFF then a.eccfix else a.eccfix + 1 })

/-! Pre-emption and a word that faults (R56). -/

/-- The state after the word at a PC of a source is tried for some lanes, if the word takes a trap. -/
def trapAt (s : State) (id : SrcId) (pc : W64) (lanes : Mask) : Option State :=
  let inTrap (s : State) : Bool := ((group s id).map (·.inTrap)).getD true
  let here (s : State) : Bool := ((team s id.team).map (fun t => t.status == .resident)).getD false
  match issueAt s id pc lanes with
  | .next u => if (inTrap u && !inTrap s) || (here s && !here u) then some u else none
  | _ => none

/-- The trap that a word at the boundary of a source takes, if one does. -/
def boundaryTrap (s : State) (id : SrcId) : State :=
  match team s id.team, group s id with
  | some t, some gr =>
    let gr := discardChain gr
    ((heldPcs gr).findSome? (fun pc =>
      let m := readyLanes s id t gr pc (lanesAt gr pc)
      if m = 0 ∨ heldBack s id t gr pc then none else trapAt (updGroup s id discardChain) id pc m)).getD s
  | _, _ => s

/-- What comes before an event: where a pre-emption is about to take effect, the words at the boundary that fault enter their
traps first (R56). -/
def beforeEvent (i : Instr) (s : State) : State :=
  match i with
  | .preemptionEffect tm =>
    match team s tm with
    | some t =>
      if t.preemptReq ∧ t.status = .resident ∧ !t.cancelReq ∧ atBoundary s tm t then
        (t.groups.filter (fun e => e.2.live != 0)).foldl (fun s e => boundaryTrap s ⟨tm, e.1⟩) s
      else s
    | none => s
  | _ => s

end Sys2Proof.Machine
end

