-- ==== Sys2Proof/Machine/Step.lean ====
section
/-! DEFINITION. One step of the machine, and the placing of an instruction where the next step fetches it. -/

namespace Sys2Proof.Machine

/-- An instruction word, as against an event. -/
def isWord (i : Instr) : Bool := (encode i).isSome

/-- Take a move, if it can be made now (R521, R528). Words run only through an issue, never as an event. -/
def perform (m : Move) (s : State) : Host.Outcome State Fault Refusal :=
  if !canMove s m then .next s
  else match m with
  | .issueAt id pc lanes => issueAt s id pc lanes
  | .opportunity c sched => .next (opportunity s c sched)
  | .leadTurn c => .next (leadTurn s c)
  | .tick => .next (tick s)
  | .upset u => .next (upset u s)
  | .recode c key past => .next (recode c key past s)
  | .event i => if isWord i then .next s else exec i (beforeEvent i s)

/-- The free choice of a move when nothing is pending: an issue comes only from an opportunity. -/
def freeMove (n : Nat) : Move :=
  match Config.schedule n with
  | .issueAt _ _ _ => .tick
  | m => m

/-- One step: the first pending move, or a free one (log 2); while the module does not run the pending moves stay. -/
def step (s : State) : Host.Outcome State Fault Refusal :=
  let s := { s with fresh := s.fresh + 1 }
  match s.agenda with
  | m :: rest => if running s then perform m { s with agenda := rest } else perform (freeMove s.fresh) s
  | [] => perform (freeMove s.fresh) s

/-- The team and the address that `withFetchWord` uses. -/
def probeTeam : Nat := 0
def probePc : W64 := 0x100000

/-- A resident team of one group on core 0 whose lanes and lead stand at an address. -/
def probe : Team :=
  { launch := { extx := 1, exty := 1, extz := 1 }, flags := 0
    groups := [(0, { live := 0xFFFFFFFF, alloc := 256, pc := (List.range 32).map (fun l => (l, probePc)) }),
               (32, { live := 1, alloc := 64, pc := [(0, probePc)], started := some 0 })] }

/-- The bits of an instruction word given in the table's numbering: one 64-bit word. -/
def tableWord (nbits w : Nat) : W64 := BitVec.ofNat 64 (if nbits ≤ 64 then w % 2 ^ nbits else w % 2 ^ 64)

/-- The source that runs a word: a lane group, unless the word exists in lead code alone. -/
def probeSrc (w : W64) : SrcId :=
  match decode false 0 w with
  | .ok _ => ⟨probeTeam, 0⟩
  | .error _ => match decode true 0 w with
    | .ok _ => ⟨probeTeam, 32⟩
    | .error _ => ⟨probeTeam, 0⟩

end Sys2Proof.Machine

/-- Place a word so that the very next step fetches and runs it (log 1): a loaded team of one group stands at it, the
instruction cache of its core holds it, and its issue is the next move. -/
def Sys2Proof.Machine.State.withFetchWord (s : Sys2Proof.Machine.State) (nbits w : Nat) : Sys2Proof.Machine.State :=
  let w := Sys2Proof.Machine.tableWord nbits w
  let s := { s with teams := Sys2Proof.Machine.put s.teams Sys2Proof.Machine.probeTeam Sys2Proof.Machine.probe }
  let s := Sys2Proof.Machine.cacheWord s 0 0 Sys2Proof.Machine.probePc w
  { s with sys := { s.sys with mode := .running, frozen := false }, agenda := [.issueAt (Sys2Proof.Machine.probeSrc w) Sys2Proof.Machine.probePc 0xFFFFFFFF] }
end

