-- ==== Sys2Proof/Safety.lean ====
section
/-! DEFINITION. What a safe run is, and the words of the claims: what the issue of a word changes and what it leaves alone. -/

namespace Sys2Proof.Safety
open Sys2Proof.Machine

/-- A step goes on. -/
def goesOn (s : State) : Prop := ∃ s', step s = .next s'

/-- The first n steps from a state go on. -/
def safeFor : Nat → State → Prop
  | 0, _ => True
  | n + 1, s => ∃ s', step s = .next s' ∧ safeFor n s'

/-! The issue of a word. `c` is what the issue sees: its team and group, the lanes at the word (`at_`), the lanes whose
predicate holds (`act`), and the PCs of the word and of the word after it. -/

/-- The word issues: its lanes are known and nothing that comes before its own effect stops it. -/
def Issues (i : Instr) (w : FWord) (s : State) (c : Ctx) : Prop := prologue i w s = .ok c

/-- What a result x of lane l writes in register n (R100): nothing where WS = 1, one register for a 32-bit result, two for
a 64-bit one, and the register that V[Xn] names for an indexed destination. -/
def resVal (i : Instr) (w : FWord) (c : Ctx) (n l : Nat) (x : W64) : Option W32 :=
  match (shape i).dst with
  | .r32 => if !w.ws && n == w.dst.toNat then some (lo x) else none
  | .r64 => if w.ws then none else if n = w.dst.toNat then some (lo x) else if n = w.dst.toNat + 1 then some (hi x) else none
  | .xdst => match xdstOf i with
    | (some k, d) => if w.ws then none else if n = idxReg c.gr k l then some (lo x) else if d && n == idxReg c.gr k l + 1 then some (hi x) else none
    | (none, _) => none
  | _ => none

/-- What a word writes in register n of lane l: nothing in a lane that does not execute. -/
def resultOf (i : Instr) (w : FWord) (c : Ctx) (f : Nat → LaneOut) (n l : Nat) : Option W32 :=
  if c.act.getLsbD l then resVal i w c n l (f l).val else none

/-- What a word writes in predicate k of lane l: P0 is never written (R159). -/
def predOf (i : Instr) (w : FWord) (c : Ctx) (f : Nat → LaneOut) (k l : Nat) : Option Bool :=
  if predDst i w = some k ∧ k ≠ 0 ∧ c.act.getLsbD l then (f l).pd else none

/-- What a word writes in latch k of lane l: the held source (R101), and the result where DL names the latch (R100). -/
def latchOf (i : Instr) (w : FWord) (s : State) (c : Ctx) (f : Nat → LaneOut) (k l : Nat) : Option W64 :=
  if !c.act.getLsbD l then none
  else if (shape i).dst ≠ .none ∧ (shape i).dst ≠ .pred ∧ w.dl.toNat = k + 1 then
    some (if wideResult i then (f l).val else zx (lo (f l).val))
  else if w.hsrc ≠ 0 ∧ w.hlat.toNat = k then some (heldVal i w s c l) else none

/-- FLAGS with all settings that are due (R155). -/
def allFlags (t : Team) : W64 := t.due.foldl (fun f e => f ||| e.2) t.flags
/-- The flags that a chain in progress holds back (R140). -/
def heldFlags (gr : Group) : W64 := ((gr.chain).map (·.flags)).getD 0

/-- What a word that computes does to its group. -/
structure GroupEffect (i : Instr) (w : FWord) (s : State) (c : Ctx) (f : Nat → LaneOut) (g : Group) : Prop where
  /-- registers: the results in the executing lanes, and nothing else -/
  regs : ∀ n l, l < 32 → readV g n l = (resultOf i w c f n l).getD (readV c.gr n l)
  /-- a register that is written loses its ERR mark (R239) -/
  errs : ∀ n l, l < 32 → look g.err (32 * n + l) = if (resultOf i w c f n l).isSome then none else look c.gr.err (32 * n + l)
  /-- predicates -/
  preds : ∀ k l, l < 32 → (readP g k).getLsbD l = (predOf i w c f k l).getD ((readP c.gr k).getLsbD l)
  /-- the lanes of the word go on to the next word, the others stay -/
  pcs : ∀ l, l < 32 → pcOf g l = if c.at_.getLsbD l then c.next else pcOf c.gr l
  /-- SRSTATE -/
  srs : ∀ l, l < 32 → get 0 g.sr l = if c.act.getLsbD l then ((f l).sr).getD (get 0 c.gr.sr l) else get 0 c.gr.sr l
  /-- latches -/
  latches : ∀ k l, k < 4 → l < 32 → get 0 g.latch (32 * k + l) = (latchOf i w s c f k l).getD (get 0 c.gr.latch (32 * k + l))
  /-- a pop of the uniform queue (R152): a word of R161 that no lane executes may find none -/
  queue : g.uqRead = c.gr.uqRead + (if readsQ (shape i) w && c.gr.uqRead != c.t.uqWrite then 1 else 0)
  /-- outside a chain a word that uses no latch leaves none in progress (R138) -/
  noChain : c.gr.chain = none → usesLatch w = false → g.chain = none ∧ g.latchLeft = []
  /-- the issue counts in the group's order of issues -/
  ord : g.ord = c.gr.ord + 1
  /-- everything else of the group stays -/
  frame : { g with v := c.gr.v, err := c.gr.err, p := c.gr.p, pc := c.gr.pc, sr := c.gr.sr, latch := c.gr.latch
                   latchLeft := c.gr.latchLeft, chain := c.gr.chain, uqRead := c.gr.uqRead, ord := c.gr.ord } = c.gr

/-- What a word that computes does to the machine: its group changes as said, FLAGS collect the lanes' flags, each setting due in
the cycle in which the word completes (R155, R206; a chain holds them back, R140), and nothing else changes: no other group, no
other team, no byte of memory. -/
def Computes (i : Instr) (w : FWord) (s : State) (c : Ctx) (f : Nat → LaneOut) (u : State) : Prop :=
  ∃ t g, look u.teams c.id.team = some t ∧ look t.groups c.id.g = some g ∧ GroupEffect i w s c f g ∧
    allFlags t ||| heldFlags g = allFlags c.t ||| heldFlags c.gr ||| orFlags c f ∧
    t.flags = c.t.flags ∧ (∃ new, t.due = c.t.due ++ new ∧ (∀ e ∈ new, e.1 = s.cycle + (latencyOf i).getD 0) ∧ (g.chain.isSome → new = [])) ∧
    (∀ k, k ≠ c.id.g → look t.groups k = look c.t.groups k) ∧
    { t with groups := c.t.groups, due := c.t.due } = c.t ∧
    (∀ k, k ≠ c.id.team → look u.teams k = look s.teams k) ∧
    { u with teams := s.teams } = s

/-- A word whose lanes compute: whenever it issues, its whole effect is the results `f` of its lanes. -/
def LaneWord (i : Instr) (w : FWord) (f : LaneIn → LaneOut) : Prop :=
  ∀ s c, Issues i w s c → ∃ u, exec i s = .next u ∧ Computes i w s c (fun l => f (laneIn i w s c l)) u

/-- A word whose lanes compute from all executing lanes' operands. -/
def GroupWord (i : Instr) (w : FWord) (f : Mask → (Nat → LaneIn) → Nat → LaneOut) : Prop :=
  ∀ s c, Issues i w s c → ∃ u, exec i s = .next u ∧ Computes i w s c (f c.act (laneIn i w s c)) u

/-- The word issues and some lane executes it. -/
def Executes (i : Instr) (w : FWord) (s : State) (c : Ctx) : Prop := Issues i w s c ∧ c.act ≠ 0

/-- A word with an effect of its own: it issues, some lane executes it, and its own check passes; then its issue is that of
a word with the results `out`, and `eff` makes the rest of its effect of the state `u` after that. -/
def Does (i : Instr) (w : FWord) (s : State) (c : Ctx) (out : Nat → LaneOut) (eff : State → State) : Prop :=
  ∃ u, Computes i w s c out u ∧ exec i s = .next (eff u)

/-! Results of the integer words, in the spec's own terms. -/

/-- A result without flags. -/
def res64 (x : W64) : LaneOut := { val := x }
/-- An exact integer as a 32-bit result: its low 32 bits. -/
def res32 (x : Int) : LaneOut := { val := BitVec.ofInt 64 (x % 2 ^ 32) }
/-- An exact integer as a 64-bit result: its low 64 bits. -/
def resInt (x : Int) : LaneOut := { val := BitVec.ofInt 64 x }
/-- A predicate result. -/
def resPred (b : Bool) : LaneOut := { pd := some b }

/-- The exact result x of an integer word in n bits: its low bits, or clamped into the signed or the unsigned range, with
FLAGS.SAT (bit 0) set if x lies outside that range (R160). -/
def saturated (n : Nat) (m : Sat) (x : Int) : LaneOut :=
  match m with
  | .wrap => { val := BitVec.ofInt 64 (x % 2 ^ n) }
  | .sat =>
    { val := BitVec.ofInt 64 (max (-2 ^ (n - 1)) (min x (2 ^ (n - 1) - 1)) % 2 ^ n)
      flags := if -2 ^ (n - 1) ≤ x ∧ x < 2 ^ (n - 1) then 0 else 1 }
  | .usat =>
    { val := BitVec.ofInt 64 (max 0 (min x (2 ^ n - 1)))
      flags := if 0 ≤ x ∧ x < 2 ^ n then 0 else 1 }

/-- An operand as an exact integer of n bits: unsigned, or signed in two's complement. -/
def intOf (n : Nat) (u : Bool) (x : W64) : Int := if u then ((x.setWidth n).toNat : Int) else (x.setWidth n).toInt
/-- The value of carry predicate p in a lane, or 0 where the word says so. -/
def carryIn (p : BitVec 3) (c0 : Bool) (x : LaneIn) : Int := if c0 then 0 else if x.preds.getLsbD p.toNat then 1 else 0
/-- A 32-bit result given bit by bit. -/
def resBits (f : Nat → Bool) : LaneOut := { val := BitVec.ofNat 64 ((List.range 32).map (fun k => if f k then 2 ^ k else 0)).sum }

/-- The position p, the width w and the clipped width w' of a bit field (R169). -/
def bfPos (b : W64) : Nat := b.toNat % 256
def bfWidth (b : W64) : Nat := min (min (b.toNat / 256 % 256) 32) (32 - bfPos b)

/-- The condition of a compare on two exact integers (R170). -/
def condOn (c : Cond) (a b : Int) : Prop :=
  match c with
  | .eq => a = b
  | .ne => a ≠ b
  | .lt => a < b
  | .le => a ≤ b
  | .gt => a > b
  | .ge => a ≥ b

/-! Floating-point values. -/

/-- The magnitude that encoding number k of a format names, as m and e of m * 2^e; numbers beyond the largest finite value go
on as if the exponent were unbounded (R196). -/
def magnitude (f : Fmt) (k : Nat) : Nat × Int :=
  if k / 2 ^ f.fbits = 0 then (k % 2 ^ f.fbits, f.emin)
  else (2 ^ f.fbits + k % 2 ^ f.fbits, f.emin + ((k / 2 ^ f.fbits : Nat) - 1))

/-- The integer m * 2^(e - b), for a common exponent b. -/
def atExp (x : Nat × Int) (b : Int) : Nat := x.1 * 2 ^ (x.2 - b).toNat

/-- A value lies below another one, or does not lie above it: compared as integers at the smaller exponent. -/
def magLt (x y : Nat × Int) : Prop := atExp x (min x.2 y.2) < atExp y (min x.2 y.2)
def magLe (x y : Nat × Int) : Prop := atExp x (min x.2 y.2) ≤ atExp y (min x.2 y.2)
/-- The sum of two magnitudes. -/
def magAdd (x y : Nat × Int) : Nat × Int := (atExp x (min x.2 y.2) + atExp y (min x.2 y.2), min x.2 y.2)

/-! Memory words. -/

/-- A load has issued: it is outstanding, its destinations are pending, its lanes have moved on, and no register and no byte of
memory has changed. -/
def LoadIssued (i : Instr) (w : FWord) (s : State) (c : Ctx) (op : LoadOp) : Prop :=
  ∃ u g, exec i s = .next u ∧ group u c.id = some g ∧ look u.loads s.nextId = some op ∧
    g.sb = pend c.gr.sb (loadDsts op) ∧ g.memq = c.gr.memq + (if op.counted then 1 else 0) ∧
    (∀ n l, l < 32 → readV g n l = readV c.gr n l) ∧ (∀ k, readP g k = readP c.gr k) ∧
    (∀ l, l < 32 → pcOf g l = if c.at_.getLsbD l then c.next else pcOf c.gr l) ∧
    g.uqRead = c.gr.uqRead + (if readsQ (shape i) w && c.gr.uqRead != c.t.uqWrite then 1 else 0) ∧ (∀ a, readByte u a = readByte s a) ∧
    (∀ k, k ≠ c.id.team → look u.teams k = look s.teams k)

/-- An operation of a kind has issued that writes some bytes: it is outstanding with its stream's next number, its lanes have
moved on, and no register and no byte of memory has changed. -/
def OpIssued (i : Instr) (s : State) (c : Ctx) (kind : OpKind) (os : Nat) (pas : List Nat) : Prop :=
  ∃ u g n op, exec i s = .next u ∧ group u c.id = some g ∧ look g.ops n = some op ∧
    op.kind = kind ∧ op.stream = os ∧ op.lanes = c.act ∧ op.pas = pas ∧
    op.seq = (if os = 0 then 0 else (streamOf c.gr os).next + 1) ∧
    (os ≠ 0 → (streamOf g os).next = (streamOf c.gr os).next + 1) ∧
    (∀ n l, l < 32 → readV g n l = readV c.gr n l) ∧ (∀ k, readP g k = readP c.gr k) ∧
    (∀ l, l < 32 → pcOf g l = if c.at_.getLsbD l then c.next else pcOf c.gr l) ∧
    (∀ a, readByte u a = readByte s a) ∧ (∀ k, k ≠ c.id.team → look u.teams k = look s.teams k)

/-- A store of each executing lane's bytes d l at its address has issued: the lanes that name the scratchpad have written it, in
ascending order, and the others' bytes are outstanding. -/
def StoreIssued (i : Instr) (s : State) (c : Ctx) (os : Nat) (d : Nat → W64 × List Byte) : Prop :=
  let mem := (lanesOf c.act).filter (fun l => !inScratch (d l).1)
  let scr := ((lanesOf c.act).filter (fun l => inScratch (d l).1)).flatMap (fun l =>
    ((List.range (d l).2.length).zip (d l).2).map (fun e => ((d l).1.toNat - 0x01FFFF0000000000 + e.1, e.2)))
  (∃ u t g, exec i s = .next u ∧ team u c.id.team = some t ∧ look t.groups c.id.g = some g ∧
    (∀ a, get 0 t.scratch a = ((scr.reverse.find? (fun e => e.1 = a)).map (·.2)).getD (get 0 c.t.scratch a)) ∧
    (∀ n l, l < 32 → readV g n l = readV c.gr n l) ∧
    (∀ l, l < 32 → pcOf g l = if c.at_.getLsbD l then c.next else pcOf c.gr l) ∧ (∀ a, readByte u a = readByte s a)) ∧
  let pas := mem.flatMap (fun l => physBytes s c .store (d l).1 (d l).2.length)
  (pas ≠ [] → (∀ l ∈ mem, (physBytes s c .store (d l).1 (d l).2.length).length = (d l).2.length) → OpIssued i s c .store os pas)

/-! Traps. -/

/-- A precise fault of the current issue (R43): the group is in its trap routine with this cause, detail, lanes and
address, and nothing else of the word took place. -/
def Traps (i : Instr) (s : State) (cause detail : Nat) (lanes : Mask) (addr : W64) : Prop :=
  exec i s = .next (enterTrap s s.cur.id cause detail lanes s.cur.pc addr)

/-- The word waits: its lanes stay at it, and nothing has changed but the note that it did not issue. -/
def Waits (i : Instr) (s : State) : Prop := exec i s = .next { s with cur := { s.cur with stalled := true } }

/-! Flits. -/

/-- A flit of a kind for this device has arrived, intact, on a port that is up (R427 to R430). -/
def Arrives (kind : Nat) (f : Flit) (s : State) : Prop :=
  portUp s f.port = true ∧ flitBad f = false ∧ fKind f = kind ∧ fDdev f = deviceId s

/-- It is a packet that has not been taken yet and lies inside the window (R436). -/
def FreshPacket (kind : Nat) (f : Flit) (s : State) : Prop :=
  Arrives kind f s ∧ arrivalOf (peerOf s (fSdev f)) (fTsn f) = .fresh

end Sys2Proof.Safety
end

