-- ==== Sys2Proof/Certificates/Slice0/Obligations.lean ====
section
/-! DEFINITION. The statements for the provers: what the words and events of the device do, from the spec's numbered rules. -/

open Sys2Proof Sys2Proof.Machine Sys2Proof.Safety

/-! Encoding and the step. -/

/-- One step (R93, R94, R113; the agenda is log 2's): the issue at the head of the pending moves fetches the word of its PC, decodes it
and runs it for its lanes; a word that does not decode takes its precise fault at that PC; an event at the head has its own effect; and a
fetch gives the cached word, or the eight bytes at the address, the lowest first. -/
def Obligations.StepRunsTheDecodedWord : Prop :=
  ∀ (s : State) (id : SrcId) (pc : W64) (lanes : Mask) (rest : List Move) (t : Team) (gr : Group) (w : W64),
    (∀ s0 s1 : State, s0 = { s with fresh := s.fresh + 1, agenda := rest } →
      s1 = withCur (cacheWord s0 t.core t.launch.ctx pc w) id pc lanes (slotCount w) →
      running s = true → s.agenda = .issueAt id pc lanes :: rest → team s id.team = some t → group s id = some gr → chainAt gr pc lanes = true →
      ¬ (isLead id = true ∧ pc = implicitPc) → fetch s0 t.core t.launch.ctx id pc = .word w → issueLanes gr pc lanes ≠ 0 →
      (∀ i, decode (isLead id) (pc &&& 3).toNat w = .ok i → step s = exec i s1) ∧
      (∀ e, decode (isLead id) (pc &&& 3).toNat w = .error e → step s = .next (enterTrap s1 id e.cause e.detail (issueLanes gr pc lanes) pc 0))) ∧
    (∀ s0 : State, s0 = { s with fresh := s.fresh + 1, agenda := rest } → running s = true → s.agenda = .issueAt id pc lanes :: rest →
      team s id.team = some t → group s id = some gr → gr.chain = none → isLead id = true → pc = implicitPc →
      step s = exec (.lexit {}) (withCur s0 id pc lanes 1)) ∧
    (∀ (i : Instr) (s0 : State), s0 = { s with fresh := s.fresh + 1, agenda := rest } → running s = true → s.agenda = .event i :: rest → isWord i = false →
      step s = exec i (beforeEvent i s0) ∧ ((∀ tm, i ≠ .preemptionEffect tm) → step s = exec i s0)) ∧
    (∀ c ctx, look (core s c).icache (icKey ctx pc) = some w → fetch s c ctx id pc = .word w) ∧
    (∀ c ctx pa x, look (core s c).icache (icKey ctx pc) = none → pc.toNat < 2 ^ 57 → translate s c ctx .fetch (.src id) (wordOf pc) = .ok pa x →
      (∀ k, k < 8 → tierOf (pa + k) ≠ some 3) → look s.bad (pa / 8) = none → fetch s c ctx id pc = .word (BitVec.ofNat 64 (leNat (readBytes s pa 8)))) ∧
    (∀ n i, decode false 0 (tableWord n w.toNat) = .ok i → ∃ s1, step (s.withFetchWord n w.toNat) = exec i s1 ∧
      s1.cur = { id := ⟨0, 0⟩, pc := 0x100000, lanes := 0xFFFFFFFF, slots := slotCount (tableWord n w.toNat) })

/-- Decoding the encoding of a well-formed instruction gives it back, in lane code and in lead code. -/
def Obligations.EncodedWordsDecode : Prop :=
  ∀ lead i x, wf lead i = true → encode i = some x → decode lead 0 x = .ok i

/-- Words that the spec writes out with their values decode to the instructions that they stand for (R96, R106, R109 and the worked
examples of the sections).

R92, R94 and R123 in part: words of the reserved form, slots beyond a word's, and families of the other section are refused by
their causes and details. -/
def Obligations.WordsOfTheExamples : Prop :=
  (
    decode false 0 0x002C240100D15500 = .ok (.iadd { pn := true, pr := 3, dst := 9, a := .v 4, b := .sel (.v 6), hsrc := 1, hlat := 1 } .wrap) ∧
    decode false 0 0x4800806800015040 = .ok (.pFormWord { op := .fadd .team, pr := 0, dst := 8, src := .v 13 } { op := .iadd, pr := 0, dst := 10, src := .q }) ∧
    decode false 1 0xE000044004440000 = .ok (.dFormSlot { index := 17, off := 0 } (some { index := 17, off := 4 }) none) ∧
    decode false 0 0x2940004540000003 = .ok (.bar { b := .imm 0 } 3 false) ∧
    decode false 0 0x2A081C0162B15003 = .ok (.vote { pr := 2, dst := 7, a := .v 5 } .mask false) ∧
    decode false 0 0x0880280100A06008 = .ok (.ffma { dst := 10, a := .v 4, b := .sel (.v 5), c := .v 6 } false false .rz false) ∧
    decode false 0 0x1A84180100B15041 = .ok (.sclxX8 { pr := 1, dst := 6, a := .v 4, b := .sel (.v 5) } true .team) ∧
    decode false 0 0x208000010140B004 = .ok (.st { a := .v 4, b := .sel (.v 10), c := .v 11 } .w 1 false) ∧
    decode true 0 0x38C0000180004020 = .ok (.qpusha { a := .v 6, b := .imm 4 }) ∧
    decode false 0 0x3118004542214025 = .ok (.sendn { pr := 6, b := .sel (.v 17), c := .v 20 } .e 1) ∧
    decode false 0 0x324070454000F020 = .ok (.twaitall { dst := 28, b := .imm 15 }) ∧
    decode false 0 0x330000160BC5F000 = .ok (.mstore { a := .v 88, b := .sel (.v 94), c := .v 95 } 0) ∧
    decode false 0 0x34000005A2B15049 = .ok (.rmoN { a := .v 22 } 9 1) ∧
    decode false 0 0x360C000583015004 = .ok (.mcast { pr := 3, a := .v 22, b := .sel (.v 24), c := .v 21 } false 1) ∧
    decode false 0 0x2D881000E2B15020 = .ok (.grow { pr := 2, dst := 4, a := .v 3 })) ∧
  (
    (∀ lead slot (w : W64), w.getLsbD 63 = true → w.getLsbD 62 = false → decode lead slot w = .error ⟨1, 1⟩) ∧
    (∀ lead slot (w : W64), w.getLsbD 63 = false → 0 < slot → decode lead slot w = .error ⟨1, 9⟩) ∧
    (∀ slot (w : W64) i, w.getLsbD 63 = true → decode false slot w = .ok i → slot < fieldN w 60 2 ∧ fieldN w 60 2 ≠ 0 ∧
      ∀ k, fieldN w 60 2 ≤ k → decode false k w = .error ⟨1, 9⟩) ∧
    (∀ (w : W64), w.getLsbD 62 = true → decode true 0 w = .error ⟨1, 11⟩) ∧
    (∀ (pc : W64) (n : Nat), pc.getLsbD 2 = false → pc.toNat < 2 ^ 57 → 1 ≤ n → n ≤ 3 → pc.toNat % 8 < n →
      (nextPc pc n).toNat = if pc.toNat % 8 + 1 < n then pc.toNat + 1 else pc.toNat / 8 * 8 + 8))

/-- R99 and R132 in plain cases: outside a chain a word issues when some chosen live lane stands at it, and in the lanes whose predicate
holds every register that it names is allocated, has no return pending, is not armed and carries no ERR mark.

R161: a word that no lane executes moves its lanes on and does nothing else, whatever its own effect. (`DQTAKE` is left out: each
issue of it pops its queue, R183. A copy word whose earlier lanes have enqueued is still executed.)

The other forms (R107, R110, R112): a P-form word has the results of both halves, from sources read before either writes; a D-form
slot has the effect of its dictionary entry at the slot's offset, or the entry's decoding fault, and waits while a DICTLD covers it. -/
def Obligations.OtherFormsAndIdleWords : Prop :=
  (
    ∀ (i : Instr) (f : Nat) (m : BitVec 8) (w : FWord) (s : State) (t : Team) (gr : Group),
      encF i = some (f, m, w) → team s s.cur.id.team = some t → group s s.cur.id = some gr → t.status = .resident → gr.chain = none →
      gr.defWait = none → (∀ e ∈ s.invals, e.2.src ≠ some s.cur.id) → (∀ e ∈ s.fab.away, e.2.src ≠ s.cur.id) → usesLatch w = false →
      featureOf i = none → (xdstOf i).1 = none →
      (∀ e ∈ sources (shape i) w, e.1 = .none ∨ (match e.2 with
        | .latch _ | .q | .qp | .idx _ => False
        | _ => True)) →
      let at_ := lanesAt gr s.cur.pc &&& s.cur.lanes
      let p := readP gr w.pr.toNat
      let act := at_ &&& (if w.pn then ~~~p else p)
      at_ ≠ 0 →
      (∀ l ∈ lanesOf act, ∀ n ∈ readRegs gr (shape i) w l ++ dstRegs gr (shape i) w none false l,
        n < gr.alloc ∧ regReady gr n l = true ∧ look gr.err (32 * n + l) = none) →
      Issues i w s { id := s.cur.id, t, gr, at_, act, pc := s.cur.pc, next := nextPc s.cur.pc s.cur.slots, dev := deviceId s }) ∧
  (
    ∀ (i : Instr) (f : Nat) (m : BitVec 8) (w : FWord) (s : State) (c : Ctx),
      encF i = some (f, m, w) → (∀ pd, i ≠ .dqtake w pd) → Issues i w s c → c.act = 0 → c.gr.enq = [] →
      (∀ n os ret h, i = (if ret then .rmoR w n os else .rmoN w n os) → headerOf c.t n.toNat = some h → rmoDecode c w (rmoShape h.dw0 ret w) = .ok ()) →
      ∃ u, exec i s = .next u ∧ Computes i w s c (fun _ => {}) u) ∧
  (
    (∀ (a b : PHalf) (s : State) (c : Ctx), pPrologue a b s = .ok c → a.dst ≠ b.dst →
      let part (h : PHalf) (n l : Nat) : Option W32 := resultOf (halfInstr h) (halfWord h) (halfCtx c h) (halfOut s c h) n l
      ∃ u t g, exec (.pFormWord a b) s = .next u ∧ team u c.id.team = some t ∧ look t.groups c.id.g = some g ∧ u.mem = s.mem ∧
        (∀ n l, l < 32 → readV g n l = ((part a n l).orElse (fun _ => part b n l)).getD (readV c.gr n l)) ∧
        (∀ k, readP g k = readP c.gr k) ∧ (∀ l, l < 32 → pcOf g l = if c.at_.getLsbD l then c.next else pcOf c.gr l) ∧
        (c.gr.chain = none → t.flags = c.t.flags ∧
          allFlags t = allFlags c.t ||| orFlags (halfCtx c a) (halfOut s c a) ||| orFlags (halfCtx c b) (halfOut s c b)) ∧
        g.uqRead = c.gr.uqRead + (if a.src = .q ∨ b.src = .q then 1 else 0)) ∧
    (∀ (c0 : DCode) (c1 c2 : Option DCode) (s : State) (t : Team) (gr : Group),
      team s s.cur.id.team = some t → group s s.cur.id = some gr → issueLanes gr s.cur.pc s.cur.lanes ≠ 0 →
      ∀ c : DCode, [some c0, c1, c2][(s.cur.pc &&& 3).toNat]? = some (some c) →
        let n := c.index.toNat
        let entry := decodeEntry c.off (get 0x8000000000000000 t.dict n)
        let busy : Prop := ∃ first count, t.dictBusy = some (first, count) ∧ first ≤ n ∧ n < first + count
        (busy → Waits (.dFormSlot c0 c1 c2) s) ∧
        (¬ busy → ∀ i, entry = .ok i → exec (.dFormSlot c0 c1 c2) s = exec i s) ∧
        (¬ busy → ∀ w m x, entry = .ok (.iadd w m) → Issues (.iadd w m) w s x →
          ∃ u, exec (.dFormSlot c0 c1 c2) s = .next u ∧ Computes (.iadd w m) w s x
            (fun l => saturated 32 m (intOf 32 (m == .usat) (laneIn (.iadd w m) w s x l).a + intOf 32 (m == .usat) (laneIn (.iadd w m) w s x l).b)) u) ∧
        (¬ busy → ∀ w x, entry = .ok (.popc w) → Issues (.popc w) w s x →
          ∃ u, exec (.dFormSlot c0 c1 c2) s = .next u ∧ Computes (.popc w) w s x
            (fun l => res32 ((List.range 32).countP (fun k => (laneIn (.popc w) w s x l).a.getLsbD k) : Nat)) u) ∧
        (¬ busy → ∀ i f m w x, entry = .ok i → encF i = some (f, m, w) → f < 0x80 → Issues i w s x → x.act = 0 →
          ∃ u, exec (.dFormSlot c0 c1 c2) s = .next u ∧ Computes i w s x (fun _ => {}) u) ∧
        (¬ busy → ∀ e, entry = .error e → Traps (.dFormSlot c0 c1 c2) s e.cause e.detail (issueLanes gr s.cur.pc s.cur.lanes) 0)))

/-! Integer and floating-point words. -/

/-- The addition and subtraction words (R160, R162, R164).

The multiplication words (R163) and the dot product of bytes (R215). -/
def Obligations.IntegerArithmetic : Prop :=
  (
    ∀ (w : FWord) (m : Sat) (p : BitVec 3) (c0 sat : Bool),
      LaneWord (.iadd w m) w (fun x => saturated 32 m (intOf 32 (m == .usat) x.a + intOf 32 (m == .usat) x.b)) ∧
      LaneWord (.isub w m) w (fun x => saturated 32 m (intOf 32 (m == .usat) x.a - intOf 32 (m == .usat) x.b)) ∧
      LaneWord (.iadd64 w m) w (fun x => saturated 64 m (intOf 64 (m == .usat) x.a + intOf 64 (m == .usat) x.b)) ∧
      LaneWord (.isub64 w m) w (fun x => saturated 64 m (intOf 64 (m == .usat) x.a - intOf 64 (m == .usat) x.b)) ∧
      LaneWord (.iaddc w p c0) w (fun x =>
        let r := intOf 32 true x.a + intOf 32 true x.b + carryIn p c0 x
        { res32 r with pd := some (decide (2 ^ 32 ≤ r)) }) ∧
      LaneWord (.isubb w p c0) w (fun x =>
        let r := intOf 32 true x.a - intOf 32 true x.b - carryIn p c0 x
        { res32 r with pd := some (decide (r < 0)) }) ∧
      LaneWord (.ineg w sat) w (fun x => saturated 32 (if sat then .sat else .wrap) (-intOf 32 false x.a)) ∧
      LaneWord (.iabs w sat) w (fun x => saturated 32 (if sat then .sat else .wrap) (intOf 32 false x.a).natAbs)) ∧
  (
    ∀ (w : FWord) (u ua ub sat : Bool) (rm : Rm),
      LaneWord (.imul w) w (fun x => res32 (intOf 32 true x.a * intOf 32 true x.b)) ∧
      LaneWord (.imulh w u) w (fun x => res32 (intOf 32 u x.a * intOf 32 u x.b / 2 ^ 32)) ∧
      LaneWord (.imad w) w (fun x => res32 (intOf 32 true x.a * intOf 32 true x.b + intOf 32 true x.c)) ∧
      LaneWord (.imadw w u) w (fun x => resInt (intOf 32 u x.a * intOf 32 u x.b + x.c.toInt)) ∧
      LaneWord (.dot4i w ua ub sat rm) w (fun x =>
        let byte (un : Bool) (v : W64) (k : Nat) : Int := intOf 8 un (v >>> (8 * k))
        saturated 32 (if sat then .sat else .wrap)
          ((if w.b.isImm then x.old.toInt else intOf 32 false x.c) +
            byte ua x.a 0 * byte ub x.b 0 + byte ua x.a 1 * byte ub x.b 1 + byte ua x.a 2 * byte ub x.b 2 + byte ua x.a 3 * byte ub x.b 3)))

/-- The logic words (R166, R167) and the shifts (R164, R168).

The bit-field and count words (R169) and the address sum (R173). -/
def Obligations.LogicShiftsAndFields : Prop :=
  (
    ∀ (w : FWord) (d : Bool) (f0 f1 : BitVec 4),
      LaneWord (.iand w d) w (fun x => if d then res64 (x.a &&& x.b) else res64 (zx (lo x.a &&& lo x.b))) ∧
      LaneWord (.ior w d) w (fun x => if d then res64 (x.a ||| x.b) else res64 (zx (lo x.a ||| lo x.b))) ∧
      LaneWord (.ixor w d) w (fun x => if d then res64 (x.a ^^^ x.b) else res64 (zx (lo x.a ^^^ lo x.b))) ∧
      LaneWord (.inot w d) w (fun x => if d then res64 (~~~x.a) else res64 (zx (~~~lo x.a))) ∧
      LaneWord (.ilop3 w f0 f1) w (fun x => resBits (fun k =>
        (if x.c.getLsbD k then f1 else f0).getLsbD (2 * (x.b.getLsbD k).toNat + (x.a.getLsbD k).toNat))) ∧
      LaneWord (.shl w) w (fun x => if (lo x.b).toNat < 32 then res32 (intOf 32 true x.a * 2 ^ (lo x.b).toNat) else res32 0) ∧
      LaneWord (.shr w) w (fun x => if (lo x.b).toNat < 32 then res32 (intOf 32 true x.a / 2 ^ (lo x.b).toNat) else res32 0) ∧
      LaneWord (.sar w) w (fun x => res32 (intOf 32 false x.a / 2 ^ min (lo x.b).toNat 31)) ∧
      LaneWord (.rot w) w (fun x => resBits (fun k => x.a.getLsbD ((k + 32 - (lo x.b).toNat % 32) % 32))) ∧
      LaneWord (.shf64 w .l) w (fun x => if (lo x.b).toNat < 64 then resInt (x.a.toInt * 2 ^ (lo x.b).toNat) else res64 0) ∧
      LaneWord (.shf64 w .r) w (fun x => if (lo x.b).toNat < 64 then resInt ((x.a.toNat : Int) / 2 ^ (lo x.b).toNat) else res64 0) ∧
      LaneWord (.shf64 w .ar) w (fun x => resInt (x.a.toInt / 2 ^ min (lo x.b).toNat 63)) ∧
      LaneWord (.shf64 w .rot) w (fun x => res64 (x.a.rotateRight ((lo x.b).toNat % 64)))) ∧
  (
    ∀ (w : FWord) (s : Bool) (sh : BitVec 3),
      LaneWord (.bfe w s) w (fun x =>
        let v : Int := intOf 32 true x.a / 2 ^ bfPos x.b % 2 ^ bfWidth x.b
        if bfWidth x.b = 0 then res32 0
        else res32 (if s ∧ 2 ^ (bfWidth x.b - 1) ≤ v then v - 2 ^ bfWidth x.b else v)) ∧
      LaneWord (.bfi w) w (fun x => resBits (fun k =>
        if bfPos x.b ≤ k ∧ k < bfPos x.b + bfWidth x.b then x.a.getLsbD (k - bfPos x.b) else x.c.getLsbD k)) ∧
      LaneWord (.popc w) w (fun x => res32 ((List.range 32).countP (fun k => x.a.getLsbD k) : Nat)) ∧
      LaneWord (.clz w) w (fun x => res32 (if lo x.a = 0 then 32 else 31 - Nat.log2 (lo x.a).toNat : Nat)) ∧
      LaneWord (.brev w) w (fun x => resBits (fun k => x.a.getLsbD (31 - k))) ∧
      LaneWord (.lea w sh s) w (fun x => resInt (x.a.toInt + intOf 32 (!s && !w.b.isImm) x.b * 2 ^ sh.toNat)))

/-- Minimum, maximum, compare, select, moves and the predicate words (R165, R170 to R172, R174, R175, R279). -/
def Obligations.ComparesSelectsAndMoves : Prop :=
  ∀ (w : FWord) (u d neg z : Bool) (cond : Cond) (p : BitVec 3) (xd : Option (BitVec 2)) (comb : ScmpComb),
    LaneWord (.imin w u) w (fun x => res32 (min (intOf 32 u x.a) (intOf 32 u x.b))) ∧
    LaneWord (.imax w u) w (fun x => res32 (max (intOf 32 u x.a) (intOf 32 u x.b))) ∧
    (∃ f, LaneWord (.icmp w cond u d) w f ∧
      ∀ x, f x = resPred (f x).pd.get! ∧
        ((f x).pd = some true ↔ condOn cond (intOf (if d then 64 else 32) u x.a) (intOf (if d then 64 else 32) u x.b))) ∧
    LaneWord (.sel w p neg d) w (fun x =>
      let v := if x.preds.getLsbD p.toNat = neg then x.b else x.a
      res64 (if d then v else zx (lo v))) ∧
    LaneWord (.mov w d xd) w (fun x => res64 (if d then x.a else zx (lo x.a))) ∧
    (∀ k, w.b = .imm k → LaneWord (.movi w d) w (fun _ => if d then resInt k.toInt else res32 k.toInt) ∧
      LaneWord (.movhi w) w (fun x => resBits (fun j => if j < 14 then x.old.getLsbD j else k.getLsbD (j - 14)))) ∧
    LaneWord (.pand w neg) w (fun x => resPred ((x.a == 1) && ((x.b == 1) != neg))) ∧
    LaneWord (.por w neg) w (fun x => resPred ((x.a == 1) || ((x.b == 1) != neg))) ∧
    LaneWord (.pxor w neg) w (fun x => resPred ((x.a == 1) != ((x.b == 1) != neg))) ∧
    LaneWord (.pnot w) w (fun x => resPred (x.a != 1)) ∧
    LaneWord (.pset w z) w (fun x => resPred (decide ((lo x.a &&& lo x.b = 0) = (z = true)))) ∧
    (∃ f, LaneWord (.scmp w cond u d comb) w f ∧
      ∀ x, ∃ b, f x = resPred b ∧
        (b = true ↔ match comb with
          | .set => condOn cond (intOf (if d then 64 else 32) u x.a) (intOf (if d then 64 else 32) u x.b)
          | .and => x.preds.getLsbD (w.dst.toNat % 8) ∧ condOn cond (intOf (if d then 64 else 32) u x.a) (intOf (if d then 64 else 32) u x.b)
          | .or => x.preds.getLsbD (w.dst.toNat % 8) ∨ condOn cond (intOf (if d then 64 else 32) u x.a) (intOf (if d then 64 else 32) u x.b)))

/-- The floating-point words (R207 to R215): whenever one issues, its whole effect is its lanes' results, which are those of the
operation on the decoded operands, rounded once, with its flags.

The special functions and the conversions (R216 to R222): whenever one issues, its whole effect is its lanes' results. The
result of FRCP, FRSQ, FLOG2, FSIN or FCOS may rest on a free value (log 6): this holds for every one. -/
def Obligations.FloatingPointWords : Prop :=
  (
    ∀ (w : FWord) (rm : Rm) (sat nab nc sg : Bool) (cond : FCond) (cl : ClassFmt),
      (LaneWord (.fadd w rm sat) w (farithR fp32 addFp rm sat) ∧ LaneWord (.fsub w rm sat) w (farithR fp32 subFp rm sat) ∧
        LaneWord (.fmul w rm sat) w (farithR fp32 mulFp rm sat) ∧ LaneWord (.fdivs w rm sat) w (farithR fp32 divFp rm sat)) ∧
      (LaneWord (.dadd w rm sat) w (farithR fp64 addFp rm sat) ∧ LaneWord (.dsub w rm sat) w (farithR fp64 subFp rm sat) ∧
        LaneWord (.dmul w rm sat) w (farithR fp64 mulFp rm sat)) ∧
      (LaneWord (.ffma w nab nc rm sat) w (ffmaR fp32 nab nc rm sat) ∧ LaneWord (.dfma w nab nc rm sat) w (ffmaR fp64 nab nc rm sat)) ∧
      (LaneWord (.fmin w rm) w (fminmaxR fp32 false) ∧ LaneWord (.fmax w rm) w (fminmaxR fp32 true) ∧
        LaneWord (.dmin w rm) w (fminmaxR fp64 false) ∧ LaneWord (.dmax w rm) w (fminmaxR fp64 true)) ∧
      (LaneWord (.fcmp w cond rm sg) w (fcmpR fp32 cond sg) ∧ LaneWord (.dcmp w cond rm sg) w (fcmpR fp64 cond sg)) ∧
      (LaneWord (.frnd w rm) w (frndR fp32 rm) ∧ LaneWord (.drnd w rm) w (frndR fp64 rm) ∧ LaneWord (.fclass w cl rm) w (fclassR cl)) ∧
      (LaneWord (.hadd2 w rm sat) w (packedR fp16 addFp rm sat) ∧ LaneWord (.hmul2 w rm sat) w (packedR fp16 mulFp rm sat) ∧
        LaneWord (.badd2 w rm sat) w (packedR bf16 addFp rm sat) ∧ LaneWord (.bmul2 w rm sat) w (packedR bf16 mulFp rm sat) ∧
        LaneWord (.hfma2 w rm sat) w (packedFmaR fp16 rm sat) ∧ LaneWord (.bfma2 w rm sat) w (packedFmaR bf16 rm sat))) ∧
  (
    ∀ (w : FWord) (k : Cvt) (op : Cvt8) (rm : Rm) (n o : BitVec 3) (fmt : StoFmt) (inv : Bool) (blk : BlkFmt),
      (LaneWord (.frcp w) w (specialR 0) ∧ LaneWord (.frsq w) w (specialR 1) ∧ LaneWord (.fsqrt w) w (specialR 5) ∧
        LaneWord (.fexp2 w) w (specialR 6) ∧ LaneWord (.flog2 w) w (specialR 2) ∧ LaneWord (.fsin w) w (specialR 3) ∧
        LaneWord (.fcos w) w (specialR 4)) ∧
      (LaneWord (.cvt w k rm) w (cvtR k rm) ∧ LaneWord (.cvt8 w op) w (cvt8R op) ∧ LaneWord (.cvt4E2m1 w rm) w (conv1 e2m1 fp32 rm) ∧
        LaneWord (.cvt4Fp32 w n) w (cvt4Fp32R n) ∧ LaneWord (.cvtx w fmt o) w (cvtxR fmt o)) ∧
      (LaneWord (.sclxFp32 w rm) w (fun x => sclxFp fp32 rm (lo x.b).toInt x) ∧
        LaneWord (.sclxFp64 w rm) w (fun x => sclxFp fp64 rm (lo x.b).toInt x) ∧ LaneWord (.sclxX8 w inv rm) w (sclxX8R inv rm)) ∧
      -- word j of CVT4's packed codes goes to the lanes l with l mod 4 = j (R219)
      (∃ f, GroupWord (.cvt4Pack w) w f ∧ ∀ act ins l, f act ins l = resBits (fun k =>
        act.getLsbD (8 * (l % 4) + k / 4) && (ins (8 * (l % 4) + k / 4)).a.getLsbD (k % 4))) ∧
      GroupWord (.sclxBlk w blk) w (sclxBlkR blk))

/-- Rounding an exact value (R196): toward zero it takes the largest magnitude of the format that is not above it, and the other
modes take that one or the next, as their names say; ties go to the even significand.

NaN operands, infinities and zeros (R194, R195, R203, R208): the canonical NaN, and the flags of the invalid operations and of
the division by zero. -/
def Obligations.RoundingTakesANeighbour : Prop :=
  (
    ∀ (f : Fmt) (v : Ex), 0 < f.fbits → v.m ≠ 0 → v.sticky = false →
      let z := (roundMag f .rz v).1
      let x := (v.m, v.e)
      magLe (magnitude f z) x ∧ magLt x (magnitude f (z + 1)) ∧
      (∀ r, (∀ st u, r ≠ .rs st u) → ((roundMag f r v).2 = true ↔ magLt (magnitude f z) x)) ∧
      (roundMag f .ru v).1 = (if (roundMag f .rz v).2 ∧ v.neg = false then z + 1 else z) ∧
      (roundMag f .rd v).1 = (if (roundMag f .rz v).2 ∧ v.neg = true then z + 1 else z) ∧
      ((roundMag f .rne v).1 = z ∨ (roundMag f .rne v).1 = z + 1) ∧
      (magLt (magAdd x x) (magAdd (magnitude f z) (magnitude f (z + 1))) → (roundMag f .rne v).1 = z) ∧
      (magLt (magAdd (magnitude f z) (magnitude f (z + 1))) (magAdd x x) → (roundMag f .rne v).1 = z + 1) ∧
      (magLe (magAdd (magnitude f z) (magnitude f (z + 1))) (magAdd x x) →
        magLe (magAdd x x) (magAdd (magnitude f z) (magnitude f (z + 1))) → (roundMag f .rne v).1 % 2 = 0)) ∧
  (
    ∀ (f : Fmt) (r : Rnd) (o : Ovf) (ftz n1 n2 : Bool) (m : Nat) (e : Int) (x : Fp),
      -- a NaN operand gives the canonical NaN, and a signalling one sets NV
      (∀ op ∈ [addFp, mulFp, divFp], ∀ s, op f r o ftz (.nan s) x = { bits := nanEnc f, flags := if s ∨ x = .nan true then 2 else 0 } ∧
        op f r o ftz x (.nan s) = { bits := nanEnc f, flags := if s ∨ x = .nan true then 2 else 0 }) ∧
      -- infinity - infinity, 0 * infinity, 0 / 0 and infinity / infinity are invalid
      addFp f r o ftz (.inf n1) (.inf !n1) = { bits := nanEnc f, flags := 2 } ∧
      mulFp f r o ftz (.fin n1 0 e) (.inf n2) = { bits := nanEnc f, flags := 2 } ∧
      mulFp f r o ftz (.inf n1) (.fin n2 0 e) = { bits := nanEnc f, flags := 2 } ∧
      divFp f r o ftz (.fin n1 0 e) (.fin n2 0 e) = { bits := nanEnc f, flags := 2 } ∧
      divFp f r o ftz (.inf n1) (.inf n2) = { bits := nanEnc f, flags := 2 } ∧
      -- a finite non-zero value divided by a zero is an infinity with DZ
      (m ≠ 0 → divFp f r o ftz (.fin n1 m e) (.fin n2 0 e) = { bits := infEnc f + signBit f (n1 != n2), flags := 4 }) ∧
      -- an exact zero sum of values of opposite signs is +0, and -0 under RD
      addFp f r o ftz (.fin n1 m e) (.fin (!n1) m e) = { bits := signBit f (decide (r = .rd)), flags := 0 })

/-- Votes (R176) and shuffles (R177): all lanes read before any lane writes (R11). -/
def Obligations.VotesAndShuffles : Prop :=
  ∀ (w : FWord) (inv d : Bool) (seg : Seg),
    let b (ins : Nat → LaneIn) (l : Nat) : Bool := (ins l).a == 1
    GroupWord (.vote w .every inv) w (fun act ins _ => resPred ((lanesOf act).all (fun l => b ins l != inv))) ∧
    GroupWord (.vote w .some inv) w (fun act ins _ => resPred ((lanesOf act).any (fun l => b ins l != inv))) ∧
    GroupWord (.vote w .same inv) w (fun act ins _ => resPred ((lanesOf act).all (fun l => b ins l) || (lanesOf act).all (fun l => !b ins l))) ∧
    GroupWord (.vote w .mask inv) w (fun act ins _ => resBits (fun l => act.getLsbD l && (b ins l != inv))) ∧
    GroupWord (.vote w .count inv) w (fun act ins _ => res32 ((lanesOf act).countP (fun l => b ins l != inv) : Nat)) ∧
    GroupWord (.lead w) w (fun act ins l => resPred (decide ((lanesOf act).find? (b ins) = some l))) ∧
    (∀ m, GroupWord (.shfl w m d seg) w (fun act ins l =>
      let z := match seg with
        | .s32 => 32
        | .s16 => 16
        | .s8 => 8
        | .s4 => 4
        | .s2 => 2
      let k := (lo (ins l).b).toNat
      let p : Int := match m with
        | .from => (k % z : Nat)
        | .back => (l % z : Nat) - k
        | .fwd => (l % z : Nat) + k
        | .flip => (l % z ^^^ k % z : Nat)
      let j := l - l % z + p.toNat
      res64 (if 0 ≤ p ∧ p < z ∧ act.getLsbD j then (ins j).a else (ins l).a)))

/-! Registers, control flow, traps and barriers. -/

/-- Index registers (R178): the words' effects, and INDEX_BOUNDS for the lowest lane that fails (the choice of that lane is log
16's).

Register allocation (R144, R146, R184). -/
def Obligations.RegisterWords : Prop :=
  (
    ∀ (w : FWord) (x : BitVec 2) (fld : XField) (s : State) (c : Ctx),
      (Executes (.xset w x) w s c →
        let base (l : Nat) := (lo (laneIn (.xset w x) w s c l).a).toNat
        let limit (l : Nat) := (lo (laneIn (.xset w x) w s c l).b).toNat
        let goodLimit (l : Nat) := 1 ≤ limit l ∧ limit l ≤ 64
        let goodBase (l : Nat) := base l ≤ 255 ∧ base l + limit l ≤ c.gr.alloc
        ((∀ l ∈ lanesOf c.act, goodLimit l ∧ goodBase l) →
          Does (.xset w x) w s c (fun _ => {}) (fun u => updGroup u c.id (fun g => writeX g x c.act (fun l =>
            { base := BitVec.ofNat 8 (base l), limit := BitVec.ofNat 7 (limit l), index := 0 })))) ∧
        (∀ l ∈ lanesOf c.act, (∀ k ∈ lanesOf c.act, k < l → goodLimit k ∧ goodBase k) →
          (¬ goodLimit l → Traps (.xset w x) s 0x05 1 c.act 0) ∧
          (goodLimit l → ¬ goodBase l → Traps (.xset w x) s 0x05 2 c.act 0))) ∧
      (Executes (.xadd w x) w s c →
        Does (.xadd w x) w s c (fun _ => {}) (fun u => updGroup u c.id (fun g => writeX g x c.act (fun l =>
          let y := get {} c.gr.x (32 * x.toNat + l)
          { base := y.base, limit := y.limit, index := BitVec.ofInt 32 (y.index.toInt + (lo (laneIn (.xadd w x) w s c l).b).toInt) })))) ∧
      (Executes (.xget w x fld) w s c →
        Does (.xget w x fld) w s c (fun l =>
          let y := get {} c.gr.x (32 * x.toNat + l)
          match fld with
          | .index => res32 y.index.toInt
          | .base => res32 (y.base.toNat : Int)
          | .limit => res32 (y.limit.toNat : Int)) id)) ∧
  (
    ∀ (w : FWord) (s : State) (c : Ctx),
      (Executes (.vgrow w) w s c →
        let n := regCount (.vgrow w) w s c
        (n ≤ c.gr.alloc → Does (.vgrow w) w s c (fun _ => {}) id) ∧
        (c.gr.alloc < n → n ≤ 256 → teamRegs c.t - c.gr.alloc + n ≤ 4096 →
          Does (.vgrow w) w s c (fun _ => {}) (fun u =>
            if regsUsed u c.t.core + (n - c.gr.alloc) ≤ 4096 then updGroup u c.id (fun g => { g with alloc := n })
            else updGroup u c.id (fun g => waitLanes g c.act c.pc (.vgrow n s.cycle c.next)))) ∧
        (c.gr.alloc < n → 256 < n → Traps (.vgrow w) s 0x07 1 c.act 0) ∧
        (c.gr.alloc < n → n ≤ 256 → 4096 < teamRegs c.t - c.gr.alloc + n → Traps (.vgrow w) s 0x07 2 c.act 0)) ∧
      (Executes (.vshrink w) w s c →
        let n := max 8 (regCount (.vshrink w) w s c)
        ∃ u, exec (.vshrink w) s = .next u ∧ ∃ g, group u c.id = some g ∧ g.alloc = min n c.gr.alloc ∧
          (∀ k l, k < min n c.gr.alloc → l < 32 → readV g k l = readV c.gr k l) ∧
          (n < c.gr.alloc → ∀ k l, n ≤ k → readV g k l = 0) ∧
          (∀ l, l < 32 → pcOf g l = if c.at_.getLsbD l then c.next else pcOf c.gr l) ∧ u.mem = s.mem))

/-- Branches and calls (R179): the executing lanes go to their targets, a call returns the PC after it, a register target that is
no PC faults with BAD_TARGET, and no PC changes then but by the trap. -/
def Obligations.BranchesAndCalls : Prop :=
  ∀ (w : FWord) (s : State) (c : Ctx),
    let ret : LaneOut := { val := c.next }
    let good (x : W64) : Prop := x.toNat < 2 ^ 57 ∧ x.getLsbD 2 = false
    (Executes (.bra w) w s c → ∀ k, w.b = .imm k →
      Does (.bra w) w s c (fun _ => {}) (fun u => updGroup u c.id (fun g => setPcs g c.act (fun _ => immTarget c.pc (.imm k))))) ∧
    (Executes (.call w) w s c → ∀ k, w.b = .imm k →
      Does (.call w) w s c (fun _ => ret) (fun u => updGroup u c.id (fun g => setPcs g c.act (fun _ => immTarget c.pc (.imm k))))) ∧
    (∀ i ∈ [Instr.brx w, Instr.ret w], Executes i w s c →
      let tgt (l : Nat) := (laneIn i w s c l).a
      ((∀ l ∈ lanesOf c.act, good (tgt l)) → Does i w s c (fun _ => {}) (fun u => updGroup u c.id (fun g => setPcs g c.act tgt))) ∧
      ((∃ l ∈ lanesOf c.act, ¬ good (tgt l)) → Traps i s 0x0E 0 c.act 0)) ∧
    (Executes (.call w) w s c → w.b.isImm = false →
      let tgt (l : Nat) := (laneIn (.call w) w s c l).a
      ((∀ l ∈ lanesOf c.act, good (tgt l)) → Does (.call w) w s c (fun _ => ret) (fun u => updGroup u c.id (fun g => setPcs g c.act tgt))) ∧
      ((∃ l ∈ lanesOf c.act, ¬ good (tgt l)) → Traps (.call w) s 0x0E 0 c.act 0))

/-- R95: the target of an immediate branch, in lane code and in lead code, and its reach of 1 MiB either way. -/
def Obligations.ImmediateBranchTargets : Prop :=
  ∀ (w : FWord) (s : State) (c : Ctx) (k : BitVec 18) (kind : BrcKind),
    w.b = .imm k →
    ∀ i ∈ [Instr.bra w, Instr.call w, Instr.brc w kind], Executes i w s c →
      (-(2 : Int) ^ 20 ≤ 8 * k.toInt ∧ 8 * k.toInt < 2 ^ 20) ∧
      ∃ u g, exec i s = .next u ∧ group u c.id = some g ∧
        ∀ l, l < 32 → c.act.getLsbD l = true →
          (pcOf g l).toNat = (((c.pc.toNat / 8 * 8 : Nat) : Int) + 8 * k.toInt) % 2 ^ 57

/-- Lane end, no-operation, yield and the return from a routine (R180, R181, R272).

BKPT and TRAP take the software traps (R180): DETAIL and TADDR of a TRAP come from its code.

The return from a routine (R181, R44): once every live lane stands at an RTT, INTRAP clears and each live lane gets its PC back;
a lane whose barrier has not completed waits there again, where it returns to its shadow PC. -/
def Obligations.ReturnAndTrapWords : Prop :=
  (
    ∀ (w : FWord) (s : State) (c : Ctx),
      (∀ i ∈ [Instr.exit w, Instr.lexit w], Executes i w s c →
        Does i w s c (fun _ => {}) (fun u =>
          let u1 := updGroup u c.id (fun g => { g with live := g.live &&& ~~~c.act, arm := g.arm.filter (fun e => !c.act.getLsbD (e.1 % 32)) })
          let u2 := if c.gr.live &&& ~~~c.act = 0 then releaseGroup (updGroup u1 c.id endGroup) c.id else u1
          rttCheck (updTeam u2 c.id.team closeBars) c.id)) ∧
      (Executes (.nop w) w s c → Does (.nop w) w s c (fun _ => {}) id) ∧
      (Executes (.yield w) w s c →
        Does (.yield w) w s c (fun _ => {}) (fun u => updGroup u c.id (fun g => { g with yieldUntil := s.cycle + 9 }))) ∧
      (Executes (.rtt w) w s c →
        (c.gr.inTrap = false → Traps (.rtt w) s 0x0F 0 c.act 0) ∧
        (c.gr.inTrap = true →
          Does (.rtt w) w s c (fun _ => {}) (fun u => rttCheck (updGroup u c.id (fun g => waitLanes g c.act c.pc .rtt)) c.id)))) ∧
  (
    ∀ (w : FWord) (s : State) (c : Ctx),
      (Executes (.bkpt w) w s c → Traps (.bkpt w) s 0x09 0 c.act 0) ∧
      (∀ k, w.b = .imm k → Executes (.trap w) w s c → Traps (.trap w) s 0x0A (k.toNat % 256) c.act (BitVec.ofNat 64 k.toNat))) ∧
  (
    ∀ (s : State) (id : SrcId) (gr : Group), group s id = some gr → gr.inTrap = true → gr.live ≠ 0 →
      (∀ l ∈ lanesOf gr.live, look gr.wait l = some .rtt) → gr.heldTraps = [] →
      ∃ g, group (rttCheck s id) id = some g ∧ g.inTrap = false ∧
        (∀ l, l < 32 → gr.live.getLsbD l = true → pcOf g l =
          if (isLead id = true ∨ gr.tlanes.getLsbD l = true) ∧ (gr.tpcWritten = true ∨ gr.tcause.getLsbD 16 = false)
          then gr.restart.getD gr.tpc else get 0 gr.shadow l) ∧
        (∀ l ∈ lanesOf gr.live, ∀ x, look gr.mark l = some x → gr.tlanes.getLsbD l = false → isLead id = false →
          look g.wait l = some x) ∧
        (∀ n l, readV g n l = readV gr n l) ∧ (∀ n, readP g n = readP gr n) ∧ (rttCheck s id).mem = s.mem)

/-- R43: what a precise fault leaves, outside a chain and outside a copy word's issue: no destination, predicate or memory byte is
written, every live lane stands at TRAPBASE (64 bytes behind it for a lead, R263), each lane's PC is kept in its shadow PC, and RTT
restores it in the lanes that TLANES does not name. -/
def Obligations.PreciseFaultsEnterTheRoutine : Prop :=
  ∀ (i : Instr) (s : State) (cause detail : Nat) (lanes : Mask) (addr : W64) (t : Team) (gr : Group),
    Traps i s cause detail lanes addr → team s s.cur.id.team = some t → group s s.cur.id = some gr →
    gr.inTrap = false → t.trapBase ≠ 0 → gr.chain = none → gr.enq = [] →
    ∃ u g, exec i s = .next u ∧ group u s.cur.id = some g ∧
      (∀ n l, readV g n l = readV gr n l) ∧ (∀ n, readP g n = readP gr n) ∧ (∀ a, readByte u a = readByte s a) ∧
      g.inTrap = true ∧ g.live = gr.live ∧ g.wait = [] ∧
      (∀ l, l < 32 → gr.live.getLsbD l = true → pcOf g l = if isLead s.cur.id then t.trapBase + 64 else t.trapBase) ∧
      (∀ l, get 0 g.shadow l = pcOf gr l) ∧
      g.tpc = s.cur.pc ∧ g.taddr = addr ∧ g.tlanes = (if isLead s.cur.id then 0 else zx lanes) ∧
      (cause < 256 → detail < 256 → g.tcause = BitVec.ofNat 64 (detail * 256 + cause)) ∧
      (∀ k, k ≠ s.cur.id.team → team u k = team s k) ∧
      (∀ l, l < 32 → gr.live.getLsbD l = true → isLead s.cur.id = false → lanes.getLsbD l = false →
        pcOf (returnFromTrap false g) l = pcOf gr l)

/-- R47 and R48: a trap without a routine (TRAPBASE is zero) ends the team, with its own cause; a second one inside a routine ends it
with TRAP_NESTED. No lane of the team is live any longer, its launch is faulted, and no byte of memory changes but by the host's
fault record, which waits while the host's ring is disabled.

Where the spec leaves a point open, this rests on the model's choices: log 13 (both cause codes of R47). -/
def Obligations.TrapsWithoutARoutineEndTheTeam : Prop :=
  ∀ (i : Instr) (s : State) (cause detail : Nat) (lanes : Mask) (addr : W64) (t : Team) (gr : Group) (n : Cnt),
    Traps i s cause detail lanes addr → team s s.cur.id.team = some t → group s s.cur.id = some gr →
    (gr.inTrap = true ∨ t.trapBase = 0) →
    look s.lcnt (lcntKey t.launch.ctx t.launch.lid) = some n → n.seq = t.run → n.state = 1 →
    (host s (hostOf t.launch.ctx)).fqEnable = false →
    let seen := if gr.inTrap then (0x1E, 0) else (cause, detail)
    ∃ u t', exec i s = .next u ∧ team u s.cur.id.team = some t' ∧ t'.status = .ending ∧
      (∀ k g, look t'.groups k = some g → g.live = 0) ∧
      (look u.lcnt (lcntKey t.launch.ctx t.launch.lid)).map (fun c => (c.state, c.cause, c.detail)) = some (5, seen.1, seen.2) ∧
      (∀ a, readByte u a = readByte s a) ∧
      (host u (hostOf t.launch.ctx)).waiting = (host s (hostOf t.launch.ctx)).waiting ++
        [hostWords t.launch.ctx 7 seen.2 seen.1 false addr (BitVec.ofNat 64 (t.launch.lid * 2 ^ 32 + t.index))
          (BitVec.ofNat 64 (if gr.inTrap then cause else 0))]

/-- The count of an arrival (R147): zero means every lane of the team.

Arrivals (R147, R150, R182): the executing lanes arrive, and wait where the word says so.

Barriers complete and expire (R147, R149, R151, R260, R63): at a completion every lane that waits for this generation goes on behind its
word, one that waits for the next waits on, the next generation's arrivals move up and the count rises; a phase turns likewise; at an
expiry every group with waiting lanes takes BARRIER_TIMEOUT, their arrivals are withdrawn, and the count stays.

Where the spec leaves a point open, this rests on the model's choices: log 16 (what a record names where several lanes wait). -/
def Obligations.Barriers : Prop :=
  (
    ∀ (i : Instr) (w : FWord) (s : State) (c : Ctx),
      (∀ k, w.b = .imm k → barCount i w s c = if k = 0 then (c.t.launch.grpm1 + 1) * 32 else k.toNat) ∧
      (∀ x, w.b = .sel x → barCount i w s c =
        let n := (lo (laneIn i w s c (lowest c.act)).a).toNat
        if n = 0 then (c.t.launch.grpm1 + 1) * 32 else n)) ∧
  (
    ∀ (w : FWord) (n : BitVec 4) (m : BitVec 3) (arv : Bool) (kind : PbarKind) (s : State) (c : Ctx),
      let at_ : Arr := { ord := c.gr.ord, at_ := c.t.timer }
      (Executes (.bar w n arv) w s c →
        let k := barCount (.bar w n arv) w s c
        k ≤ (c.t.launch.grpm1 + 1) * 32 → (∀ x, barTarget c.t n.toNat = some x → x = k) →
        Does (.bar w n arv) w s c (fun _ => {}) (fun u =>
          let later := ((look c.t.bars n.toNat).map (·.closed)).getD false
          let u := if arv then u else updGroup u c.id (fun g => waitLanes g c.act c.pc (.bar n.toNat later c.next))
          updTeam u c.id.team (fun t => arriveBar t n.toNat k c.id.g c.act at_))) ∧
      (Executes (.pbar w m kind) w s c →
        let b := (look c.t.pbars m.toNat).getD {}
        let k := barCount (.pbar w m kind) w s c
        (kind ≠ .wait → k ≤ (c.t.launch.grpm1 + 1) * 32 ∧ ∀ x ∈ pbarTargets b ((lanesOf c.act).map (laneKey c.id.g)), x = k) →
        Does (.pbar w m kind) w s c (fun _ => {}) (fun u =>
          let u := updGroup u c.id (pbarWaits m.toNat kind c b)
          if kind = .wait then u
          else updTeam u c.id.team (fun t => { t with pbars := put t.pbars m.toNat ((lanesOf c.act).foldl (fun b l =>
            arrivePLane b k (laneKey c.id.g l) at_) ((look t.pbars m.toNat).getD {})) })))) ∧
  (
    (∀ (s : State) (tm n : Nat) (t : Team) (b : Bar), team s tm = some t → look t.bars n = some b → b.closed = true →
      (∀ e ∈ b.arrived, laneDone s ⟨tm, e.1 / 32⟩ (e.1 % 32) e.2.ord = true) → ¬ (t.flags &&& flagARMED ≠ 0 ∧ flagsAt t s.cycle &&& flagSAT ≠ 0) →
      ∃ u t' b', exec (.barrierComplete tm n) s = .next u ∧ team u tm = some t' ∧ u.mem = s.mem ∧ t'.flags = t.flags ∧
        look t'.bars n = some b' ∧ b'.arrived = b.next ∧ b'.target = b.nextTarget ∧ b'.gen = b.gen + 1 ∧
        (∀ a, look (core u t.core).l1 a = if (look (core s t.core).owned (a / 4)).isSome then look (core s t.core).l1 a else none) ∧
        (∀ g gr, look t.groups g = some gr → sorted gr.wait = true → ∃ g', look t'.groups g = some g' ∧
          (∀ k l, l < 32 → readV g' k l = readV gr k l) ∧ ∀ l nx,
            (look gr.wait l = some (.bar n false nx) → look g'.wait l = none ∧ pcOf g' l = nx) ∧
            (look gr.wait l = some (.bar n true nx) → look g'.wait l = some (.bar n false nx) ∧ pcOf g' l = pcOf gr l) ∧
            (look gr.wait l = none → look g'.wait l = none ∧ pcOf g' l = pcOf gr l))) ∧
    (∀ (s : State) (tm n : Nat) (t : Team) (b : Bar), team s tm = some t → look t.bars n = some b → b.closed = true →
      (∀ e ∈ b.arrived, laneDone s ⟨tm, e.1 / 32⟩ (e.1 % 32) e.2.ord = true) → t.flags &&& flagARMED ≠ 0 → flagsAt t s.cycle &&& flagSAT ≠ 0 →
      t.trapBase ≠ 0 → ∀ g gr, look t.groups g = some gr → g < 32 → gr.inTrap = false → insideWord s ⟨tm, g⟩ gr = false → (∃ l nx, look gr.wait l = some (.bar n false nx)) →
      (∀ h, h < g → ∀ x, look t.groups h = some x → x.wait = [] ∧ x.mark = []) →
      ∃ u t' g', exec (.barrierComplete tm n) s = .next u ∧ team u tm = some t' ∧ look t'.groups g = some g' ∧
        t'.flags = t.flags &&& ~~~flagARMED ∧ g'.inTrap = true ∧ g'.tcause = 0x0B ∧ g'.taddr = BitVec.ofNat 64 n) ∧
    (∀ (s : State) (tm n : Nat) (t : Team) (b : PBar), team s tm = some t → look t.pbars n = some b → met t b.target0 b.cnt0 = true →
      (∀ e ∈ b.cnt0, laneDone s ⟨tm, e.1 / 32⟩ (e.1 % 32) e.2.ord = true) → b.held = [] → sorted b.ahead = true →
      ¬ (t.flags &&& flagARMED ≠ 0 ∧ flagsAt t s.cycle &&& flagSAT ≠ 0) →
      ∃ u t' b', exec (.phaseComplete tm n) s = .next u ∧ team u tm = some t' ∧ u.mem = s.mem ∧ look t'.pbars n = some b' ∧
        b'.phase = !b.phase ∧ b'.cnt0 = b.cnt1 ∧ b'.target0 = b.target1 ∧ b'.cnt1 = [] ∧ b'.target1 = none ∧
        (∀ k, aheadOf b' k = aheadOf b k - 1) ∧
        (∀ g gr, look t.groups g = some gr → sorted gr.wait = true → ∃ g', look t'.groups g = some g' ∧ ∀ l nx,
          look gr.wait l = some (.pbar n nx) →
            (aheadOf b (32 * g + l) ≤ 1 → look g'.wait l = none ∧ pcOf g' l = nx) ∧
            (aheadOf b (32 * g + l) = 2 → look g'.wait l = some (.pbar n nx) ∧ pcOf g' l = pcOf gr l))) ∧
    (∀ (s : State) (tm n t0 : Nat) (t : Team) (b : Bar), team s tm = some t → n < 16 → look t.bars n = some b → b.timer = some t0 →
      t0 + 2 ^ t.barLog < t.timer → t.status = .resident → t.trapBase ≠ 0 → t.launch.grpm1 < 32 →
      (∀ g gr, look t.groups g = some gr → gr.inTrap = false ∧ gr.mark = []) →
      let waits (g : Nat) : Mask := match look t.groups g with
        | some gr => if g ∈ liveGroups t then lanesWaiting n gr.wait else 0
        | none => 0
      ∃ u t' b', exec (.barrierTimeout tm n) s = .next u ∧ team u tm = some t' ∧ look t'.bars n = some b' ∧ u.mem = s.mem ∧
        b'.gen = b.gen ∧ b'.target = b.target ∧ ((∀ g, g < 32 → waits g = 0) → b'.timer = none) ∧
        (∀ g, g < 32 → waits g ≠ 0 → b'.timer = earliest b'.arrived) ∧
        (∀ g l, l < 32 → look b'.arrived (32 * g + l) = if (waits g).getLsbD l then none else look b.arrived (32 * g + l)) ∧
        (∀ g gr, look t.groups g = some gr → g < 32 → waits g ≠ 0 → ∃ g', look t'.groups g = some g' ∧ g'.inTrap = true ∧
          g'.tcause = BitVec.ofNat 64 (256 * n + 6) ∧ g'.tlanes = zx (waits g)) ∧
        (∀ g gr, look t.groups g = some gr → waits g = 0 → look t'.groups g = some gr)) ∧
    (∀ (s : State) (tm g n since : Nat) (t : Team) (gr : Group), team s tm = some t → look t.groups g = some gr → vgrowWait gr = some (n, since) →
      regsUsed s t.core + (n - gr.alloc) ≤ 4096 → sorted gr.wait = true →
      ((core s t.core).breaking = true → ((vgrowsOn s t.core).head?).map (·.2.2) = some ⟨tm, g⟩) →
      ∃ u g', exec (.vgrowGrant tm g) s = .next u ∧ group u ⟨tm, g⟩ = some g' ∧ u.mem = s.mem ∧ g'.alloc = max gr.alloc n ∧
        (∀ k l, l < 32 → readV g' k l = readV gr k l) ∧
        ∀ l since' nx, look gr.wait l = some (.vgrow n since' nx) → look g'.wait l = none ∧ pcOf g' l = nx))

/-- R148: a count above groups * 32 faults with BARRIER_COUNT 2, another one that differs from the set target with 1; no arrival is
recorded then, and a lane in the arrived set is not counted twice. -/
def Obligations.BarrierCountFaults : Prop :=
  ∀ (w : FWord) (n : BitVec 4) (arv : Bool) (s : State) (c : Ctx), Executes (.bar w n arv) w s c →
    let k := barCount (.bar w n arv) w s c
    let noArrival : Prop := ∃ u t, exec (.bar w n arv) s = .next u ∧ team u c.id.team = some t ∧ t.bars = c.t.bars
    ((c.t.launch.grpm1 + 1) * 32 < k → Traps (.bar w n arv) s 0x10 2 c.act 0 ∧ noArrival) ∧
    (k ≤ (c.t.launch.grpm1 + 1) * 32 → ∀ x, barTarget c.t n.toNat = some x → x ≠ k → Traps (.bar w n arv) s 0x10 1 c.act 0 ∧ noArrival) ∧
    (k ≤ (c.t.launch.grpm1 + 1) * 32 → barTarget c.t n.toNat = some k → arv = false →
      ∃ u g, exec (.bar w n arv) s = .next u ∧ group u c.id = some g ∧
        ∀ l ∈ lanesOf c.act, ∃ later, look g.wait l = some (.bar n.toNat later c.next)) ∧
    (∀ (t : Team) (l : Nat) (a : Arr) (b : Bar), look t.bars n.toNat = some b → b.closed = false → l < 32 →
      look b.arrived (laneKey c.id.g l) ≠ none → met t b.target b.arrived = false → b.target = some k →
      (look (arriveBar t n.toNat k c.id.g (oneLane l) a).bars n.toNat).map (fun x => (x.arrived, x.closed)) =
        some (b.arrived, false))

/-- Control registers (R157, R185, R186): KRD returns the register, KWR writes it, and both fault on what names none. -/
def Obligations.ControlRegisterWords : Prop :=
  ∀ (w : FWord) (off : Bool) (s : State) (c : Ctx),
    (Executes (.krd w) w s c →
      let n := cregNum (.krd w) w s c
      (cregAccess (isLead c.id) n = none → Traps (.krd w) s 0x0C 1 c.act 0) ∧
      (cregAccess (isLead c.id) n ≠ none → Does (.krd w) w s c (fun l => { val := cregRead s c n l }) id)) ∧
    (Executes (.kwr w) w s c →
      let n := cregNum (.kwr w) w s c
      let x (l : Nat) := kwrVal (.kwr w) w s c l
      let v := x (highest c.act)
      (cregAccess (isLead c.id) n = none → Traps (.kwr w) s 0x0C 1 c.act 0) ∧
      (n = 0x000 → Does (.kwr w) w s c (fun _ => {}) (fun u => updTeam u c.id.team (fun t =>
        { t with trapBase := BitVec.ofNat 64 (v.toNat % 2 ^ 57 / 8 * 8) }))) ∧
      (n = 0x010 → Does (.kwr w) w s c (fun _ => {}) (fun u => updTeam u c.id.team (fun t =>
        { t with flags := (t.flags &&& ~~~0xE3F#64) ||| (v &&& 0xE3F#64) }))) ∧
      (n = 0x002 → Does (.kwr w) w s c (fun _ => {}) (fun u => updGroup u c.id (fun g =>
        { g with tpc := tpcWord v, restart := none, tpcWritten := true }))) ∧
      (n = 0x012 → isLead c.id = false → Does (.kwr w) w s c (fun _ => {}) (fun u => updGroup u c.id (fun g =>
        { g with sr := (lanesOf c.act).foldl (fun m l => set 0 m l (lo (x l))) g.sr })))) ∧
    (Executes (.flagarm w off) w s c → ∃ u t, exec (.flagarm w off) s = .next u ∧ team u c.id.team = some t ∧
      t.flags.getLsbD 15 = !off ∧ (∀ k, k ≠ 15 → c.gr.chain = none → t.flags.getLsbD k = c.t.flags.getLsbD k) ∧ u.mem = s.mem)

/-- R158: what KWR makes of BARTMO, and KWR to a register that lanes cannot write. -/
def Obligations.BarrierTimeoutRegister : Prop :=
  ∀ (w : FWord) (s : State) (c : Ctx), Executes (.kwr w) w s c →
    let n := cregNum (.kwr w) w s c
    let v := kwrVal (.kwr w) w s c (highest c.act)
    (n = 0x011 → v.toNat % 32 = 0 → Does (.kwr w) w s c (fun _ => {}) (fun u => updTeam u c.id.team (fun t => { t with barLog := 24 }))) ∧
    (n = 0x011 → 1 ≤ v.toNat % 32 → v.toNat % 32 ≤ 9 → Traps (.kwr w) s 0x0C 3 c.act 0) ∧
    (n = 0x011 → 10 ≤ v.toNat % 32 → Does (.kwr w) w s c (fun _ => {}) (fun u => updTeam u c.id.team (fun t => { t with barLog := v.toNat % 32 }))) ∧
    (cregAccess (isLead c.id) n = some false → Traps (.kwr w) s 0x0C 2 c.act 0) ∧
    (∀ i w' c', Executes (.krd w') w' i c' → cregNum (.krd w') w' i c' = 0x011 →
      Does (.krd w') w' i c' (fun _ => { val := BitVec.ofNat 64 c'.t.barLog }) id) ∧
    (∀ q p l k order dict, (newTeam s q p l k order dict).barLog = if l.barlog = 0 then 24 else l.barlog)

/-! Memory. -/

/-- Loads issue (R224 to R230, R245, R249, R276): once no acquire is outstanding, the address checks pass and no earlier store of
the source covers only a part, the destinations become pending and the access is outstanding; nothing is read or written yet but
the scratchpad, the counters and forwarded stores.

What one lane's access of a load is (R226, R232, R515): bytes of the scratchpad or of a counter as they are, the youngest
earlier store's data for a weak load, else the physical bytes to be read. -/
def Obligations.LoadsBecomeOutstanding : Prop :=
  (
    ∀ (w : FWord) (sz : LdSize) (pol : L1Pol) (d acq : Bool) (el : ElSel) (x : BitVec 2) (s : State) (c : Ctx) (accs : List LoadAcc),
      (∀ i kind n al strong p, (i, kind, n, al, strong, p) ∈
          [(Instr.ld w sz pol acq, LoadKind.plain sz, ldBytes sz, 1, false, pol),
           (Instr.lds w sz acq, LoadKind.plain sz, ldBytes sz, ldBytes sz, true, .normal),
           (Instr.sld w d acq, LoadKind.plain (if d then .d else .w), if d then 8 else 4, 1, false, .normal),
           (Instr.slds w d acq, LoadKind.plain (if d then .d else .w), if d then 8 else 4, if d then 8 else 4, true, .normal)] →
        Executes i w s c → memWait s c (reachesMemory c (addrOf i w s c)) = .ok () → (strong = true → strongWait s c = .ok ()) →
        accessCheck s c .load al (fun _ => n) (addrOf i w s c) = .ok () →
        (lanesOf c.act).mapM (fun l => loadAcc s c strong (addrOf i w s c l) n l w.dst.toNat) = .ok accs →
        LoadIssued i w s c { src := c.id, ord := c.gr.ord, lanes := c.act, kind, accs, strong, pol := p, acquire := acq
                             counted := reachesMemory c (addrOf i w s c), opener := usesLatch w, dl := w.dl, ws := w.ws }) ∧
      (∀ i, i = Instr.lde w el pol acq → Executes i w s c → memWait s c true = .ok () → elemCheck s c .load el (addrOf i w s c) = .ok () →
        (lanesOf c.act).mapM (fun l => elemAcc s c (addrOf i w s c l) l w.dst.toNat) = .ok accs →
        LoadIssued i w s c { src := c.id, ord := c.gr.ord, lanes := c.act, kind := .elem el (rmodeOf c.t.flags) (ftzOf c.t.flags), accs
                             strong := false, pol, acquire := acq, counted := true, opener := usesLatch w, dl := w.dl, ws := w.ws }) ∧
      (∀ i, i = Instr.ldx w x pol acq → Executes i w s c → windowCheck c x false = .ok () → memWait s c (reachesMemory c (addrOf i w s c)) = .ok () →
        accessCheck s c .load 4 (fun l => 4 * windowLen c x l) (addrOf i w s c) = .ok () →
        ((lanesOf c.act).flatMap (fun l => (List.range (windowLen c x l)).map (fun k => (l, k)))).mapM
          (fun e => loadAcc s c false (addrOf i w s c e.1 + BitVec.ofNat 64 (4 * e.2)) 4 e.1 (windowReg c x e.1 + e.2)) = .ok accs →
        LoadIssued i w s c { src := c.id, ord := c.gr.ord, lanes := c.act, kind := .word, accs, strong := false, pol, acquire := acq
                             counted := reachesMemory c (addrOf i w s c), opener := usesLatch w, dl := w.dl, ws := w.ws })) ∧
  (
    ∀ (s : State) (c : Ctx) (strong : Bool) (va : W64) (n l r : Nat),
      (inScratch va = true → loadAcc s c strong va n l r =
        .ok { lane := l, reg := r, pas := [], val := some ((List.range n).map (fun k => get 0 c.t.scratch (va.toNat - 0x01FFFF0000000000 + k))) }) ∧
      (inScratch va = false → inCounters va = true → loadAcc s c strong va n l r =
        .ok { lane := l, reg := r, pas := [], val := some (counterBytes s (va.toNat - 0x01FFFE0000000000) n) }) ∧
      (inScratch va = false → inCounters va = false → pendingOn c.gr (physBytes s c .load va n) = [] →
        ∃ a, loadAcc s c strong va n l r = .ok a ∧ a.lane = l ∧ a.reg = r ∧ a.pas = physBytes s c .load va n ∧ a.val = none) ∧
      (inScratch va = false → inCounters va = false → ∀ o, youngest (pendingOn c.gr (physBytes s c .load va n)) = some o →
        (strong = true → loadAcc s c strong va n l r = .error .wait) ∧
        ((∀ p ∈ physBytes s c .load va n, o.data.any (fun e => e.1 == p) = true) → strong = false →
          ∃ bs : List Byte, loadAcc s c strong va n l r = .ok { lane := l, reg := r, pas := physBytes s c .load va n, val := some bs } ∧
            bs.length = (physBytes s c .load va n).length ∧
            ∀ k p : Nat, (physBytes s c .load va n)[k]? = some p → (o.data.reverse.find? (fun e => e.1 = p)).map (·.2) = bs[k]?)))

/-- The return of a load whose values have been read, outside a chain (R238, R245, R239): its registers get the values or the ERR
marks, they are ready again, MEMQ goes down, and no byte of memory changes.

The value of a load in its registers (R245): zero or sign extension of small sizes, and little-endian words. -/
def Obligations.LoadsReturn : Prop :=
  (
    ∀ (s : State) (n : Nat) (op : LoadOp) (t : Team) (gr : Group),
      look s.loads n = some op → team s op.src.team = some t → look t.groups op.src.g = some gr → t.status = .resident →
      op.opener = false → op.pol = .normal → op.acquire = false → op.strong = true → op.dl = 0 → op.ws = false →
      (∀ a ∈ op.accs, (a.val.isSome = true ∨ a.bad.isSome = true) ∧ a.lane < 32 ∧ a.keep = false ∧ a.reg + 4 ≤ gr.alloc) →
      (op.accs.map (·.lane)).Nodup →
      ∃ u g, exec (.loadReturn n) s = .next u ∧ group u op.src = some g ∧ look u.loads n = none ∧ u.mem = s.mem ∧
        g.memq = gr.memq - (if op.counted then 1 else 0) ∧
        (∀ a ∈ op.accs, ∀ k, k < loadRegs op.kind →
          (get 0 g.sb (a.reg + k)).getLsbD a.lane = false ∧
          (∀ e, a.bad = some e → look g.err (32 * (a.reg + k) + a.lane) = some e ∧ readV g (a.reg + k) a.lane = readV gr (a.reg + k) a.lane) ∧
          (a.bad = none → some (readV g (a.reg + k) a.lane) = (loadedWords op.kind a).1[k]?)) ∧
        (∀ r l, l < 32 → (∀ a ∈ op.accs, a.lane = l → r < a.reg ∨ a.reg + loadRegs op.kind ≤ r) → readV g r l = readV gr r l)) ∧
  (
    ∀ (a : LoadAcc) (bs : List Byte), a.val = some bs →
      (∀ b, bs = [b] → loadedWords (.plain .ub) a = ([BitVec.ofNat 32 b.toNat], 0) ∧ loadedWords (.plain .sb) a = ([BitVec.ofInt 32 b.toInt], 0)) ∧
      (∀ b0 b1, bs = [b0, b1] → loadedWords (.plain .uh) a = ([BitVec.ofNat 32 (b0.toNat + 256 * b1.toNat)], 0) ∧
        loadedWords (.plain .sh) a = ([BitVec.ofInt 32 (b0.toNat + 256 * b1.toInt)], 0)) ∧
      (∀ b0 b1 b2 b3, bs = [b0, b1, b2, b3] →
        let x : W32 := b3 ++ b2 ++ b1 ++ b0
        loadedWords (.plain .w) a = ([x], 0) ∧ loadedWords .word a = ([x], 0) ∧ loadedWords (.old false) a = ([x], 0)) ∧
      (∀ b0 b1 b2 b3 b4 b5 b6 b7, bs = [b0, b1, b2, b3, b4, b5, b6, b7] →
        let ws : List W32 := [b3 ++ b2 ++ b1 ++ b0, b7 ++ b6 ++ b5 ++ b4]
        loadedWords (.plain .d) a = (ws, 0) ∧ loadedWords (.old true) a = (ws, 0)))

/-- Stores issue (R246, R249, R71, R75, R276): once the earlier loads have bound and the checks pass, the scratchpad bytes are
written, the others are outstanding with the stream's next number, and no byte of memory has changed yet. -/
def Obligations.StoresBecomeOutstanding : Prop :=
  ∀ (w : FWord) (sz : StSize) (os : BitVec 3) (d rel : Bool) (x : BitVec 2) (s : State) (c : Ctx),
    (∀ i z al strong, (i, z, al, strong) ∈
        [(Instr.st w sz os rel, sz, 1, false), (Instr.sts w sz os rel, sz, stBytes sz, true),
         (Instr.sst w d os rel, if d then .d else .w, 1, false)] →
      let va := addrOf i w s c
      Executes i w s c → memWait s c (reachesMemory c va) = .ok () → storeWait s c rel = .ok () →
      (reachesMemory c va = true → streamWait c os.toNat = .ok ()) → accessCheck s c .store al (fun _ => stBytes z) va = .ok () →
      StoreIssued i s c os.toNat (fun l => (va l, storeData i w s c z l))) ∧
    (∀ i, i = Instr.stx w x os rel → Executes i w s c →
      let va := addrOf i w s c
      windowCheck c x true = .ok () → memWait s c (reachesMemory c va) = .ok () → storeWait s c rel = .ok () →
      (reachesMemory c va = true → streamWait c os.toNat = .ok ()) →
      accessCheck s c .store 4 (fun l => 4 * windowLen c x l) va = .ok () →
      StoreIssued i s c os.toNat (fun l => (va l, (windowRegs c x l).flatMap (fun n => leBytes 4 (readV c.gr n l).toNat)))) ∧
    (∀ i el ls, i = Instr.ste w el os rel →
      Executes i w s c → memWait s c true = .ok () → storeWait s c rel = .ok () → streamWait c os.toNat = .ok () →
      elemCheck s c .store el (addrOf i w s c) = .ok () → (lanesOf c.act).mapM (fun l => steLane i w s c el (addrOf i w s c l) l) = .ok ls →
      OpIssued i s c .store os.toNat (bodyPas (.ste ls (rmodeOf c.t.flags) (ftzOf c.t.flags))))

/-- Atomics issue (R250): the old values return like a load's, the memory lanes are outstanding, and the scratchpad lanes are
performed in ascending order.

The value that an atomic writes (R250). -/
def Obligations.Atomics : Prop :=
  (
    ∀ (w : FWord) (op : AtOp) (os : BitVec 3) (ar : Bool) (s : State) (c : Ctx) (i : Instr) (d : Bool) (ls : List AtLane),
      (i, d) ∈ [(Instr.atom w op os ar, false), (Instr.atomx w op os ar, true)] →
      let va := atomAddr i w s c
      let n := if d then 8 else 4
      let pas := ls.flatMap (fun x => (List.range n).map (x.pa + ·))
      Executes i w s c → memWait s c (reachesMemory c va) = .ok () → storeWait s c ar = .ok () →
      (reachesMemory c va = true → streamWait c os.toNat = .ok ()) → accessCheck s c .store n (fun _ => n) va = .ok () →
      ((lanesOf c.act).filter (fun l => !inScratch (va l))).mapM (atLane i w s c d) = .ok ls →
      pendingOn c.gr pas = [] →
      (∃ u op', exec i s = .next u ∧ look u.loads s.nextId = some op' ∧ op'.kind = .old d ∧ op'.strong = true ∧ op'.acquire = ar ∧
        op'.accs.map (fun a => (a.lane, a.reg)) = (lanesOf c.act).map (fun l => (l, w.dst.toNat)) ∧ u.mem = s.mem ∧
        ∃ t, team u c.id.team = some t ∧ t.scratch = (scratchAtomics i w s c op d c.t (lanesOf c.act)).1.scratch) ∧
      (ls ≠ [] → OpIssued i s c .atomic os.toNat pas)) ∧
  (
    ∀ (a b k : W32),
      atomicNew .add 32 a.toNat b.toNat k.toNat = some (a + b).toNat ∧ atomicNew .exch 32 a.toNat b.toNat k.toNat = some b.toNat ∧
      atomicNew .cas 32 a.toNat b.toNat k.toNat = (if a = k then some b.toNat else none) ∧
      atomicNew .and 32 a.toNat b.toNat k.toNat = some (a &&& b).toNat ∧ atomicNew .or 32 a.toNat b.toNat k.toNat = some (a ||| b).toNat ∧
      atomicNew .xor 32 a.toNat b.toNat k.toNat = some (a ^^^ b).toNat ∧
      atomicNew .min 32 a.toNat b.toNat k.toNat = some (if a.toInt ≤ b.toInt then a else b).toNat ∧
      atomicNew .max 32 a.toNat b.toNat k.toNat = some (if b.toInt ≤ a.toInt then a else b).toNat)

/-- Fences and joins (R63 to R66, R251): each waits for the operations it names; then an acquire drops the L1's words that the core
does not own.

Prefetch and cache maintenance (R252, R253): they change no byte of memory and no register.

Where the spec leaves a point open, this rests on the model's choices: log 10 (a prefetch that finds no translation). -/
def Obligations.FencesAndCacheWords : Prop :=
  (
    ∀ (w : FWord) (s : State) (c : Ctx),
      (Executes (.acq w) w s c →
        ((s.loads.all (fun e => decide (e.2.src ≠ c.id))) = false → Waits (.acq w) s) ∧
        ((s.loads.all (fun e => decide (e.2.src ≠ c.id))) = true → Does (.acq w) w s c (fun _ => {}) (fun u => acquireL1 u c.t.core))) ∧
      (Executes (.rel w) w s c →
        let open_ := c.gr.ops.any (fun e => e.2.kind = .store ∨ e.2.kind = .atomic ∨ e.2.kind = .rmo ∨ e.2.kind = .cflush)
        (open_ = true → Waits (.rel w) s) ∧ (open_ = false → Does (.rel w) w s c (fun _ => {}) id)) ∧
      (Executes (.sjoin w) w s c →
        let m := match w.b with
          | .imm k => k.toNat % 256
          | .sel _ => (laneIn (.sjoin w) w s c (lowest c.act)).a.toNat % 256
        let open_ := c.gr.ops.any (fun e => m.testBit e.2.stream)
        (open_ = true → Waits (.sjoin w) s) ∧ (open_ = false → Does (.sjoin w) w s c (fun _ => {}) id)) ∧
      (∀ k a, look (core (acquireL1 s k) k).l1 a = if (look (core s k).owned (a / 4)).isSome then look (core s k).l1 a else none)) ∧
  (
    ∀ (w : FWord) (l2 : Bool) (s : State) (c : Ctx),
      let plain (i : Instr) : Prop := ∃ u g, exec i s = .next u ∧ group u c.id = some g ∧ u.mem = s.mem ∧
        (∀ n l, l < 32 → readV g n l = readV c.gr n l) ∧ (∀ l, l < 32 → pcOf g l = if c.at_.getLsbD l then c.next else pcOf c.gr l) ∧
        ((i = .cinv w ∨ i = .cflush w) → ∀ ln ∈ linesNamed s c (addrOf i w s c), ∀ a, lineOf a = ln → look (core u c.t.core).l1 a = none) ∧
        (i = .cflush w → linesNamed s c (addrOf i w s c) ≠ [] → ∃ n op, look g.ops n = some op ∧ op.kind = .cflush) ∧
        (i = .pref w l2 → l2 = false → ∀ ln ∈ linesNamed s c (addrOf i w s c), tierOf (128 * ln) ≠ some 3 → ∀ a, lineOf a = ln →
          undelivered s a = false → look (core u c.t.core).l1 a = some (readByte s a))
      (Executes (.pref w l2) w s c → plain (.pref w l2)) ∧
      (Executes (.cinv w) w s c → lineCheck s c (addrOf (.cinv w) w s c) = .ok () → plain (.cinv w)) ∧
      (Executes (.cflush w) w s c → memWait s c true = .ok () → lineCheck s c (addrOf (.cflush w) w s c) = .ok () → plain (.cflush w)))

/-- A store packet arrives at an idle home slice and enters its window (R77, R88); at the window's end exactly its bytes are written,
its core owns their words, and an acknowledgement leaves (R62); the bytes of an engine command's packet are written likewise, no core
owns their words, and the command waits for one packet less (R339).

What a window's end can change in memory (R88): the bytes that its packets write, and no other.

An acknowledgement performs its part of the operation (R61, R75, R231): the last one completes it and MEMQ goes down; a watermark
message raises what its destination knows (R78). -/
def Obligations.StoresArePerformed : Prop :=
  (
    ∀ (s : State) (n : Nat) (p : Pkt) (ws : List StLane) (strong : Bool),
      look s.pkts n = some p → p.body = .store ws strong → p.dest < 256 → isGuest p.src = false → p.parts = 0 →
      (p.held = false → p.after = [] → p.stream = 0 → regionsUp s (pktPath s p) = true → look s.windows p.dest = none →
        s.windows.any (fun e => e.2.contains n) = false → isMoving s (bodyPas p.body) = false → heldAway s (bodyPas p.body) = [] →
        s.pkts.all (fun e => !e.2.held) = true →
        ∃ u, exec (.packetArrival n) s = .next u ∧ look u.windows p.dest = some [n] ∧ get 0 u.windowNo p.dest = s.cycle / 16 ∧ u.mem = s.mem) ∧
      (∀ slice, look s.windows slice = some [n] → get 0 s.windowNo slice < s.cycle / 16 → (∀ x ∈ ws, x.ms = []) →
        ∀ k, p.op = some k →
        ∃ u, exec (.ownershipConflictWindowEnd slice) s = .next u ∧ look u.windows slice = none ∧ look u.pkts n = none ∧
          (∀ a, readByte u a = (((ws.flatMap (·.bytes)).reverse.find? (fun e => e.1 = a)).map (·.2)).getD (readByte s a)) ∧
          (∀ e ∈ ws.flatMap (·.bytes), look u.owner (e.1 / 4) = some (p.core + 1)) ∧
          (∃ j a, look u.acks j = some a ∧ a.src = p.src ∧ a.op = k))) ∧
  (
    ∀ (s : State) (n m slice : Nat) (p : Pkt) (c : Cmd) (es : List EngByte),
      look s.pkts n = some p → p.body = .eng (some m) es → look s.cmds m = some c →
      look s.windows slice = some [n] → get 0 s.windowNo slice < s.cycle / 16 → (∀ e ∈ es, e.ms = false ∧ queuedAt s e.pa = false) →
      (es.map (·.pa)).Nodup →
      ∃ u, exec (.ownershipConflictWindowEnd slice) s = .next u ∧ look u.windows slice = none ∧ look u.pkts n = none ∧
        look u.cmds m = some { c with left := c.left - 1 } ∧
        (∀ e ∈ es, readByte u e.pa = mergeByte (readByte s e.pa) e ∧ look u.owner (e.pa / 4) = none) ∧
        (∀ a, a ∉ es.map (·.pa) → readByte u a = readByte s a)) ∧
  (
    ∀ (s : State) (slice : Nat) (a : Nat),
      (∀ n ∈ (look s.windows slice).getD [], ∀ p, look s.pkts n = some p → a ∉ bodyPas p.body ∧
        ∀ ws rm ftz, p.body = .ste ws rm ftz → ∀ x ∈ ws, fmtBits x.fmt ≤ 16) →
      ∃ u, exec (.ownershipConflictWindowEnd slice) s = .next u ∧ readByte u a = readByte s a) ∧
  (
    ∀ (s : State) (n : Nat),
      (∀ a gr op, look s.acks n = some a → group s a.src = some gr → look gr.ops a.op = some op →
        ∃ u g, exec (.storeAcknowledge n) s = .next u ∧ group u a.src = some g ∧ look u.acks n = none ∧ u.mem = s.mem ∧
          (2 ≤ op.left → look g.ops a.op = some { op with left := op.left - 1 } ∧ g.memq = gr.memq) ∧
          (op.left ≤ 1 → look g.ops a.op = none ∧ g.memq = gr.memq - (if op.counted then 1 else 0))) ∧
      (∀ m, look s.wms n = some m → m.dest < 256 → regionsUp s (wmPath s m) = true → (∀ e ∈ s.pkts, e.2.held = false) →
        ∃ u, exec (.watermarkMessage n) s = .next u ∧ look u.wms n = none ∧ u.mem = s.mem ∧
          (isGuest m.src = true → (commitOf u m.dest m.src m.stream).wm = wmMax (commitOf s m.dest m.src m.stream).wm m.wm) ∧
          (isGuest m.src = false → u.pkts = s.pkts.map (fun e => (e.1, if e.2.dest = m.dest ∧ e.2.src = m.src ∧ e.2.stream = m.stream
            then { e.2 with wm := seqMax m.wm e.2.wm } else e.2)))))

/-- Invalidations by a lane and page probes (R517, R518).

Walks, replies and invalidations (R503 to R506, R510, R511, R517): a walk through five tables finds the leaf of the 64 KiB page; a walk
that finds its leaf sets A, and D for a write, and fills the TLBs; one that fails becomes a translation fault with its record; a retry
ends the fault, a decline gives its waiters the cause; an invalidation removes the translations and clears BUSY when its accesses are done.

Where the spec leaves a point open, this rests on the model's choices: log 16 (a level-4 table outside the DRAM tiers). -/
def Obligations.Translation : Prop :=
  (
    ∀ (w : FWord) (ctx ca : Bool) (s : State) (c : Ctx),
      (Executes (.tlbinv w ctx) w s c →
        let va := (laneIn (.tlbinv w ctx) w s c (lowest c.act)).a
        (relDone c.gr = false → Waits (.tlbinv w ctx) s) ∧
        (relDone c.gr = true → ctx = true ∨ va.toNat < 2 ^ 57 →
          ∃ u g v, exec (.tlbinv w ctx) s = .next u ∧ group u c.id = some g ∧ u.mem = s.mem ∧
            look u.invals s.nextId = some v ∧ v.ctx = c.t.launch.ctx ∧ v.src = some c.id ∧
            (∀ k e, e ∈ (core u k).tlb → e.ctx = c.t.launch.ctx → ctx = false))) ∧
      (Executes (.pgacc w ca) w s c →
        (∀ l ∈ lanesOf c.act, (laneIn (.pgacc w ca) w s c l).a.toNat < 2 ^ 57) →
        ∃ u, Computes (.pgacc w ca) w s c (fun l => { val := pgaccWord s c.t.launch.ctx (laneIn (.pgacc w ca) w s c l).a }) u ∧
          exec (.pgacc w ca) s = .next (if ca then (lanesOf c.act).foldl (fun u l =>
            pgaccClear u c.t.launch.ctx (laneIn (.pgacc w ca) w s c l).a) u else u))) ∧
  (
    (∀ (s : State) (ctx : Nat) (va : W64),
      let dw0 := read64 s (ctxEntry s ctx)
      let a4 := fieldN dw0 12 40 * 4096
      let down (e : W64) : Nat := fieldN e 8 44 * 256
      let e4 := read64 s (a4 + 8 * fieldN va 48 9)
      let e3 := read64 s (down e4 + 8 * fieldN va 39 9)
      let e2 := read64 s (down e3 + 8 * fieldN va 30 9)
      let e1 := read64 s (down e2 + 8 * fieldN va 21 9)
      let e0 := read64 s (down e1 + 8 * fieldN va 16 5)
      let pointer (e : W64) : Prop := e.getLsbD 63 = true ∧ e.getLsbD 62 = false ∧ e &&& 0x7FF00000000000FF = 0 ∧ local01 (down e) = true
      (dw0.getLsbD 63 = false → walkPage s ctx va = .bad 0x54 1 dw0) ∧
      (dw0.getLsbD 63 = true → local01 a4 = true → e4.getLsbD 63 = false → walkPage s ctx va = .bad 0x50 1 e4) ∧
      (dw0.getLsbD 63 = true → local01 a4 = true → pointer e4 → pointer e3 → pointer e2 → pointer e1 →
        (∀ e ∈ [e4, e3, e2], down e % 4096 = 0) → e0.getLsbD 63 = true →
        (e0.getLsbD 62 = true → leafBad s e0 0 = none → walkPage s ctx va = .leaf e0 16 (down e1 + 8 * fieldN va 16 5)) ∧
        (e0.getLsbD 62 = false → e0 &&& 0x7FF00000000000FF = 0 → walkPage s ctx va = .bad 0x53 2 e0))) ∧
    (∀ (s : State) (n : Nat) (k : Walk), look s.walks n = some k → tierOf (ctxEntry s k.ctx) ≠ none →
      (∀ e size a, walkPage s k.ctx k.va = .leaf e size a → (k.kind = .fetch → leafX e = true) → (isWriteKind k.kind = true → leafW e = true) →
        ∃ u, exec (.pageWalk n) s = .next u ∧ look u.walks n = none ∧ u.teams = s.teams ∧
          let e' := e ||| 0x80 ||| (if isWriteKind k.kind then 0x40 else 0)
          read64 u a = e' ∧ (∀ b, b < a ∨ a + 8 ≤ b → readByte u b = readByte s b) ∧
          ((look u.l2tlb (dieTlb k.core)).getD []).head? = some { ctx := k.ctx, size, vpn := k.va.toNat / 2 ^ size, leaf := e' } ∧
          (k.core < 576 → tlbLook u k.core k.ctx k.va = some { ctx := k.ctx, size, vpn := k.va.toNat / 2 ^ size, leaf := e' })) ∧
      (∀ cause detail e, (walkPage s k.ctx k.va = .bad cause detail e ∨
          (∃ size a, walkPage s k.ctx k.va = .leaf e size a ∧ rightFault k.kind e = some (cause, detail))) →
        (∀ x ∈ s.tfaults, ¬ (x.2.ctx = k.ctx ∧ x.2.page = pageOf k.va)) → s.tfaults.length < 4096 → (host s (hostOf k.ctx)).fqEnable = false →
        ∃ u j, exec (.pageWalk n) s = .next u ∧ look u.walks n = none ∧ look s.tfaults j = none ∧ u.mem = s.mem ∧ u.teams = s.teams ∧
          look u.tfaults j = some { ctx := k.ctx, page := pageOf k.va, kind := k.kind, cause, detail, waiters := k.waiters } ∧
          (host u (hostOf k.ctx)).waiting = (host s (hostOf k.ctx)).waiting ++
            [hostWords k.ctx (kindCode k.kind) detail cause true k.va (BitVec.ofNat 64 j) e])) ∧
    (∀ (s : State) (j : Nat) (f : TFault), look s.tfaults j = some f →
      exec (.fqreplyRetry (hostOf f.ctx) j) s = .next { noteSlots s f.waiters with tfaults := del s.tfaults j } ∧
      ∃ u, exec (.fqreplyDecline (hostOf f.ctx) j) s = .next u ∧ look u.tfaults j = none ∧ u.mem = s.mem ∧ u.teams = s.teams ∧
        ∀ w ∈ f.waiters, ∀ c k va, pageOf va = f.page → (∀ d ∈ s.declined, ¬ (d.waiter = w ∧ d.ctx = f.ctx ∧ d.page = f.page)) →
          translate u c f.ctx k w va = .bad f.cause f.detail) ∧
    (∀ (s : State) (h : Nat) (v : W64), v.getLsbD 0 = true →
      let began (u : State) (page : Option Nat) : Prop := u.mem = s.mem ∧ u.teams = s.teams ∧ (host u h).invctl = v &&& ~~~0x7C#64 ∧
        ∃ x, look u.invals s.nextId = some x ∧ x.ctx = fieldN v 48 16 ∧ x.page = page ∧ x.host = some h
      (v.getLsbD 1 = false → (host s h).invctl.getLsbD 0 = true → exec (.invctlPage h v) s = .next s) ∧
      (v.getLsbD 1 = false → (host s h).invctl.getLsbD 0 = false →
        ∃ u, exec (.invctlPage h v) s = .next u ∧ began u (some (fieldN v 7 41)) ∧
          ∀ c e, e ∈ (core u c).tlb ↔ e ∈ (core s c).tlb ∧ ¬ (e.ctx = fieldN v 48 16 ∧ e.vpn = fieldN v 7 41 * 65536 / 2 ^ e.size)) ∧
      (v.getLsbD 1 = true → (host s h).invctl.getLsbD 0 = true → exec (.invctlContext h v) s = .next s) ∧
      (v.getLsbD 1 = true → (host s h).invctl.getLsbD 0 = false →
        ∃ u, exec (.invctlContext h v) s = .next u ∧ began u none ∧
          ∀ c e, e ∈ (core u c).tlb ↔ e ∈ (core s c).tlb ∧ e.ctx ≠ fieldN v 48 16)) ∧
    (∀ (s : State) (n : Nat) (v : Inval), look s.invals n = some v →
      ((∃ k, k ∈ v.loads ∧ look s.loads k ≠ none) → exec (.invalidationComplete n) s = .next s) ∧
      ((∀ k ∈ v.loads, look s.loads k = none) → (∀ k ∈ v.pkts, look s.pkts k = none ∧ look s.fab.away k = none) →
        ∃ u, exec (.invalidationComplete n) s = .next u ∧ look u.invals n = none ∧ u.mem = s.mem ∧ u.teams = s.teams ∧
          ∀ h, v.host = some h → (host u h).invctl = (host s h).invctl &&& ~~~1#64)))

/-! The lead unit and the register gateways. -/

/-- The uniform queue (R265, R266): a push stalls while some live group has all 64 entries unpopped; otherwise the entry stands at the
write pointer modulo 64, and the pointer counts modulo 128. Once every group has ended a push is discarded (R273).

The decision queues (R268, R183, R153): a push of one value to one group or to all live groups, and its take in order; a take from
an empty queue waits, and faults with QUEUE_EMPTY 1 once the lead has ended. -/
def Obligations.Queues : Prop :=
  (
    ∀ (w : FWord) (d : Bool) (s : State) (c : Ctx) (i : Instr) (e : UqEntry),
      (i = .qpush w d ∧ (∀ k, w.b = .imm k → e = .uniform (BitVec.ofInt 64 k.toInt)) ∧
          (∀ x, w.b = .sel x → e = .uniform (laneIn i w s c 0).a)) ∨
        (i = .qpusha w ∧ e = .affine (laneIn i w s c 0).a (laneIn i w s c 0).b) →
      Executes i w s c →
      let full : Prop := ∃ g gr, g < groupCount c.t ∧ look c.t.groups g = some gr ∧ gr.live ≠ 0 ∧ c.t.uqWrite - gr.uqRead = 64
      (full → Waits i s) ∧
      (¬ full → ∃ u t, exec i s = .next u ∧ team u c.id.team = some t ∧ u.mem = s.mem ∧
        (groupsEnded c.t = true → t.uq = c.t.uq ∧ t.uqWrite = c.t.uqWrite) ∧
        (groupsEnded c.t = false → look t.uq (c.t.uqWrite.toNat % 64) = some e ∧ t.uqWrite = c.t.uqWrite + 1 ∧
          ∀ k, k ≠ c.t.uqWrite.toNat % 64 → look t.uq k = look c.t.uq k))) ∧
  (
    ∀ (w : FWord) (all : Bool) (pd : Option (BitVec 3)) (s : State) (c : Ctx),
      (Executes (.dqpush w all) w s c →
        let gs := dqGroups (.dqpush w all) w s c all
        let v := lo (laneIn (.dqpush w all) w s c 0).a
        ((∃ g ∈ gs, (∀ k, gs.head? = some k → k = g) ∧ groupCount c.t ≤ g) → ∃ x, Traps (.dqpush w all) s 0x60 x c.act 0) ∧
        ((∀ g ∈ gs, g < groupCount c.t) → (∃ g ∈ gs, dqRoom c.t g = false) → Waits (.dqpush w all) s) ∧
        ((∀ g ∈ gs, g < groupCount c.t ∧ dqRoom c.t g = true) → gs.Nodup → c.id.g = 32 →
          ∃ u t, exec (.dqpush w all) s = .next u ∧ team u c.id.team = some t ∧ u.mem = s.mem ∧
            ∀ g gr, look c.t.groups g = some gr → g ≠ 32 →
              (look t.groups g).map (·.dq) = some (if g ∈ gs ∧ gr.live ≠ 0 then gr.dq ++ [v] else gr.dq))) ∧
      (Issues (.dqtake w pd) w s c →
        (∀ x rest, c.gr.dq = x :: rest →
          ∃ u g, Computes (.dqtake w pd) w s c (fun _ => { val := zx x, pd := some (x != 0) }) u ∧
            exec (.dqtake w pd) s = .next (updGroup u c.id (fun gr => { gr with dq := rest })) ∧ group u c.id = some g) ∧
        (c.gr.dq = [] → leadEnded c.t = true → Traps (.dqtake w pd) s 0x0D 1 c.act 0) ∧
        (c.gr.dq = [] → leadEnded c.t = false → Waits (.dqtake w pd) s)))

/-- The lead's branch, waits and clock (R278, R280): a wait whose condition holds goes on at once.

The dictionary load (R271, R281): its range is judged first, is busy from its first issue, and is written at a later one, when
every doubleword can be read; the other entries keep their values.

Where the spec leaves a point open, this rests on the model's choices: log 14 and 16. -/
def Obligations.LeadWords : Prop :=
  (
    ∀ (w : FWord) (k : BrcKind) (bar : Option (BitVec 4)) (s : State) (c : Ctx),
      (Executes (.brc w k) w s c →
        let tgt := if w.b.isImm then immTarget c.pc w.b else (laneIn (.brc w k) w s c 0).a
        (w.b.isImm = true ∨ (tgt.toNat < 2 ^ 57 ∧ tgt.toNat % 8 = 0) →
          Does (.brc w k) w s c (fun _ => { val := c.next }) (fun u => updGroup u c.id (fun g => setPcs g c.act (fun _ => tgt)))) ∧
        (w.b.isImm = false → ¬ (tgt.toNat < 2 ^ 57 ∧ tgt.toNat % 8 = 0) → Traps (.brc w k) s 0x0E 0 c.act 0)) ∧
      (Executes (.lwait w none) w s c →
        let v := (laneIn (.lwait w none) w s c 0).a
        (v.toNat ≤ c.t.timer → Does (.lwait w none) w s c (fun _ => {}) id) ∧
        (c.t.timer < v.toNat → Does (.lwait w none) w s c (fun _ => {}) (fun u =>
          updGroup u c.id (fun g => waitLanes g 1 c.pc (.timer v c.next))))) ∧
      (∀ n, Executes (.lwait w (some n)) w s c →
        let gen := ((look c.t.bars n.toNat).getD {}).gen
        let isOver := groupsEnded c.t = true ∨ gen ≠ (laneIn (.lwait w (some n)) w s c 0).a.setWidth 16
        (isOver → srcLoads s c.id = [] → Does (.lwait w (some n)) w s c (fun _ => {}) (fun u => acquireL1 u c.t.core)) ∧
        (¬ isOver ∨ srcLoads s c.id ≠ [] → Waits (.lwait w (some n)) s)) ∧
      (Executes (.ltime w bar) w s c →
        Does (.ltime w bar) w s c (fun _ => { val := match bar with
          | none => BitVec.ofNat 64 c.t.timer
          | some n => BitVec.ofNat 64 ((look c.t.bars n.toNat).getD {}).gen.toNat }) id) ∧
      (∀ tm t l v next, team s tm = some t → look t.groups 32 = some l → look l.wait 0 = some (.timer v next) → v.toNat ≤ t.timer →
        t.status = .resident →
        ∃ u l', exec (.lwaitTimerReached tm) s = .next u ∧ group u ⟨tm, 32⟩ = some l' ∧ look l'.wait 0 = none ∧ pcOf l' 0 = next ∧
          u.mem = s.mem)) ∧
  (
    ∀ (w : FWord) (s : State) (c : Ctx), Executes (.dictld w) w s c →
      let x := laneIn (.dictld w) w s c 0
      let first := (lo x.b).toNat
      let n := (lo x.c).toNat
      let lines := linesMissing s ((List.range n).flatMap (dictBytes s c x.a))
      let ready := dictWaits s c x.a n = false
      (n = 0 → Does (.dictld w) w s c (fun _ => {}) id) ∧
      (n ≠ 0 → 1024 < first + n → Traps (.dictld w) s 0x61 0 c.act 0) ∧
      (n ≠ 0 → dictCheck s c x.a first n = .ok () → c.t.dictBusy = none →
        exec (.dictld w) s = .next (updTeam s c.id.team (fun t => { t with dictBusy := some (first, n) }))) ∧
      (n ≠ 0 → dictCheck s c x.a first n = .ok () → c.t.dictBusy ≠ none → lines = [] → ready → dictBad s c x.a n = none →
        ∃ u t g, exec (.dictld w) s = .next u ∧ team u c.id.team = some t ∧ look t.groups c.id.g = some g ∧ t.dictBusy = none ∧
          (∀ k, k < n → get 0x8000000000000000 t.dict (first + k) = weakDword s c (x.a + BitVec.ofNat 64 (8 * k))) ∧
          (∀ k, k < first ∨ first + n ≤ k → get 0x8000000000000000 t.dict k = get 0x8000000000000000 c.t.dict k) ∧
          (∀ l, l < 32 → pcOf g l = if c.at_.getLsbD l then c.next else pcOf c.gr l) ∧ u.mem = s.mem) ∧
      (n ≠ 0 → dictCheck s c x.a first n = .ok () → c.t.dictBusy ≠ none → lines = [] → ready → ∀ e, dictBad s c x.a n = some e → isLead c.id = true →
        c.gr.inTrap = false → c.t.trapBase ≠ 0 →
        ∃ u t g, exec (.dictld w) s = .next u ∧ team u c.id.team = some t ∧ look t.groups c.id.g = some g ∧ t.dict = c.t.dict ∧
          g.inTrap = true ∧ g.tcause = 0x42 ∧ g.taddr = e.addr))

/-- Minting (R284 to R286, R306): the capability holds its fields and the check code of the group that holds the handle; a group keeps
its handle, and a fresh one raises the entry's generation.

Where the spec leaves a point open, this rests on the model's choices: log 7 (the check code is a free function) and 10 (which free handle is taken). -/
def Obligations.CapabilitiesAreMinted : Prop :=
  ∀ (w : FWord) (snd eng : Bool) (s : State) (c : Ctx), Executes (.capmk w snd eng) w s c →
    let b := (lo (laneIn (.capmk w snd eng) w s c (lowest c.act)).a).toNat
    let n := (lo (laneIn (.capmk w snd eng) w s c (lowest c.act)).b).toNat
    (snd = false → eng = false → Traps (.capmk w snd eng) s 0x73 2 c.act 0) ∧
    ((snd = true ∨ eng = true) →
      (n = 0 ∨ 64 < n → Traps (.capmk w snd eng) s 0x73 1 c.act 0) ∧
      (1 ≤ n → n ≤ 64 → 256 < b + n → Traps (.capmk w snd eng) s 0x73 3 c.act 0) ∧
      (1 ≤ n → n ≤ 64 → b + n ≤ 256 → handleFor s c.id c.gr = none → Traps (.capmk w snd eng) s 0x74 0 c.act 0) ∧
      (1 ≤ n → n ≤ 64 → b + n ≤ 256 → ∀ h e, handleFor s c.id c.gr = some (h, e) → h < 16384 → c.dev < 1024 →
        ∃ cap, Does (.capmk w snd eng) w s c (fun _ => { val := cap }) (fun u =>
            updGroup { u with handles := put u.handles h e } c.id (fun g => { g with handle := some h })) ∧
          capDev cap = c.dev ∧ capHandle cap = h ∧ capGen cap = e.gen ∧ capBase cap = b ∧ capCount cap = n ∧
          cap.getLsbD 28 = snd ∧ cap.getLsbD 29 = eng ∧ capCheck cap = checkOf s cap c.t c.id.g ∧
          (∀ k, c.gr.handle = some k → h = k ∧ e = (look s.handles k).getD {}) ∧
          (c.gr.handle = none → e.holder = some c.id ∧ e.gen = ((look s.handles h).getD {}).gen + 1)))

/-- R307: CAPRV raises the generation of the group's handle: every capability minted before fails, the handle is kept, and later
capabilities have the new generation; without a handle it has no effect. -/
def Obligations.RevocationRaisesTheGeneration : Prop :=
  ∀ (w : FWord) (s : State) (c : Ctx), Executes (.caprv w) w s c →
    (c.gr.handle = none → Does (.caprv w) w s c (fun _ => {}) id) ∧
    (∀ n e, c.gr.handle = some n → look s.handles n = some e →
      ∃ u g, exec (.caprv w) s = .next u ∧ group u c.id = some g ∧ g.handle = some n ∧
        look u.handles n = some { e with gen := BitVec.ofNat 8 ((e.gen.toNat + 1) % 256) } ∧
        (∀ cap eng, capHandle cap = n → capGen cap = e.gen → ∃ x, capTest u cap eng = .error x) ∧
        handleFor u c.id g = some (n, { e with gen := e.gen + 1 }))

/-- Arming and disarming windows (R288, R300, R308, R309).

Register sends (R302, R311, R312): the checks of the capability and of the direction, and the packets that leave.

A send commits at its gateway (R292): each accepted lane's register gets the value, is disarmed and loses its ERR mark; a refused
lane changes nothing; the packet is gone. -/
def Obligations.WindowsAndSends : Prop :=
  (
    ∀ (w : FWord) (acq nbr : Bool) (s : State) (c : Ctx),
      (∀ i ∈ [Instr.rarm w acq nbr, Instr.rdisarm w], Executes i w s c →
        let b := (windowOf i w s c).1
        let n := (windowOf i w s c).2
        (n = 0 ∨ 64 < n → Traps i s 0x73 1 c.act 0) ∧
        (1 ≤ n → n ≤ 64 → c.gr.alloc < b + n → Traps i s 0x08 (max b c.gr.alloc) c.act 0)) ∧
      (Executes (.rarm w acq nbr) w s c →
        let b := (windowOf (.rarm w acq nbr) w s c).1
        let n := (windowOf (.rarm w acq nbr) w s c).2
        let port := 4 * c.t.core + w.dst.toNat % 4
        1 ≤ n → n ≤ 64 → b + n ≤ c.gr.alloc →
        (∀ k, nbr = true → look s.claims port = some k → k.id ≠ c.id → Traps (.rarm w acq nbr) s 0x77 1 c.act 0) ∧
        (∀ k, nbr = true → look s.claims port = some k → k.id = c.id → ¬ (k.base = b ∧ k.count = n) →
          Traps (.rarm w acq nbr) s 0x77 2 c.act 0) ∧
        ((∀ k, nbr = true → look s.claims port = some k → k.id = c.id ∧ k.base = b ∧ k.count = n) →
          ∃ u g, exec (.rarm w acq nbr) s = .next u ∧ group u c.id = some g ∧ u.mem = s.mem ∧
            (∀ r l, l < 32 → get {} g.arm (32 * r + l) = if c.act.getLsbD l ∧ b ≤ r ∧ r < b + n
              then { armed := true, acq, kind := if nbr then BitVec.ofNat 3 (4 + w.dst.toNat % 4) else 0 } else get {} c.gr.arm (32 * r + l)) ∧
            (∀ r l, l < 32 → readV g r l = readV c.gr r l) ∧
            (nbr = true → look u.claims port = some { id := c.id, base := b, count := n, ctx := c.t.launch.ctx }) ∧
            (nbr = false → u.claims = s.claims))) ∧
      (Executes (.rdisarm w) w s c →
        let b := (windowOf (.rdisarm w) w s c).1
        let n := (windowOf (.rdisarm w) w s c).2
        1 ≤ n → n ≤ 64 → b + n ≤ c.gr.alloc →
          ∃ u g, exec (.rdisarm w) s = .next u ∧ group u c.id = some g ∧ u.mem = s.mem ∧
            (∀ r l, l < 32 → get {} g.arm (32 * r + l) = if c.act.getLsbD l ∧ b ≤ r ∧ r < b + n then {} else get {} c.gr.arm (32 * r + l)) ∧
            (∀ k x, sorted s.claims = true → (look u.claims k = some x ↔
              look s.claims k = some x ∧ ¬ (x.id = c.id ∧ b ≤ x.base ∧ x.base < b + n)))) ∧
      (Executes (.rpend w) w s c →
        Does (.rpend w) w s c (fun l => resBits (fun k =>
          let r := (lo (laneIn (.rpend w) w s c l).a).toNat + k
          decide (r < c.gr.alloc) && (get {} c.gr.arm (32 * r + l)).armed)) id)) ∧
  (
    ∀ (w : FWord) (d : Bool) (dir : Dir) (os : BitVec 3) (s : State) (c : Ctx),
      (Executes (.sendr w d os) w s c →
        let x := laneIn (.sendr w d os) w s c
        let off (l : Nat) := (lo (x l).b).toNat
        ((∃ l ∈ lanesOf c.act, (x l).a.getLsbD 28 = false ∨ capCount (x l).a < off l + (if d then 2 else 1)) →
          ∃ detail lanes, Traps (.sendr w d os) s 0x72 detail lanes 0) ∧
        ((∀ l ∈ lanesOf c.act, (x l).a.getLsbD 28 = true ∧ off l + (if d then 2 else 1) ≤ capCount (x l).a ∧ capPeerFault s (x l).a = none) →
          sendWait s c os.toNat = .ok () →
          OpIssued (.sendr w d os) s c .send os.toNat [] ∧
          ∃ u, exec (.sendr w d os) s = .next u ∧ ∀ l ∈ lanesOf c.act, ∃ n p ls, look u.pkts n = some p ∧ p.src = c.id ∧ p.op = some s.nextId ∧
            p.dest = capDest s (x l).a ∧ p.stream = os.toNat ∧ p.body = .send (.cap (x l).a) d false ls ∧
            { lane := l, off := lo (x l).b, val := (x l).c } ∈ ls)) ∧
      (Executes (.sendn w dir os) w s c →
        let x := laneIn (.sendn w dir os) w s c
        (neighbour c.t.core dir = none → Traps (.sendn w dir os) s 0x75 dir.ctorIdx c.act 0) ∧
        (∀ k, neighbour c.t.core dir = some k → sendWait s c os.toNat = .ok () → 8 ≤ linkBusy s k (arrivesFrom dir) → Waits (.sendn w dir os) s) ∧
        (∀ k, neighbour c.t.core dir = some k → sendWait s c os.toNat = .ok () → linkBusy s k (arrivesFrom dir) < 8 →
          OpIssued (.sendn w dir os) s c .send os.toNat [] ∧
          ∃ u n p, exec (.sendn w dir os) s = .next u ∧ look u.pkts n = some p ∧ p.src = c.id ∧ p.dest = portDest s k (arrivesFrom dir) ∧
            p.body = .send (.port k (arrivesFrom dir) c.t.launch.ctx) false false
              ((lanesOf c.act).map (fun l => { lane := l, off := lo (x l).b, val := zx (lo (x l).c) }))))) ∧
  (
    ∀ (s : State) (n : Nat) (p : Pkt) (t : Target) (ls : List SendLane) (l : Landing) (tm : Team) (gr : Group),
      look s.pkts n = some p → p.held = true → committable s n p = true → p.body = .send t false false ls → isGuest p.src = false →
      landing s t false = .ok l → team s l.id.team = some tm → look tm.groups l.id.g = some gr → tm.status = .resident →
      (∀ x ∈ ls, x.lane < 32) → (ls.map (·.lane)).Nodup →
      ∃ u g, exec (.sendCommit n) s = .next u ∧ group u l.id = some g ∧ look u.pkts n = none ∧ u.mem = s.mem ∧
        (∀ x ∈ ls, laneRefusal gr l [(x.off.toNat, lo x.val)] x.lane = none →
          readV g (l.base + x.off.toNat) x.lane = lo x.val ∧ get {} g.arm (32 * (l.base + x.off.toNat) + x.lane) = {} ∧
          look g.err (32 * (l.base + x.off.toNat) + x.lane) = none) ∧
        (∀ x ∈ ls, laneRefusal gr l [(x.off.toNat, lo x.val)] x.lane ≠ none → ∀ r, readV g r x.lane = readV gr r x.lane) ∧
        (∀ r k, k < 32 → (∀ x ∈ ls, x.lane ≠ k) → readV g r k = readV gr r k))

/-! The copy engine, tags and sweeps. -/

/-- The words that enqueue engine commands (R322, R323, R343, R416): when every lane's record is good and has room, each executing lane's
command is in the queue and the lanes have moved on; when some have no room yet, those before them in lane order are enqueued and the
lanes stay; a bad record faults and nothing is enqueued.

Where the spec leaves a point open, this rests on the model's choices: log 14 (the order of a record's checks) and 16. -/
def Obligations.EngineWordsEnqueueCommands : Prop :=
  ∀ (w : FWord) (s : State) (c : Ctx) (i : Instr) (bad : Nat → Option (Nat × Nat)) (cmd : Nat → Cmd),
    (i, bad, cmd) ∈
      ([(.cpy w, 0), (.cpyg w, 1), (.cpym w, 2), (.cpypf w, 3)].map (fun (e : Instr × Nat) =>
        (e.1, (fun l => copyFault s c e.2 (copyOff e.1 w s c l) (copyIdx e.1 w e.2 s c l)),
          fun l => blockCmd c e.2 (copyOff e.1 w s c l) (copyIdx e.1 w e.2 s c l) l))) ++
      [(Instr.sweep w, (fun l => sweepFault c (lo (laneIn (.sweep w) w s c l).a).toNat),
        fun l => sweepCmd c (lo (laneIn (.sweep w) w s c l).a).toNat l)] →
    Executes i w s c → c.gr.enq = [] → storeWait s c false = .ok () →
    let cs := (lanesOf c.act).map cmd
    ((∀ l ∈ lanesOf c.act, bad l = none) → (enqueueAll c.gr.ord s cs).2 = [] →
      ∃ u g, exec i s = .next u ∧ group u c.id = some g ∧ g.enq = [] ∧ u.mem = s.mem ∧
        (∀ n l, l < 32 → readV g n l = readV c.gr n l) ∧
        (∀ l, l < 32 → pcOf g l = if c.at_.getLsbD l then c.next else pcOf c.gr l) ∧
        ∀ l ∈ lanesOf c.act, ∃ n x, look u.cmds n = some x ∧ x.src = c.id ∧ x.lane = l ∧ x.body = (cmd l).body ∧ x.tag = (cmd l).tag ∧
          x.stream = (cmd l).stream ∧ x.started = false) ∧
    ((∀ l ∈ lanesOf c.act, bad l = none) → (enqueueAll c.gr.ord s cs).2 ≠ [] →
      ∃ u g e, exec i s = .next u ∧ group u c.id = some g ∧ g.enq = [e] ∧ e.pc = c.pc ∧ e.left = (enqueueAll c.gr.ord s cs).2 ∧
        u.mem = s.mem ∧ ∀ l, pcOf g l = pcOf c.gr l) ∧
    ((∃ l ∈ lanesOf c.act, bad l ≠ none) → ∃ cause detail lanes, Traps i s cause detail lanes 0)

/-- A copy command's run (R324, R325, R329): the start resolves it or ends it by a fault, and asks for leave above 64 KiB; each chunk
advances it by one.

A chunk's writes leave for the home slices in packets of the command, which carry elements and block scales of its destination
positions and no other byte (R329, R339); memory changes when the slices perform them.

Completion (R315, R337, R338): a command that has ended leaves the queue, its tag is no longer busy and is set unless it
faulted, its FLAGS are collected, its operation is performed, and a fault leaves a record on its way to the ring.

The follow-on of a CPYM (R335): after its last chunk, with room in the queue and the tag free, the described matrix command stands
at the end of the queue.

Where the spec leaves a point open, this rests on the model's choices: log 16. -/
def Obligations.CopyCommands : Prop :=
  (
    ∀ (s : State) (n : Nat) (c : Cmd) (q : CopyCmd), look s.cmds n = some c → c.body = .copy q → c.fault = none → cmdResident s c = true →
      (c.started = false → cmdMayStart s c = true →
        (∀ u, startCopy s n c q = .ok u → exec (.copyStart n) s = .next u ∧ u.mem = s.mem ∧
          ∃ x q', look u.cmds n = some x ∧ x.started = true ∧ x.body = .copy q' ∧ x.leave = if 65536 < copyBytes q' then .wanted else .granted) ∧
        (∀ f, startCopy s n c q = .error (.fault f) →
          ∃ u, exec (.copyStart n) s = .next u ∧ look u.cmds n = some { c with fault := some f } ∧ u.mem = s.mem)) ∧
      (c.started = true → c.leave = .granted → c.left = 0 → q.chunk < chunks q → q.kind ≠ 3 →
        (∀ u, runChunk s n c q = .ok u → exec (.copyChunk n) s = .next (endTransit u n q) ∧
          ∃ x, look (endTransit u n q).cmds n = some x ∧ x.body = .copy { q with chunk := q.chunk + 1, transit := [] }) ∧
        (∀ f, runChunk s n c q = .error (.fault f) →
          ∃ u, exec (.copyChunk n) s = .next u ∧ u.mem = s.mem ∧
            look u.cmds n = some { c with fault := some { f with extra := BitVec.ofNat 64 q.chunk }, body := .copy { q with transit := [] } }))) ∧
  (
    ∀ (s : State) (n : Nat) (c : Cmd) (q : CopyCmd), look s.cmds n = some c → c.body = .copy q → q.kind ≠ 3 →
      ∃ u, exec (.copyChunk n) s = .next u ∧ u.mem = s.mem ∧
        ∀ k p, look u.pkts k = some p → look s.pkts k = some p ∨
          (p.src = c.src ∧ p.core = c.core ∧ p.stream = c.stream ∧ p.seq = c.seq ∧ ∃ ws, p.body = .eng (some n) ws ∧
            ∀ b ∈ ws, p.dest = homeSlice b.pa ∧ ∃ cs ∈ chunkPositions q, ∃ e, elemLoc s n c .engWrite q.dst (dstCoords q cs) = .ok e ∧
              ∃ l ∈ e.bytes ++ e.scale.toList, l = .mem b.pa ∨ l = .side b.pa)) ∧
  (
    ∀ (s : State) (n : Nat) (c : Cmd) (t : Team) (gr : Group), look s.cmds n = some c → team s c.src.team = some t →
      look t.groups c.src.g = some gr → c.stat = none → t.status = .resident →
      (∃ q, c.body = .copy q ∧ (c.fault ≠ none ∨ (c.started = true ∧ chunks q ≤ q.chunk ∧ c.left = 0 ∧ (q.kind ≠ 2 ∨ q.handed = true)))) →
      ∃ u t' g, exec (.copyComplete n) s = .next u ∧ look u.cmds n = none ∧ team u c.src.team = some t' ∧ look t'.groups c.src.g = some g ∧
        t'.flags = t.flags ||| c.flags ∧ g.copyq = gr.copyq - 1 ∧ (∀ o, c.op = some o → look g.ops o = none) ∧ u.mem = s.mem ∧
        (∀ k, c.tag = some k → k < t.launch.tagn → t.launch.tagbase + t.launch.tagn ≤ 64 →
          (busyOf u t').getLsbD k = false ∧ (tagsOf u t').getLsbD k = (c.fault.isNone)) ∧
        (∀ f, c.fault = some f → ∃ j r, look u.recs j = some r ∧ r.team = c.src.team ∧ r.words[1]? = some f.addr ∧ r.words[3]? = some f.extra)) ∧
  (
    ∀ (s : State) (n : Nat) (c : Cmd) (q : CopyCmd) (t : Team), look s.cmds n = some c → c.body = .copy q → q.kind = 2 → q.handed = false →
      c.fault = none → c.started = true → chunks q ≤ q.chunk → c.left = 0 → cmdResident s c = true → team s c.src.team = some t →
      group s c.src ≠ none → n < s.nextId →
      (matFault t (q.fkind - 1) q.farg.toNat (BitVec.ofNat 64 q.dst.base) = none → (queueOf (arrayOf s c.core) c.src).length < 4 →
        tagFree s c.src.team (followOn c q).tag = true →
        ∃ u k x, exec (.cpymHandover n) s = .next u ∧ queueOf (arrayOf u c.core) c.src = queueOf (arrayOf s c.core) c.src ++ [k] ∧
          look u.cmds k = some x ∧ x.body = .mat { member := q.fkind - 1, desc := q.farg, addr := BitVec.ofNat 64 q.dst.base } ∧
          (look u.cmds n).map (·.body) = some (.copy { q with handed := true }) ∧ u.mem = s.mem) ∧
      (∀ cause detail, matFault t (q.fkind - 1) q.farg.toNat (BitVec.ofNat 64 q.dst.base) = some (cause, detail) →
        ∃ u j r, exec (.cpymHandover n) s = .next u ∧ look u.recs j = some r ∧ r.team = c.src.team ∧
          (look u.cmds n).map (·.body) = some (.copy { q with handed := true }) ∧ u.mem = s.mem))

/-- The tag words (R316, R317, R344): the masks that the team's tags give them, the waits, and what they clear; a tag that a completion
of this cycle has set stays, since TCLR and TFFR act before it.

A sweep's start (R417, R418): with every page of its ranges translated it asks for leave, a page that fails ends it, and with
leave its ranges leave the L2 and it begins.

A sweep's result (R419 to R423): its bytes leave for the home slices of RES; when they are performed the command ends and its flags are
collected; a sum of integers is the exact sum, clamped into 64 bits with SAT.

Where the spec leaves a point open, this rests on the model's choices: log 16 and 18. -/
def Obligations.TagsAndSweeps : Prop :=
  (
    ∀ (w : FWord) (s : State) (c : Ctx) (i : Instr), i ∈ [Instr.twaitany w, .twaitall w, .tffr w, .tclr w] → Executes i w s c →
      let m := tagArg i w s c
      let tags := tagsOf s c.t
      let busy := busyOf s c.t
      let sync (u : State) : State := if tags &&& m = 0 then u else acquireL1 u c.t.core
      let fresh := freshTags s c.t
      let set := tags &&& ~~~fresh &&& m
      let clear (x : W64) (u : State) : State := updCore u c.t.core (fun k => { k with tags := k.tags &&& ~~~(x <<< c.t.launch.tagbase) })
      (2 ^ c.t.launch.tagn ≤ m.toNat → Traps i s 0x81 0 c.act 0) ∧
      (m.toNat < 2 ^ c.t.launch.tagn →
        (i = .twaitany w → if tags &&& m = 0 ∧ busy &&& m ≠ 0 then Waits i s else Does i w s c (fun _ => { val := tags &&& m }) sync) ∧
        (i = .twaitall w → if busy &&& m ≠ 0 then Waits i s else Does i w s c (fun _ => { val := tags &&& m }) sync) ∧
        (i = .tclr w → Does i w s c (fun _ => {}) (clear (m &&& ~~~fresh))) ∧
        (i = .tffr w → set = 0 → Does i w s c (fun _ => { val := 64 }) id) ∧
        (i = .tffr w → ∀ k, k < 64 → set.getLsbD k = true → (∀ j, j < k → set.getLsbD j = false) →
          Does i w s c (fun _ => { val := BitVec.ofNat 64 k }) (fun u => acquireL1 (clear (1#64 <<< k) u) c.t.core)))) ∧
  (
    ∀ (s : State) (n : Nat) (c : Cmd) (q : SweepCmd), look s.cmds n = some c → c.body = .sweep q → c.started = false → c.fault = none →
      cmdMayStart s c = true →
      let todo := (sweepPages q).filter (fun p => (look q.pages p).isNone)
      (c.leave = .unasked → ∀ got, sweepTranslate s n c q.pages todo = (got, none) →
        ∃ u, exec (.sweepStart n) s = .next u ∧ look u.cmds n = some { c with leave := .wanted, body := .sweep { q with pages := got } } ∧ u.mem = s.mem) ∧
      (c.leave = .unasked → ∀ got f, sweepTranslate s n c q.pages todo = (got, some (.fault f)) →
        ∃ u x, exec (.sweepStart n) s = .next u ∧ look u.cmds n = some x ∧ x.fault = some f ∧ u.mem = s.mem) ∧
      (c.leave = .granted →
        ∃ u, exec (.sweepStart n) s = .next u ∧ look u.cmds n = some { c with started := true } ∧ u.mem = s.mem ∧
          ∀ ln, (∃ r ∈ q.ranges, ∃ p ∈ q.pages, p.2 ≤ ln * 128 ∧ ln * 128 < p.2 + 65536 ∧
            r.1 < p.1 * 65536 + (ln * 128 - p.2) + 128 ∧ p.1 * 65536 + (ln * 128 - p.2) < r.1 + r.2) → look u.l2 ln = none)) ∧
  (
    ∀ (s : State) (n : Nat) (c : Cmd) (q : SweepCmd),
      (∀ (t : Team) (p : Nat), look s.cmds n = some c → c.body = .sweep q → c.started = true → c.fault = none → q.written = false → c.left = 0 →
        team s c.src.team = some t →
        isMoving s ((sweepElems q).flatMap (fun pa => (List.range (sweepElem q.op)).map (pa + ·))) = false →
        badUnit s ((sweepElems q).flatMap (fun pa => (List.range (sweepElem q.op)).map (pa + ·))) = none →
        let bs := (sweepValue s q).1
        let ls := (List.range bs.length).map (fun k => Loc.mem (p + k))
        engBytes s n c .engWrite q.res bs.length = .ok ls → engPortCheck s c ls = .ok () → (∀ k, k < bs.length → tierOf (p + k) ≠ some 3) →
        ∃ u x, exec (.sweepComplete n) s = .next u ∧ look u.cmds n = some x ∧ x.body = .sweep { q with written := true } ∧
          x.flags = (sweepValue s q).2 ∧ 0 < x.left ∧ u.mem = s.mem ∧
          (∀ k b, bs[k]? = some b → ∃ j y ws, look u.pkts j = some y ∧ y.src = c.src ∧ y.dest = homeSlice (p + k) ∧ y.body = .eng (some n) ws ∧
            { pa := p + k, val := b } ∈ ws)) ∧
      (∀ t : Team, look s.cmds n = some c → c.body = .sweep q → c.started = true → c.fault = none → q.written = true → c.left = 0 →
        c.stat = none → c.op = none → team s c.src.team = some t →
        ∃ u t', exec (.sweepComplete n) s = .next u ∧ look u.cmds n = none ∧ team u c.src.team = some t' ∧
          t'.flags = t.flags ||| c.flags ∧ u.mem = s.mem) ∧
      (q.op = 2 →
        let r := saturated 64 .sat (((sweepElems q).map (fun pa => (BitVec.ofNat 32 (leNat (readBytes s pa 4))).toInt)).sum)
        sweepValue s q = (leBytes 8 r.val.toNat, r.flags)))

/-! The matrix array. -/

/-- The words that queue a matrix command (R355, R377, R378, R382, R383): a bad descriptor, image or position faults; with the stream,
the tag and the queue free the command stands at the end of its source's queue, and an MREAD's destination is pending.

Where the spec leaves a point open, this rests on the model's choices: log 14. -/
def Obligations.MatrixWordsQueueCommands : Prop :=
  ∀ (w : FWord) (z d : Bool) (os : BitVec 3) (s : State) (c : Ctx) (i : Instr) (bad : Option (Nat × Nat)) (m : MatCmd) (tag : Option Nat) (stream : Nat),
    (let x (j : Instr) : LaneIn := laneIn j w s c (lowest c.act)
      let desc (j : Instr) : W32 := lo (x j).b
      let ml := Instr.mloadb w
      let mm := Instr.mma w z
      let mz := Instr.mzero w
      let st := Instr.mstore w os
      let rd := Instr.mread w d
      let wr := Instr.mwrite w d
      let sc := (lo (x st).c).toNat
      (i, bad, m, tag, stream) ∈
        [(ml, matFault c.t 0 (desc ml).toNat (x ml).a, { member := 0, desc := desc ml, addr := (x ml).a },
            (if (desc ml).getLsbD 6 then some ((desc ml).toNat % 64) else none), 0),
         (mm, matFault c.t 1 (desc mm).toNat (x mm).a, { member := 1, desc := desc mm, addr := (x mm).a, z }, none, 0),
         (mz, matFault c.t 2 (desc mz).toNat 0, { member := 2, desc := desc mz }, none, 0),
         (st, (match storeFault c.t (desc st).toNat sc with
            | some f => some f
            | none => match imageFault c.t (x st).a (imageSpan 4 (desc st).toNat) with
              | some f => some f
              | none => if storeRnd (desc st).toNat = 5 ∧ featureOn s 6 = false then some (0xD0, 6) else none),
           { member := 4, desc := desc st, addr := (x st).a }, (if sc.testBit 6 then some (sc % 64) else none), os.toNat),
         (rd, posFault (desc rd).toNat d, { member := 5, desc := desc rd, d, reg := w.dst.toNat, lanes := if w.ws then 0 else c.act }, none, 0),
         (wr, posFault (desc wr).toNat d,
           { member := 6, desc := desc wr, d, lanes := c.act, data := (lanesOf c.act).foldl (fun m l => put m l (laneIn wr w s c l).c) [] }, none, 0)]) →
    Executes i w s c →
    let q := queueOf (arrayOf s c.t.core) c.id
    (∀ cause detail, bad = some (cause, detail) → Traps i s cause detail c.act 0) ∧
    (bad = none → storeWait s c false = .ok () → streamWait c stream = .ok () →
      (tagFree s c.id.team tag = false ∨ 4 ≤ q.length ∨ handWaits s c.id = true → Waits i s) ∧
      (tagFree s c.id.team tag = true → q.length < 4 → handWaits s c.id = false →
        ∃ u g n k, exec i s = .next u ∧ group u c.id = some g ∧ look u.cmds n = some k ∧ k.src = c.id ∧ k.core = c.t.core ∧
          k.lane = lowest c.act ∧ k.tag = tag ∧ k.stream = stream ∧ k.body = .mat m ∧ k.started = false ∧
          queueOf (arrayOf u c.t.core) c.id = q ++ [n] ∧ u.mem = s.mem ∧ (∀ r l, l < 32 → readV g r l = readV c.gr r l) ∧
          g.sb = (if m.member = 5 then pend c.gr.sb (mreadDsts w.dst.toNat d m.lanes) else c.gr.sb) ∧
          (∀ l, l < 32 → pcOf g l = if c.at_.getLsbD l then c.next else pcOf c.gr l)))

/-- R384: MRES takes the reservation where no other team holds it, and returns whether it does; it never waits. -/
def Obligations.ReservationIsTaken : Prop :=
  ∀ (w : FWord) (s : State) (c : Ctx), Executes (.mres w) w s c →
    let held := (arrayOf s c.t.core).reserved
    (held = none ∨ held = some c.id.team →
      Does (.mres w) w s c (fun _ => { pd := some true }) (fun u => updArray u c.t.core (fun a => { a with reserved := some c.id.team }))) ∧
    (∀ k, held = some k → k ≠ c.id.team → Does (.mres w) w s c (fun _ => { pd := some false }) id)

/-- R371: a parity error of the running command counts in PARITY, and nothing else changes; a full count stays (R386). -/
def Obligations.ParityErrorsAreCounted : Prop :=
  ∀ (s : State) (n : Nat) (c : Cmd) (m : MatCmd), look s.cmds n = some c → c.body = .mat m →
    ((arrayOf s c.core).computing = some n ∨ (arrayOf s c.core).loading = some n) →
    exec (.sequencerParityError n) s = .next (updArray s c.core (fun a =>
      { a with parity := BitVec.ofNat 16 (min 0xFFFF (a.parity.toNat + 1)) }))

/-- The release and the status word (R353, R385, R386): with .all, which waits for the queue to be empty, the team's rows are zero and
free and its banks are empty.

A matrix command starts on its path (R353, R356): its rows and bank become its team's, or another team's ownership faults it with
nothing touched.

A matrix command ends on its path (R379 to R383): a bank is loaded whole, rows are zeroed, elements are read into registers and
written from them, and an MSTORE has read its rows; the command has left its path, and but for an MSTORE it is complete.

Where the spec leaves a point open, this rests on the model's choices: log 16. -/
def Obligations.MatrixCommandsRun : Prop :=
  (
    ∀ (w : FWord) (all : Bool) (s : State) (c : Ctx),
      (Executes (.mrel w all) w s c →
        let a := arrayOf s c.t.core
        (all = true → queueOf a c.id ≠ [] → Waits (.mrel w all) s) ∧
        (all = false ∨ queueOf a c.id = [] →
          ∃ u g, exec (.mrel w all) s = .next u ∧ group u c.id = some g ∧ u.mem = s.mem ∧
            let b := arrayOf u c.t.core
            b.reserved = (if a.reserved = some c.id.team then none else a.reserved) ∧
            (all = false → b.rowOwner = a.rowOwner ∧ b.acc = a.acc) ∧
            (all = true → (∀ r, look b.rowOwner r ≠ some c.id.team) ∧
              (∀ r n, n < 256 → look a.rowOwner r = some c.id.team → get 0 b.acc (256 * r + n) = 0) ∧
              (a.bank0.owner = some c.id.team → b.bank0 = {}) ∧ (a.bank1.owner = some c.id.team → b.bank1 = {})) ∧
            (∀ l, l < 32 → pcOf g l = if c.at_.getLsbD l then c.next else pcOf c.gr l))) ∧
      (Executes (.mstat w) w s c →
        Does (.mstat w) w s c (fun _ => { val := matStatus (arrayOf s c.t.core) c.id }) id)) ∧
  (
    ∀ (s : State) (n : Nat) (c : Cmd) (m : MatCmd), look s.cmds n = some c → c.body = .mat m → matReady s n = true →
      let a := arrayOf s c.core
      (if m.member = 0 then a.loading else a.computing) = none → nextQueue s a (m.member == 0) = some (queueKey c.src) →
      ∃ u k, exec (.matrixCommandStart n) s = .next u ∧ look u.cmds n = some k ∧ k.started = true ∧ u.mem = s.mem ∧
        let b := arrayOf u c.core
        (if m.member = 0 then b.loading else b.computing) = some n ∧
        (∀ r ∈ matRows m, ∀ o, look a.rowOwner r = some o → o ≠ c.src.team →
          b.rowOwner = a.rowOwner ∧ (k.fault.map (fun f => (f.cause, f.detail))) = some (0x91, 1)) ∧
        ((∀ r ∈ matRows m, ∀ o, look a.rowOwner r = some o → o = c.src.team) →
          ∀ x, matBank m = some x → ∀ o, (bankOf a x).owner = some o → o ≠ c.src.team →
            b.rowOwner = a.rowOwner ∧ (k.fault.map (fun f => (f.cause, f.detail))) = some (0x91, 2)) ∧
        ((∀ r ∈ matRows m, ∀ o, look a.rowOwner r = some o → o = c.src.team) →
          (∀ x, matBank m = some x → ∀ o, (bankOf a x).owner = some o → o = c.src.team) →
          (∀ r ∈ matRows m, look b.rowOwner r = some c.src.team) ∧ (∀ x, matBank m = some x → (bankOf b x).owner = some c.src.team) ∧
          (m.member ≠ 1 → k.fault = none))) ∧
  (
    ∀ (s : State) (n : Nat) (c : Cmd) (m : MatCmd) (t : Team) (gr : Group), look s.cmds n = some c → c.body = .mat m → c.fault = none → c.stat = none →
      c.op = none → c.tag = none → team s c.src.team = some t → look t.groups c.src.g = some gr →
      (if m.member = 0 then (arrayOf s c.core).loading else (arrayOf s c.core).computing) = some n →
      let a := arrayOf s c.core
      let d := m.desc.toNat
      let row := d % 256
      let col (l : Nat) := d / 256 % 8 * 32 + l
      let ended (P : State → MatArray → Group → Prop) : Prop :=
        ∃ u g, exec (.matrixCommandComplete n) s = .next u ∧ group u c.src = some g ∧ u.mem = s.mem ∧
          (m.member ≠ 4 → look u.cmds n = none) ∧ (arrayOf u c.core).computing ≠ some n ∧ (m.member = 0 → (arrayOf u c.core).loading = none) ∧
          n ∉ queueOf (arrayOf u c.core) c.src ∧ P u (arrayOf u c.core) g
      (m.member = 0 → a.computing ≠ some n → ∀ b, readBank s n c m = .ok b → ended (fun _ v _ => bankOf v (descBank d) = b)) ∧
      (m.member = 1 → descRows d ≤ m.row → ended (fun _ v _ => v.acc = a.acc)) ∧
      (m.member = 2 → ended (fun _ v _ => ∀ k, get 0 v.acc k = if k / 256 ∈ matRows m then 0 else get 0 a.acc k)) ∧
      (m.member = 4 → ended (fun u _ _ => ∃ k m', look u.cmds n = some k ∧ k.body = .mat m' ∧ m'.hasRead = true ∧
        (a.accBad = [] → k.fault = none ∧ m'.upTo = descRows d))) ∧
      (m.member = 5 → a.accBad = [] → m.reg + 2 ≤ gr.alloc → ended (fun _ _ g => ∀ l ∈ lanesOf m.lanes,
        readV g m.reg l = get 0 a.acc (256 * row + col l) ∧ (m.d = true → readV g (m.reg + 1) l = get 0 a.acc (256 * (row + 1) + col l)) ∧
        (get 0 g.sb m.reg).getLsbD l = false)) ∧
      (m.member = 6 → ended (fun _ v _ => ∀ l ∈ lanesOf m.lanes,
        get 0 v.acc (256 * row + col l) = lo (get 0 m.data l) ∧ (m.d = true → get 0 v.acc (256 * (row + 1) + col l) = hi (get 0 m.data l)))))

/-- The rows of an MMA and of an MSTORE (R365, R380, R382): a pair of rows is committed at once, and a row's bytes leave for the home
slices of the row's place.

Integer block sums (R361, R363, R360): the exact sum of the products, clamped, is added to the accumulator and clamped again.

Where the spec leaves a point open, this rests on the model's choices: log 16. -/
def Obligations.MatrixResults : Prop :=
  (
    ∀ (s : State) (n : Nat) (c : Cmd) (m : MatCmd), look s.cmds n = some c → c.body = .mat m →
      (m.member = 1 → c.fault = none → (arrayOf s c.core).computing = some n → m.row < descRows m.desc.toNat →
        ∀ u, runPair s n c m = .ok u → exec (.mmaRowPairCommit n) s = .next u ∧ u.mem = s.mem ∧
          ∃ k, look u.cmds n = some k ∧ k.body = .mat { m with row := m.row + 2 } ∧
            ∀ x, (∀ i, i < 2 → m.row + i < descRows m.desc.toNat → x / 256 ∉ accRows m.desc.toNat (m.row + i)) →
              get 0 (arrayOf u c.core).acc x = get 0 (arrayOf s c.core).acc x) ∧
      (m.member = 4 → m.hasRead = true → m.row + 1 < m.upTo →
        let d := m.desc.toNat
        let bs := (outRow c m m.row).1
        ∀ p ls, engBytes s n c .engWrite (m.addr + BitVec.ofNat 64 (m.row * pitchOf d (outRowBytes d))) bs.length = .ok ls →
          ls = (List.range bs.length).map (fun k => Loc.mem (p + k)) → engPortCheck s c ls = .ok () → (∀ k, k < bs.length → tierOf (p + k) ≠ some 3) →
          ∃ u k, exec (.mstoreComplete n) s = .next u ∧ look u.cmds n = some k ∧ (∃ m', k.body = .mat m' ∧ m'.row = m.row + 1) ∧
            (bs ≠ [] → 0 < k.left) ∧ u.mem = s.mem ∧
            (∀ j b, bs[j]? = some b → ∃ h y ws, look u.pkts h = some y ∧ y.src = c.src ∧ y.stream = c.stream ∧ y.dest = homeSlice (p + j) ∧
              y.body = .eng (some n) ws ∧ { pa := p + j, val := b } ∈ ws))) ∧
  (
    ∀ (as bs : List Int) (acc : W32) (ftz : Bool),
      let el (x : Int) : MEl := { v := .fin (decide (x < 0)) x.natAbs 0 }
      let s := blockSum 7 7 (as.map el) (bs.map el)
      let c (x : Int) : Int := max (-2 ^ 31) (min x (2 ^ 31 - 1))
      let t := ((as.zip bs).map (fun p => p.1 * p.2)).sum
      s.2 = 0 ∧ accumulate 7 ftz acc.toNat s.1 =
        ((c (acc.toInt + c t) % 2 ^ 32).toNat, if c t = t ∧ c (acc.toInt + c t) = acc.toInt + c t then 0 else 1))

/-! Remote opcodes. -/

/-- Remote-opcode words (R408, R409): an undefined number faults with it; where the checks of the operands and of the addresses pass and
the stream has room, the lanes' requests are outstanding, and the destinations of an RMO.r are pending. -/
def Obligations.RemoteOpcodesIssue : Prop :=
  ∀ (w : FWord) (num : BitVec 5) (os : BitVec 3) (s : State) (c : Ctx) (i : Instr) (ret : Bool),
    (i, ret) ∈ [(Instr.rmoN w num os, false), (Instr.rmoR w num os, true)] → Executes i w s c →
    (headerOf c.t num.toNat = none → Traps i s 0xA1 num.toNat c.act 0) ∧
    (∀ h rs, headerOf c.t num.toNat = some h → rmoFields c w h.dw0 ret = .ok () → rmoDecode c w (rmoShape h.dw0 ret w) = .ok () →
      regChecks w (rmoShape h.dw0 ret w) (none, false) c = .ok () → rmoAddrCheck s c num.toNat h.dw0 (rmoAddr c w) = .ok () →
      memWait s c false = .ok () → storeWait s c false = .ok () → streamWait c os.toNat = .ok () →
      (lanesOf c.act).mapM (rmoReq s c w h.dw0) = .ok rs →
      OpIssued i s c .rmo os.toNat (bodyPas (.rmo num.toNat h none (rs.map (·.2)))) ∧
      ∃ u, exec i s = .next u ∧ (ret = true → ∃ op, look u.loads s.nextId = some op ∧ op.src = c.id ∧
        op.accs.map (fun a => (a.lane, a.reg)) = (lanesOf c.act).map (fun l => (l, w.dst.toNat))))

/-- Definitions (R400, R411 to R413): RMDEF installs a good image at the next version and every header cache of the context shows it,
RMDROP withdraws a number, and RMQRY returns a header.

Where the spec leaves a point open, this rests on the model's choices: log 14 and 16. -/
def Obligations.RemoteDefinitions : Prop :=
  ∀ (w : FWord) (s : State) (c : Ctx),
    (Executes (.rmdef w) w s c → relDone c.gr = true →
      let k := lowCtx c
      let a := (laneIn (.rmdef w) w s c (lowest c.act)).a
      let hd := imageDwords s k a 2
      let n := 2 + imageRest (hd.headD 0)
      let us := imageOps (hd.headD 0) ((imageDwords s k a n).drop 2)
      defAddrCheck s k a = .ok () → dictAccess s k a n = .ok () → linesMissing s ((List.range 2).flatMap (dictBytes s k a)) = [] →
      linesMissing s ((List.range n).flatMap (dictBytes s k a)) = [] → dictBad s k a n = none →
      defImageCheck s k a (hd.headD 0) (hd.getD 1 0) us = .ok () →
      let num := hdrNum (hd.headD 0)
      ∃ u g, exec (.rmdef w) s = .next u ∧ group u c.id = some g ∧ u.mem = s.mem ∧
        defOf u c.t.launch.ctx num = { defined := true, version := (defOf s c.t.launch.ctx num).version + 1, dw0 := hd.headD 0, image := us } ∧
        (∀ tm t, team u tm = some t → t.launch.ctx = c.t.launch.ctx →
          look t.headers num = some { dw0 := hd.headD 0, version := (defOf s c.t.launch.ctx num).version + 1 }) ∧
        (∀ l, l < 32 → pcOf g l = if c.at_.getLsbD l then c.next else pcOf c.gr l)) ∧
    (Executes (.rmdrop w) w s c →
      let n := (lo (laneIn (.rmdrop w) w s c (lowest c.act)).a).toNat
      let e := defOf s c.t.launch.ctx n
      (n < 8 ∨ 31 < n → Traps (.rmdrop w) s 0xA2 6 (oneLane (lowest c.act)) 0) ∧
      (8 ≤ n → n ≤ 31 → e.defined = true → c.gr.defWait = none →
        ∃ u, exec (.rmdrop w) s = .next u ∧ (defOf u c.t.launch.ctx n).defined = false ∧ u.mem = s.mem ∧
          ∀ tm t, team u tm = some t → t.launch.ctx = c.t.launch.ctx → look t.headers n = none) ∧
      (8 ≤ n → n ≤ 31 → e.defined = false ∨ c.gr.defWait ≠ none → (c.gr.defWait = none ∨ rmoPending s c.t.launch.ctx n (c.gr.dropVer.getD e.version) = false) →
        ∃ u g, exec (.rmdrop w) s = .next u ∧ group u c.id = some g ∧ g.defWait = none ∧ u.mem = s.mem ∧
          ∀ l, l < 32 → pcOf g l = if c.at_.getLsbD l then c.next else pcOf c.gr l)) ∧
    (Executes (.rmqry w) w s c →
      let num (l : Nat) := (lo (laneIn (.rmqry w) w s c l).a).toNat
      ((∀ l ∈ lanesOf c.act, num l ≤ 31) → Does (.rmqry w) w s c (fun l => { val := match headerOf c.t (num l) with
        | none => 0
        | some h => BitVec.ofNat 64 (2 ^ 63 + h.version.toNat * 2 ^ 48 + h.dw0.toNat % 2 ^ 48) }) id) ∧
      ((∃ l ∈ lanesOf c.act, 31 < num l) → ∃ lanes, Traps (.rmqry w) s 0xA2 6 lanes 0))

/-- The built-in remote opcodes (R393, R396): what each makes of the words at its address, and the old value it returns.

A request with a returned value is executed at the head of its unit's queue (R389, R396, R398): the words of its footprint that the
program writes change, no other byte does, and its acknowledgement leaves with the value.

Acknowledgements and images (R398, R400): an acknowledgement sets the team's flags and counts the request as performed, and a unit
fetches the image of the first request that lacks one. -/
def Obligations.RemoteRequests : Prop :=
  (
    ∀ (m a b : W32) (x y : W64),
      let run (k : Nat) (m ops : List W32) := ((runRequest (builtinHeader k) [] m ops).m, (runRequest (builtinHeader k) [] m ops).val)
      run 0 [m] [a] = ([(0, m + a)], zx m) ∧
      run 1 [lo x, hi x] [lo y, hi y] = ([(0, lo (x + y)), (1, hi (x + y))], x) ∧
      run 2 [m] [a] = ([(0, if a.toInt < m.toInt then a else m)], zx m) ∧
      run 3 [m] [a] = ([(0, if m.toInt < a.toInt then a else m)], zx m) ∧
      run 4 [m] [a, 0] = ([(0, m &&& a)], zx m) ∧ run 4 [m] [a, 1] = ([(0, m ||| a)], zx m) ∧ run 4 [m] [a, 2] = ([(0, m ^^^ a)], zx m) ∧
      run 5 [m] [a] = ([(0, a)], zx m) ∧
      run 6 [m] [a, b] = (if m = b then [(0, a)] else [], zx m)) ∧
  (
    ∀ (s : State) (unit : Nat) (it : UnitItem) (rest : List UnitItem) (x : UnitReq) (img : List W32),
      look s.units unit = some (it :: rest) → reqOf s it = some x → x.load ≠ none → isGuest x.p.src = false → imageOf s unit x = some img →
      isMoving s (footPas x) = false → heldAway s (footPas x) = [] → badUnit s (granPas x) = none →
      let ms := (List.range (hdrFlen x.hdr.dw0)).map (fun j => BitVec.ofNat 32 (leNat (readBytes s (x.r.pa + 4 * j) 4)))
      let e := runRequest x.hdr.dw0 img ms x.r.ops
      let bytes := e.m.flatMap (fun y => ((List.range 4).zip (leBytes 4 y.2.toNat)).map (fun b => (x.r.pa + 4 * y.1 + b.1, b.2)))
      ∃ u k a, exec (.rmoExecute unit) s = .next u ∧ look u.units unit = some rest ∧
        (∀ p, readByte u p = ((bytes.reverse.find? (fun b => b.1 = p)).map (·.2)).getD (readByte s p)) ∧
        look u.rmoAcks k = some a ∧ a.src = x.p.src ∧ a.lane = x.r.lane ∧ a.flags = e.flags ∧
        (e.trap = none → a.val = leBytes (if hdrWide x.hdr.dw0 then 8 else 4) e.val.toNat ∧ a.keep = false) ∧ (e.trap ≠ none → a.keep = true)) ∧
  (
    ∀ (s : State) (n : Nat),
      (∀ a t gr op, look s.rmoAcks n = some a → team s a.src.team = some t → look t.groups a.src.g = some gr → look gr.ops a.op = some op →
        ∃ u t' g, exec (.rmoAcknowledge n) s = .next u ∧ team u a.src.team = some t' ∧ look t'.groups a.src.g = some g ∧ look u.rmoAcks n = none ∧
          t'.flags = t.flags ||| a.flags ∧ u.mem = s.mem ∧ (op.left ≤ 1 → look g.ops a.op = none) ∧
          (2 ≤ op.left → look g.ops a.op = some { op with left := op.left - 1 })) ∧
      (∀ x, n < 4096 → needsImage s n = some x → isGuest x.p.src = false → (defOf s x.p.ctx x.num).version = x.hdr.version →
        ∃ u, exec (.definitionFetch n) s = .next u ∧ imageOf u n x = some (defOf s x.p.ctx x.num).image ∧ u.mem = s.mem))

/-! Zenith. -/

/-- SPAWN (R496): a bad entry faults; else each executing lane's child is pushed in ascending lane order with the launch's next indices,
which the lanes receive; a lane's join block counts its children, and one more where the team holds it from now on.

GROW, LAUNCH, CANCEL and CNTRD (R489, R490, R497 to R499).

Where the spec leaves a point open, this rests on the model's choices: log 20. -/
def Obligations.ZenithWords : Prop :=
  (
    ∀ (w : FWord) (s : State) (c : Ctx), Executes (.spawn w) w s c →
      let e := spawnEntry w s c
      let n := laneCount c.act
      let rank (l : Nat) : Nat := (lanesOf c.act).idxOf l
      let out (x : Cnt) (l : Nat) : LaneOut := { val := BitVec.ofNat 64 (x.next + rank l) }
      let child (x : Cnt) (l : Nat) (j : W64) : Mark :=
        { words := [BitVec.ofNat 64 (2 ^ 61) ||| e, (laneIn (.spawn w) w s c l).a, j, BitVec.ofNat 64 (c.t.launch.lid * 2 ^ 32 + x.next + rank l)], run := c.t.run }
      (¬ (e.toNat < 2 ^ 57 ∧ e.toNat % 8 = 0) → Traps (.spawn w) s 0x0E 0 c.act 0) ∧
      (∀ x, e.toNat < 2 ^ 57 → e.toNat % 8 = 0 → (∀ l ∈ lanesOf c.act, (laneIn (.spawn w) w s c l).a = 0) → memWait s c false = .ok () → relDone c.gr = true →
        c.t.joins.length ≤ 4 →
        (qFree s c.t.queue < n → Traps (.spawn w) s 0xC0 3 c.act 0) ∧
        (n ≤ qFree s c.t.queue → liveRun s (ownKey c) c.t.run = some x →
          (2 ^ 31 < x.next + n → Traps (.spawn w) s 0xC4 1 c.act 0) ∧
          (x.next + n ≤ 2 ^ 31 → Does (.spawn w) w s c (out x) (fun u =>
            (lanesOf c.act).foldl (fun u l => pushRec u c.t.queue (child x l 0))
              (updCnt u (ownKey c) (fun x => { x with count := x.count + n, next := x.next + n })))))) ∧
      (∀ x j, spawnCheckF w s c = .ok () → spawnCheckJ w s c = .ok () → spawnCheckQ w s c = .ok () → liveRun s (ownKey c) c.t.run = some x →
        (∀ l ∈ frameLanes w s c, ∀ p ∈ strongPas s c .load (spawnFrame w s c l) 8, tierOf p ≠ some 3) → (∀ p ∈ recordPas w s c, tierOf p ≠ some 3) →
        (∀ l ∈ lanesOf c.act, spawnJoin w s c l = j) → j ≠ 0 → (countPas s c j).length = 8 → (countPas s c j).Nodup → (∀ p ∈ countPas s c j, tierOf p ≠ some 3) →
        heldAway s (countPas s c j) = [] → (zq s c.t.queue).pending ≠ [] →
        ∃ u t, exec (.spawn w) s = .next u ∧ team u c.id.team = some t ∧
          t.joins = (if j ∈ c.t.joins then c.t.joins else c.t.joins ++ [j]) ∧
          look u.lcnt (ownKey c) = some { x with count := x.count + n + (if j ∈ c.t.joins then 0 else 1), next := x.next + n } ∧
          (zq u c.t.queue).pending = (zq s c.t.queue).pending ++ (lanesOf c.act).map (fun l => child x l j) ∧
          leNat ((countPas s c j).map (readByte u)) =
            (leNat ((countPas s c j).map (readByte s)) + n + (if j ∈ c.t.joins then 0 else 1)) % 2 ^ 64 ∧
          (∀ p, p ∉ countPas s c j → readByte u p = readByte s p))) ∧
  (
    ∀ (w : FWord) (s : State) (c : Ctx),
      (Executes (.grow w) w s c →
        let n := growCount w s c
        let out (x : Cnt) (_ : Nat) : LaneOut := { val := BitVec.ofNat 64 x.next }
        (n < 0 → Traps (.grow w) s 0xC4 2 c.act 0) ∧
        (∀ x, 0 ≤ n → liveRun s (ownKey c) c.t.run = some x →
          (2 ^ 31 < x.next + n.toNat → Traps (.grow w) s 0xC4 1 c.act 0) ∧
          (x.next + n.toNat ≤ 2 ^ 31 → 0 < n → qFree s c.t.queue = 0 → Traps (.grow w) s 0xC0 3 c.act 0) ∧
          (n = 0 → x.next ≤ 2 ^ 31 → Does (.grow w) w s c (out x) id) ∧
          (x.next + n.toNat ≤ 2 ^ 31 → 0 < n → 0 < qFree s c.t.queue → Does (.grow w) w s c (out x) (fun u =>
            pushRec (updCnt u (ownKey c) (fun x => { x with count := x.count + n.toNat, next := x.next + n.toNat })) c.t.queue
              { words := [BitVec.ofNat 64 (3 * 2 ^ 61), c.t.launch.frame, BitVec.ofNat 64 n.toNat, BitVec.ofNat 64 (c.t.launch.lid * 2 ^ 32 + x.next)]
                run := c.t.run })))) ∧
      (Executes (.launch w) w s c → memWait s c false = .ok () → relDone c.gr = true →
        let q := launchQueue w s c
        let a := launchAddr w s c
        (64 ≤ q → Traps (.launch w) s 0xC0 1 c.act 0) ∧
        (q < 64 → (zq s q).enable = false ∨ (zq s q).ctx.toNat ≠ c.t.launch.ctx → Traps (.launch w) s 0xC0 2 c.act 0) ∧
        (q < 64 → (zq s q).enable = true → (zq s q).ctx.toNat = c.t.launch.ctx →
          (qFree s q = 0 → Traps (.launch w) s 0xC0 3 c.act 0) ∧
          (0 < qFree s q → a.toNat % 64 ≠ 0 → Traps (.launch w) s 0xC5 1 c.act a) ∧
          (0 < qFree s q → a.toNat % 64 = 0 → rangeFault c.t a 64 = none → laneAccess s c .load 8 64 [lowest c.act] (fun _ => a) = .ok () →
            readable s c (strongPas s c .load a 64) = .ok () → (∀ p ∈ strongPas s c .load a 64, tierOf p ≠ some 3) →
            Does (.launch w) w s c (fun _ => {}) (fun u =>
              pushRec u q { words := dwords (strongBytes s c .load a 64), issuer := some (c.id, lowest c.act), origin := some (originOf c.t) })))) ∧
      (∀ lvl, Executes (.cancel w lvl) w s c →
        let n := entryName (.cancel w lvl) w s c
        let ctx := c.t.launch.ctx
        let key := lcntKey ctx n
        (lvl = .g → 1023 < n → Traps (.cancel w lvl) s 0xC9 1 c.act 0) ∧
        (lvl = .p ∨ lvl = .j → w.a ≠ .zero ∨ n ≠ 0 → Traps (.cancel w lvl) s 0xC9 2 c.act 0) ∧
        (lvl = .l → (∀ x, look s.lcnt key = some x → x.state ≠ 1) → ∃ u, exec (.cancel w lvl) s = .next u ∧ u.lcnt = s.lcnt ∧ u.zen = s.zen ∧ u.mem = s.mem) ∧
        (lvl = .l → ∀ x, look s.lcnt key = some x → x.state = 1 → 0 < x.count → lastEnds s x = false → x.launch.compl = 0 → x.node = none → sorted s.teams = true →
          ∃ u, exec (.cancel w lvl) s = .next u ∧ look u.lcnt key = some { x with state := 3, count := 0 } ∧ u.mem = s.mem ∧
            (∀ k, k ≠ key → look u.lcnt k = look s.lcnt k) ∧
            ∀ tm t, look s.teams tm = some t → t.run = x.seq → (look u.teams tm).map (·.cancelReq) = some true) ∧
        (lvl = .g → n ≤ 1023 → ∀ g, look s.zen.gcnt n = some g → g.state = 1 → g.ctx = ctx → (∀ e ∈ s.lcnt, ¬ (e.2.launch.ctx = ctx ∧ e.2.launch.gslot = n ∧ cntLive e.2 = true)) →
          ∃ u, exec (.cancel w lvl) s = .next u ∧ look u.zen.gcnt n = some { g with state := 3, count := 0 } ∧ u.mem = s.mem ∧ u.lcnt = s.lcnt) ∧
        (∀ x, w.a = .zero → n = 0 → (∀ e ∈ s.lcnt, ¬ (e.2.launch.ctx = ctx ∧ cntLive e.2 = true)) → (∀ e ∈ s.zen.gcnt, e.2.state ≠ 1) → x.state = 1 →
          (lvl = .p → look s.zen.pcnt ctx = some x → ∃ u, exec (.cancel w lvl) s = .next u ∧ look u.zen.pcnt ctx = some { x with state := 3, count := 0 } ∧ u.lcnt = s.lcnt) ∧
          (lvl = .j → look s.zen.jcnt ctx = some x → ∃ u, exec (.cancel w lvl) s = .next u ∧ look u.zen.jcnt ctx = some { x with state := 3, count := 0 } ∧ u.lcnt = s.lcnt))) ∧
      (∀ lvl, Executes (.cntrd w lvl) w s c →
        let n := entryName (.cntrd w lvl) w s c
        let ctx := c.t.launch.ctx
        let word (state cause count : Nat) : W64 := BitVec.ofNat 64 (state % 16 * 2 ^ 60 + cause % 256 * 2 ^ 48 + count % 2 ^ 48)
        (lvl = .g → 1023 < n → Traps (.cntrd w lvl) s 0xC9 1 c.act 0) ∧
        (lvl = .p ∨ lvl = .j → w.a ≠ .zero ∨ n ≠ 0 → Traps (.cntrd w lvl) s 0xC9 2 c.act 0) ∧
        ((lvl = .g → n ≤ 1023) → (lvl = .p ∨ lvl = .j → w.a = .zero ∧ n = 0) →
          ∃ v, Does (.cntrd w lvl) w s c (fun _ => { val := v }) id ∧
            ∀ x, (match lvl with
              | .l => look s.lcnt (lcntKey ctx n)
              | .g => ((look s.zen.gcnt n).filter (fun (g : Graph) => g.ctx == ctx)).map (fun (g : Graph) => { state := g.state, cause := g.cause, count := g.count })
              | .p => look s.zen.pcnt ctx
              | .j => look s.zen.jcnt ctx) = x →
              v = (x.map (fun (e : Cnt) => word e.state e.cause e.count)).getD 0)))

/-- The queues' registers and pushes (R469 to R471, R531): what a host's writes change, a push of 64 bytes or its refusal, and the entry of
the first pending record into the tail's slot.

Launch records, graphs and phases (R31, R32, R472, R474, R483, R484, R486 to R488): what Zenith makes of the record at a queue's head.

The reconfiguration window (R427, R440, R446, R488): it opens once the phase's work is over; peer lines and directories go, the group
table is loaded, and a new phase begins behind the mark; a bad table leaves the context stopped.

Where the spec leaves a point open, this rests on the model's choices: log 14 (the order of the checks) and 20. -/
def Obligations.QueueAndHeadEvents : Prop :=
  (
    ∀ (s : State) (q : Nat), q < 64 →
      let x := zq s q
      let idle : Prop := x.enable = false ∧ x.head = x.tail
      (∀ v, ∃ u, exec (.qcfgWrite (q / 32) q v) s = .next u ∧ u.mem = s.mem ∧ u.teams = s.teams ∧ (∀ k, k ≠ q → zq u k = zq s k) ∧
        let y := zq u q
        (idle → y.ctx = v.extractLsb' 48 16 ∧ y.log2n = v.extractLsb' 6 5) ∧ (¬ idle → y.ctx = x.ctx ∧ y.log2n = x.log2n) ∧
        y.slice = v.extractLsb' 32 8 ∧ y.runest = v.extractLsb' 16 16 ∧ y.ovf = (x.ovf && !v.getLsbD 15) ∧ y.enable = v.getLsbD 4 ∧
        y.pri = v.extractLsb' 0 3 ∧ y.base = x.base ∧ y.head = x.head ∧ y.tail = x.tail ∧ y.pending = x.pending) ∧
      (∀ v, ∃ u, exec (.qbaseWrite (q / 32) q v) s = .next u ∧ (∀ k, k ≠ q → zq u k = zq s k) ∧
        (idle → zq u q = { x with base := v &&& 0x01FFFFFFFFFFFFC0 }) ∧ (¬ idle → zq u q = x)) ∧
      (∀ off (data : List Byte),
        ((off ≠ 0 ∨ data.length ≠ 64) → (host s (q / 32)).fqEnable = false →
          ∃ u, exec (.qpushWindowWrite (q / 32) q off data) s = .next u ∧ u.zen = s.zen ∧ u.mem = s.mem ∧
            (host u (q / 32)).waiting = (host s (q / 32)).waiting ++ [hostWords x.ctx.toNat 6 3 0xC6 false 0 0 0]) ∧
        (off = 0 → data.length = 64 →
          (qFree s q = 0 → ∃ u, exec (.qpushWindowWrite (q / 32) q off data) s = .next u ∧ zq u q = { x with ovf := true } ∧ u.mem = s.mem) ∧
          (0 < qFree s q → x.pending ≠ [] → ∃ u, exec (.qpushWindowWrite (q / 32) q off data) s = .next u ∧
            zq u q = { x with pending := x.pending ++ [{ words := dwords data }] } ∧ u.mem = s.mem) ∧
          (0 < qFree s q → x.pending = [] →
            exec (.qpushWindowWrite (q / 32) q off data) s = exec (.pendingListEntry q) (updQ s q (fun x => { x with pending := [{ words := dwords data }] }))))) ∧
      (∀ r rest pas, x.pending = r :: rest → (r.run = 0 ∨ ∃ c, liveRun s (recKey x r.words) r.run = some c ∧ r.node = none) → x.stuck = false →
        qUsed x < qSize x → zenPas s x.ctx.toNat .zenWrite (taskSlot q) (x.base + BitVec.ofNat 64 (64 * (x.tail.toNat % 2 ^ x.log2n.toNat))) 64 = .ok pas →
        pas.Nodup → isMoving s pas = false → heldAway s pas = [] → (∀ p ∈ pas, tierOf p ≠ some 3) →
        let takes : Bool := r.held && isCont r
        let words := if takes then
            r.words.set 3 (r.words.getD 3 0 ||| BitVec.ofNat 64 ((liveRun s (recKey x r.words) r.run).map (·.next)).get!) else r.words
        ∃ u, exec (.pendingListEntry q) s = .next u ∧ (zq u q).pending = rest ∧ (zq u q).tail = x.tail + 1 ∧ (zq u q).head = x.head ∧
          look (zq u q).marks x.tail.toNat = some { r with words, held := false, faulted := false } ∧ (∀ k, k ≠ q → zq u k = zq s k) ∧
          pas.map (readByte u) = ((words ++ List.replicate 8 0).take 8).flatMap (fun (w : W64) => leBytes 8 w.toNat) ∧
          (∀ p, p ∉ pas → readByte u p = readByte s p) ∧
          (takes = true → ∀ c, look s.lcnt (recKey x r.words) = some c → look u.lcnt (recKey x r.words) = some { c with next := c.next + 1 }))) ∧
  (
    ∀ (s : State) (q : Nat) (ws : List W64),
      let x := zq s q
      headReady x = true → look s.zen.halts x.ctx.toNat = none → headWords s q = .ok ws →
      let r := headMark x
      (recKind ws = 0 → lcntFull s = false → markLive s x r = true →
        (∀ l, checkLaunch s x.ctx.toNat (taskHead q) ws = .ok (.ok l) → s.lcnt.length < 4096 →
          let n := l.extx * l.exty * l.extz
          ∃ u, exec (.launchRecordTake q) s = .next u ∧ u.mem = s.mem ∧ u.teams = s.teams ∧
            look u.lcnt (lcntKey l.ctx l.lid) = some { count := n, state := 1, next := n, seq := s.nextId, launch := l, queue := q, node := r.node } ∧
            (look u.zen.pcnt l.ctx).map (fun c => (c.count, c.state)) = some (((look s.zen.pcnt l.ctx).getD {}).count + 1, 1) ∧
            (look u.zen.jcnt l.ctx).map (fun c => (c.count, c.state)) = some (((look s.zen.jcnt l.ctx).getD {}).count + 1, 1) ∧
            (zq u q).head = x.head ∧ (zq u q).prog =
              some { key := lcntKey l.ctx l.lid, run := s.nextId, next := 0, last := n, entry := l.kcode + BitVec.ofNat 64 l.laneoff, frame := l.frame }) ∧
        (∀ cause, checkLaunch s x.ctx.toNat (taskHead q) ws = .ok (.error cause) → s.lcnt.length < 4096 → (launchOf ws).compl = 0 → r.node = none →
          let key := lcntKey x.ctx.toNat (launchOf ws).lid
          ∃ u, exec (.launchRecordTake q) s = .next u ∧ u.mem = s.mem ∧ u.teams = s.teams ∧ (zq u q).head = x.head + 1 ∧ (zq u q).prog = none ∧
            ((look s.lcnt key).any cntLive = true → u.lcnt = s.lcnt) ∧
            ((look s.lcnt key).any cntLive = false → (look u.lcnt key).map (fun c => (c.state, c.cause, c.count)) = some (4, cause, 0)) ∧
            (∀ id lane, r.issuer = some (id, lane) → ∃ j m, look u.recs j = some m ∧ m.team = id.team ∧ m.lane = some lane ∧
              (m.words.headD 0).toNat % 256 = cause % 256)) ∧
        (∀ l, launchOf ws = l →
          (l.extx = 0 ∨ l.exty = 0 ∨ l.extz = 0 → checkLaunch s x.ctx.toNat (taskHead q) ws = .ok (.error 0xC1)) ∧
          ((∀ c, recordCause s x.ctx.toNat ws = some c → checkLaunch s x.ctx.toNat (taskHead q) ws = .ok (.error c)) ∧
            (recordCause s x.ctx.toNat ws = none → l.kcode ≠ 0 ∧ 1 ≤ l.extx * l.exty * l.extz ∧ l.extx * l.exty * l.extz ≤ 2 ^ 31 ∧
              l.tagbase + l.tagn ≤ 64 ∧ l.scrkb ≤ 768 ∧ (l.grpm1 + 1) * (8 * (l.regb + 1)) ≤ 4096 ∧ l.ctx = x.ctx.toNat ∧
              (l.chmap = s.chmapId.toNat ∨ l.remap = true) ∧ (look s.lcnt (lcntKey l.ctx l.lid)).any cntLive = false)))) ∧
      (recKind ws = 4 →
        let slot := fieldN (ws.getD 1 0) 0 10
        (∀ ns, readGraph s x.ctx.toNat (taskHead q) slot ws = .ok (.ok ns) → (∀ n ∈ ns, (zq s n.queue).pending ≠ []) →
          ∃ u g, exec (.graphStart q) s = .next u ∧ u.mem = s.mem ∧ (zq u q).head = x.head + 1 ∧ look u.zen.gcnt slot = some g ∧
            g.ctx = x.ctx.toNat ∧ g.state = 1 ∧ g.count = ns.length ∧
            (∀ j n, ns[j]? = some n → g.nodes[j]? = some { n with state := if n.left = 0 then 1 else 0 } ∧
              (n.left = 0 → ∃ m ∈ (zq u n.queue).pending, m.words = n.record ∧ m.node = some (slot, j)))) ∧
        (∀ d, readGraph s x.ctx.toNat (taskHead q) slot ws = .ok (.error d) → (host s (hostOf x.ctx.toNat)).fqEnable = false →
          ∃ u g, exec (.graphStart q) s = .next u ∧ u.mem = s.mem ∧ (zq u q).head = x.head + 1 ∧ look u.zen.gcnt slot = some g ∧
            g.ctx = x.ctx.toNat ∧ g.state = 4 ∧ g.cause = 0xC8 ∧ g.detail = d ∧
            (host u (hostOf x.ctx.toNat)).waiting = (host s (hostOf x.ctx.toNat)).waiting ++ [hostWords x.ctx.toNat 6 d 0xC8 false (slotVa x x.head) (BitVec.ofNat 64 slot) 0])) ∧
      (recKind ws = 5 → ws.getD 0 0 &&& 0x1E00000000000007 = 0 → (∀ w ∈ ws.drop 1, w = 0) →
        ∃ u, exec (.phaseMark q) s = .next u ∧ u.mem = s.mem ∧ (∀ k, zq u k = zq s k) ∧
          look u.zen.halts x.ctx.toNat = some { queue := q, table := ws.getD 0 0 &&& 0x01FFFFFFFFFFFFF8 })) ∧
  (
    ∀ (s : State) (ctx : Nat) (h : Halt), look s.zen.halts ctx = some h → h.failed = false →
      (((look s.zen.pcnt ctx).map (·.count)).getD 0 ≠ 0 → exec (.reconfigurationWindow ctx) s = .next s) ∧
      (((look s.zen.pcnt ctx).map (·.count)).getD 0 = 0 →
        (∀ t : Option GroupTable, (h.table = 0 ∧ t = s.fab.table) ∨ (h.table ≠ 0 ∧ ∃ dw0 x, readTable s ctx (taskCtx ctx) h.table = .ok (dw0, .ok x) ∧ t = some x) →
          s.fab.peers = [] →
          ∃ u, exec (.reconfigurationWindow ctx) s = .next u ∧ u.mem = s.mem ∧ u.teams = s.teams ∧ u.fab.table = t ∧ u.fab.copies = [] ∧ u.fab.dir = [] ∧
            look u.zen.halts ctx = none ∧ look u.zen.pcnt ctx = none ∧ (zq u h.queue).head = (zq s h.queue).head + 1) ∧
        (∀ dw0 d, h.table ≠ 0 → readTable s ctx (taskCtx ctx) h.table = .ok (dw0, .error d) → s.fab.peers = [] → (host s (h.queue / 32)).fqEnable = false →
          ∃ u, exec (.reconfigurationWindow ctx) s = .next u ∧ u.mem = s.mem ∧ look u.zen.halts ctx = some { h with failed := true } ∧
            u.fab.table = none ∧ deviceId u = deviceId s ∧ (∀ m, isMember u m = false) ∧
            (host u (h.queue / 32)).waiting = (host s (h.queue / 32)).waiting ++ [hostWords ctx 7 d 0xB2 false h.table 0 dw0])))

/-- R475: a team's index gives its coordinates, which TEAMX, TEAMY and TEAMZ read and S4 of its lead holds; an index at or beyond the
launch's extent has a z coordinate above EXTZ - 1. -/
def Obligations.TeamCoordinates : Prop :=
  ∀ (c : Ctx) (l : Nat), 1 ≤ c.t.launch.extx → 1 ≤ c.t.launch.exty →
    let x := c.t.launch.extx
    let y := c.t.launch.exty
    let i := c.t.index
    readSel c .r64 .teamX l = BitVec.ofNat 64 (i % x) ∧ readSel c .r64 .teamY l = BitVec.ofNat 64 (i / x % y) ∧
    readSel c .r64 .teamZ l = BitVec.ofNat 64 (i / (x * y)) ∧
    (x * y * c.t.launch.extz ≤ i → c.t.launch.extz - 1 < i / (x * y) ∨ c.t.launch.extz = 0) ∧
    (∀ frame, readV (newLead c.t.launch i frame) 4 0 = BitVec.ofNat 32 i)

/-- Dispatch (R130, R199, R257, R258, R476, R477, R494, R530): the first queue in the order of service has the highest priority, and is
the next one after the queue served last; its next team starts with the state of R130 on the core chosen for it; a saved team comes back
first; a team without a place waits.

Where the spec leaves a point open, this rests on the model's choices: log 10 (the group slots) and 20. -/
def Obligations.TeamsAreDispatched : Prop :=
  ∀ (s : State) (q : Nat) (rest : List Nat), queueOrder s = q :: rest →
    (∀ k, k < 64 → qTaken (zq s k) = true → ((zq s k).head ≠ (zq s k).tail ∨ (zq s k).saved ≠ []) →
      (zq s k).pri.toNat < (zq s q).pri.toNat ∨
        (zq s k).pri = (zq s q).pri ∧ (q + 63 - s.zen.lastQueue) % 64 ≤ (k + 63 - s.zen.lastQueue) % 64) ∧
    (∀ p cnt c dict, (zq s q).saved = [] → (zq s q).prog = some p → liveRun s p.key p.run = some cnt → pickCore s (launchNeed cnt.launch) = some c →
      readDict s (taskPlace q) cnt.launch = .ok dict → cnt.launch.grpm1 < 32 →
      let l := cnt.launch
      ∃ u t, exec .dispatch s = .next u ∧ team u s.nextId = some t ∧ u.mem = s.mem ∧
        t.launch = l ∧ t.index = p.next ∧ t.core = c ∧ t.status = .resident ∧ t.run = p.run ∧ t.queue = q ∧ t.join = p.join ∧ t.trapBase = 0 ∧
        t.flags = launchFlags l ∧ t.barLog = (if l.barlog = 0 then 24 else l.barlog) ∧ t.bars = [] ∧ t.pbars = [] ∧ t.uqWrite = 0 ∧ t.timer = 0 ∧
        t.joins = [] ∧ t.scratch = [] ∧
        (∀ k, get 0x8000000000000000 t.dict k = if k < l.dictn then dict.getD k 0 else 0x8000000000000000) ∧
        (∀ g, g ≤ l.grpm1 → ∃ gr, look t.groups g = some gr ∧ gr.live = 0xFFFFFFFF ∧ gr.alloc = 8 * (l.regb + 1) ∧ gr.inTrap = false ∧
          (∀ n k, readV gr n k = 0) ∧ (∀ n, n ≠ 0 → readP gr n = 0) ∧ gr.uqRead = 0 ∧ gr.dq = [] ∧ gr.arm = [] ∧
          ∀ k, k < 32 → pcOf gr k = p.entry ∧ get 0 gr.sr k = resetSr p.next (l.grpm1 + 1) g k) ∧
        (∃ ld, look t.groups 32 = some ld ∧ ld.live = 1 ∧ ld.alloc = 64 ∧ readPair ld 0 0 = p.frame ∧ readPair ld 2 0 = l.kcode ∧
          readV ld 4 0 = BitVec.ofNat 32 p.next ∧ readV ld 5 0 = BitVec.ofNat 32 (l.grpm1 + 1) ∧ (∀ n, 6 ≤ n → readV ld n 0 = 0) ∧
          pcOf ld 0 = if l.leadoff = 0 then implicitPc else l.kcode + BitVec.ofNat 64 l.leadoff) ∧
        (core u c).icache = [] ∧ (∀ a, look (core u c).l1 a = if (look (core s c).owned (a / 4)).isSome then look (core s c).l1 a else none) ∧
        (p.next + 1 ≠ p.last → (zq u q).prog = some { p with next := p.next + 1 } ∧ (zq u q).head = (zq s q).head) ∧
        (p.next + 1 = p.last → (zq u q).prog = none ∧ (zq u q).head = (zq s q).head + 1) ∧ u.zen.lastQueue = q) ∧
    (∀ tm more t c bs b0 b1, (zq s q).saved = tm :: more → team s tm = some t → pickCore s (savedNeed t) = some c → readArea s tm t = .ok bs →
      (let now := updTeam s tm (withScratch · bs)
       replay now tm t c 0 = .ok b0 ∧ replay now tm t c 1 = .ok b1) →
      ∃ u, exec .dispatch s = .next u ∧ u = restoreOn s q tm t c bs b0 b1 ∧ u.mem = s.mem ∧ tm ∉ (zq u q).saved ∧ ∃ t', team u tm = some t' ∧ t'.status = .resident ∧ t'.core = c ∧
        t'.index = t.index ∧ t'.timer = t.timer ∧ t'.dict = t.dict ∧ t'.bars = t.bars ∧
        ∀ g gr, look t.groups g = some gr → ∃ g', look t'.groups g = some g' ∧ g'.live = gr.live ∧ (∀ l, pcOf g' l = pcOf gr l) ∧ (∀ n, readP g' n = readP gr n) ∧
          (g < 32 → gr.live ≠ 0 → ∀ n l, n < gr.alloc → l < 32 → readV g' n l = BitVec.ofNat 32 (leNat ((bs.drop (saveReg t g n l - saveBase t)).take 4)))) ∧
    (∀ p cnt, rest = [] → (zq s q).saved = [] → (zq s q).prog = some p → liveRun s p.key p.run = some cnt → pickCore s (launchNeed cnt.launch) = none →
      ∃ u, exec .dispatch s = .next u ∧ u.teams = s.teams ∧ u.mem = s.mem ∧ (zq u q).blocked = some ((zq s q).blocked.getD s.cycle) ∧
        (zq u q).prog = some p)

/-- Core quads (R482): a wake ends after its time, and a quad without a team for 20 µs is gated.

The triggers of pre-emption (R34, R145, R491): when one is due, the resident team of the victim's launch with the highest index is
asked to leave, and nothing else changes but the trigger's own time; when it is not due, nothing changes.

Where the spec leaves a point open, this rests on the model's choices: log 20. -/
def Obligations.QuadsAndPreemption : Prop :=
  (
    ∀ (s : State) (q : Nat),
      let x := quad s q
      (∀ t, x.wake = some t →
        (s.cycle < t → exec (.quadWakeDone q) s = .next s) ∧
        (t ≤ s.cycle → ∃ u, exec (.quadWakeDone q) s = .next u ∧ quad u q = { x with awake := true, wake := none, emptyAt := s.cycle } ∧
          (∀ k, k ≠ q → quad u k = quad s k) ∧ u.teams = s.teams ∧ u.mem = s.mem)) ∧
      (x.awake = true → (∀ e ∈ s.teams, e.2.status = .saved ∨ quadOf e.2.core ≠ q ∨ 576 ≤ e.2.core) →
        (s.cycle < x.emptyAt + 35000 → exec (.quadPowerGate q) s = .next s) ∧
        (x.emptyAt + 35000 ≤ s.cycle → ∃ u, exec (.quadPowerGate q) s = .next u ∧ (quad u q).awake = false ∧
          (∀ k, k ≠ q → quad u k = quad s k) ∧ u.teams = s.teams ∧ u.mem = s.mem))) ∧
  (
    ∀ (s : State) (tm : Nat) (t : Team), look s.teams tm = some t → sorted s.teams = true → t.status = .resident → t.launch.save ≠ 0 →
      let other (p : Team → Prop) : Prop := ∀ e ∈ s.teams, e.1 ≠ tm → e.2.status = .resident → e.2.launch.save ≠ 0 → p e.2
      ∃ v tv, look s.teams v = some tv ∧ tv.run = t.run ∧ tv.status = .resident ∧
        (∀ e ∈ s.teams, e.2.run = t.run → e.2.status = .resident → e.2.index ≤ tv.index) ∧
        let asked (u : State) : State := updTeam u v (fun x => { x with preemptReq := true })
        exec (.hostPreemptRequest tm) s = .next (asked s) ∧
        (overSlice s t = true → other (fun x => overSlice s x = true → t.dispatched < x.dispatched) →
          exec (.timeSliceExpiry tm) s = .next (asked s)) ∧
        (∀ q b, (zq s q).blocked = some b → b + 3500 ≤ s.cycle → teamPri s t < (zq s q).pri.toNat →
          other (fun x => teamPri s x < (zq s q).pri.toNat → teamPri s t < teamPri s x ∨ teamPri s t = teamPri s x ∧ x.order < t.order) →
          exec (.priorityPreemptTimeout q) s = .next (asked (updQ s q (fun x => { x with blocked := some s.cycle })))) ∧
        (∀ q c, (quad s q).packAt + 87500 ≤ s.cycle → quadTeams s q = [(tm, t)] → c ∈ placesFor s (savedNeed t) → quadOf c ≠ q →
          exec (.powerPackingCheck q) s = .next (asked (updQuad s q (fun x => { x with packAt := s.cycle })))) ∧
        (∀ b, (core s t.core).stuck = some b → b + 1024 ≤ s.cycle → (∀ e ∈ teamsOn s t.core, e.2.preemptReq = false) →
          other (fun x => x.core = t.core → x.order < t.order) →
          exec (.registerDeadlockBreak t.core) s = .next (asked (updCore s t.core (fun k => { k with breaking := true }))))) ∧
  (
    ∀ (s : State) (tm q c : Nat),
      ((team s tm).all (fun t => overSlice s t) = false → exec (.timeSliceExpiry tm) s = .next s) ∧
      ((∀ b, (zq s q).blocked = some b → s.cycle < b + 3500) → exec (.priorityPreemptTimeout q) s = .next s) ∧
      (s.cycle < (quad s q).packAt + 87500 → exec (.powerPackingCheck q) s = .next s) ∧
      ((quad s q).packAt + 87500 ≤ s.cycle → (quadTeams s q).length ≠ 1 →
        exec (.powerPackingCheck q) s = .next (updQuad s q (fun x => { x with packAt := s.cycle }))) ∧
      ((∀ b, (core s c).stuck = some b → s.cycle < b + 1024) ∨ (∃ e ∈ teamsOn s c, e.2.preemptReq = true) →
        exec (.registerDeadlockBreak c) s = .next s))

/-- Pre-emption takes effect, a cancel ends a team, and a team leaves its core (R30, R33, R56, R57, R480, R485, R492, R493).

Where the spec leaves a point open, this rests on the model's choices: log 15 (a faulted launch's completion word), 17 and 20. -/
def Obligations.TeamsLeaveTheirCores : Prop :=
  ∀ (s : State) (tm : Nat) (t : Team), team s tm = some t →
    (t.preemptReq = true → t.status = .resident → t.cancelReq = false →
      (atBoundary s tm t = false → exec (.preemptionEffect tm) s = .next s) ∧
      (∀ u, atBoundary s tm t = true → (∀ e ∈ s.teams, e.2.run = t.run → e.2.status = .resident → e.1 = tm) → saveTeam s tm t = .ok u →
        exec (.preemptionEffect tm) s = .next (grantFreed u t.core) ∧ ((core s t.core).breaking = false → grantFreed u t.core = u) ∧
          tm ∈ (zq u t.queue).saved ∧ ∃ t', team u tm = some t' ∧ t'.status = .saved ∧ t'.preemptReq = false ∧
          ∀ g gr, look t.groups g = some gr → gr.chain = none → gr.enq = [] → ∃ g', look t'.groups g = some g' ∧ g'.live = gr.live ∧
            (∀ n l, readV g' n l = readV gr n l) ∧ (∀ l, pcOf g' l = pcOf gr l) ∧ (∀ n, readP g' n = readP gr n) ∧ g'.sr = gr.sr ∧ g'.x = gr.x)) ∧
    ((t.cancelReq = false ∨ t.status = .ending → exec (.teamCancel tm) s = .next s) ∧
      (t.cancelReq = true → t.status ≠ .ending → (∀ e ∈ s.cmds, e.2.src.team ≠ tm) →
        ∃ u t', exec (.teamCancel tm) s = .next u ∧ team u tm = some t' ∧ t'.status = .ending ∧ u.mem = s.mem ∧
          ∀ g gr, look t'.groups g = some gr → gr.live = 0)) ∧
    (t.status ≠ .saved →
      (drained s tm t = false → exec (.teamEnd tm) s = .next s) ∧
      (∀ x, drained s tm t = true → t.join = 0 → t.joins = [] → t.contDue = none → liveRun s (lcntKey t.launch.ctx t.launch.lid) t.run = some x → x.node = none →
        let key := lcntKey t.launch.ctx t.launch.lid
        (2 ≤ x.count → ∃ u, exec (.teamEnd tm) s = .next u ∧ team u tm = none ∧ look u.lcnt key = some { x with count := x.count - 1 } ∧ u.mem = s.mem) ∧
        (x.count = 1 → t.launch.compl = 0 → ∃ u, exec (.teamEnd tm) s = .next u ∧ team u tm = none ∧ u.mem = s.mem ∧
          look u.lcnt key = some { x with count := 0, state := if x.fault then 5 else 2 }) ∧
        (∀ pas, x.count = 1 → t.launch.compl ≠ 0 → zenPas s t.launch.ctx .zenWrite (taskEnd tm) t.launch.compl 8 = .ok pas → pas.Nodup →
          isMoving s pas = false → heldAway s pas = [] → (∀ p ∈ pas, tierOf p ≠ some 3) → s.fab.srcns = [] →
          ∃ u, exec (.teamEnd tm) s = .next u ∧ team u tm = none ∧ (∀ p ∈ pas, readByte u p = 0) ∧ (∀ p, p ∉ pas → readByte u p = readByte s p) ∧
            look u.lcnt key = some { x with count := 0, state := if x.fault then 5 else 2 })))

/-! The fabric. -/

/-- Multicasts and the group's registers (R443, R452, R464, R465, R467): a multicast checks its set and its addresses, then one packet
for each member is outstanding; FGRP reads the header, a route and a tree of the group table.

Where the spec leaves a point open, this rests on the model's choices: log 19. -/
def Obligations.FabricWords : Prop :=
  ∀ (w : FWord) (d : Bool) (os : BitVec 3) (s : State) (c : Ctx),
    (∀ i, i = Instr.mcast w d os → Executes i w s c →
      let va (l : Nat) : W64 := (laneIn i w s c l).a
      let n := (lo (laneIn i w s c (lowest c.act)).b).toNat
      let ws := (lanesOf c.act).map (fun l => (l, va l, if d then (laneIn i w s c l).c else zx (lo (laneIn i w s c l).c)))
      (s.fab.table = none → Traps i s 0xB1 1 c.act 0) ∧
      (∀ t, s.fab.table = some t → t.sets[n]? = none → Traps i s 0xB0 1 c.act 0) ∧
      (∀ t ds m rest, s.fab.table = some t → t.sets[n]? = some ds → ds = m :: rest → isMember s m = false → Traps i s 0xB1 1 c.act 0) ∧
      (∀ t ds, s.fab.table = some t → t.sets[n]? = some ds → ds ≠ [] → ds.Nodup → (∀ m ∈ ds, peerFault s m = none) →
        (∀ l ∈ lanesOf c.act, nonCanonical (va l) = false ∧ inScratch (va l) = false ∧ (va l).toNat % (if d then 8 else 4) = 0) →
        storeWait s c false = .ok () → streamWait c os.toNat = .ok () →
        OpIssued i s c .mcast os.toNat [] ∧
        ∃ u, exec i s = .next u ∧ ∀ m ∈ ds, ∃ (k : Nat) (p : Pkt), look u.pkts k = some p ∧ p.src = c.id ∧ p.body = .mcast ws d ∧
          p.dest = if m = deviceId s then 3000 else destDev m 0)) ∧
    (∀ i k, i = Instr.fgrp w k → Executes i w s c →
      let b (l : Nat) : Nat := (lo (laneIn i w s c l).b).toNat
      (k = .info → Does i w s c (fun _ => { val := match s.fab.table with
        | none => 0
        | some t => BitVec.ofNat 64 (t.phase * 2 ^ 48 + t.self * 2 ^ 38 + t.ndev * 2 ^ 16 + t.sets.length * 2 ^ 8 + t.trees.length) }) id) ∧
      (k = .route → (∀ l ∈ lanesOf c.act, b l ≤ 1023) → Does i w s c (fun l => { val := fgrpRoute s (b l) }) id) ∧
      (k = .route → (∃ l ∈ lanesOf c.act, 1023 < b l) → ∃ lanes, Traps i s 0xB0 1 lanes 0) ∧
      (k = .tree → ∀ t, s.fab.table = some t → (∀ l ∈ lanesOf c.act, b l < t.trees.length) →
        Does i w s c (fun l => { val := fgrpTree s (b l) }) id) ∧
      (k = .tree → (∃ l ∈ lanesOf c.act, ((s.fab.table.map (·.trees.length)).getD 0) ≤ b l) → ∃ lanes, Traps i s 0xB0 1 lanes 0))

/-- Collectives (R453 to R461, R466): COLL checks its record for its lowest lane and leaves a command; the start reads and folds the
contributions, or ends with COLL_ABORT if a neighbour cannot be reached; a member without children at the root has the result at
once and writes it at RES; an abort from a neighbour ends the collective here, also one that has not been issued; the completion
collects the flags.

Where the spec leaves a point open, this rests on the model's choices: log 19. -/
def Obligations.CollectivesRun : Prop :=
  (∀ (w : FWord) (os : BitVec 3) (s : State) (c : Ctx) (i : Instr), i = .coll w os → Executes i w s c →
    let l := lowest c.act
    let o := (lo (laneIn i w s c l).a).toNat
    let cmd := collCmd c os.toNat o
    (s.fab.table = none → Traps i s 0xB1 1 (oneLane l) 0) ∧
    (s.fab.table ≠ none → (o % 128 ≠ 0 ∨ scratchSize c.t < o + 128) → Traps i s 0xB0 2 (oneLane l) 0) ∧
    (s.fab.table ≠ none → o % 128 = 0 → o + 128 ≤ scratchSize c.t → ∀ cause detail, collFault s c o = some (cause, detail) →
      Traps i s cause detail (oneLane l) 0) ∧
    (o % 128 = 0 → o + 128 ≤ scratchSize c.t → collFault s c o = none → storeWait s c false = .ok () → streamWait c os.toNat = .ok () →
      collCount s < 16 → tagFree s c.id.team cmd.tag = true →
      ∃ u g n x k op, exec i s = .next u ∧ group u c.id = some g ∧ u.mem = s.mem ∧ look u.cmds n = some x ∧ x.src = c.id ∧ x.lane = l ∧
        x.body = .coll (collRec c.t o) ∧ x.tag = cmd.tag ∧ x.stream = os.toNat ∧ x.started = false ∧ x.op = some k ∧
        look g.ops k = some op ∧ op.kind = .coll ∧ (∀ n l, l < 32 → readV g n l = readV c.gr n l) ∧
        (∀ l, l < 32 → pcOf g l = if c.at_.getLsbD l then c.next else pcOf c.gr l)) ∧
    (o % 128 = 0 → o + 128 ≤ scratchSize c.t → collFault s c o = none → storeWait s c false = .ok () → streamWait c os.toNat = .ok () →
      16 ≤ collCount s → Waits i s)) ∧
  (∀ (s : State) (n : Nat) (c : Cmd) (k : CollCmd) (te : TreeEnt), look s.cmds n = some c → c.body = .coll k →
    c.fault = none → treeOf s k.tree = some te →
    (c.started = false → cmdMayStart s c = true → s.fab.collIn = [] → (∃ d ∈ treeNear te, reachable s d = false) →
      ∃ u x, exec (.collStart n) s = .next u ∧ look u.cmds n = some x ∧ u.mem = s.mem ∧
        x.fault = some { cause := 0xB6, detail := 1, addr := 0, extra := zx k.inst }) ∧
    (c.started = false → cmdMayStart s c = true → s.fab.collIn = [] → (∀ d ∈ treeNear te, reachable s d = true) →
      ∀ xs fl, ownFold s n c k = .ok (xs, fl) →
      ∃ u x k', exec (.collStart n) s = .next u ∧ look u.cmds n = some x ∧ u.mem = s.mem ∧ x.started = true ∧ x.body = .coll k' ∧
        k'.own = some xs ∧ (te.parent = 0x3FF → te.children = [] → k.result = none → k.final = none → k'.final = some xs)) ∧
    (k.dkind = 0 → k.written = false → c.left = 0 → isRoot te = true → ∀ xs, k.final = some xs → ∀ u, writeRes s n c k xs = .ok u →
      exec (.collComplete n) s = .next u ∧ ∃ x k', look u.cmds n = some x ∧ x.body = .coll k' ∧ k'.written = true)) ∧
  (∀ (s : State) (n : Nat) (c : Cmd) (k : CollCmd) (t : Team), look s.cmds n = some c → c.body = .coll k → team s c.src.team = some t →
    c.stat = none → t.status = .resident → (c.fault ≠ none ∨ (k.written = true ∧ c.left = 0)) →
    ∃ u t', exec (.collComplete n) s = .next u ∧ look u.cmds n = none ∧ team u c.src.team = some t' ∧ t'.flags = t.flags ||| c.flags ∧
      u.mem = s.mem ∧ ∀ g o, group s c.src = some g → c.op = some o → ∃ g', group u c.src = some g' ∧ look g'.ops o = none) ∧
  (∀ (s : State) (f : Flit), FreshPacket 0x0D f s →
    let tree := payField f 32 4
    let inst : W32 := BitVec.ofNat 32 (payField f 0 32)
    (∀ n c k, findColl s tree inst = some (n, c, k) → look s.cmds n = some c → c.body = .coll k → payField f 36 2 = 0 → c.fault = none →
      collDone k = false →
      ∃ u x, exec (.collctl f) s = .next u ∧ look u.cmds n = some x ∧ x.flags = 0 ∧ u.mem = s.mem ∧
        x.fault = some { cause := payField f 38 8, detail := payField f 46 8, addr := 0, extra := zx inst }) ∧
    (findColl s tree inst = none → payField f 36 2 = 0 → s.fab.collIn = [] →
      ∃ u x, exec (.collctl f) s = .next u ∧ u.mem = s.mem ∧ x ∈ u.fab.collIn ∧ x.tree = tree ∧ x.inst = inst ∧
        x.abort = some (payField f 38 8, payField f 46 8)))

/-- Replies and resending (R434 to R437, R444, R449): an ACK frees the packets that it covers; a NAK sends the packet again or keeps it
for the next ACK; a DONE ends the operation that it answers; packets without an ACK for 4 µs go again, a PROBE follows 4 µs without
a packet, and after 20 µs without an answer, or with every port down, everything outstanding to a device ends.

Where the spec leaves a point open, this rests on the model's choices: log 19. -/
def Obligations.FabricReplies : Prop :=
  ∀ (s : State) (f : Flit) (d : Nat),
    (d = fSdev f → Arrives 0x01 f s → (peerOf s d).waiting = [] → (peerOf s d).unreach = false →
      let covered (p : FabPkt) : Bool := p.tsn == BitVec.ofNat 32 (payField f 0 32) ||
        decide ((BitVec.ofNat 32 (payField f 32 32) - p.tsn : W32).toNat < 2 ^ 31)
      ∃ u, exec (.ack f) s = .next u ∧ u.mem = s.mem ∧
        (peerOf u d).retx.map (fun (p : FabPkt) => p.tsn) = ((peerOf s d).retx.filter (fun p => !covered p)).map (fun (p : FabPkt) => p.tsn)) ∧
    (d = fSdev f → Arrives 0x02 f s →
      ∃ u, exec (.nak f) s = .next u ∧ u.mem = s.mem ∧ ∀ p ∈ (peerOf u d).retx, p.tsn = BitVec.ofNat 32 (payField f 0 32) →
        if payField f 32 1 = 0 then p.sentAt = s.cycle ∧ p.refused = false else p.refused = true) ∧
    (FreshPacket 0x03 f s → ∀ n a, awayOf s f = some (n, a) → n < s.nextId →
      ∃ u, exec (.done f) s = .next u ∧ look u.fab.away n = none ∧ ((∀ j o, a.kind ≠ .lower j o) → u.mem = s.mem) ∧
        ∀ gr o op, group s a.src = some gr → isGuest a.src = false → a.op = some o → look gr.ops o = some op →
          (∀ l, a.kind ≠ .line l) → (∀ c, a.kind ≠ .engine c) → (∀ c cap, a.kind ≠ .deliver c cap) →
          (∀ c ws o, a.kind ≠ .merge c ws o) → (∀ k, a.kind ≠ .raise k) → (∀ j o, a.kind ≠ .lower j o) →
          ∃ g, group u a.src = some g ∧ look g.ops o = if 2 ≤ op.left then some { op with left := op.left - 1 } else none) ∧
    (∃ u, exec (.resendTimeout d) s = .next u ∧ u.mem = s.mem ∧
      (peerOf u d).retx.map (fun (p : FabPkt) => p.tsn) = (peerOf s d).retx.map (fun (p : FabPkt) => p.tsn) ∧
      ∀ p ∈ (peerOf u d).retx, p.refused = true ∨ s.cycle < p.sentAt + 7000) ∧
    ((peerOf s d).retx ≠ [] → (peerOf s d).lastSent + 7000 ≤ s.cycle →
      ∃ (u : State) (p : FabPkt), exec (.probeTimer d) s = .next u ∧ u.mem = s.mem ∧ p ∈ (peerOf u d).retx ++ (peerOf u d).waiting ∧ p.body = .ctl 0x0E 0) ∧
    (unreachableNow s d = true →
      ∃ u, exec (.unreachableTimeout d) s = .next u ∧ u.mem = s.mem ∧ (peerOf u d).unreach = true ∧ ∀ e ∈ u.fab.away, e.2.dev ≠ d) ∧
    (∀ port wave, ∃ u, exec (.lossOfSignal port wave) s = .next u ∧ u.mem = s.mem ∧
      get 0 u.fab.ports port = get 0 s.fab.ports port &&& ~~~(1#32 <<< wave))

/-- Packets of other devices (R430, R436, R442, R444, R445, R450): each is taken once, changes no byte of memory on arrival, and has its
effect: a watermark, a read or a send on its way to its slice or gateway, a local copy dropped and acknowledged, a holder removed, a
range closed, a source number's tables cleared.

Bursts (R431 to R433, R462): a BURST flit opens a staging buffer, data flits fill it, and with the tag it is checked: a bad tag
discards it, a good one lets its items go to their slices; one that misses flits 1 µs after its BTAG is discarded.

Where the spec leaves a point open, this rests on the model's choices: log 19. -/
def Obligations.FabricPackets : Prop :=
  (
    ∀ (s : State) (f : Flit),
      let d := fSdev f
      let src := guestSrc d (fSrcn f)
      let taken (u : State) : Prop := u.mem = s.mem ∧ ((peerOf s d).marks.length ≤ 1024 → arrivalOf (peerOf u d) (fTsn f) = .again)
      (∀ i k, (k, i) ∈ [(0x03, Instr.done f), (0x04, .wmark f), (0x05, .read f), (0x06, .inval f), (0x07, .invack f), (0x08, .send1 f),
          (0x0B, .close f), (0x0C, .retire f), (0x0D, .collctl f), (0x0E, .probe f)] →
        Arrives k f s → arrivalOf (peerOf s d) (fTsn f) = .again →
        ∃ u, exec i s = .next u ∧ { u with fab := { u.fab with sent := s.fab.sent, peers := s.fab.peers } } = s ∧ (∀ k, k ≠ d → peerOf u k = peerOf s k) ∧
          { peerOf u d with lastSent := (peerOf s d).lastSent, quiet := (peerOf s d).quiet } = peerOf s d) ∧
      (FreshPacket 0x04 f s → fStream f ≠ 0 → s.pkts = [] →
        ∃ u, exec (.wmark f) s = .next u ∧ taken u ∧ ∀ x ∈ guestDests s src (fStream f) ++ [allDests],
          (commitOf u x src (fStream f)).wm = wmMax (commitOf s x src (fStream f)).wm (fWm f)) ∧
      (FreshPacket 0x05 f s → local01 (payField f 0 52) = true →
        ∃ u k p n, exec (.read f) s = .next u ∧ taken u ∧ look u.pkts k = some p ∧ p.dest = homeSlice (payField f 0 52) ∧ p.src = src ∧
          p.body = .peerRead (payField f 0 52) (payField f 52 3) (payField f 55 1 == 1) ∧ p.op = some n ∧
          look u.fab.guests n = some { dev := d, srcn := fSrcn f, stream := fStream f, seq := fSeq f, left := 1 }) ∧
      (FreshPacket 0x06 f s →
        let ln := peerPa d (payField f 7 45 * 128) / 128
        ∃ u, exec (.inval f) s = .next u ∧ taken u ∧ (∀ a, a / 128 = ln → look u.fab.copies a = none) ∧
          ∃ p ∈ (peerOf u d).retx ++ (peerOf u d).waiting, p.body = .ctl 0x07 (payField f 7 45 * 128)) ∧
      (FreshPacket 0x07 f s →
        ∃ u, exec (.invack f) s = .next u ∧ taken u ∧ ∀ e, look u.fab.dir (payField f 7 45) = some e → d ∉ e.devs ∧ d ∉ e.waiting) ∧
      (FreshPacket 0x08 f s → closed s f = false →
        ∃ u k p, exec (.send1 f) s = .next u ∧ taken u ∧ look u.pkts k = some p ∧ p.src = src ∧ p.dest = capDest s (flitDw f 2) ∧
          p.body = .send (.cap (flitDw f 2)) false false
            [{ lane := payField f 64 5, off := BitVec.ofNat 32 (payField f 69 6), val := BitVec.ofNat 64 (payField f 75 32) }]) ∧
      (FreshPacket 0x0B f s →
        let first : BitVec 24 := BitVec.ofNat 24 (payField f 0 24)
        let last : BitVec 24 := BitVec.ofNat 24 (payField f 24 24)
        (∀ e ∈ s.pkts, e.2.src = src ∧ e.2.stream = fStream f ∧ seqGe e.2.seq first = true ∧ seqGe last e.2.seq = true ∧ pktTaken s e.1 e.2 = false) →
        ∃ u, exec (.close f) s = .next u ∧ taken u ∧ u.pkts = [] ∧
          let old := (commitOf s allDests src (fStream f)).last
          (commitOf u allDests src (fStream f)).last = if last = 0 then old else if old = 0 then last else seqMax old last) ∧
      (FreshPacket 0x0C f s →
        ∃ u, exec (.retire f) s = .next u ∧ taken u ∧ u.commits = s.commits.filter (fun c => c.src ≠ src)) ∧
      (FreshPacket 0x0E f s → ∃ u, exec (.probe f) s = .next u ∧ taken u)) ∧
  (
    ∀ (s : State) (f : Flit),
      (Arrives 0x09 f s → (s.fab.bursts.filter (fun b => b.port == f.port)).length < 64 →
        ∃ u, exec (.burst f) s = .next u ∧ u.mem = s.mem ∧ u.fab.bursts.getLast? = some { port := f.port, hdr := f.words }) ∧
      (∀ b, portUp s f.port = true → f.words.length = 64 →
        s.fab.bursts.find? (fun b => b.port = f.port ∧ fSdev (burstFlit b) = f.src ∧ !burstFull b) = some b → b.tag = none →
        ∃ u, exec (.dataFlit f) s = .next u ∧ u.mem = s.mem ∧ { b with flits := b.flits ++ [f.words] } ∈ u.fab.bursts) ∧
      (∀ b, Arrives 0x0A f s → s.fab.bursts.find? (fun b => sameBurst b { port := f.port, hdr := f.words }) = some b → burstFull b = true →
        let h := burstFlit b
        (burstTag b.hdr b.flits ≠ (flitDw f 2).toNat →
          ∃ u, exec (.btag f) s = .next u ∧ u.mem = s.mem ∧ u.pkts = s.pkts ∧ (∀ x ∈ u.fab.bursts, sameBurst x b = false) ∧
            get 0 u.counters (0xD000 / 8 + 4 * b.port + 2) = get 0 s.counters (0xD000 / 8 + 4 * b.port + 2) + 1) ∧
        (burstTag b.hdr b.flits = (flitDw f 2).toNat → arrivalOf (peerOf s (fSdev h)) (fTsn h) = .fresh → closed s h = false →
          ∀ is slice, burstItems b.flits = (is, false) → is ≠ [] → (∀ x ∈ is, itemType x = 1) → is.flatMap writeBytesOf ≠ [] →
            (∀ e ∈ is.flatMap writeBytesOf, local01 e.1 = true ∧ homeSlice e.1 = slice) →
          ∃ u k p, exec (.btag f) s = .next u ∧ u.mem = s.mem ∧ (∀ x ∈ u.fab.bursts, sameBurst x b = false) ∧ look u.pkts k = some p ∧
            p.dest = slice ∧ p.src = guestSrc (fSdev h) (fSrcn h) ∧ p.stream = fStream h ∧ p.seq = fSeq h ∧
            p.body = .store [{ lane := 0, bytes := is.flatMap writeBytesOf }] false)) ∧
      (∀ port, ∃ u, exec (.burstTimeout port) s = .next u ∧ u.mem = s.mem ∧
        ∀ b ∈ u.fab.bursts, b.port = port → burstFull b = false → ∀ t c, b.tag = some (t, c) → s.cycle < c + 1750))

/-! The rest of the device. -/

/-- Ceiling and the regions of Stratus (R21 to R23, R525, R526): a request that fits the window's pool is granted and charged, another one
waits; a new window starts with a fresh pool and grants the oldest request; a region's level follows its occupancy, a region powers
down after 8,192 idle cycles with empty border FIFOs, and a flit wakes it 64 region cycles later, or 6 in the same region cycle.

Channels (R512, R513): a channel is retired or narrowed while the reserve of its group lasts, and then its group's storage moves; with
the reserve used up the request is counted; the end of a move gives the region its hash function.

Where the spec leaves a point open, this rests on the model's choices: log 21. -/
def Obligations.LeaveRegionsAndChannels : Prop :=
  (
    ∀ (s : State),
      (∀ n c, look s.cmds n = some c → c.fault = none → wantsLeave s n c = true → afterHigher s (quadOf c.core) = false →
        s.ceil.window = s.cycle / 1750 → s.ceil.queue = [] →
        let fits : Prop := s.ceil.spent = 0 ∨ (s.ceil.spent + chargeOf c) * 1280 ≤ (s.ceil.pcap - 600) * 1000000 * s.ceil.scale
        (fits → ∃ u, exec (.leaveRequest n) s = .next u ∧ look u.cmds n = some { c with leave := .granted } ∧ u.mem = s.mem ∧
          u.ceil.spent = s.ceil.spent + chargeOf c ∧ u.ceil.queue = []) ∧
        (¬ fits → ∃ u, exec (.leaveRequest n) s = .next u ∧ look u.cmds n = some { c with leave := .queued } ∧ u.mem = s.mem ∧
          u.ceil.spent = s.ceil.spent ∧ u.ceil.queue = [n])) ∧
      (s.ceil.window ≠ s.cycle / 1750 →
        (s.ceil.queue = [] → exec .ceilingWindow s = .next { s with ceil := { s.ceil with window := s.cycle / 1750, spent := 0 } }) ∧
        (∀ n rest c, s.ceil.queue = n :: rest → look s.cmds n = some c →
          ∃ u, exec .ceilingWindow s = .next u ∧ look u.cmds n = some { c with leave := .granted } ∧ u.ceil.window = s.cycle / 1750)) ∧
      (∀ r : Nat, let x := (look s.regions r).getD {}
        let cycles (n : Nat) : Nat := regionCycles x n
        (∀ occ, x.down = false → x.windowAt + cycles 1024 ≤ s.cycle →
          exec (.regionGovernorWindow r occ) s = .next { s with regions := put s.regions r { x with
            windowAt := s.cycle
            level := if 75 < occ then min 7 (x.level + 1) else if occ < 25 then x.level - 1 else x.level } }) ∧
        (x.down = false → x.wake = none → x.idleSince + cycles 8192 ≤ s.cycle → fifoHolds s r = false →
          exec (.regionPowerDown r) s = .next { s with regions := put s.regions r { x with down := true, downAt := s.cycle } }) ∧
        (x.down = true → regionTraffic s r = true →
          exec (.regionWake r) s = .next { s with regions := put s.regions r { x with
            down := false, idleSince := s.cycle, wake := some (s.cycle + cycles (if regionCycle x x.downAt = regionCycle x s.cycle then 6 else 64)) } }) ∧
        (∀ t, x.wake = some t → t ≤ s.cycle →
          exec (.regionWakeAccept r) s = .next { s with regions := put s.regions r { x with wake := none, idleSince := s.cycle } }))) ∧
  (
    ∀ (s : State) (c r fn : Nat),
      (c < 448 → look s.sys.channels c = none → s.moving.contains (chanGroup c) = false →
        (outOfService s (chanGroup c) < (if 384 ≤ c then 2 else 4) →
          ∃ u, exec (.channelRetire c) s = .next u ∧ (look u.sys.channels c = some 1 ∨ look u.sys.channels c = some 2) ∧
            u.moving = s.moving ++ [chanGroup c] ∧ u.mem = s.mem) ∧
        ((if 384 ≤ c then 2 else 4) ≤ outOfService s (chanGroup c) →
          exec (.channelRetire c) s = .next { s with sys := { s.sys with declined := s.sys.declined + 1 } })) ∧
      (local01 (r * 2 ^ 21) = true → fn < 8 → (s.moving.contains (regionGroup r) = true ∨ get 0 s.chanFn r ≠ fn) →
        ∃ u, exec (.channelMapChange r fn) s = .next u ∧ get 0 u.chanFn r = fn ∧ regionGroup r ∉ u.moving ∧ u.mem = s.mem))

/-- Asynchronous fault records (R49 to R53, R264): a record reaches its team's ring, or is counted as lost when 32 wait; one whose team
has ended goes to the host; the first record that goes to a source is delivered to it as a trap with its four doublewords in TREC
(outside a chain).

Where the spec leaves a point open, this rests on the model's choices: log 16. -/
def Obligations.FaultRecordsAreDelivered : Prop :=
  ∀ (s : State),
    (∀ n m t, look s.recs n = some m → team s m.team = some t →
      let r : RingRec := { words := m.words, lane := m.lane }
      (recTarget t r ≠ none → t.ring.length < 32 →
        ∃ u, exec (.faultRecordArrival n) s = .next u ∧ look u.recs n = none ∧ u.mem = s.mem ∧
          team u m.team = some { t with ring := t.ring ++ [r] }) ∧
      (recTarget t r ≠ none → 32 ≤ t.ring.length →
        ∃ u, exec (.faultRecordArrival n) s = .next u ∧ look u.recs n = none ∧ u.mem = s.mem ∧
          team u m.team = some { t with lost := min 0xFFFF (t.lost + 1) }) ∧
      (recTarget t r = none →
        exec (.faultRecordArrival n) s = .next (recToHost { s with recs := del s.recs n } (originOf t) r))) ∧
    (∀ n m o, look s.recs n = some m → team s m.team = none → m.origin = some o →
      exec (.faultRecordArrival n) s = .next (recToHost { s with recs := del s.recs n } o { words := m.words, lane := m.lane })) ∧
    (∀ (tm g : Nat) (t : Team) (gr : Group) (r : RingRec) (rest : List RingRec),
      team s tm = some t → look t.groups g = some gr → t.ring = r :: rest → (∀ x ∈ t.ring, recTarget t x ≠ none) →
      recTarget t r = some g → canDeliver s t ⟨tm, g⟩ gr = true → t.trapBase ≠ 0 → gr.chain = none →
      ∃ u t' x, exec (.asyncFaultDelivery tm g) s = .next u ∧ u.mem = s.mem ∧ team u tm = some t' ∧ look t'.groups g = some x ∧
        (t.lost = 0 → t'.ring = rest) ∧ x.inTrap = true ∧ x.trec = deliveredWords ⟨tm, g⟩ r ∧ x.tcause.getLsbD 16 = true ∧
        (∀ n l, readV x n l = readV gr n l) ∧
        (∀ l, l < 32 → gr.live.getLsbD l = true → pcOf x l = if g = 32 then t.trapBase + 64 else t.trapBase))

/-- Starts (R520, R521): a start that passes every step leaves a running module with COUNT 0; the first step that fails is recorded in
LAST with a COUNT one higher, at most 3; with COUNT 3 a start enters Dawn mode unless it is asked for with RECOVER; a request waits
while a copy into flash is under way; without power everything but STARTFAIL is lost.

Where the spec leaves a point open, this rests on the model's choices: log 8 and 21. -/
def Obligations.StartsAndResets : Prop :=
  ∀ (s : State) (h : Nat) (i : Instr), h < 2 →
    let count := fieldN s.startFail 0 2
    let last := fieldN s.startFail 4 4
    let starts (recover : Bool) : Prop := ∃ u, exec i s = .next u ∧
      (failedStep s = 0 → (count ≠ 3 ∨ recover = true) →
        u.sys.mode = .running ∧ u.sys.frozen = false ∧ u.mem = [] ∧ u.teams = [] ∧ u.featAccept = 0 ∧
        u.startFail = BitVec.ofNat 64 (last * 16) ∧ u.dawnWhy = 0) ∧
      (failedStep s ≠ 0 → count ≠ 3 →
        u.sys.mode = .failed ∧ u.startFail = BitVec.ofNat 64 (failedStep s * 16 + min 3 (count + 1)) ∧ u.teams = []) ∧
      (failedStep s ≠ 0 → count = 3 → recover = true →
        u.sys.mode = .dawn ∧ u.dawnWhy = 1 ∧ u.startFail = BitVec.ofNat 64 (failedStep s * 16 + 3)) ∧
      (count = 3 → recover = false → u.sys.mode = .dawn ∧ u.dawnWhy = (if 3 ≤ s.sys.trips then 3 else 1) ∧ u.startFail = s.startFail)
    (i = .powerOn → s.sys.mode = .off → starts false) ∧
    (i = .resetreqStart h → s.sys.mode ≠ .off → dawnNow s = false → s.sys.flashBusy = none → s.sys.trip = false → starts false) ∧
    (i = .resetreqRecover h → s.sys.mode ≠ .off → dawnNow s = false → s.sys.flashBusy = none → s.sys.trip = false → starts true) ∧
    (i = .dawnreqEnter h → s.sys.mode ≠ .off → dawnNow s = false → s.sys.flashBusy = none → s.sys.trip = false →
      ∃ u, exec i s = .next u ∧ u.sys.mode = .dawn ∧ u.dawnWhy = 2 ∧ u.startFail = s.startFail ∧ u.teams = []) ∧
    (∀ k, (i, k) ∈ [(Instr.resetreqStart h, ResetKind.start), (.resetreqRecover h, .recover), (.dawnreqEnter h, .dawn)] →
      s.sys.mode ≠ .off → dawnNow s = false → s.sys.flashBusy ≠ none →
      exec i s = .next { s with sys := { s.sys with waiting := s.sys.waiting ++ [k] } }) ∧
    (i = .powerLoss → s.sys.mode ≠ .off →
      ∃ u, exec i s = .next u ∧ u.sys.mode = .off ∧ u.mem = [] ∧ u.teams = [] ∧ u.startFail = s.startFail)

/-- Freeze and temperature (R527, R528): FREEZE or its pin stops the module, a write of 0 resumes it with the pin released and no thermal
trip, and a sample sets the factor s and freezes the module at 110 °C.

The management registers (R522, R523, R525, R529): the nonce's last doubleword asks for a report, which is written at QUOTEADDR; FLASHCTL
starts a copy that leaves a new image or the old one; FEATURE_ACCEPT can be written until a queue is enabled; PCAP takes 1,000 to
3,600 W; QUOTEADDR and FLASHADDR hold their writable bits.

Where the spec leaves a point open, this rests on the model's choices: log 8 and 21. -/
def Obligations.SystemController : Prop :=
  (
    ∀ (s : State) (h : Nat), h < 2 → s.sys.mode ≠ .off →
      exec (.freezeRequest h) s = .next { s with sys := { s.sys with freezeReq := true, frozen := true } } ∧
      exec (.freezeResume h) s = .next (if s.sys.trip then s else { s with sys := { s.sys with freezeReq := false, frozen := s.sys.frozen && s.sys.freezePin } }) ∧
      exec .freezePinAssert s = .next { s with sys := { s.sys with freezePin := true, frozen := true } } ∧
      exec .freezePinRelease s = .next { s with sys := { s.sys with freezePin := false } } ∧
      (s.sys.sampledAt + 17500 ≤ s.cycle → ∃ u, exec .thermalSample s = .next u ∧ u.sys.sampledAt = s.cycle ∧ u.mem = s.mem ∧
        (u.sys.temp < 1520 → u.ceil.scale = 1280) ∧ (1520 ≤ u.sys.temp → u.sys.temp ≤ 1680 → u.ceil.scale = 1280 - 6 * (u.sys.temp - 1520)) ∧
        (1680 < u.sys.temp → u.ceil.scale = 320) ∧ (1760 ≤ u.sys.temp → u.sys.frozen = true ∧ u.sys.trip = true) ∧
        (u.sys.temp < 1760 → u.sys.frozen = s.sys.frozen)) ∧
      (∀ (m : Move), s.sys.frozen = true → (∀ i, m ≠ .event i) → perform m s = .next s)) ∧
  (
    ∀ (s : State) (h : Nat) (v : W64), h < 2 → s.sys.mode ≠ .off →
      (∃ u n, exec (.quoteRequest h v) s = .next u ∧ u.sys.quote = some (h, n) ∧ n[3]? = some v ∧ get false u.sys.quoteDone h = false ∧ u.mem = s.mem ∧
        ∀ a b c d, look s.sys.nonce h = some [a, b, c, d] → n = [a, b, c, v]) ∧
      (∀ n, s.sys.quote = some (h, n) → n.length = 4 →
        let pa := (get 0 s.sys.quoteAddr h).toNat
        (∀ j, j < 4960 → (tierOf (pa + j)).isSome = true ∧ tierOf (pa + j) ≠ some 3) →
        ∃ u, exec .quoteReportWritten s = .next u ∧ u.sys.quote = none ∧ get false u.sys.quoteDone h = true ∧
          (∀ j, j < 4960 → some (readByte u (pa + j)) = (report s n)[j]?) ∧ (∀ a, a < pa ∨ pa + 4960 ≤ a → readByte u a = readByte s a)) ∧
      (s.sys.flashBusy = none → v.getLsbD 63 = true →
        exec (.flashCopyStart h v) s = .next { s with sys := { s.sys with flashBusy := some h, flashLen := put s.sys.flashLen h (v.setWidth 32) } }) ∧
      (s.sys.flashBusy = some h → s.sys.waiting = [] →
        ∃ u, exec .flashCopyDone s = .next u ∧ u.sys.flashBusy = none ∧ u.mem = s.mem ∧
          (get false u.sys.flashErr h = true → u.sys.flashNo = s.sys.flashNo)) ∧
      (∀ high, exec (.featureAcceptWrite h high v) s = .next (if high = true ∨ s.zen.enabled = true then s else { s with featAccept := v.setWidth 8 })) ∧
      (let w := v.toNat % 4096
       exec (.pcapWrite h v) s = .next (if 1000 ≤ w ∧ w ≤ 3600 then { s with ceil := { s.ceil with pcap := w } } else s)) ∧
      (exec (.registerWrite h 0x8028 v) s = .next { s with sys := { s.sys with quoteAddr := put s.sys.quoteAddr h (v &&& 0x000FFFFFFFFFFFC0) } }) ∧
      (exec (.registerWrite h 0x8058 v) s = .next { s with sys := { s.sys with flashAddr := put s.sys.flashAddr h (v &&& 0x000FFFFFFFFFF000) } }))

/-- Memory stays in its canonical form: every step keeps it, whichever move it makes. -/
def Obligations.MemoryStaysCanonical : Prop :=
  ∀ s t, memWf s.mem = true → step s = .next t → memWf t.mem = true

/-- The machine right after a passed start: it runs, memory is zero, no team is there, the fault rings are disabled with LOG2N 8, PCAP is
3,200 W, every region has level 4, and FEATURE_ACCEPT, PARITY and STARTFAIL.COUNT are 0. -/
def Obligations.ResetState : Prop :=
  memWf State.reset.mem = true ∧ running State.reset = true ∧ (∀ a, readByte State.reset a = 0) ∧ State.reset.teams = [] ∧
  (∀ h, (host State.reset h).fqEnable = false ∧ (host State.reset h).fqLog2n = 8) ∧ State.reset.featAccept = 0 ∧
  State.reset.ceil.pcap = 3200 ∧ (∀ r, ((look State.reset.regions r).getD {}).level = 4) ∧
  (∀ c, (core State.reset c).array.parity = 0) ∧ failCount State.reset = 0
end

