-- ==== Sys2Proof/Laws/Map.lean ====
section
/-! SUPPORT. The laws of finite maps: what a look-up sees of a write, and that writes keep the canonical form. -/

namespace Sys2Proof.Machine

variable {α : Type}

@[simp] theorem look_put_same (m : FMap α) (k : Nat) (v : α) : look (put m k v) k = some v := by
  induction m with
  | nil => simp [put, look]
  | cons e t ih =>
    obtain ⟨j, w⟩ := e
    unfold put
    split
    · simp [look]
    · split
      · simp [look]
      · rw [look, if_neg (by omega), ih]

theorem look_put_other (m : FMap α) {k j : Nat} (v : α) (h : j ≠ k) : look (put m k v) j = look m j := by
  induction m with
  | nil => simp [put, look, h.symm]
  | cons e t ih =>
    obtain ⟨i, w⟩ := e
    unfold put
    split
    · simp [look, h.symm]
    · split
      · subst_vars; simp [look, h.symm]
      · simp only [look, ih]

theorem look_put (m : FMap α) (k j : Nat) (v : α) : look (put m k v) j = if j = k then some v else look m j := by
  split
  · subst_vars; exact look_put_same ..
  · exact look_put_other _ _ ‹_›

@[simp] theorem look_del_same (m : FMap α) (k : Nat) : look (del m k) k = none := by
  induction m with
  | nil => rfl
  | cons e t ih =>
    obtain ⟨j, w⟩ := e
    unfold del
    split
    · exact ih
    · rw [look, if_neg ‹_›, ih]

theorem look_del_other (m : FMap α) {k j : Nat} (h : j ≠ k) : look (del m k) j = look m j := by
  induction m with
  | nil => rfl
  | cons e t ih =>
    obtain ⟨i, w⟩ := e
    unfold del
    split
    · subst_vars; rw [ih, look, if_neg h.symm]
    · simp only [look, ih]

theorem look_del (m : FMap α) (k j : Nat) : look (del m k) j = if j = k then none else look m j := by
  split
  · subst_vars; exact look_del_same ..
  · exact look_del_other _ ‹_›

theorem get_set [DecidableEq α] (d : α) (m : FMap α) (k j : Nat) (v : α) :
    get d (set d m k v) j = if j = k then v else get d m j := by
  unfold get set
  split
  · rw [look_del]; split <;> simp_all
  · rw [look_put]; split <;> simp

@[simp] theorem get_set_same [DecidableEq α] (d : α) (m : FMap α) (k : Nat) (v : α) : get d (set d m k v) k = v := by
  rw [get_set, if_pos rfl]

theorem get_set_other [DecidableEq α] (d : α) (m : FMap α) {k j : Nat} (v : α) (h : j ≠ k) :
    get d (set d m k v) j = get d m j := by rw [get_set, if_neg h]

theorem look_upd (m : FMap α) (k j : Nat) (f : α → α) :
    look (upd m k f) j = if j = k then (look m k).map f else look m j := by
  unfold upd
  cases h : look m k with
  | none => split <;> simp_all
  | some v => simp [look_put]

@[simp] theorem look_upd_same (m : FMap α) (k : Nat) (f : α → α) : look (upd m k f) k = (look m k).map f := by
  rw [look_upd, if_pos rfl]

theorem look_upd_other (m : FMap α) {k j : Nat} (f : α → α) (h : j ≠ k) : look (upd m k f) j = look m j := by
  rw [look_upd, if_neg h]

/-! A write of one value for each lane of a list of lanes. -/

/-- A fold that writes a value per lane, at keys that tell lanes apart. -/
theorem get_foldl_set [DecidableEq α] (d : α) (key : Nat → Nat) (f : Nat → α) (hk : ∀ a b, key a = key b → a = b)
    (ls : List Nat) (m : FMap α) (j : Nat) :
    get d (ls.foldl (fun m l => set d m (key l) (f l)) m) (key j) = if j ∈ ls then f j else get d m (key j) := by
  induction ls generalizing m with
  | nil => simp
  | cons l ls ih =>
    rw [List.foldl_cons, ih, get_set]
    by_cases h : j ∈ ls
    · simp [h]
    · by_cases e : j = l
      · simp [e]
      · simp [h, e]; exact fun x => absurd (hk _ _ x) e

/-- A fold that writes values leaves every other key alone. -/
theorem get_foldl_set_other [DecidableEq α] (d : α) (key : Nat → Nat) (f : Nat → α) (ls : List Nat) (m : FMap α) (j : Nat)
    (h : ∀ l ∈ ls, key l ≠ j) : get d (ls.foldl (fun m l => set d m (key l) (f l)) m) j = get d m j := by
  induction ls generalizing m with
  | nil => rfl
  | cons l ls ih =>
    rw [List.foldl_cons, ih _ (fun x hx => h x (List.mem_cons_of_mem _ hx)), get_set_other]
    exact (h l (List.mem_cons_self ..)).symm

/-! The canonical form. -/

theorem sorted_tail {e : Nat × α} {t : FMap α} (h : sorted (e :: t) = true) : sorted t = true := by
  cases t with
  | nil => rfl
  | cons b t => simp [sorted] at h; exact h.2

/-- Every key of a sorted map is above the head's. -/
theorem sorted_head_lt {j : Nat} {w : α} {t : FMap α} (h : sorted ((j, w) :: t) = true) : ∀ e ∈ t, j < e.1 := by
  induction t generalizing j w with
  | nil => simp
  | cons b t ih =>
    obtain ⟨k, x⟩ := b
    simp [sorted] at h
    intro e he
    rcases List.mem_cons.1 he with rfl | he
    · exact h.1
    · exact Nat.lt_trans h.1 (ih h.2 e he)

theorem sorted_cons {j : Nat} {w : α} {t : FMap α} (ht : sorted t = true) (h : ∀ e ∈ t, j < e.1) : sorted ((j, w) :: t) = true := by
  cases t with
  | nil => rfl
  | cons b t => obtain ⟨k, x⟩ := b; simp [sorted, ht]; exact h (k, x) (List.mem_cons_self ..)

theorem mem_put {m : FMap α} {k : Nat} {v : α} {e : Nat × α} (h : e ∈ put m k v) : e = (k, v) ∨ e ∈ m := by
  induction m with
  | nil => simp [put] at h; exact .inl h
  | cons b t ih =>
    obtain ⟨j, w⟩ := b
    unfold put at h
    split at h
    · rcases List.mem_cons.1 h with h | h
      · exact .inl h
      · exact .inr h
    · split at h
      · rcases List.mem_cons.1 h with h | h
        · exact .inl h
        · exact .inr (List.mem_cons_of_mem _ h)
      · rcases List.mem_cons.1 h with h | h
        · exact .inr (h ▸ List.mem_cons_self ..)
        · exact (ih h).imp id (List.mem_cons_of_mem _)

theorem mem_del {m : FMap α} {k : Nat} {e : Nat × α} (h : e ∈ del m k) : e ∈ m := by
  induction m with
  | nil => exact h
  | cons b t ih =>
    obtain ⟨j, w⟩ := b
    unfold del at h
    split at h
    · exact List.mem_cons_of_mem _ (ih h)
    · rcases List.mem_cons.1 h with h | h
      · exact h ▸ List.mem_cons_self ..
      · exact List.mem_cons_of_mem _ (ih h)

theorem sorted_put {m : FMap α} (k : Nat) (v : α) (h : sorted m = true) : sorted (put m k v) = true := by
  induction m with
  | nil => rfl
  | cons b t ih =>
    obtain ⟨j, w⟩ := b
    have hj := sorted_head_lt h
    have ht := sorted_tail h
    unfold put
    split
    · refine sorted_cons h fun e he => ?_
      rcases List.mem_cons.1 he with rfl | he
      · assumption
      · exact Nat.lt_trans ‹_› (hj e he)
    · split
      · subst_vars; exact sorted_cons ht hj
      · refine sorted_cons (ih ht) fun e he => ?_
        rcases mem_put he with rfl | he
        · show j < k
          omega
        · exact hj e he

theorem sorted_del {m : FMap α} (k : Nat) (h : sorted m = true) : sorted (del m k) = true := by
  induction m with
  | nil => rfl
  | cons b t ih =>
    obtain ⟨j, w⟩ := b
    unfold del
    split
    · exact ih (sorted_tail h)
    · exact sorted_cons (ih (sorted_tail h)) fun e he => sorted_head_lt h e (mem_del he)

/-- A write keeps the canonical form. -/
theorem canon_set [DecidableEq α] (d : α) {m : FMap α} (k : Nat) (v : α) (h : canon d m = true) : canon d (set d m k v) = true := by
  simp only [canon, Bool.and_eq_true, List.all_eq_true, decide_eq_true_eq] at h ⊢
  unfold set
  split
  · exact ⟨sorted_del k h.1, fun e he => h.2 e (mem_del he)⟩
  · refine ⟨sorted_put k v h.1, fun e he => ?_⟩
    rcases mem_put he with rfl | he
    · assumption
    · exact h.2 e he

end Sys2Proof.Machine
end

