-- ==== Sys2Proof/Laws/Lanes.lean ====
section
/-! SUPPORT. The laws of lane masks and of writes to the registers, predicates and PCs of lanes. -/

namespace Sys2Proof.Machine

theorem getLsbD_maskFold (f : Nat → Bool) (ls : List Nat) (m : Mask) (l : Nat) (hl : l < 32) :
    (ls.foldl (fun m l => if f l then m ||| (1#32 <<< l) else m) m).getLsbD l = (m.getLsbD l || (decide (l ∈ ls) && f l)) := by
  induction ls generalizing m with
  | nil => simp
  | cons k ls ih =>
    rw [List.foldl_cons, ih]
    by_cases e : l = k
    · subst e
      cases h : f l <;> simp [hl]
    · have : (1#32 <<< k).getLsbD l = false := by
        simp only [BitVec.getLsbD_shiftLeft, BitVec.getLsbD_one]
        simp; omega
      cases h : f k <;> simp [e, this]

/-- A lane is in the mask of a condition exactly when the condition holds there. -/
@[simp] theorem getLsbD_maskOf (f : Nat → Bool) (l : Nat) (hl : l < 32) : (maskOf f).getLsbD l = f l := by
  rw [maskOf, getLsbD_maskFold f _ _ l hl]
  simp [hl]

theorem mem_lanesOf (m : Mask) (l : Nat) : l ∈ lanesOf m ↔ l < 32 ∧ m.getLsbD l = true := by
  simp [lanesOf]

theorem lanesOf_lt {m : Mask} {l : Nat} (h : l ∈ lanesOf m) : l < 32 := ((mem_lanesOf m l).1 h).1

theorem getLsbD_oneLane (k l : Nat) (hl : l < 32) : (oneLane k).getLsbD l = decide (l = k) := by
  simp only [oneLane, BitVec.getLsbD_shiftLeft, BitVec.getLsbD_one]
  by_cases e : l = k
  · subst e; simp [hl]
  · simp [e]; omega

/-- The lanes of no mask. -/
@[simp] theorem lanesOf_zero : lanesOf 0 = [] := by decide

/-- Two masks with the same lanes are equal. -/
theorem mask_ext {a b : Mask} (h : ∀ l < 32, a.getLsbD l = b.getLsbD l) : a = b :=
  BitVec.eq_of_getLsbD_eq fun i hi => h i hi

/-- A register key tells the register and the lane. -/
theorem regKey_inj {n m l k : Nat} (hl : l < 32) (hk : k < 32) (h : 32 * n + l = 32 * m + k) : n = m ∧ l = k := by omega

theorem readV_writeV (gr : Group) (n m l k : Nat) (x : W32) (hl : l < 32) (hk : k < 32) :
    readV (writeV gr n l x) m k = if m = n ∧ k = l then x else readV gr m k := by
  simp only [readV, writeV, get_set]
  by_cases h : m = n ∧ k = l
  · simp [h]
  · rw [if_neg h, if_neg fun e => h (regKey_inj hk hl e)]

theorem err_writeV (gr : Group) (n m l k : Nat) (x : W32) (hl : l < 32) (hk : k < 32) :
    look (writeV gr n l x).err (32 * m + k) = if m = n ∧ k = l then none else look gr.err (32 * m + k) := by
  simp only [writeV, look_del]
  by_cases h : m = n ∧ k = l
  · simp [h]
  · rw [if_neg h, if_neg fun e => h (regKey_inj hk hl e)]

theorem pcOf_setPcs (gr : Group) (m : Mask) (f : Nat → W64) (l : Nat) (hl : l < 32) :
    pcOf (setPcs gr m f) l = if m.getLsbD l then f l else pcOf gr l := by
  simp only [pcOf, setPcs]
  rw [get_foldl_set 0 (fun l => l) f (fun _ _ h => h)]
  simp [mem_lanesOf, hl]

theorem pcOf_setPc (gr : Group) (m : Mask) (pc : W64) (l : Nat) (hl : l < 32) :
    pcOf (setPc gr m pc) l = if m.getLsbD l then pc else pcOf gr l := pcOf_setPcs gr m (fun _ => pc) l hl

/-- A predicate write is seen in its lanes alone, and P0 stays as it is (R159). -/
theorem readP_writeP (gr : Group) (n k : Nat) (lanes vals : Mask) (l : Nat) :
    (readP (writeP gr n lanes vals) k).getLsbD l =
      if k = n ∧ n ≠ 0 ∧ lanes.getLsbD l then vals.getLsbD l else (readP gr k).getLsbD l := by
  unfold readP writeP
  by_cases hn : n = 0
  · simp [hn]
  · by_cases hk : k = 0
    · subst hk; simp [Ne.symm hn]
    · simp only [hn, hk, if_false, get_set]
      by_cases e : k = n
      · subst e
        rw [if_pos rfl]
        by_cases hl : l < 32
        · rw [BitVec.getLsbD_or, BitVec.getLsbD_and, BitVec.getLsbD_and, BitVec.getLsbD_not]
          cases lanes.getLsbD l <;> simp [hl, hk]
        · simp [BitVec.getLsbD_of_ge _ _ (by omega : 32 ≤ l)]
      · simp [e]

end Sys2Proof.Machine
end

