-- ==== Sys2Proof/Laws/Issue.lean ====
section
/-! SUPPORT. What the shared part of every word's issue does: `commitWord_computes` says it all, for every word. -/

namespace Sys2Proof.Machine
open Sys2Proof.Safety

/-! The fields of a group that an issue may change, and the rest. -/

/-- A group without what an issue may change. -/
def coreOf (g : Group) : Group :=
  { g with v := [], err := [], p := [], pc := [], sr := [], latch := [], latchLeft := [], chain := none, uqRead := 0, ord := 0 }

theorem frame_of_coreOf {g h : Group} (e : coreOf g = coreOf h) :
    { g with v := h.v, err := h.err, p := h.p, pc := h.pc, sr := h.sr, latch := h.latch
             latchLeft := h.latchLeft, chain := h.chain, uqRead := h.uqRead, ord := h.ord } = h := by
  have := congrArg (fun g : Group => { g with v := h.v, err := h.err, p := h.p, pc := h.pc, sr := h.sr, latch := h.latch
                                              latchLeft := h.latchLeft, chain := h.chain, uqRead := h.uqRead, ord := h.ord }) e
  exact this

/-- Two groups agree but for registers and their marks, and for the undo lists of the chain. -/
structure SameBut (v p sr latch : Prop) (g h : Group) : Prop where
  core : coreOf g = coreOf h
  pc : g.pc = h.pc
  uq : g.uqRead = h.uqRead
  ord : g.ord = h.ord
  left : g.latchLeft = h.latchLeft
  chain : g.chain.isSome = h.chain.isSome
  held : heldFlags g = heldFlags h
  regs : v ∨ (g.v = h.v ∧ g.err = h.err)
  preds : p ∨ g.p = h.p
  srs : sr ∨ g.sr = h.sr
  lat : latch ∨ g.latch = h.latch

theorem SameBut.rfl' {v p sr latch : Prop} (g : Group) : SameBut v p sr latch g g :=
  ⟨rfl, rfl, rfl, rfl, rfl, rfl, rfl, .inr ⟨rfl, rfl⟩, .inr rfl, .inr rfl, .inr rfl⟩

theorem SameBut.trans {v p sr latch : Prop} {a b c : Group} (h : SameBut v p sr latch a b) (k : SameBut v p sr latch b c) :
    SameBut v p sr latch a c :=
  ⟨h.core.trans k.core, h.pc.trans k.pc, h.uq.trans k.uq, h.ord.trans k.ord, h.left.trans k.left, h.chain.trans k.chain,
   h.held.trans k.held,
   h.regs.elim .inl fun x => k.regs.imp id fun y => ⟨x.1.trans y.1, x.2.trans y.2⟩,
   h.preds.elim .inl fun x => k.preds.imp id x.trans,
   h.srs.elim .inl fun x => k.srs.imp id x.trans,
   h.lat.elim .inl fun x => k.lat.imp id x.trans⟩

theorem SameBut.mono {v p sr latch v' p' sr' latch' : Prop} {a b : Group} (h : SameBut v p sr latch a b)
    (hv : v → v') (hp : p → p') (hs : sr → sr') (hl : latch → latch') : SameBut v' p' sr' latch' a b :=
  ⟨h.core, h.pc, h.uq, h.ord, h.left, h.chain, h.held, h.regs.imp hv id, h.preds.imp hp id, h.srs.imp hs id, h.lat.imp hl id⟩

theorem same_writeReg (g : Group) (n l : Nat) (x : W32) : SameBut True False False False (writeReg g n l x) g := by
  unfold writeReg noteV writeV
  cases h : g.chain <;> constructor <;> simp [coreOf, heldFlags, h]

theorem same_writePred (g : Group) (n : Nat) (a b : Mask) : SameBut False True False False (writePred g n a b) g := by
  unfold writePred writeP
  cases h : g.chain <;> by_cases hn : n = 0 <;> constructor <;> simp [coreOf, heldFlags, h, hn]

theorem same_writeSr (g : Group) (l : Nat) (x : W32) : SameBut False False True False (writeSr g l x) g := by
  unfold writeSr
  cases h : g.chain <;> constructor <;> simp [coreOf, heldFlags, h]

theorem same_writeLatch (g : Group) (k : Nat) (m : Mask) (f : Nat → W64) : SameBut False False False True (writeLatch g k m f) g := by
  unfold writeLatch
  constructor <;> simp [coreOf, heldFlags]

/-! One write inside a chain or outside one. -/

theorem readV_writeReg (g : Group) (n m l k : Nat) (x : W32) (hl : l < 32) (hk : k < 32) :
    readV (writeReg g n l x) m k = if m = n ∧ k = l then x else readV g m k := by
  rw [writeReg, readV_writeV _ _ _ _ _ _ hl hk]
  unfold noteV; cases g.chain <;> rfl

theorem err_writeReg (g : Group) (n m l k : Nat) (x : W32) (hl : l < 32) (hk : k < 32) :
    look (writeReg g n l x).err (32 * m + k) = if m = n ∧ k = l then none else look g.err (32 * m + k) := by
  rw [writeReg, err_writeV _ _ _ _ _ _ hl hk]
  unfold noteV; cases g.chain <;> rfl

theorem readP_writePred (g : Group) (n k : Nat) (lanes vals : Mask) (l : Nat) :
    (readP (writePred g n lanes vals) k).getLsbD l =
      if k = n ∧ n ≠ 0 ∧ lanes.getLsbD l then vals.getLsbD l else (readP g k).getLsbD l := by
  unfold writePred
  rw [readP_writeP]
  cases g.chain <;> rfl

theorem sr_writeSr (g : Group) (l k : Nat) (x : W32) : get 0 (writeSr g l x).sr k = if k = l then x else get 0 g.sr k := by
  unfold writeSr
  cases g.chain <;> exact get_set ..

theorem latch_writeLatch (g : Group) (k j : Nat) (m : Mask) (f : Nat → W64) (l : Nat) (hl : l < 32) :
    get 0 (writeLatch g k m f).latch (32 * j + l) = if j = k ∧ m.getLsbD l then f l else get 0 g.latch (32 * j + l) := by
  unfold writeLatch
  by_cases e : j = k
  · subst e
    rw [get_foldl_set 0 (fun l => 32 * j + l) f (fun a b h => by omega)]
    simp [mem_lanesOf, hl]
  · rw [get_foldl_set_other]
    · simp [e]
    · intro a ha h
      exact e (regKey_inj hl (lanesOf_lt ha) h.symm).1

/-! The result of one lane. -/

/-- The registers of a lane's result, without its latch. -/
def writeRegs (i : Instr) (w : FWord) (c : Ctx) (gr : Group) (l : Nat) (x : W64) : Group :=
  match (shape i).dst with
  | .r32 => if w.ws then gr else writeReg gr w.dst.toNat l (lo x)
  | .r64 => if w.ws then gr else writeRegPair gr w.dst.toNat l x
  | .xdst => match xdstOf i with
    | (some k, true) => if w.ws then gr else writeRegPair gr (idxReg c.gr k l) l x
    | (some k, false) => if w.ws then gr else writeReg gr (idxReg c.gr k l) l (lo x)
    | (none, _) => gr
  | _ => gr

theorem writeResult_eq (i : Instr) (w : FWord) (c : Ctx) (gr : Group) (l : Nat) (x : W64) :
    writeResult i w c gr l x = if w.dl = 0 then writeRegs i w c gr l x
      else writeLatch (writeRegs i w c gr l x) (w.dl.toNat - 1) (oneLane l) (fun _ => if wideResult i then x else zx (lo x)) := rfl

theorem same_writeRegs (i : Instr) (w : FWord) (c : Ctx) (g : Group) (l : Nat) (x : W64) :
    SameBut True False False False (writeRegs i w c g l x) g := by
  unfold writeRegs writeRegPair
  split
  · split
    · exact .rfl' g
    · exact same_writeReg ..
  · split
    · exact .rfl' g
    · exact (same_writeReg ..).trans (same_writeReg ..)
  · split
    · split
      · exact .rfl' g
      · exact (same_writeReg ..).trans (same_writeReg ..)
    · split
      · exact .rfl' g
      · exact same_writeReg ..
    · exact .rfl' g
  · exact .rfl' g

theorem readV_writeRegPair (g : Group) (n m l k : Nat) (x : W64) (hl : l < 32) (hk : k < 32) :
    readV (writeRegPair g n l x) m k =
      if k = l then (if m = n then lo x else if m = n + 1 then hi x else readV g m k) else readV g m k := by
  rw [writeRegPair, readV_writeReg _ _ _ _ _ _ hl hk, readV_writeReg _ _ _ _ _ _ hl hk]
  by_cases h : k = l <;> by_cases a : m = n <;> by_cases b : m = n + 1 <;> simp [h, a, b]

theorem err_writeRegPair (g : Group) (n m l k : Nat) (x : W64) (hl : l < 32) (hk : k < 32) :
    look (writeRegPair g n l x).err (32 * m + k) =
      if k = l ∧ (m = n ∨ m = n + 1) then none else look g.err (32 * m + k) := by
  rw [writeRegPair, err_writeReg _ _ _ _ _ _ hl hk, err_writeReg _ _ _ _ _ _ hl hk]
  by_cases h : k = l <;> by_cases a : m = n <;> by_cases b : m = n + 1 <;> simp [h, a, b]

theorem readV_writeRegs (i : Instr) (w : FWord) (c : Ctx) (g : Group) (m l k : Nat) (x : W64) (hl : l < 32) (hk : k < 32) :
    readV (writeRegs i w c g l x) m k = if k = l then (resVal i w c m l x).getD (readV g m k) else readV g m k := by
  unfold writeRegs resVal
  generalize (shape i).dst = d
  generalize xdstOf i = xd
  obtain ⟨xk, wide⟩ := xd
  cases d
  case r32 =>
    dsimp only
    by_cases e : w.ws = true
    · simp [e]
    · rw [if_neg e, readV_writeReg _ _ _ _ _ _ hl hk]
      by_cases h : k = l <;> by_cases a : m = w.dst.toNat <;> simp [h, a, e]
  case r64 =>
    dsimp only
    by_cases e : w.ws = true
    · simp [e]
    · rw [if_neg e, readV_writeRegPair _ _ _ _ _ _ hl hk]
      by_cases h : k = l <;> by_cases a : m = w.dst.toNat <;> by_cases b : m = w.dst.toNat + 1 <;> simp [h, a, b, e]
  case xdst =>
    rcases xk with _ | kk
    · simp
    · by_cases e : w.ws = true
      · cases wide <;> simp [e]
      · cases wide
        · simp only [e, if_false, Bool.false_eq_true, readV_writeReg _ _ _ _ _ _ hl hk]
          by_cases h : k = l
          · by_cases a : m = idxReg c.gr kk l <;> simp [h, a]
          · simp [h]
        · simp only [e, if_false, Bool.false_eq_true, readV_writeRegPair _ _ _ _ _ _ hl hk]
          by_cases h : k = l
          · by_cases a : m = idxReg c.gr kk l <;> by_cases b : m = idxReg c.gr kk l + 1 <;> simp [h, a, b]
          · simp [h]
  all_goals simp

theorem err_writeRegs (i : Instr) (w : FWord) (c : Ctx) (g : Group) (m l k : Nat) (x : W64) (hl : l < 32) (hk : k < 32) :
    look (writeRegs i w c g l x).err (32 * m + k) =
      if k = l ∧ (resVal i w c m l x).isSome then none else look g.err (32 * m + k) := by
  unfold writeRegs resVal
  generalize (shape i).dst = d
  generalize xdstOf i = xd
  obtain ⟨xk, wide⟩ := xd
  cases d
  case r32 =>
    dsimp only
    by_cases e : w.ws = true
    · simp [e]
    · rw [if_neg e, err_writeReg _ _ _ _ _ _ hl hk]
      by_cases h : k = l <;> by_cases a : m = w.dst.toNat <;> simp [h, a, e]
  case r64 =>
    dsimp only
    by_cases e : w.ws = true
    · simp [e]
    · rw [if_neg e, err_writeRegPair _ _ _ _ _ _ hl hk]
      by_cases h : k = l <;> by_cases a : m = w.dst.toNat <;> by_cases b : m = w.dst.toNat + 1 <;> simp [h, a, b, e]
  case xdst =>
    rcases xk with _ | kk
    · simp
    · by_cases e : w.ws = true
      · cases wide <;> simp [e]
      · cases wide
        · simp only [e, if_false, Bool.false_eq_true, err_writeReg _ _ _ _ _ _ hl hk]
          by_cases h : k = l
          · by_cases a : m = idxReg c.gr kk l <;> simp [h, a]
          · simp [h]
        · simp only [e, if_false, Bool.false_eq_true, err_writeRegPair _ _ _ _ _ _ hl hk]
          by_cases h : k = l
          · by_cases a : m = idxReg c.gr kk l <;> by_cases b : m = idxReg c.gr kk l + 1 <;> simp [h, a, b]
          · simp [h]
  all_goals simp

/-! The results of all lanes. -/

theorem same_writeResult (i : Instr) (w : FWord) (c : Ctx) (g : Group) (l : Nat) (x : W64) :
    SameBut True False False True (writeResult i w c g l x) g := by
  rw [writeResult_eq]
  split
  · exact (same_writeRegs ..).mono id id id (fun h => h.elim)
  · exact ((same_writeLatch ..).mono (fun h => h.elim) id id id).trans ((same_writeRegs ..).mono id id id (fun h => h.elim))

theorem readV_writeResult (i : Instr) (w : FWord) (c : Ctx) (g : Group) (m l k : Nat) (x : W64) (hl : l < 32) (hk : k < 32) :
    readV (writeResult i w c g l x) m k = if k = l then (resVal i w c m l x).getD (readV g m k) else readV g m k := by
  rw [writeResult_eq]
  split <;> exact readV_writeRegs i w c g m l k x hl hk

theorem err_writeResult (i : Instr) (w : FWord) (c : Ctx) (g : Group) (m l k : Nat) (x : W64) (hl : l < 32) (hk : k < 32) :
    look (writeResult i w c g l x).err (32 * m + k) =
      if k = l ∧ (resVal i w c m l x).isSome then none else look g.err (32 * m + k) := by
  rw [writeResult_eq]
  split <;> exact err_writeRegs i w c g m l k x hl hk

theorem latch_writeResult (i : Instr) (w : FWord) (c : Ctx) (g : Group) (j l k : Nat) (x : W64) (hk : k < 32) :
    get 0 (writeResult i w c g l x).latch (32 * j + k) =
      if k = l ∧ w.dl.toNat = j + 1 then (if wideResult i then x else zx (lo x)) else get 0 g.latch (32 * j + k) := by
  have hs : (writeRegs i w c g l x).latch = g.latch := (same_writeRegs i w c g l x).lat.resolve_left id
  rw [writeResult_eq]
  split
  · rename_i h
    rw [hs, if_neg]
    intro e
    have := e.2
    rw [h] at this
    simp at this
  · rename_i h
    rw [latch_writeLatch _ _ _ _ _ _ hk, getLsbD_oneLane _ _ hk, hs]
    have h0 : w.dl.toNat ≠ 0 := fun e => h (BitVec.eq_of_toNat_eq e)
    by_cases e : k = l
    · have : (j = w.dl.toNat - 1) = (w.dl.toNat = j + 1) := by apply propext; omega
      simp only [e, this, decide_true, and_true, true_and]
    · simp [e]

/-- The fold of the lanes' results. -/
def foldResults (i : Instr) (w : FWord) (c : Ctx) (out : Nat → LaneOut) (ls : List Nat) (g : Group) : Group :=
  ls.foldl (fun g l => writeResult i w c g l (out l).val) g

theorem same_foldResults (i : Instr) (w : FWord) (c : Ctx) (out : Nat → LaneOut) (ls : List Nat) (g : Group) :
    SameBut True False False True (foldResults i w c out ls g) g := by
  induction ls generalizing g with
  | nil => exact .rfl' g
  | cons l ls ih => exact (ih _).trans (same_writeResult ..)

theorem readV_foldResults (i : Instr) (w : FWord) (c : Ctx) (out : Nat → LaneOut) (ls : List Nat) (g : Group) (m k : Nat)
    (h : ∀ l ∈ ls, l < 32) (hk : k < 32) :
    readV (foldResults i w c out ls g) m k = if k ∈ ls then (resVal i w c m k (out k).val).getD (readV g m k) else readV g m k := by
  induction ls generalizing g with
  | nil => simp [foldResults]
  | cons l ls ih =>
    have hl := h l (List.mem_cons_self ..)
    have := ih (writeResult i w c g l (out l).val) (fun x hx => h x (List.mem_cons_of_mem _ hx))
    rw [foldResults, List.foldl_cons, ← foldResults, this, readV_writeResult _ _ _ _ _ _ _ _ hl hk]
    by_cases e : k = l
    · subst e
      by_cases hm : k ∈ ls
      · simp only [hm, if_true, List.mem_cons, or_true]
        cases resVal i w c m k (out k).val <;> simp
      · simp [hm]
    · by_cases hm : k ∈ ls <;> simp [hm, e]

theorem err_foldResults (i : Instr) (w : FWord) (c : Ctx) (out : Nat → LaneOut) (ls : List Nat) (g : Group) (m k : Nat)
    (h : ∀ l ∈ ls, l < 32) (hk : k < 32) :
    look (foldResults i w c out ls g).err (32 * m + k) =
      if k ∈ ls ∧ (resVal i w c m k (out k).val).isSome then none else look g.err (32 * m + k) := by
  induction ls generalizing g with
  | nil => simp [foldResults]
  | cons l ls ih =>
    have hl := h l (List.mem_cons_self ..)
    have := ih (writeResult i w c g l (out l).val) (fun x hx => h x (List.mem_cons_of_mem _ hx))
    rw [foldResults, List.foldl_cons, ← foldResults, this, err_writeResult _ _ _ _ _ _ _ _ hl hk]
    by_cases e : k = l
    · subst e
      by_cases hm : k ∈ ls <;> by_cases hs : (resVal i w c m k (out k).val).isSome <;> simp [hm, hs]
    · by_cases hm : k ∈ ls <;> simp [hm, e]

theorem latch_foldResults (i : Instr) (w : FWord) (c : Ctx) (out : Nat → LaneOut) (ls : List Nat) (g : Group) (j k : Nat)
    (hk : k < 32) :
    get 0 (foldResults i w c out ls g).latch (32 * j + k) =
      if k ∈ ls ∧ w.dl.toNat = j + 1 then (if wideResult i then (out k).val else zx (lo (out k).val))
      else get 0 g.latch (32 * j + k) := by
  induction ls generalizing g with
  | nil => simp [foldResults]
  | cons l ls ih =>
    rw [foldResults, List.foldl_cons, ← foldResults, ih, latch_writeResult _ _ _ _ _ _ _ _ hk]
    by_cases e : k = l
    · subst e
      by_cases hm : k ∈ ls <;> by_cases hs : w.dl.toNat = j + 1 <;> simp [hm, hs]
    · by_cases hm : k ∈ ls <;> simp [hm, e]

/-- The fold of the lanes' SRSTATE. -/
def foldSr (out : Nat → LaneOut) (ls : List Nat) (g : Group) : Group :=
  ls.foldl (fun g l => match (out l).sr with
    | some x => writeSr g l x
    | none => g) g

theorem same_foldSr (out : Nat → LaneOut) (ls : List Nat) (g : Group) : SameBut False False True False (foldSr out ls g) g := by
  induction ls generalizing g with
  | nil => exact .rfl' g
  | cons l ls ih =>
    rw [foldSr, List.foldl_cons, ← foldSr]
    refine (ih _).trans ?_
    cases (out l).sr with
    | none => exact .rfl' g
    | some x => exact same_writeSr ..

theorem sr_foldSr (out : Nat → LaneOut) (ls : List Nat) (g : Group) (k : Nat) :
    get 0 (foldSr out ls g).sr k = if k ∈ ls then ((out k).sr).getD (get 0 g.sr k) else get 0 g.sr k := by
  induction ls generalizing g with
  | nil => simp [foldSr]
  | cons l ls ih =>
    rw [foldSr, List.foldl_cons, ← foldSr, ih]
    have hg : get 0 (match (out l).sr with
        | some x => writeSr g l x
        | none => g).sr k = if k = l then ((out k).sr).getD (get 0 g.sr k) else get 0 g.sr k := by
      by_cases e : k = l
      · subst e
        cases (out k).sr with
        | none => simp
        | some x => simp only [sr_writeSr, if_true, Option.getD_some]
      · cases (out l).sr with
        | none => simp [e]
        | some x => simp only [sr_writeSr, e, if_false]
    rw [hg]
    by_cases e : k = l
    · subst e
      by_cases hm : k ∈ ls
      · simp only [hm, if_true, List.mem_cons, or_true]
        cases (out k).sr <;> rfl
      · simp [hm]
    · by_cases hm : k ∈ ls <;> simp [hm, e]

/-- The predicate write of a word. -/
def writePreds (i : Instr) (w : FWord) (c : Ctx) (out : Nat → LaneOut) (gr : Group) : Group :=
  match predDst i w with
  | none => gr
  | some p =>
    let sel := maskOf (fun l => c.act.getLsbD l && (out l).pd.isSome)
    writePred gr p sel (maskOf (fun l => (out l).pd = some true))

/-- The register part of the results. -/
def regPart (i : Instr) (w : FWord) (c : Ctx) (out : Nat → LaneOut) (gr : Group) : Group :=
  if (shape i).dst = .none ∨ (shape i).dst = .pred then gr else foldResults i w c out (lanesOf c.act) gr

theorem writeResults_eq (i : Instr) (w : FWord) (c : Ctx) (out : Nat → LaneOut) (gr : Group) :
    writeResults i w c out gr = foldSr out (lanesOf c.act) (writePreds i w c out (regPart i w c out gr)) := rfl

theorem same_writePreds (i : Instr) (w : FWord) (c : Ctx) (out : Nat → LaneOut) (g : Group) :
    SameBut False True False False (writePreds i w c out g) g := by
  unfold writePreds
  split
  · exact .rfl' g
  · exact same_writePred ..

theorem readP_writePreds (i : Instr) (w : FWord) (c : Ctx) (out : Nat → LaneOut) (g : Group) (k l : Nat) (hl : l < 32) :
    (readP (writePreds i w c out g) k).getLsbD l = (predOf i w c out k l).getD ((readP g k).getLsbD l) := by
  unfold writePreds predOf
  cases h : predDst i w with
  | none => simp
  | some p =>
    simp only [readP_writePred, getLsbD_maskOf _ _ hl, Option.some.injEq]
    by_cases e : k = p
    · subst e
      by_cases h0 : k = 0
      · simp [h0]
      · cases c.act.getLsbD l <;> cases hp : (out l).pd with
        | none => simp [h0]
        | some b => cases b <;> simp [h0]
    · simp [e, Ne.symm e]

theorem same_regPart (i : Instr) (w : FWord) (c : Ctx) (out : Nat → LaneOut) (g : Group) :
    SameBut True False False True (regPart i w c out g) g := by
  unfold regPart
  split
  · exact .rfl' g
  · exact same_foldResults ..

theorem resVal_none {i : Instr} (w : FWord) (c : Ctx) (n l : Nat) (x : W64) (h : (shape i).dst = .none ∨ (shape i).dst = .pred) :
    resVal i w c n l x = none := by
  unfold resVal
  rcases h with h | h <;> simp [h]

theorem readV_regPart (i : Instr) (w : FWord) (c : Ctx) (out : Nat → LaneOut) (g : Group) (m k : Nat) (hk : k < 32) :
    readV (regPart i w c out g) m k = (resultOf i w c out m k).getD (readV g m k) := by
  unfold regPart resultOf
  split
  · simp [resVal_none _ _ _ _ _ ‹_›]
  · rw [readV_foldResults _ _ _ _ _ _ _ _ (fun l h => lanesOf_lt h) hk]
    simp only [mem_lanesOf, hk, true_and]
    cases c.act.getLsbD k <;> simp

theorem err_regPart (i : Instr) (w : FWord) (c : Ctx) (out : Nat → LaneOut) (g : Group) (m k : Nat) (hk : k < 32) :
    look (regPart i w c out g).err (32 * m + k) = if (resultOf i w c out m k).isSome then none else look g.err (32 * m + k) := by
  unfold regPart resultOf
  split
  · simp [resVal_none _ _ _ _ _ ‹_›]
  · rw [err_foldResults _ _ _ _ _ _ _ _ (fun l h => lanesOf_lt h) hk]
    simp only [mem_lanesOf, hk, true_and]
    cases c.act.getLsbD k <;> simp

theorem latch_regPart (i : Instr) (w : FWord) (c : Ctx) (out : Nat → LaneOut) (g : Group) (j k : Nat) (hk : k < 32) :
    get 0 (regPart i w c out g).latch (32 * j + k) =
      if c.act.getLsbD k ∧ (shape i).dst ≠ .none ∧ (shape i).dst ≠ .pred ∧ w.dl.toNat = j + 1 then
        (if wideResult i then (out k).val else zx (lo (out k).val))
      else get 0 g.latch (32 * j + k) := by
  unfold regPart
  split
  · rename_i h
    rw [if_neg]
    rintro ⟨-, h1, h2, -⟩
    exact h.elim h1 h2
  · rename_i h
    rw [latch_foldResults _ _ _ _ _ _ _ _ hk]
    have := not_or.1 h
    simp only [mem_lanesOf, hk, true_and, this.1, this.2, ne_eq, not_false_eq_true]

/-! The beginning and the end of an issue. -/

/-- What the beginning of an issue does. -/
structure Begun (i : Instr) (w : FWord) (s : State) (c : Ctx) (g : Group) : Prop where
  core : coreOf g = coreOf c.gr
  v : g.v = c.gr.v
  err : g.err = c.gr.err
  p : g.p = c.gr.p
  sr : g.sr = c.gr.sr
  left : g.latchLeft = c.gr.latchLeft
  uq : g.uqRead = c.gr.uqRead + (if readsQ (shape i) w && c.gr.uqRead != c.t.uqWrite then 1 else 0)
  ord : g.ord = c.gr.ord + 1
  held : heldFlags g = heldFlags c.gr
  chain : g.chain.isSome = (c.gr.chain.isSome || usesLatch w)
  pcs : ∀ l, l < 32 → pcOf g l = if c.at_.getLsbD l then c.next else pcOf c.gr l
  latch : ∀ k l, l < 32 → get 0 g.latch (32 * k + l) =
    if c.act.getLsbD l ∧ w.hsrc ≠ 0 ∧ w.hlat.toNat = k then heldVal i w s c l else get 0 c.gr.latch (32 * k + l)

theorem popQ_eq (w : FWord) (sh : Shape) (t : Team) (g : Group) :
    popQ w sh t g = { g with uqRead := g.uqRead + (if readsQ sh w && g.uqRead != t.uqWrite then 1 else 0) } := by
  unfold popQ
  split <;> simp

/-- The move of the word's lanes to the next word. -/
def moveOn (c : Ctx) (gr : Group) : Group := { setPc gr c.at_ c.next with ord := gr.ord + 1 }

theorem beginIssue_eq (i : Instr) (w : FWord) (s : State) (c : Ctx) (n : Option Nat) :
    beginIssue i w s c n = moveOn c (holdSource i w s c (openChain w c n (popQ w (shape i) c.t c.gr))) := rfl

theorem begun (i : Instr) (w : FWord) (s : State) (c : Ctx) (n : Option Nat) : Begun i w s c (beginIssue i w s c n) := by
  have e1 : ∀ g : Group, ∃ ch : Option Chain, openChain w c n g = { g with chain := ch } ∧
      ch.isSome = (g.chain.isSome || usesLatch w) ∧ (ch.map (·.flags)).getD 0 = heldFlags g := by
    intro g
    unfold openChain heldFlags
    cases h : g.chain with
    | some x => exact ⟨_, rfl, by simp, by simp⟩
    | none =>
      by_cases hu : usesLatch w = true
      · simp only [hu, if_true]; exact ⟨_, rfl, by simp, by simp⟩
      · simp only [hu]; exact ⟨none, by simp [← h], by simp, by simp⟩
  have e2 : ∀ g : Group, ∃ la : FMap W64, holdSource i w s c g = { g with latch := la } ∧
      ∀ k l, l < 32 → get 0 la (32 * k + l) =
        if c.act.getLsbD l ∧ w.hsrc ≠ 0 ∧ w.hlat.toNat = k then heldVal i w s c l else get 0 g.latch (32 * k + l) := by
    intro g
    by_cases h : w.hsrc = 0
    · exact ⟨g.latch, by simp [holdSource, h], by simp [h]⟩
    · refine ⟨_, by rw [holdSource, if_neg h]; rfl, fun k l hl => ?_⟩
      have := latch_writeLatch g w.hlat.toNat k c.act (heldVal i w s c) l hl
      rw [writeLatch] at this
      rw [this]
      by_cases a : c.act.getLsbD l = true <;> by_cases b : k = w.hlat.toNat
      · rw [if_pos ⟨b, a⟩, if_pos ⟨a, h, b.symm⟩]
      · rw [if_neg fun x => b x.1, if_neg fun x => b x.2.2.symm]
      · rw [if_neg fun x => a x.2, if_neg fun x => a x.1]
      · rw [if_neg fun x => a x.2, if_neg fun x => a x.1]
  obtain ⟨ch, h1, h2, h3⟩ := e1 (popQ w (shape i) c.t c.gr)
  rw [beginIssue_eq, h1]
  obtain ⟨la, h4, h5⟩ := e2 { popQ w (shape i) c.t c.gr with chain := ch }
  rw [h4]
  rw [popQ_eq] at h2 h3 h5 ⊢
  refine ⟨rfl, rfl, rfl, rfl, rfl, rfl, rfl, rfl, ?_, ?_, fun l hl => ?_, fun k l hl => ?_⟩
  · show (ch.map (·.flags)).getD 0 = _
    rw [h3]
    rfl
  · show ch.isSome = _
    rw [h2]
  rotate_left
  · show get 0 la _ = _
    rw [h5 k l hl]
  exact pcOf_setPc _ c.at_ c.next l hl

/-- A setting of FLAGS that is due later: it is noted, and nothing else changes. -/
theorem dueFlags_spec (t : Team) (at_ : Nat) (f : W64) :
    (dueFlags t at_ f).flags = t.flags ∧ (dueFlags t at_ f).groups = t.groups ∧ allFlags (dueFlags t at_ f) = allFlags t ||| f ∧
      (∃ new, (dueFlags t at_ f).due = t.due ++ new ∧ ∀ e ∈ new, e.1 = at_) ∧ { dueFlags t at_ f with due := t.due } = t := by
  unfold dueFlags
  split
  · rename_i h
    subst h
    exact ⟨rfl, rfl, by simp, ⟨[], by simp⟩, rfl⟩
  · refine ⟨rfl, rfl, ?_, ⟨[(at_, f)], rfl, by simp⟩, rfl⟩
    simp [allFlags, List.foldl_append]

/-- What setting flags and ending a chain do to a team in which the group stands. -/
theorem endChain_spec (t : Team) (k at_ : Nat) (f : W64) {g : Group} (h : look t.groups k = some g) :
    ∃ g', look (endChain (setFlags t k at_ f) k at_).groups k = some g' ∧
      coreOf g' = coreOf g ∧ g'.v = g.v ∧ g'.err = g.err ∧ g'.p = g.p ∧ g'.pc = g.pc ∧ g'.sr = g.sr ∧ g'.latch = g.latch ∧
      g'.uqRead = g.uqRead ∧ g'.ord = g.ord ∧ (g.chain = none → g'.chain = none ∧ g'.latchLeft = []) ∧
      allFlags (endChain (setFlags t k at_ f) k at_) ||| heldFlags g' = allFlags t ||| heldFlags g ||| f ∧
      (endChain (setFlags t k at_ f) k at_).flags = t.flags ∧
      (∃ new, (endChain (setFlags t k at_ f) k at_).due = t.due ++ new ∧ (∀ e ∈ new, e.1 = at_) ∧ (g'.chain.isSome → new = [])) ∧
      (∀ j, j ≠ k → look (endChain (setFlags t k at_ f) k at_).groups j = look t.groups j) ∧
      { endChain (setFlags t k at_ f) k at_ with groups := t.groups, due := t.due } = t := by
  cases hc : g.chain with
  | none =>
    obtain ⟨d1, d2, d3, ⟨new, d4, d5⟩, d6⟩ := dueFlags_spec t at_ f
    have e : endChain (setFlags t k at_ f) k at_ = { dueFlags t at_ f with groups := put t.groups k { g with latchLeft := [] } } := by
      simp [setFlags, endChain, h, hc, d2]
    rw [e]
    refine ⟨{ g with latchLeft := [] }, by simp, rfl, rfl, rfl, rfl, rfl, rfl, rfl, rfl, rfl, fun _ => ⟨hc, rfl⟩, ?_, d1,
      ⟨new, d4, d5, by simp [hc]⟩, fun j hj => look_put_other _ _ hj, ?_⟩
    · simpa [heldFlags, hc, allFlags] using d3
    · have := congrArg (fun u : Team => { u with groups := t.groups }) d6
      exact this
  | some ch =>
    have e1 : setFlags t k at_ f = { t with groups := put t.groups k { g with chain := some { ch with flags := ch.flags ||| f } } } := by
      simp [setFlags, h, hc, upd]
    have e2 : look (setFlags t k at_ f).groups k = some { g with chain := some { ch with flags := ch.flags ||| f } } := by
      rw [e1]; simp
    by_cases hl : g.latchLeft = []
    · have e : endChain (setFlags t k at_ f) k at_ = dueFlags { setFlags t k at_ f with
          groups := put (setFlags t k at_ f).groups k { g with chain := none, latchLeft := [] } } at_ (ch.flags ||| f) := by
        unfold endChain
        rw [e2]
        simp [hl]
      rw [e, e1]
      obtain ⟨d1, d2, d3, ⟨new, d4, d5⟩, d6⟩ := dueFlags_spec
        { t with groups := (put (put t.groups k { g with chain := some { ch with flags := ch.flags ||| f } }) k
                            { g with chain := none, latchLeft := [] }) } at_ (ch.flags ||| f)
      refine ⟨{ g with chain := none, latchLeft := [] }, by simp [d2], rfl, rfl, rfl, rfl, rfl, rfl, rfl, rfl, rfl, fun x => by simp at x, ?_, d1,
        ⟨new, d4, d5, by simp⟩, ?_, ?_⟩
      · rw [d3]
        simp [heldFlags, hc, BitVec.or_assoc, allFlags]
      · intro j hj
        rw [d2]
        simp [look_put_other _ _ hj]
      · have := congrArg (fun u : Team => { u with groups := t.groups }) d6
        exact this
    · have e : endChain (setFlags t k at_ f) k at_ = setFlags t k at_ f := by
        unfold endChain
        rw [e2]
        simp [hl]
      rw [e, e1]
      refine ⟨{ g with chain := some { ch with flags := ch.flags ||| f } }, by simp, rfl, rfl, rfl, rfl, rfl, rfl, rfl, rfl, rfl, fun x => by simp at x, ?_, rfl,
        ⟨[], by simp⟩, ?_, rfl⟩
      · simp [heldFlags, hc, BitVec.or_assoc, allFlags]
      · exact fun j hj => by simp [look_put_other _ _ hj]

/-- What the issue of a word does beside an effect of its own: everything that `Computes` says. -/
theorem commitWord_computes (i : Instr) (w : FWord) (s : State) (c : Ctx) (out : Nat → LaneOut)
    (ht : look s.teams c.id.team = some c.t) : Computes i w s c out (commitWord i w s c out) := by
  have b := begun i w s c none
  have rp := same_regPart i w c out (beginIssue i w s c none)
  have wp := same_writePreds i w c out (regPart i w c out (beginIssue i w s c none))
  have fs := same_foldSr out (lanesOf c.act) (writePreds i w c out (regPart i w c out (beginIssue i w s c none)))
  rw [← writeResults_eq] at fs
  have all : SameBut True True True True (writeResults i w c out (beginIssue i w s c none)) (beginIssue i w s c none) :=
    (fs.mono (fun h => h.elim) (fun h => h.elim) id (fun h => h.elim)).trans
      ((wp.mono (fun h => h.elim) id (fun h => h.elim) (fun h => h.elim)).trans
        (rp.mono id (fun h => h.elim) (fun h => h.elim) id))
  obtain ⟨g', hg, hcore, hv, herr, hp, hpc, hsr, hla, huq, hord, hno, hfl, hfr, hdue, hoth, hteam⟩ :=
    endChain_spec { c.t with groups := put c.t.groups c.id.g (stepLatches w (writeResults i w c out (beginIssue i w s c none))) }
      c.id.g (s.cycle + (latencyOf i).getD 0) (orFlags c out) (look_put_same ..)
  refine ⟨_, g', ?_, hg, ?_, ?_, ?_, hdue, ?_, ?_, ?_, ?_⟩
  · rw [commitWord, endIssue, updTeam]
    simp only [look_upd_same, ht]
    rfl
  · refine ⟨?_, ?_, ?_, ?_, ?_, ?_, ?_, ?_, ?_, ?_⟩
    · intro n l hl
      have h1 := fs.regs.resolve_left id
      have h2 := wp.regs.resolve_left id
      have h3 := readV_regPart i w c out (beginIssue i w s c none) n l hl
      unfold readV at h3 ⊢
      rw [hv]
      show get 0 (writeResults i w c out (beginIssue i w s c none)).v _ = _
      rw [h1.1, h2.1, h3, b.v]
    · intro n l hl
      have h1 := fs.regs.resolve_left id
      have h2 := wp.regs.resolve_left id
      have h3 := err_regPart i w c out (beginIssue i w s c none) n l hl
      rw [herr]
      show look (writeResults i w c out (beginIssue i w s c none)).err _ = _
      rw [h1.2, h2.2, h3, b.err]
    · intro k l hl
      have h1 := fs.preds.resolve_left id
      have h3 := readP_writePreds i w c out (regPart i w c out (beginIssue i w s c none)) k l hl
      have h4 := rp.preds.resolve_left id
      unfold readP at h3 ⊢
      rw [hp]
      show BitVec.getLsbD (if k = 0 then _ else get 0 (writeResults i w c out (beginIssue i w s c none)).p k) l = _
      rw [h1, h3, h4, b.p]
    · intro l hl
      have := b.pcs l hl
      unfold pcOf at this ⊢
      rw [hpc]
      show get 0 (writeResults i w c out (beginIssue i w s c none)).pc l = _
      rw [all.pc, this]
    · intro l hl
      have h1 := sr_foldSr out (lanesOf c.act) (writePreds i w c out (regPart i w c out (beginIssue i w s c none))) l
      rw [← writeResults_eq] at h1
      rw [hsr]
      show get 0 (writeResults i w c out (beginIssue i w s c none)).sr l = _
      rw [h1, wp.srs.resolve_left id, rp.srs.resolve_left id, b.sr]
      simp only [mem_lanesOf, hl, true_and]
    · intro k l _ hl
      rw [hla]
      show get 0 (writeResults i w c out (beginIssue i w s c none)).latch _ = _
      rw [fs.lat.resolve_left id, wp.lat.resolve_left id, latch_regPart _ _ _ _ _ _ _ hl, b.latch k l hl]
      unfold latchOf
      by_cases ha : c.act.getLsbD l = true
      · simp only [ha, true_and, Bool.not_true, Bool.false_eq_true, if_false]
        split
        · rfl
        · split <;> rfl
      · simp [ha]
    · rw [huq]
      show (writeResults i w c out (beginIssue i w s c none)).uqRead = _
      rw [all.uq, b.uq]
    · intro h1 h2
      apply hno
      show (writeResults i w c out (beginIssue i w s c none)).chain = none
      have := all.chain
      rw [b.chain, h1, h2] at this
      simpa using this
    · rw [hord]
      show (writeResults i w c out (beginIssue i w s c none)).ord = _
      rw [all.ord, b.ord]
    · apply frame_of_coreOf
      rw [hcore, ← b.core, ← all.core]
      rfl
  · rw [hfl]
    show allFlags c.t ||| heldFlags (writeResults i w c out (beginIssue i w s c none)) ||| _ = _
    rw [all.held, b.held]
  · exact hfr
  · intro k hk
    rw [hoth k hk]
    exact look_put_other _ _ hk
  · have := congrArg (fun t : Team => { t with groups := c.t.groups }) hteam
    exact this
  · intro k hk
    rw [commitWord, endIssue, updTeam]
    exact look_upd_other _ _ hk
  · rfl

/-! What an issue sees. -/

theorem ctxOf_ok {s : State} {w : FWord} {c : Ctx} (h : ctxOf s w = .ok c) :
    look s.teams c.id.team = some c.t ∧ look c.t.groups c.id.g = some c.gr ∧ c.id = s.cur.id ∧ c.pc = s.cur.pc ∧
      c.next = nextPc s.cur.pc s.cur.slots ∧ c.at_ = issueLanes c.gr s.cur.pc s.cur.lanes ∧ c.at_ ≠ 0 ∧
      c.act = predLanes c.gr w c.at_ ∧ c.dev = deviceId s ∧ c.t.status = .resident := by
  unfold ctxOf at h
  split at h
  · rename_i t gr ht hg
    dsimp only at h
    split at h
    · simp at h
    · rename_i hn
      simp only [not_or] at hn
      injection h with h
      subst h
      refine ⟨ht, ?_, rfl, rfl, rfl, rfl, hn.1, rfl, rfl, Decidable.of_not_not hn.2.1⟩
      unfold group at hg
      unfold team at ht
      rw [ht] at hg
      exact hg
  · simp at h

theorem operandChecks_ok {i : Instr} {w : FWord} {s : State} {c c' : Ctx} (h : operandChecks i w s c = .ok c') : c' = c := by
  unfold operandChecks at h
  simp only [bind, Except.bind, pure, Except.pure] at h
  repeat' split at h
  all_goals simp_all

/-- A word that issues: what it sees is the state's, and its checks have passed. -/
theorem issues_spec {i : Instr} {w : FWord} {s : State} {c : Ctx} (h : Issues i w s c) :
    ctxOf s w = .ok c ∧ operandChecks i w s c = .ok c ∧ featureCheck i s c = .ok () := by
  unfold Issues prologue at h
  simp only [bind, Except.bind, pure, Except.pure] at h
  split at h
  · simp at h
  · rename_i c1 h1
    split at h
    · simp at h
    · rename_i c2 h2
      have := operandChecks_ok h2
      subst this
      split at h
      · simp at h
      · rename_i u h3
        injection h with h
        subst h
        exact ⟨h1, h2, h3⟩

theorem issues_team {i : Instr} {w : FWord} {s : State} {c : Ctx} (h : Issues i w s c) : look s.teams c.id.team = some c.t :=
  (ctxOf_ok (issues_spec h).1).1

/-- A word whose meaning is `runLanes` is a word whose lanes compute. -/
theorem laneWord_of_runLanes {i : Instr} {w : FWord} {f : LaneIn → LaneOut} (h : ∀ s, exec i s = runLanes i w f s) :
    LaneWord i w f := by
  intro s c hc
  refine ⟨_, ?_, commitWord_computes i w s c _ (issues_team hc)⟩
  rw [h, runLanes]
  unfold Issues at hc
  simp only [hc, bind, Except.bind, pure, Except.pure, finish]

/-- The outcome of `runGroup` when the word issues. -/
theorem runGroup_issues {i : Instr} {w : FWord} {s : State} {c : Ctx} (f : Mask → (Nat → LaneIn) → Nat → LaneOut)
    (hc : Issues i w s c) : runGroup i w f s = .next (commitWord i w s c (f c.act (laneIn i w s c))) := by
  unfold Issues at hc
  simp only [runGroup, hc, bind, Except.bind, pure, Except.pure, finish]

/-- The outcome of `runEff` when the word issues and no lane executes it (R161). -/
theorem runEff_idle {i : Instr} {w : FWord} {s : State} {c : Ctx} (check out eff) (hc : Issues i w s c) (h : c.act = 0) :
    runEff i w check out eff s = .next (commitWord i w s c (fun _ => {})) := by
  unfold Issues at hc
  simp only [runEff, hc, bind, Except.bind, pure, Except.pure, finish, h, if_true]

/-- The outcome of `runEff` when the word issues, some lane executes it, and its own check passes. -/
theorem runEff_issues {i : Instr} {w : FWord} {s : State} {c : Ctx} {check : Ctx → Except Stop Unit} (out eff)
    (hc : Issues i w s c) (h : c.act ≠ 0) (hk : check c = .ok ()) :
    runEff i w check out eff s = .next (eff c (commitWord i w s c (out c))) := by
  unfold Issues at hc
  simp only [runEff, hc, bind, Except.bind, pure, Except.pure, finish, h, if_false, hk]

/-- The outcome of `runEff` when its own check stops the word. -/
theorem runEff_stops {i : Instr} {w : FWord} {s : State} {c : Ctx} {check : Ctx → Except Stop Unit} {e : Stop} (out eff)
    (hc : Issues i w s c) (h : c.act ≠ 0) (hk : check c = .error e) :
    runEff i w check out eff s = finish s (.error e) := by
  unfold Issues at hc
  simp only [runEff, hc, bind, Except.bind, h, if_false, hk]

end Sys2Proof.Machine
end

