-- ==== Sys2Proof/Laws/Memory.lean ====
section
/-! SUPPORT. The laws of memory: a read after a write, and that every memory operation keeps the canonical form. -/

namespace Sys2Proof.Machine

theorem readByte_writeByte (s : State) (a b : Nat) (x : Byte) : readByte (writeByte s a x) b = if b = a then x else readByte s b := by
  simp only [readByte, writeByte, get_set]

@[simp] theorem readByte_writeByte_same (s : State) (a : Nat) (x : Byte) : readByte (writeByte s a x) a = x := by
  rw [readByte_writeByte, if_pos rfl]

theorem readByte_writeByte_other (s : State) {a b : Nat} (x : Byte) (h : b ≠ a) : readByte (writeByte s a x) b = readByte s b := by
  rw [readByte_writeByte, if_neg h]

/-- A write of several bytes changes nothing but memory. -/
theorem writeBytes_frame (s : State) (a : Nat) (bs : List Byte) : ∃ m, writeBytes s a bs = { s with mem := m } := by
  induction bs generalizing s a with
  | nil => exact ⟨s.mem, rfl⟩
  | cons b bs ih =>
    obtain ⟨m, h⟩ := ih (writeByte s a b) (a + 1)
    exact ⟨m, h.trans rfl⟩

/-- A write of several bytes leaves every byte outside them alone. -/
theorem readByte_writeBytes_other (s : State) (a : Nat) (bs : List Byte) (b : Nat) (h : b < a ∨ a + bs.length ≤ b) :
    readByte (writeBytes s a bs) b = readByte s b := by
  induction bs generalizing s a with
  | nil => rfl
  | cons x bs ih =>
    simp only [List.length_cons] at h
    rw [writeBytes, ih _ _ (by omega), readByte_writeByte_other _ _ (by omega)]

/-- A read of a byte that several bytes were written to gives that byte. -/
theorem readByte_writeBytes (s : State) (a : Nat) (bs : List Byte) (k : Nat) (h : k < bs.length) :
    readByte (writeBytes s a bs) (a + k) = bs[k] := by
  induction bs generalizing s a k with
  | nil => simp at h
  | cons x bs ih =>
    rw [writeBytes]
    cases k with
    | zero => rw [readByte_writeBytes_other _ _ _ _ (by omega)]; simp
    | succ k =>
      have := ih (writeByte s a x) (a + 1) k (by simpa using h)
      rw [show a + 1 + k = a + (k + 1) by omega] at this
      simpa using this

@[simp] theorem leBytes_length (n v : Nat) : (leBytes n v).length = n := by
  induction n generalizing v with
  | zero => rfl
  | succ n ih => simp [leBytes, ih]

/-! The canonical form. -/

theorem memWf_writeByte {s : State} (a : Nat) (x : Byte) (h : memWf s.mem = true) : memWf (writeByte s a x).mem = true :=
  canon_set 0 a x h

theorem memWf_writeBytes {s : State} (a : Nat) (bs : List Byte) (h : memWf s.mem = true) : memWf (writeBytes s a bs).mem = true := by
  induction bs generalizing s a with
  | nil => exact h
  | cons b bs ih => simp only [writeBytes]; exact ih (a + 1) (memWf_writeByte a b h)

theorem memWf_write64 {s : State} (a : Nat) (v : W64) (h : memWf s.mem = true) : memWf (write64 s a v).mem = true :=
  memWf_writeBytes a _ h

theorem writeWords_cons (s : State) (a : Nat) (w : W64) (ws : List W64) :
    writeWords s a (w :: ws) = writeWords (write64 s a w) (a + 8) ws := by
  generalize h : write64 s a w = z
  conv => lhs; unfold writeWords
  rw [h]

theorem memWf_writeWords {s : State} (a : Nat) (ws : List W64) (h : memWf s.mem = true) : memWf (writeWords s a ws).mem = true := by
  induction ws generalizing s a with
  | nil => exact h
  | cons w ws ih =>
    rw [writeWords_cons]
    exact ih (s := write64 s a w) (a + 8) (memWf_write64 a w h)

/-- A list of byte writes keeps the canonical form. -/
theorem memWf_foldl_writeByte {s : State} (bs : List (Nat × Byte)) (h : memWf s.mem = true) :
    memWf (State.mem (bs.foldl (fun (s : State) (e : Nat × Byte) => writeByte s e.1 e.2) s)) = true := by
  induction bs generalizing s with
  | nil => exact h
  | cons b bs ih =>
    rw [List.foldl_cons]
    exact ih (s := writeByte s b.1 b.2) (memWf_writeByte b.1 b.2 h)

theorem mem_dropWord (s : State) (wd : Nat) : (dropWord s wd).mem = s.mem := by
  unfold dropWord
  split <;> rfl

theorem mem_foldl_dropWord (ws : List Nat) (s : State) : (ws.foldl dropWord s).mem = s.mem := by
  induction ws generalizing s with
  | nil => rfl
  | cons w ws ih => rw [List.foldl_cons, ih, mem_dropWord]

/-- An engine's write keeps the canonical form. -/
theorem memWf_engineWrite {s : State} (bs : List (Nat × Byte)) (h : memWf s.mem = true) : memWf (engineWrite s bs).mem = true := by
  unfold engineWrite
  exact memWf_foldl_writeByte bs (by rw [mem_foldl_dropWord]; exact h)

/-- The writes of a command keep the canonical form. -/
theorem memWf_engPut {s : State} (dev core here : Nat) (ws : List EngByte) (h : memWf s.mem = true) :
    memWf (engPut s dev core here ws).mem = true := by
  have keep : ∀ (ws : List EngByte) (s : State), memWf s.mem = true →
      memWf (State.mem (ws.foldl (fun (s : State) (e : EngByte) => writeByte s e.pa (mergeByte (readByte s e.pa) e)) s)) = true := by
    intro ws
    induction ws with
    | nil => exact fun _ h => h
    | cons e ws ih => exact fun s h => ih _ (memWf_writeByte e.pa _ h)
  unfold engPut
  exact keep ws _ (by split <;> exact (congrArg memWf (mem_foldl_dropWord ..)).trans h)

end Sys2Proof.Machine
end

