-- ==== Sys2Proof/Laws/PerInstr.lean ====
section
/-! SUPPORT. Per instruction: its word carries its own opcode (R96, R115). -/

namespace Sys2Proof.Laws.Encodes
open Sys2Proof Sys2Proof.Machine

/-- What the word of an instruction says: an F-form word is assembled from a family of the opcode map and a MOD field whose member,
read back, makes the same instruction of the same fields, without a MOD fault, in each variant that the instruction has; the other
forms have their form bit, and an event has no word. -/
def Statement (i : Instr) : Prop :=
  match encF i with
  | some (f, m, w) =>
    encode i = some (assemble f m w) ∧ allFams.contains f = true ∧
      ∀ imm, roundingOk i = true → cvtxOk i = true → variantOk i imm = true →
        ∃ mb, memberOf f imm m = .ok mb ∧ mb.build w = i ∧ mb.modErr = none
  | none => encode i = none ∨ ∃ x, encode i = some x ∧ x.getLsbD 62 = true

theorem pForm62 (x y : BitVec 31) : (1#2 ++ x ++ y : BitVec (2 + 31 + 31)).getLsbD 62 = true := by
  rw [BitVec.getLsbD_append, BitVec.getLsbD_append]; rfl
theorem dForm62 (n : BitVec 2) (x y z : BitVec 16) : (3#2 ++ n ++ 0#12 ++ x ++ y ++ z : BitVec (2 + 2 + 12 + 16 + 16 + 16)).getLsbD 62 = true := by
  rw [BitVec.getLsbD_append, BitVec.getLsbD_append, BitVec.getLsbD_append, BitVec.getLsbD_append, BitVec.getLsbD_append]; rfl

theorem congr2 {α β γ : Type} (f : α → β → γ) {a b : α} {c d : β} (h : a = b) (k : c = d) : f a c = f b d := by rw [h, k]

theorem append_low {n k : Nat} (x : BitVec n) (y : BitVec k) : (x ++ y).extractLsb' 0 k = y := by
  apply BitVec.eq_of_getLsbD_eq
  intro i hi
  simp [BitVec.getLsbD_append, hi]

theorem append_high {n k : Nat} (x : BitVec n) (y : BitVec k) : (x ++ y).extractLsb' k n = x := by
  apply BitVec.eq_of_getLsbD_eq
  intro i hi
  simp [BitVec.getLsbD_append, hi]

theorem bits2 (p : BitVec 2) : p = 0 ∨ p = 1 ∨ p = 2 ∨ p = 3 := by revert p; decide
theorem bits3 (p : BitVec 3) : p = 0 ∨ p = 1 ∨ p = 2 ∨ p = 3 ∨ p = 4 ∨ p = 5 ∨ p = 6 ∨ p = 7 := by revert p; decide
theorem bits4 (p : BitVec 4) : p = 0 ∨ p = 1 ∨ p = 2 ∨ p = 3 ∨ p = 4 ∨ p = 5 ∨ p = 6 ∨ p = 7 ∨ p = 8 ∨ p = 9 ∨ p = 10 ∨ p = 11 ∨ p = 12 ∨ p = 13 ∨ p = 14 ∨ p = 15 := by revert p; decide
theorem opt2 (p : Option (BitVec 2)) : p = none ∨ p = some 0 ∨ p = some 1 ∨ p = some 2 ∨ p = some 3 := by
  cases p with
  | none => exact .inl rfl
  | some x => simpa using bits2 x
theorem opt3 (p : Option (BitVec 3)) : p = none ∨ p = some 0 ∨ p = some 1 ∨ p = some 2 ∨ p = some 3 ∨ p = some 4 ∨ p = some 5 ∨ p = some 6 ∨ p = some 7 := by
  cases p with
  | none => exact .inl rfl
  | some x => simpa using bits3 x
theorem opt4 (p : Option (BitVec 4)) : p = none ∨ p = some 0 ∨ p = some 1 ∨ p = some 2 ∨ p = some 3 ∨ p = some 4 ∨ p = some 5 ∨ p = some 6 ∨ p = some 7 ∨ p = some 8 ∨ p = some 9 ∨ p = some 10 ∨ p = some 11 ∨ p = some 12 ∨ p = some 13 ∨ p = some 14 ∨ p = some 15 := by
  cases p with
  | none => exact .inl rfl
  | some x => simpa using bits4 x

theorem iadd (w : FWord) (m : Sat) : Statement (.iadd w m) := by
  refine ⟨rfl, rfl, fun imm h1 h2 h3 => ?_⟩
  cases imm
  all_goals cases m
  all_goals exact ⟨_, rfl, rfl, rfl⟩
theorem isub (w : FWord) (m : Sat) : Statement (.isub w m) := by
  refine ⟨rfl, rfl, fun imm h1 h2 h3 => ?_⟩
  cases imm
  all_goals cases m
  all_goals exact ⟨_, rfl, rfl, rfl⟩
theorem iaddc (w : FWord) (p : BitVec 3) (c0 : Bool) : Statement (.iaddc w p c0) := by
  refine ⟨rfl, rfl, fun imm h1 h2 h3 => ?_⟩
  cases imm
  all_goals obtain rfl | rfl | rfl | rfl | rfl | rfl | rfl | rfl := bits3 p
  all_goals cases c0
  all_goals exact ⟨_, rfl, rfl, rfl⟩
theorem isubb (w : FWord) (p : BitVec 3) (c0 : Bool) : Statement (.isubb w p c0) := by
  refine ⟨rfl, rfl, fun imm h1 h2 h3 => ?_⟩
  cases imm
  all_goals obtain rfl | rfl | rfl | rfl | rfl | rfl | rfl | rfl := bits3 p
  all_goals cases c0
  all_goals exact ⟨_, rfl, rfl, rfl⟩
theorem ineg (w : FWord) (sat : Bool) : Statement (.ineg w sat) := by
  refine ⟨rfl, rfl, fun imm h1 h2 h3 => ?_⟩
  cases imm
  all_goals cases sat
  all_goals (first | exact ⟨_, rfl, rfl, rfl⟩ | (cases h1; done) | (cases h2; done) | (cases h3; done))
theorem iabs (w : FWord) (sat : Bool) : Statement (.iabs w sat) := by
  refine ⟨rfl, rfl, fun imm h1 h2 h3 => ?_⟩
  cases imm
  all_goals cases sat
  all_goals (first | exact ⟨_, rfl, rfl, rfl⟩ | (cases h1; done) | (cases h2; done) | (cases h3; done))
theorem imul (w : FWord) : Statement (.imul w) := by
  refine ⟨rfl, rfl, fun imm h1 h2 h3 => ?_⟩
  cases imm
  all_goals exact ⟨_, rfl, rfl, rfl⟩
theorem imulh (w : FWord) (u : Bool) : Statement (.imulh w u) := by
  refine ⟨rfl, rfl, fun imm h1 h2 h3 => ?_⟩
  cases imm
  all_goals cases u
  all_goals exact ⟨_, rfl, rfl, rfl⟩
theorem imad (w : FWord) : Statement (.imad w) := by
  refine ⟨rfl, rfl, fun imm h1 h2 h3 => ?_⟩
  cases imm
  all_goals (first | exact ⟨_, rfl, rfl, rfl⟩ | (cases h1; done) | (cases h2; done) | (cases h3; done))
theorem imadw (w : FWord) (u : Bool) : Statement (.imadw w u) := by
  refine ⟨rfl, rfl, fun imm h1 h2 h3 => ?_⟩
  cases imm
  all_goals cases u
  all_goals (first | exact ⟨_, rfl, rfl, rfl⟩ | (cases h1; done) | (cases h2; done) | (cases h3; done))
theorem iadd64 (w : FWord) (m : Sat) : Statement (.iadd64 w m) := by
  refine ⟨rfl, rfl, fun imm h1 h2 h3 => ?_⟩
  cases imm
  all_goals cases m
  all_goals exact ⟨_, rfl, rfl, rfl⟩
theorem isub64 (w : FWord) (m : Sat) : Statement (.isub64 w m) := by
  refine ⟨rfl, rfl, fun imm h1 h2 h3 => ?_⟩
  cases imm
  all_goals cases m
  all_goals exact ⟨_, rfl, rfl, rfl⟩
theorem shf64 (w : FWord) (dir : ShfDir) : Statement (.shf64 w dir) := by
  refine ⟨rfl, rfl, fun imm h1 h2 h3 => ?_⟩
  cases imm
  all_goals cases dir
  all_goals exact ⟨_, rfl, rfl, rfl⟩
theorem imin (w : FWord) (u : Bool) : Statement (.imin w u) := by
  refine ⟨rfl, rfl, fun imm h1 h2 h3 => ?_⟩
  cases imm
  all_goals cases u
  all_goals exact ⟨_, rfl, rfl, rfl⟩
theorem imax (w : FWord) (u : Bool) : Statement (.imax w u) := by
  refine ⟨rfl, rfl, fun imm h1 h2 h3 => ?_⟩
  cases imm
  all_goals cases u
  all_goals exact ⟨_, rfl, rfl, rfl⟩
theorem iand (w : FWord) (d : Bool) : Statement (.iand w d) := by
  refine ⟨rfl, rfl, fun imm h1 h2 h3 => ?_⟩
  cases imm
  all_goals cases d
  all_goals exact ⟨_, rfl, rfl, rfl⟩
theorem ior (w : FWord) (d : Bool) : Statement (.ior w d) := by
  refine ⟨rfl, rfl, fun imm h1 h2 h3 => ?_⟩
  cases imm
  all_goals cases d
  all_goals exact ⟨_, rfl, rfl, rfl⟩
theorem ixor (w : FWord) (d : Bool) : Statement (.ixor w d) := by
  refine ⟨rfl, rfl, fun imm h1 h2 h3 => ?_⟩
  cases imm
  all_goals cases d
  all_goals exact ⟨_, rfl, rfl, rfl⟩
theorem inot (w : FWord) (d : Bool) : Statement (.inot w d) := by
  refine ⟨rfl, rfl, fun imm h1 h2 h3 => ?_⟩
  cases imm
  all_goals cases d
  all_goals (first | exact ⟨_, rfl, rfl, rfl⟩ | (cases h1; done) | (cases h2; done) | (cases h3; done))
theorem ilop3 (w : FWord) (f0 : BitVec 4) (f1 : BitVec 4) : Statement (.ilop3 w f0 f1) := by
  refine ⟨rfl, rfl, fun imm _ _ h3 => ⟨_, rfl, ?_, rfl⟩⟩
  exact congr2 (Instr.ilop3 w) (append_low f1 f0) (append_high f1 f0)
theorem shl (w : FWord) : Statement (.shl w) := by
  refine ⟨rfl, rfl, fun imm h1 h2 h3 => ?_⟩
  cases imm
  all_goals exact ⟨_, rfl, rfl, rfl⟩
theorem shr (w : FWord) : Statement (.shr w) := by
  refine ⟨rfl, rfl, fun imm h1 h2 h3 => ?_⟩
  cases imm
  all_goals exact ⟨_, rfl, rfl, rfl⟩
theorem sar (w : FWord) : Statement (.sar w) := by
  refine ⟨rfl, rfl, fun imm h1 h2 h3 => ?_⟩
  cases imm
  all_goals exact ⟨_, rfl, rfl, rfl⟩
theorem rot (w : FWord) : Statement (.rot w) := by
  refine ⟨rfl, rfl, fun imm h1 h2 h3 => ?_⟩
  cases imm
  all_goals exact ⟨_, rfl, rfl, rfl⟩
theorem bfe (w : FWord) (s : Bool) : Statement (.bfe w s) := by
  refine ⟨rfl, rfl, fun imm h1 h2 h3 => ?_⟩
  cases imm
  all_goals cases s
  all_goals exact ⟨_, rfl, rfl, rfl⟩
theorem bfi (w : FWord) : Statement (.bfi w) := by
  refine ⟨rfl, rfl, fun imm h1 h2 h3 => ?_⟩
  cases imm
  all_goals (first | exact ⟨_, rfl, rfl, rfl⟩ | (cases h1; done) | (cases h2; done) | (cases h3; done))
theorem popc (w : FWord) : Statement (.popc w) := by
  refine ⟨rfl, rfl, fun imm h1 h2 h3 => ?_⟩
  cases imm
  all_goals (first | exact ⟨_, rfl, rfl, rfl⟩ | (cases h1; done) | (cases h2; done) | (cases h3; done))
theorem clz (w : FWord) : Statement (.clz w) := by
  refine ⟨rfl, rfl, fun imm h1 h2 h3 => ?_⟩
  cases imm
  all_goals (first | exact ⟨_, rfl, rfl, rfl⟩ | (cases h1; done) | (cases h2; done) | (cases h3; done))
theorem brev (w : FWord) : Statement (.brev w) := by
  refine ⟨rfl, rfl, fun imm h1 h2 h3 => ?_⟩
  cases imm
  all_goals (first | exact ⟨_, rfl, rfl, rfl⟩ | (cases h1; done) | (cases h2; done) | (cases h3; done))
theorem icmp (w : FWord) (cond : Cond) (u : Bool) (d : Bool) : Statement (.icmp w cond u d) := by
  refine ⟨rfl, rfl, fun imm h1 h2 h3 => ?_⟩
  cases imm
  all_goals cases cond
  all_goals cases u
  all_goals cases d
  all_goals exact ⟨_, rfl, rfl, rfl⟩
theorem sel (w : FWord) (p : BitVec 3) (neg : Bool) (d : Bool) : Statement (.sel w p neg d) := by
  refine ⟨rfl, rfl, fun imm h1 h2 h3 => ?_⟩
  cases imm
  all_goals obtain rfl | rfl | rfl | rfl | rfl | rfl | rfl | rfl := bits3 p
  all_goals cases neg
  all_goals cases d
  all_goals exact ⟨_, rfl, rfl, rfl⟩
theorem mov (w : FWord) (d : Bool) (xdst : Option (BitVec 2)) : Statement (.mov w d xdst) := by
  refine ⟨rfl, rfl, fun imm h1 h2 h3 => ?_⟩
  cases imm
  all_goals cases d
  all_goals obtain rfl | rfl | rfl | rfl | rfl := opt2 xdst
  all_goals (first | exact ⟨_, rfl, rfl, rfl⟩ | (cases h1; done) | (cases h2; done) | (cases h3; done))
theorem movi (w : FWord) (d : Bool) : Statement (.movi w d) := by
  refine ⟨rfl, rfl, fun imm h1 h2 h3 => ?_⟩
  cases imm
  all_goals cases d
  all_goals (first | exact ⟨_, rfl, rfl, rfl⟩ | (cases h1; done) | (cases h2; done) | (cases h3; done))
theorem movhi (w : FWord) : Statement (.movhi w) := by
  refine ⟨rfl, rfl, fun imm h1 h2 h3 => ?_⟩
  cases imm
  all_goals (first | exact ⟨_, rfl, rfl, rfl⟩ | (cases h1; done) | (cases h2; done) | (cases h3; done))
theorem lea (w : FWord) (sh : BitVec 3) (s : Bool) : Statement (.lea w sh s) := by
  refine ⟨rfl, rfl, fun imm h1 h2 h3 => ?_⟩
  cases imm
  all_goals obtain rfl | rfl | rfl | rfl | rfl | rfl | rfl | rfl := bits3 sh
  all_goals cases s
  all_goals exact ⟨_, rfl, rfl, rfl⟩
theorem pand (w : FWord) (neg : Bool) : Statement (.pand w neg) := by
  refine ⟨rfl, rfl, fun imm h1 h2 h3 => ?_⟩
  cases imm
  all_goals cases neg
  all_goals exact ⟨_, rfl, rfl, rfl⟩
theorem por (w : FWord) (neg : Bool) : Statement (.por w neg) := by
  refine ⟨rfl, rfl, fun imm h1 h2 h3 => ?_⟩
  cases imm
  all_goals cases neg
  all_goals exact ⟨_, rfl, rfl, rfl⟩
theorem pxor (w : FWord) (neg : Bool) : Statement (.pxor w neg) := by
  refine ⟨rfl, rfl, fun imm h1 h2 h3 => ?_⟩
  cases imm
  all_goals cases neg
  all_goals exact ⟨_, rfl, rfl, rfl⟩
theorem pnot (w : FWord) : Statement (.pnot w) := by
  refine ⟨rfl, rfl, fun imm h1 h2 h3 => ?_⟩
  cases imm
  all_goals exact ⟨_, rfl, rfl, rfl⟩
theorem pset (w : FWord) (z : Bool) : Statement (.pset w z) := by
  refine ⟨rfl, rfl, fun imm h1 h2 h3 => ?_⟩
  cases imm
  all_goals cases z
  all_goals exact ⟨_, rfl, rfl, rfl⟩
theorem fadd (w : FWord) (rm : Rm) (sat : Bool) : Statement (.fadd w rm sat) := by
  refine ⟨rfl, rfl, fun imm h1 h2 h3 => ?_⟩
  cases imm
  all_goals cases rm
  all_goals cases sat
  all_goals (first | exact ⟨_, rfl, rfl, rfl⟩ | (cases h1; done))
theorem fsub (w : FWord) (rm : Rm) (sat : Bool) : Statement (.fsub w rm sat) := by
  refine ⟨rfl, rfl, fun imm h1 h2 h3 => ?_⟩
  cases imm
  all_goals cases rm
  all_goals cases sat
  all_goals (first | exact ⟨_, rfl, rfl, rfl⟩ | (cases h1; done))
theorem fmul (w : FWord) (rm : Rm) (sat : Bool) : Statement (.fmul w rm sat) := by
  refine ⟨rfl, rfl, fun imm h1 h2 h3 => ?_⟩
  cases imm
  all_goals cases rm
  all_goals cases sat
  all_goals (first | exact ⟨_, rfl, rfl, rfl⟩ | (cases h1; done))
theorem fdivs (w : FWord) (rm : Rm) (sat : Bool) : Statement (.fdivs w rm sat) := by
  refine ⟨rfl, rfl, fun imm h1 h2 h3 => ?_⟩
  cases imm
  all_goals cases rm
  all_goals cases sat
  all_goals (first | exact ⟨_, rfl, rfl, rfl⟩ | (cases h1; done))
theorem dadd (w : FWord) (rm : Rm) (sat : Bool) : Statement (.dadd w rm sat) := by
  refine ⟨rfl, rfl, fun imm h1 h2 h3 => ?_⟩
  cases imm
  all_goals cases rm
  all_goals cases sat
  all_goals (first | exact ⟨_, rfl, rfl, rfl⟩ | (cases h1; done))
theorem dsub (w : FWord) (rm : Rm) (sat : Bool) : Statement (.dsub w rm sat) := by
  refine ⟨rfl, rfl, fun imm h1 h2 h3 => ?_⟩
  cases imm
  all_goals cases rm
  all_goals cases sat
  all_goals (first | exact ⟨_, rfl, rfl, rfl⟩ | (cases h1; done))
theorem dmul (w : FWord) (rm : Rm) (sat : Bool) : Statement (.dmul w rm sat) := by
  refine ⟨rfl, rfl, fun imm h1 h2 h3 => ?_⟩
  cases imm
  all_goals cases rm
  all_goals cases sat
  all_goals (first | exact ⟨_, rfl, rfl, rfl⟩ | (cases h1; done))
theorem ffma (w : FWord) (nab : Bool) (nc : Bool) (rm : Rm) (sat : Bool) : Statement (.ffma w nab nc rm sat) := by
  refine ⟨rfl, rfl, fun imm h1 h2 h3 => ?_⟩
  cases imm
  all_goals cases nab
  all_goals cases nc
  all_goals cases rm
  all_goals cases sat
  all_goals (first | exact ⟨_, rfl, rfl, rfl⟩ | (cases h1; done))
theorem dfma (w : FWord) (nab : Bool) (nc : Bool) (rm : Rm) (sat : Bool) : Statement (.dfma w nab nc rm sat) := by
  refine ⟨rfl, rfl, fun imm h1 h2 h3 => ?_⟩
  cases imm
  all_goals cases nab
  all_goals cases nc
  all_goals cases rm
  all_goals cases sat
  all_goals (first | exact ⟨_, rfl, rfl, rfl⟩ | (cases h1; done))
theorem fmin (w : FWord) (rm : Rm) : Statement (.fmin w rm) := by
  refine ⟨rfl, rfl, fun imm h1 h2 h3 => ?_⟩
  cases imm
  all_goals cases rm
  all_goals (first | exact ⟨_, rfl, rfl, rfl⟩ | (cases h1; done))
theorem fmax (w : FWord) (rm : Rm) : Statement (.fmax w rm) := by
  refine ⟨rfl, rfl, fun imm h1 h2 h3 => ?_⟩
  cases imm
  all_goals cases rm
  all_goals (first | exact ⟨_, rfl, rfl, rfl⟩ | (cases h1; done))
theorem dmin (w : FWord) (rm : Rm) : Statement (.dmin w rm) := by
  refine ⟨rfl, rfl, fun imm h1 h2 h3 => ?_⟩
  cases imm
  all_goals cases rm
  all_goals (first | exact ⟨_, rfl, rfl, rfl⟩ | (cases h1; done))
theorem dmax (w : FWord) (rm : Rm) : Statement (.dmax w rm) := by
  refine ⟨rfl, rfl, fun imm h1 h2 h3 => ?_⟩
  cases imm
  all_goals cases rm
  all_goals (first | exact ⟨_, rfl, rfl, rfl⟩ | (cases h1; done))
theorem fcmp (w : FWord) (cond : FCond) (rm : Rm) (s : Bool) : Statement (.fcmp w cond rm s) := by
  refine ⟨rfl, rfl, fun imm h1 h2 h3 => ?_⟩
  cases imm
  all_goals cases cond
  all_goals cases rm
  all_goals cases s
  all_goals (first | exact ⟨_, rfl, rfl, rfl⟩ | (cases h1; done))
theorem dcmp (w : FWord) (cond : FCond) (rm : Rm) (s : Bool) : Statement (.dcmp w cond rm s) := by
  refine ⟨rfl, rfl, fun imm h1 h2 h3 => ?_⟩
  cases imm
  all_goals cases cond
  all_goals cases rm
  all_goals cases s
  all_goals (first | exact ⟨_, rfl, rfl, rfl⟩ | (cases h1; done))
theorem frnd (w : FWord) (rm : Rm) : Statement (.frnd w rm) := by
  refine ⟨rfl, rfl, fun imm h1 h2 h3 => ?_⟩
  cases imm
  all_goals cases rm
  all_goals (first | exact ⟨_, rfl, rfl, rfl⟩ | (cases h1; done))
theorem drnd (w : FWord) (rm : Rm) : Statement (.drnd w rm) := by
  refine ⟨rfl, rfl, fun imm h1 h2 h3 => ?_⟩
  cases imm
  all_goals cases rm
  all_goals (first | exact ⟨_, rfl, rfl, rfl⟩ | (cases h1; done))
theorem fclass (w : FWord) (fmt : ClassFmt) (rm : Rm) : Statement (.fclass w fmt rm) := by
  refine ⟨rfl, rfl, fun imm h1 h2 h3 => ?_⟩
  cases imm
  all_goals cases fmt
  all_goals cases rm
  all_goals (first | exact ⟨_, rfl, rfl, rfl⟩ | (cases h1; done))
theorem hadd2 (w : FWord) (rm : Rm) (sat : Bool) : Statement (.hadd2 w rm sat) := by
  refine ⟨rfl, rfl, fun imm h1 h2 h3 => ?_⟩
  cases imm
  all_goals cases rm
  all_goals cases sat
  all_goals (first | exact ⟨_, rfl, rfl, rfl⟩ | (cases h1; done))
theorem hmul2 (w : FWord) (rm : Rm) (sat : Bool) : Statement (.hmul2 w rm sat) := by
  refine ⟨rfl, rfl, fun imm h1 h2 h3 => ?_⟩
  cases imm
  all_goals cases rm
  all_goals cases sat
  all_goals (first | exact ⟨_, rfl, rfl, rfl⟩ | (cases h1; done))
theorem badd2 (w : FWord) (rm : Rm) (sat : Bool) : Statement (.badd2 w rm sat) := by
  refine ⟨rfl, rfl, fun imm h1 h2 h3 => ?_⟩
  cases imm
  all_goals cases rm
  all_goals cases sat
  all_goals (first | exact ⟨_, rfl, rfl, rfl⟩ | (cases h1; done))
theorem bmul2 (w : FWord) (rm : Rm) (sat : Bool) : Statement (.bmul2 w rm sat) := by
  refine ⟨rfl, rfl, fun imm h1 h2 h3 => ?_⟩
  cases imm
  all_goals cases rm
  all_goals cases sat
  all_goals (first | exact ⟨_, rfl, rfl, rfl⟩ | (cases h1; done))
theorem hfma2 (w : FWord) (rm : Rm) (sat : Bool) : Statement (.hfma2 w rm sat) := by
  refine ⟨rfl, rfl, fun imm h1 h2 h3 => ?_⟩
  cases imm
  all_goals cases rm
  all_goals cases sat
  all_goals (first | exact ⟨_, rfl, rfl, rfl⟩ | (cases h1; done))
theorem bfma2 (w : FWord) (rm : Rm) (sat : Bool) : Statement (.bfma2 w rm sat) := by
  refine ⟨rfl, rfl, fun imm h1 h2 h3 => ?_⟩
  cases imm
  all_goals cases rm
  all_goals cases sat
  all_goals (first | exact ⟨_, rfl, rfl, rfl⟩ | (cases h1; done))
theorem dot4i (w : FWord) (ua : Bool) (ub : Bool) (sat : Bool) (rm : Rm) : Statement (.dot4i w ua ub sat rm) := by
  refine ⟨rfl, rfl, fun imm h1 h2 h3 => ?_⟩
  cases imm
  all_goals cases ua
  all_goals cases ub
  all_goals cases sat
  all_goals cases rm
  all_goals (first | exact ⟨_, rfl, rfl, rfl⟩ | (cases h1; done))
theorem frcp (w : FWord) : Statement (.frcp w) := by
  refine ⟨rfl, rfl, fun imm h1 h2 h3 => ?_⟩
  cases imm
  all_goals exact ⟨_, rfl, rfl, rfl⟩
theorem frsq (w : FWord) : Statement (.frsq w) := by
  refine ⟨rfl, rfl, fun imm h1 h2 h3 => ?_⟩
  cases imm
  all_goals exact ⟨_, rfl, rfl, rfl⟩
theorem fsqrt (w : FWord) : Statement (.fsqrt w) := by
  refine ⟨rfl, rfl, fun imm h1 h2 h3 => ?_⟩
  cases imm
  all_goals exact ⟨_, rfl, rfl, rfl⟩
theorem fexp2 (w : FWord) : Statement (.fexp2 w) := by
  refine ⟨rfl, rfl, fun imm h1 h2 h3 => ?_⟩
  cases imm
  all_goals exact ⟨_, rfl, rfl, rfl⟩
theorem flog2 (w : FWord) : Statement (.flog2 w) := by
  refine ⟨rfl, rfl, fun imm h1 h2 h3 => ?_⟩
  cases imm
  all_goals exact ⟨_, rfl, rfl, rfl⟩
theorem fsin (w : FWord) : Statement (.fsin w) := by
  refine ⟨rfl, rfl, fun imm h1 h2 h3 => ?_⟩
  cases imm
  all_goals exact ⟨_, rfl, rfl, rfl⟩
theorem fcos (w : FWord) : Statement (.fcos w) := by
  refine ⟨rfl, rfl, fun imm h1 h2 h3 => ?_⟩
  cases imm
  all_goals exact ⟨_, rfl, rfl, rfl⟩
theorem cvt (w : FWord) (k : Cvt) (rm : Rm) : Statement (.cvt w k rm) := by
  refine ⟨rfl, rfl, fun imm h1 h2 h3 => ?_⟩
  cases imm
  all_goals cases k
  all_goals cases rm
  all_goals (first | exact ⟨_, rfl, rfl, rfl⟩ | (cases h1; done))
theorem cvt8 (w : FWord) (op : Cvt8) : Statement (.cvt8 w op) := by
  cases op with
  | fromF32 e5 rm h =>
    refine ⟨rfl, rfl, fun imm h1 h2 h3 => ?_⟩
    cases imm <;> cases e5 <;> cases rm <;> cases h <;>
      exact ⟨_, rfl, rfl, rfl⟩
  | from16 e5 rm h bf =>
    refine ⟨rfl, rfl, fun imm h1 h2 h3 => ?_⟩
    cases imm <;> cases e5 <;> cases rm <;> cases h <;> cases bf <;>
      exact ⟨_, rfl, rfl, rfl⟩
  | toF32 e5 k =>
    refine ⟨rfl, rfl, fun imm h1 h2 h3 => ?_⟩
    cases imm <;> obtain rfl | rfl | rfl | rfl := bits2 k <;> cases e5 <;>
      exact ⟨_, rfl, rfl, rfl⟩
  | to16 e5 h bf =>
    refine ⟨rfl, rfl, fun imm h1 h2 h3 => ?_⟩
    cases imm <;> cases e5 <;> cases h <;> cases bf <;>
      exact ⟨_, rfl, rfl, rfl⟩
theorem cvt4E2m1 (w : FWord) (rm : Rm) : Statement (.cvt4E2m1 w rm) := by
  refine ⟨rfl, rfl, fun imm h1 h2 h3 => ?_⟩
  cases imm
  all_goals cases rm
  all_goals exact ⟨_, rfl, rfl, rfl⟩
theorem cvt4Pack (w : FWord) : Statement (.cvt4Pack w) := by
  refine ⟨rfl, rfl, fun imm h1 h2 h3 => ?_⟩
  cases imm
  all_goals exact ⟨_, rfl, rfl, rfl⟩
theorem cvt4Fp32 (w : FWord) (n : BitVec 3) : Statement (.cvt4Fp32 w n) := by
  refine ⟨rfl, rfl, fun imm h1 h2 h3 => ?_⟩
  cases imm
  all_goals obtain rfl | rfl | rfl | rfl | rfl | rfl | rfl | rfl := bits3 n
  all_goals exact ⟨_, rfl, rfl, rfl⟩
theorem cvtx (w : FWord) (fmt : StoFmt) (o : BitVec 3) : Statement (.cvtx w fmt o) := by
  refine ⟨rfl, rfl, fun imm h1 h2 h3 => ?_⟩
  cases imm
  all_goals cases fmt
  all_goals obtain rfl | rfl | rfl | rfl | rfl | rfl | rfl | rfl := bits3 o
  all_goals (first | exact ⟨_, rfl, rfl, rfl⟩ | (cases h1; done) | (cases h2; done))
theorem sclxFp32 (w : FWord) (rm : Rm) : Statement (.sclxFp32 w rm) := by
  refine ⟨rfl, rfl, fun imm h1 h2 h3 => ?_⟩
  cases imm
  all_goals cases rm
  all_goals (first | exact ⟨_, rfl, rfl, rfl⟩ | (cases h1; done))
theorem sclxFp64 (w : FWord) (rm : Rm) : Statement (.sclxFp64 w rm) := by
  refine ⟨rfl, rfl, fun imm h1 h2 h3 => ?_⟩
  cases imm
  all_goals cases rm
  all_goals (first | exact ⟨_, rfl, rfl, rfl⟩ | (cases h1; done))
theorem sclxX8 (w : FWord) (inv : Bool) (rm : Rm) : Statement (.sclxX8 w inv rm) := by
  refine ⟨rfl, rfl, fun imm h1 h2 h3 => ?_⟩
  cases imm
  all_goals cases inv
  all_goals cases rm
  all_goals (first | exact ⟨_, rfl, rfl, rfl⟩ | (cases h1; done))
theorem sclxBlk (w : FWord) (fmt : BlkFmt) : Statement (.sclxBlk w fmt) := by
  refine ⟨rfl, rfl, fun imm h1 h2 h3 => ?_⟩
  cases imm
  all_goals cases fmt
  all_goals (first | exact ⟨_, rfl, rfl, rfl⟩ | (cases h1; done) | (cases h2; done) | (cases h3; done))
theorem ld (w : FWord) (sz : LdSize) (pol : L1Pol) (acq : Bool) : Statement (.ld w sz pol acq) := by
  refine ⟨rfl, rfl, fun imm h1 h2 h3 => ?_⟩
  cases imm
  all_goals cases sz
  all_goals cases pol
  all_goals cases acq
  all_goals exact ⟨_, rfl, rfl, rfl⟩
theorem lds (w : FWord) (sz : LdSize) (acq : Bool) : Statement (.lds w sz acq) := by
  refine ⟨rfl, rfl, fun imm h1 h2 h3 => ?_⟩
  cases imm
  all_goals cases sz
  all_goals cases acq
  all_goals exact ⟨_, rfl, rfl, rfl⟩
theorem st (w : FWord) (sz : StSize) (os : BitVec 3) (rel : Bool) : Statement (.st w sz os rel) := by
  refine ⟨rfl, rfl, fun imm h1 h2 h3 => ?_⟩
  cases imm
  all_goals cases sz
  all_goals obtain rfl | rfl | rfl | rfl | rfl | rfl | rfl | rfl := bits3 os
  all_goals cases rel
  all_goals (first | exact ⟨_, rfl, rfl, rfl⟩ | (cases h1; done) | (cases h2; done) | (cases h3; done))
theorem sts (w : FWord) (sz : StSize) (os : BitVec 3) (rel : Bool) : Statement (.sts w sz os rel) := by
  refine ⟨rfl, rfl, fun imm h1 h2 h3 => ?_⟩
  cases imm
  all_goals cases sz
  all_goals obtain rfl | rfl | rfl | rfl | rfl | rfl | rfl | rfl := bits3 os
  all_goals cases rel
  all_goals (first | exact ⟨_, rfl, rfl, rfl⟩ | (cases h1; done) | (cases h2; done) | (cases h3; done))
theorem lde (w : FWord) (el : ElSel) (pol : L1Pol) (acq : Bool) : Statement (.lde w el pol acq) := by
  refine ⟨rfl, rfl, fun imm h1 h2 h3 => ?_⟩
  cases imm
  all_goals cases el
  all_goals cases pol
  all_goals cases acq
  all_goals exact ⟨_, rfl, rfl, rfl⟩
theorem ste (w : FWord) (el : ElSel) (os : BitVec 3) (rel : Bool) : Statement (.ste w el os rel) := by
  refine ⟨rfl, rfl, fun imm h1 h2 h3 => ?_⟩
  cases imm
  all_goals cases el
  all_goals obtain rfl | rfl | rfl | rfl | rfl | rfl | rfl | rfl := bits3 os
  all_goals cases rel
  all_goals exact ⟨_, rfl, rfl, rfl⟩
theorem ldx (w : FWord) (x : BitVec 2) (pol : L1Pol) (acq : Bool) : Statement (.ldx w x pol acq) := by
  refine ⟨rfl, rfl, fun imm h1 h2 h3 => ?_⟩
  cases imm
  all_goals obtain rfl | rfl | rfl | rfl := bits2 x
  all_goals cases pol
  all_goals cases acq
  all_goals exact ⟨_, rfl, rfl, rfl⟩
theorem stx (w : FWord) (x : BitVec 2) (os : BitVec 3) (rel : Bool) : Statement (.stx w x os rel) := by
  refine ⟨rfl, rfl, fun imm h1 h2 h3 => ?_⟩
  cases imm
  all_goals obtain rfl | rfl | rfl | rfl := bits2 x
  all_goals obtain rfl | rfl | rfl | rfl | rfl | rfl | rfl | rfl := bits3 os
  all_goals cases rel
  all_goals exact ⟨_, rfl, rfl, rfl⟩
theorem atom (w : FWord) (op : AtOp) (os : BitVec 3) (ar : Bool) : Statement (.atom w op os ar) := by
  refine ⟨rfl, rfl, fun imm h1 h2 h3 => ?_⟩
  cases imm
  all_goals cases op
  all_goals obtain rfl | rfl | rfl | rfl | rfl | rfl | rfl | rfl := bits3 os
  all_goals cases ar
  all_goals (first | exact ⟨_, rfl, rfl, rfl⟩ | (cases h1; done) | (cases h2; done) | (cases h3; done))
theorem atomx (w : FWord) (op : AtOp) (os : BitVec 3) (ar : Bool) : Statement (.atomx w op os ar) := by
  refine ⟨rfl, rfl, fun imm h1 h2 h3 => ?_⟩
  cases imm
  all_goals cases op
  all_goals obtain rfl | rfl | rfl | rfl | rfl | rfl | rfl | rfl := bits3 os
  all_goals cases ar
  all_goals (first | exact ⟨_, rfl, rfl, rfl⟩ | (cases h1; done) | (cases h2; done) | (cases h3; done))
theorem acq (w : FWord) : Statement (.acq w) := by
  refine ⟨rfl, rfl, fun imm h1 h2 h3 => ?_⟩
  cases imm
  all_goals (first | exact ⟨_, rfl, rfl, rfl⟩ | (cases h1; done) | (cases h2; done) | (cases h3; done))
theorem rel (w : FWord) : Statement (.rel w) := by
  refine ⟨rfl, rfl, fun imm h1 h2 h3 => ?_⟩
  cases imm
  all_goals (first | exact ⟨_, rfl, rfl, rfl⟩ | (cases h1; done) | (cases h2; done) | (cases h3; done))
theorem sjoin (w : FWord) : Statement (.sjoin w) := by
  refine ⟨rfl, rfl, fun imm h1 h2 h3 => ?_⟩
  cases imm
  all_goals exact ⟨_, rfl, rfl, rfl⟩
theorem pref (w : FWord) (l2 : Bool) : Statement (.pref w l2) := by
  refine ⟨rfl, rfl, fun imm h1 h2 h3 => ?_⟩
  cases imm
  all_goals cases l2
  all_goals exact ⟨_, rfl, rfl, rfl⟩
theorem cflush (w : FWord) : Statement (.cflush w) := by
  refine ⟨rfl, rfl, fun imm h1 h2 h3 => ?_⟩
  cases imm
  all_goals exact ⟨_, rfl, rfl, rfl⟩
theorem cinv (w : FWord) : Statement (.cinv w) := by
  refine ⟨rfl, rfl, fun imm h1 h2 h3 => ?_⟩
  cases imm
  all_goals exact ⟨_, rfl, rfl, rfl⟩
theorem bra (w : FWord) : Statement (.bra w) := by
  refine ⟨rfl, rfl, fun imm h1 h2 h3 => ?_⟩
  cases imm
  all_goals (first | exact ⟨_, rfl, rfl, rfl⟩ | (cases h1; done) | (cases h2; done) | (cases h3; done))
theorem brx (w : FWord) : Statement (.brx w) := by
  refine ⟨rfl, rfl, fun imm h1 h2 h3 => ?_⟩
  cases imm
  all_goals (first | exact ⟨_, rfl, rfl, rfl⟩ | (cases h1; done) | (cases h2; done) | (cases h3; done))
theorem call (w : FWord) : Statement (.call w) := by
  refine ⟨rfl, rfl, fun imm h1 h2 h3 => ?_⟩
  cases imm
  all_goals exact ⟨_, rfl, rfl, rfl⟩
theorem ret (w : FWord) : Statement (.ret w) := by
  refine ⟨rfl, rfl, fun imm h1 h2 h3 => ?_⟩
  cases imm
  all_goals (first | exact ⟨_, rfl, rfl, rfl⟩ | (cases h1; done) | (cases h2; done) | (cases h3; done))
theorem exit (w : FWord) : Statement (.exit w) := by
  refine ⟨rfl, rfl, fun imm h1 h2 h3 => ?_⟩
  cases imm
  all_goals (first | exact ⟨_, rfl, rfl, rfl⟩ | (cases h1; done) | (cases h2; done) | (cases h3; done))
theorem nop (w : FWord) : Statement (.nop w) := by
  refine ⟨rfl, rfl, fun imm h1 h2 h3 => ?_⟩
  cases imm
  all_goals (first | exact ⟨_, rfl, rfl, rfl⟩ | (cases h1; done) | (cases h2; done) | (cases h3; done))
theorem yield (w : FWord) : Statement (.yield w) := by
  refine ⟨rfl, rfl, fun imm h1 h2 h3 => ?_⟩
  cases imm
  all_goals (first | exact ⟨_, rfl, rfl, rfl⟩ | (cases h1; done) | (cases h2; done) | (cases h3; done))
theorem bkpt (w : FWord) : Statement (.bkpt w) := by
  refine ⟨rfl, rfl, fun imm h1 h2 h3 => ?_⟩
  cases imm
  all_goals (first | exact ⟨_, rfl, rfl, rfl⟩ | (cases h1; done) | (cases h2; done) | (cases h3; done))
theorem trap (w : FWord) : Statement (.trap w) := by
  refine ⟨rfl, rfl, fun imm h1 h2 h3 => ?_⟩
  cases imm
  all_goals (first | exact ⟨_, rfl, rfl, rfl⟩ | (cases h1; done) | (cases h2; done) | (cases h3; done))
theorem rtt (w : FWord) : Statement (.rtt w) := by
  refine ⟨rfl, rfl, fun imm h1 h2 h3 => ?_⟩
  cases imm
  all_goals (first | exact ⟨_, rfl, rfl, rfl⟩ | (cases h1; done) | (cases h2; done) | (cases h3; done))
theorem bar (w : FWord) (n : BitVec 4) (arv : Bool) : Statement (.bar w n arv) := by
  refine ⟨rfl, rfl, fun imm h1 h2 h3 => ?_⟩
  cases imm
  all_goals obtain rfl | rfl | rfl | rfl | rfl | rfl | rfl | rfl | rfl | rfl | rfl | rfl | rfl | rfl | rfl | rfl := bits4 n
  all_goals cases arv
  all_goals exact ⟨_, rfl, rfl, rfl⟩
theorem pbar (w : FWord) (n : BitVec 3) (k : PbarKind) : Statement (.pbar w n k) := by
  refine ⟨rfl, rfl, fun imm h1 h2 h3 => ?_⟩
  cases imm
  all_goals obtain rfl | rfl | rfl | rfl | rfl | rfl | rfl | rfl := bits3 n
  all_goals cases k
  all_goals exact ⟨_, rfl, rfl, rfl⟩
theorem vote (w : FWord) (m : VoteMode) (inv : Bool) : Statement (.vote w m inv) := by
  refine ⟨rfl, rfl, fun imm h1 h2 h3 => ?_⟩
  cases imm
  all_goals cases m
  all_goals cases inv
  all_goals exact ⟨_, rfl, rfl, rfl⟩
theorem lead (w : FWord) : Statement (.lead w) := by
  refine ⟨rfl, rfl, fun imm h1 h2 h3 => ?_⟩
  cases imm
  all_goals exact ⟨_, rfl, rfl, rfl⟩
theorem shfl (w : FWord) (m : ShflMode) (d : Bool) (seg : Seg) : Statement (.shfl w m d seg) := by
  refine ⟨rfl, rfl, fun imm h1 h2 h3 => ?_⟩
  cases imm
  all_goals cases m
  all_goals cases d
  all_goals cases seg
  all_goals exact ⟨_, rfl, rfl, rfl⟩
theorem xset (w : FWord) (x : BitVec 2) : Statement (.xset w x) := by
  refine ⟨rfl, rfl, fun imm h1 h2 h3 => ?_⟩
  cases imm
  all_goals obtain rfl | rfl | rfl | rfl := bits2 x
  all_goals exact ⟨_, rfl, rfl, rfl⟩
theorem xadd (w : FWord) (x : BitVec 2) : Statement (.xadd w x) := by
  refine ⟨rfl, rfl, fun imm h1 h2 h3 => ?_⟩
  cases imm
  all_goals obtain rfl | rfl | rfl | rfl := bits2 x
  all_goals exact ⟨_, rfl, rfl, rfl⟩
theorem xget (w : FWord) (x : BitVec 2) (f : XField) : Statement (.xget w x f) := by
  refine ⟨rfl, rfl, fun imm h1 h2 h3 => ?_⟩
  cases imm
  all_goals obtain rfl | rfl | rfl | rfl := bits2 x
  all_goals cases f
  all_goals (first | exact ⟨_, rfl, rfl, rfl⟩ | (cases h1; done) | (cases h2; done) | (cases h3; done))
theorem dqtake (w : FWord) (pd : Option (BitVec 3)) : Statement (.dqtake w pd) := by
  refine ⟨rfl, rfl, fun imm h1 h2 h3 => ?_⟩
  cases imm
  all_goals obtain rfl | rfl | rfl | rfl | rfl | rfl | rfl | rfl | rfl := opt3 pd
  all_goals exact ⟨_, rfl, rfl, rfl⟩
theorem vgrow (w : FWord) : Statement (.vgrow w) := by
  refine ⟨rfl, rfl, fun imm h1 h2 h3 => ?_⟩
  cases imm
  all_goals exact ⟨_, rfl, rfl, rfl⟩
theorem vshrink (w : FWord) : Statement (.vshrink w) := by
  refine ⟨rfl, rfl, fun imm h1 h2 h3 => ?_⟩
  cases imm
  all_goals exact ⟨_, rfl, rfl, rfl⟩
theorem krd (w : FWord) : Statement (.krd w) := by
  refine ⟨rfl, rfl, fun imm h1 h2 h3 => ?_⟩
  cases imm
  all_goals exact ⟨_, rfl, rfl, rfl⟩
theorem kwr (w : FWord) : Statement (.kwr w) := by
  refine ⟨rfl, rfl, fun imm h1 h2 h3 => ?_⟩
  cases imm
  all_goals exact ⟨_, rfl, rfl, rfl⟩
theorem flagarm (w : FWord) (off : Bool) : Statement (.flagarm w off) := by
  refine ⟨rfl, rfl, fun imm h1 h2 h3 => ?_⟩
  cases imm
  all_goals cases off
  all_goals exact ⟨_, rfl, rfl, rfl⟩
theorem spawn (w : FWord) : Statement (.spawn w) := by
  refine ⟨rfl, rfl, fun imm h1 h2 h3 => ?_⟩
  cases imm
  all_goals exact ⟨_, rfl, rfl, rfl⟩
theorem grow (w : FWord) : Statement (.grow w) := by
  refine ⟨rfl, rfl, fun imm h1 h2 h3 => ?_⟩
  cases imm
  all_goals exact ⟨_, rfl, rfl, rfl⟩
theorem launch (w : FWord) : Statement (.launch w) := by
  refine ⟨rfl, rfl, fun imm h1 h2 h3 => ?_⟩
  cases imm
  all_goals exact ⟨_, rfl, rfl, rfl⟩
theorem cancel (w : FWord) (lvl : Level) : Statement (.cancel w lvl) := by
  refine ⟨rfl, rfl, fun imm h1 h2 h3 => ?_⟩
  cases imm
  all_goals cases lvl
  all_goals exact ⟨_, rfl, rfl, rfl⟩
theorem cntrd (w : FWord) (lvl : Level) : Statement (.cntrd w lvl) := by
  refine ⟨rfl, rfl, fun imm h1 h2 h3 => ?_⟩
  cases imm
  all_goals cases lvl
  all_goals exact ⟨_, rfl, rfl, rfl⟩
theorem capmk (w : FWord) (snd : Bool) (eng : Bool) : Statement (.capmk w snd eng) := by
  refine ⟨rfl, rfl, fun imm h1 h2 h3 => ?_⟩
  cases imm
  all_goals cases snd
  all_goals cases eng
  all_goals exact ⟨_, rfl, rfl, rfl⟩
theorem caprv (w : FWord) : Statement (.caprv w) := by
  refine ⟨rfl, rfl, fun imm h1 h2 h3 => ?_⟩
  cases imm
  all_goals exact ⟨_, rfl, rfl, rfl⟩
theorem rarm (w : FWord) (acq : Bool) (nbr : Bool) : Statement (.rarm w acq nbr) := by
  refine ⟨rfl, rfl, fun imm h1 h2 h3 => ?_⟩
  cases imm
  all_goals cases acq
  all_goals cases nbr
  all_goals exact ⟨_, rfl, rfl, rfl⟩
theorem rdisarm (w : FWord) : Statement (.rdisarm w) := by
  refine ⟨rfl, rfl, fun imm h1 h2 h3 => ?_⟩
  cases imm
  all_goals exact ⟨_, rfl, rfl, rfl⟩
theorem rpend (w : FWord) : Statement (.rpend w) := by
  refine ⟨rfl, rfl, fun imm h1 h2 h3 => ?_⟩
  cases imm
  all_goals (first | exact ⟨_, rfl, rfl, rfl⟩ | (cases h1; done) | (cases h2; done) | (cases h3; done))
theorem sendr (w : FWord) (d : Bool) (os : BitVec 3) : Statement (.sendr w d os) := by
  refine ⟨rfl, rfl, fun imm h1 h2 h3 => ?_⟩
  cases imm
  all_goals cases d
  all_goals obtain rfl | rfl | rfl | rfl | rfl | rfl | rfl | rfl := bits3 os
  all_goals exact ⟨_, rfl, rfl, rfl⟩
theorem sendn (w : FWord) (dir : Dir) (os : BitVec 3) : Statement (.sendn w dir os) := by
  refine ⟨rfl, rfl, fun imm h1 h2 h3 => ?_⟩
  cases imm
  all_goals cases dir
  all_goals obtain rfl | rfl | rfl | rfl | rfl | rfl | rfl | rfl := bits3 os
  all_goals exact ⟨_, rfl, rfl, rfl⟩
theorem cpy (w : FWord) : Statement (.cpy w) := by
  refine ⟨rfl, rfl, fun imm h1 h2 h3 => ?_⟩
  cases imm
  all_goals exact ⟨_, rfl, rfl, rfl⟩
theorem cpyg (w : FWord) : Statement (.cpyg w) := by
  refine ⟨rfl, rfl, fun imm h1 h2 h3 => ?_⟩
  cases imm
  all_goals exact ⟨_, rfl, rfl, rfl⟩
theorem cpym (w : FWord) : Statement (.cpym w) := by
  refine ⟨rfl, rfl, fun imm h1 h2 h3 => ?_⟩
  cases imm
  all_goals exact ⟨_, rfl, rfl, rfl⟩
theorem cpypf (w : FWord) : Statement (.cpypf w) := by
  refine ⟨rfl, rfl, fun imm h1 h2 h3 => ?_⟩
  cases imm
  all_goals exact ⟨_, rfl, rfl, rfl⟩
theorem twaitany (w : FWord) : Statement (.twaitany w) := by
  refine ⟨rfl, rfl, fun imm h1 h2 h3 => ?_⟩
  cases imm
  all_goals exact ⟨_, rfl, rfl, rfl⟩
theorem twaitall (w : FWord) : Statement (.twaitall w) := by
  refine ⟨rfl, rfl, fun imm h1 h2 h3 => ?_⟩
  cases imm
  all_goals exact ⟨_, rfl, rfl, rfl⟩
theorem tffr (w : FWord) : Statement (.tffr w) := by
  refine ⟨rfl, rfl, fun imm h1 h2 h3 => ?_⟩
  cases imm
  all_goals exact ⟨_, rfl, rfl, rfl⟩
theorem tclr (w : FWord) : Statement (.tclr w) := by
  refine ⟨rfl, rfl, fun imm h1 h2 h3 => ?_⟩
  cases imm
  all_goals exact ⟨_, rfl, rfl, rfl⟩
theorem mloadb (w : FWord) : Statement (.mloadb w) := by
  refine ⟨rfl, rfl, fun imm h1 h2 h3 => ?_⟩
  cases imm
  all_goals exact ⟨_, rfl, rfl, rfl⟩
theorem mma (w : FWord) (z : Bool) : Statement (.mma w z) := by
  refine ⟨rfl, rfl, fun imm h1 h2 h3 => ?_⟩
  cases imm
  all_goals cases z
  all_goals exact ⟨_, rfl, rfl, rfl⟩
theorem mzero (w : FWord) : Statement (.mzero w) := by
  refine ⟨rfl, rfl, fun imm h1 h2 h3 => ?_⟩
  cases imm
  all_goals exact ⟨_, rfl, rfl, rfl⟩
theorem mstore (w : FWord) (os : BitVec 3) : Statement (.mstore w os) := by
  refine ⟨rfl, rfl, fun imm h1 h2 h3 => ?_⟩
  cases imm
  all_goals obtain rfl | rfl | rfl | rfl | rfl | rfl | rfl | rfl := bits3 os
  all_goals exact ⟨_, rfl, rfl, rfl⟩
theorem mread (w : FWord) (d : Bool) : Statement (.mread w d) := by
  refine ⟨rfl, rfl, fun imm h1 h2 h3 => ?_⟩
  cases imm
  all_goals cases d
  all_goals exact ⟨_, rfl, rfl, rfl⟩
theorem mwrite (w : FWord) (d : Bool) : Statement (.mwrite w d) := by
  refine ⟨rfl, rfl, fun imm h1 h2 h3 => ?_⟩
  cases imm
  all_goals cases d
  all_goals exact ⟨_, rfl, rfl, rfl⟩
theorem mres (w : FWord) : Statement (.mres w) := by
  refine ⟨rfl, rfl, fun imm h1 h2 h3 => ?_⟩
  cases imm
  all_goals exact ⟨_, rfl, rfl, rfl⟩
theorem mrel (w : FWord) (all : Bool) : Statement (.mrel w all) := by
  refine ⟨rfl, rfl, fun imm h1 h2 h3 => ?_⟩
  cases imm
  all_goals cases all
  all_goals exact ⟨_, rfl, rfl, rfl⟩
theorem mstat (w : FWord) : Statement (.mstat w) := by
  refine ⟨rfl, rfl, fun imm h1 h2 h3 => ?_⟩
  cases imm
  all_goals exact ⟨_, rfl, rfl, rfl⟩
theorem rmoN (w : FWord) (n : BitVec 5) (os : BitVec 3) : Statement (.rmoN w n os) := ⟨rfl, rfl, fun _ _ _ _ => ⟨_, rfl, congr2 (Instr.rmoN w) (append_high n os) (append_low n os), rfl⟩⟩
theorem rmoR (w : FWord) (n : BitVec 5) (os : BitVec 3) : Statement (.rmoR w n os) := ⟨rfl, rfl, fun _ _ _ _ => ⟨_, rfl, congr2 (Instr.rmoR w) (append_high n os) (append_low n os), rfl⟩⟩
theorem rmdef (w : FWord) : Statement (.rmdef w) := by
  refine ⟨rfl, rfl, fun imm h1 h2 h3 => ?_⟩
  cases imm
  all_goals exact ⟨_, rfl, rfl, rfl⟩
theorem rmdrop (w : FWord) : Statement (.rmdrop w) := by
  refine ⟨rfl, rfl, fun imm h1 h2 h3 => ?_⟩
  cases imm
  all_goals exact ⟨_, rfl, rfl, rfl⟩
theorem rmqry (w : FWord) : Statement (.rmqry w) := by
  refine ⟨rfl, rfl, fun imm h1 h2 h3 => ?_⟩
  cases imm
  all_goals exact ⟨_, rfl, rfl, rfl⟩
theorem sweep (w : FWord) : Statement (.sweep w) := by
  refine ⟨rfl, rfl, fun imm h1 h2 h3 => ?_⟩
  cases imm
  all_goals exact ⟨_, rfl, rfl, rfl⟩
theorem mcast (w : FWord) (d : Bool) (os : BitVec 3) : Statement (.mcast w d os) := by
  refine ⟨rfl, rfl, fun imm h1 h2 h3 => ?_⟩
  cases imm
  all_goals cases d
  all_goals obtain rfl | rfl | rfl | rfl | rfl | rfl | rfl | rfl := bits3 os
  all_goals exact ⟨_, rfl, rfl, rfl⟩
theorem coll (w : FWord) (os : BitVec 3) : Statement (.coll w os) := by
  refine ⟨rfl, rfl, fun imm h1 h2 h3 => ?_⟩
  cases imm
  all_goals obtain rfl | rfl | rfl | rfl | rfl | rfl | rfl | rfl := bits3 os
  all_goals exact ⟨_, rfl, rfl, rfl⟩
theorem fgrp (w : FWord) (k : FgrpKind) : Statement (.fgrp w k) := by
  refine ⟨rfl, rfl, fun imm h1 h2 h3 => ?_⟩
  cases imm
  all_goals cases k
  all_goals exact ⟨_, rfl, rfl, rfl⟩
theorem sld (w : FWord) (d : Bool) (acq : Bool) : Statement (.sld w d acq) := by
  refine ⟨rfl, rfl, fun imm h1 h2 h3 => ?_⟩
  cases imm
  all_goals cases d
  all_goals cases acq
  all_goals exact ⟨_, rfl, rfl, rfl⟩
theorem slds (w : FWord) (d : Bool) (acq : Bool) : Statement (.slds w d acq) := by
  refine ⟨rfl, rfl, fun imm h1 h2 h3 => ?_⟩
  cases imm
  all_goals cases d
  all_goals cases acq
  all_goals exact ⟨_, rfl, rfl, rfl⟩
theorem sst (w : FWord) (d : Bool) (os : BitVec 3) (rel : Bool) : Statement (.sst w d os rel) := by
  refine ⟨rfl, rfl, fun imm h1 h2 h3 => ?_⟩
  cases imm
  all_goals cases d
  all_goals obtain rfl | rfl | rfl | rfl | rfl | rfl | rfl | rfl := bits3 os
  all_goals cases rel
  all_goals exact ⟨_, rfl, rfl, rfl⟩
theorem qpush (w : FWord) (d : Bool) : Statement (.qpush w d) := by
  refine ⟨rfl, rfl, fun imm h1 h2 h3 => ?_⟩
  cases imm
  all_goals cases d
  all_goals (first | exact ⟨_, rfl, rfl, rfl⟩ | (cases h1; done) | (cases h2; done) | (cases h3; done))
theorem qpusha (w : FWord) : Statement (.qpusha w) := by
  refine ⟨rfl, rfl, fun imm h1 h2 h3 => ?_⟩
  cases imm
  all_goals exact ⟨_, rfl, rfl, rfl⟩
theorem dqpush (w : FWord) (all : Bool) : Statement (.dqpush w all) := by
  refine ⟨rfl, rfl, fun imm h1 h2 h3 => ?_⟩
  cases imm
  all_goals cases all
  all_goals exact ⟨_, rfl, rfl, rfl⟩
theorem brc (w : FWord) (k : BrcKind) : Statement (.brc w k) := by
  refine ⟨rfl, rfl, fun imm h1 h2 h3 => ?_⟩
  cases imm
  all_goals cases k
  all_goals (first | exact ⟨_, rfl, rfl, rfl⟩ | (cases h1; done) | (cases h2; done) | (cases h3; done))
theorem scmp (w : FWord) (cond : Cond) (u : Bool) (d : Bool) (comb : ScmpComb) : Statement (.scmp w cond u d comb) := by
  refine ⟨rfl, rfl, fun imm h1 h2 h3 => ?_⟩
  cases imm
  all_goals cases cond
  all_goals cases u
  all_goals cases d
  all_goals cases comb
  all_goals exact ⟨_, rfl, rfl, rfl⟩
theorem lwait (w : FWord) (bar : Option (BitVec 4)) : Statement (.lwait w bar) := by
  refine ⟨rfl, rfl, fun imm h1 h2 h3 => ?_⟩
  cases imm
  all_goals obtain rfl | rfl | rfl | rfl | rfl | rfl | rfl | rfl | rfl | rfl | rfl | rfl | rfl | rfl | rfl | rfl | rfl := opt4 bar
  all_goals exact ⟨_, rfl, rfl, rfl⟩
theorem ltime (w : FWord) (bar : Option (BitVec 4)) : Statement (.ltime w bar) := by
  refine ⟨rfl, rfl, fun imm h1 h2 h3 => ?_⟩
  cases imm
  all_goals obtain rfl | rfl | rfl | rfl | rfl | rfl | rfl | rfl | rfl | rfl | rfl | rfl | rfl | rfl | rfl | rfl | rfl := opt4 bar
  all_goals exact ⟨_, rfl, rfl, rfl⟩
theorem dictld (w : FWord) : Statement (.dictld w) := by
  refine ⟨rfl, rfl, fun imm h1 h2 h3 => ?_⟩
  cases imm
  all_goals exact ⟨_, rfl, rfl, rfl⟩
theorem lexit (w : FWord) : Statement (.lexit w) := by
  refine ⟨rfl, rfl, fun imm h1 h2 h3 => ?_⟩
  cases imm
  all_goals exact ⟨_, rfl, rfl, rfl⟩
theorem tlbinv (w : FWord) (ctx : Bool) : Statement (.tlbinv w ctx) := by
  refine ⟨rfl, rfl, fun imm h1 h2 h3 => ?_⟩
  cases imm
  all_goals cases ctx
  all_goals exact ⟨_, rfl, rfl, rfl⟩
theorem pgacc (w : FWord) (ca : Bool) : Statement (.pgacc w ca) := by
  refine ⟨rfl, rfl, fun imm h1 h2 h3 => ?_⟩
  cases imm
  all_goals cases ca
  all_goals exact ⟨_, rfl, rfl, rfl⟩
theorem pFormWord (a : PHalf) (b : PHalf) : Statement (.pFormWord a b) := Or.inr ⟨_, rfl, pForm62 _ _⟩
theorem dFormSlot (c0 : DCode) (c1 : Option DCode) (c2 : Option DCode) : Statement (.dFormSlot c0 c1 c2) := Or.inr ⟨_, rfl, dForm62 _ _ _ _⟩
theorem loadReturn (load : Nat) : Statement (.loadReturn load) := Or.inl rfl
theorem storeAcknowledge (ack : Nat) : Statement (.storeAcknowledge ack) := Or.inl rfl
theorem packetArrival (pkt : Nat) : Statement (.packetArrival pkt) := Or.inl rfl
theorem watermarkMessage (msg : Nat) : Statement (.watermarkMessage msg) := Or.inl rfl
theorem ownershipConflictWindowEnd (slice : Nat) : Statement (.ownershipConflictWindowEnd slice) := Or.inl rfl
theorem barrierComplete (team : Nat) (bar : Nat) : Statement (.barrierComplete team bar) := Or.inl rfl
theorem phaseComplete (team : Nat) (bar : Nat) : Statement (.phaseComplete team bar) := Or.inl rfl
theorem barrierTimeout (team : Nat) (bar : Nat) : Statement (.barrierTimeout team bar) := Or.inl rfl
theorem registerDeadlockBreak (core : Nat) : Statement (.registerDeadlockBreak core) := Or.inl rfl
theorem vgrowGrant (team : Nat) (group : Nat) : Statement (.vgrowGrant team group) := Or.inl rfl
theorem faultRecordArrival (rec : Nat) : Statement (.faultRecordArrival rec) := Or.inl rfl
theorem asyncFaultDelivery (team : Nat) (src : Nat) : Statement (.asyncFaultDelivery team src) := Or.inl rfl
theorem sendCommit (pkt : Nat) : Statement (.sendCommit pkt) := Or.inl rfl
theorem copyStart (cmd : Nat) : Statement (.copyStart cmd) := Or.inl rfl
theorem copyChunk (cmd : Nat) : Statement (.copyChunk cmd) := Or.inl rfl
theorem cpymHandover (cmd : Nat) : Statement (.cpymHandover cmd) := Or.inl rfl
theorem copyComplete (cmd : Nat) : Statement (.copyComplete cmd) := Or.inl rfl
theorem matrixCommandStart (cmd : Nat) : Statement (.matrixCommandStart cmd) := Or.inl rfl
theorem mmaRowPairCommit (cmd : Nat) : Statement (.mmaRowPairCommit cmd) := Or.inl rfl
theorem matrixCommandComplete (cmd : Nat) : Statement (.matrixCommandComplete cmd) := Or.inl rfl
theorem mstoreComplete (cmd : Nat) : Statement (.mstoreComplete cmd) := Or.inl rfl
theorem sequencerParityError (cmd : Nat) : Statement (.sequencerParityError cmd) := Or.inl rfl
theorem rmoExecute (unit : Nat) : Statement (.rmoExecute unit) := Or.inl rfl
theorem rmoAcknowledge (ack : Nat) : Statement (.rmoAcknowledge ack) := Or.inl rfl
theorem definitionFetch (unit : Nat) : Statement (.definitionFetch unit) := Or.inl rfl
theorem sweepStart (cmd : Nat) : Statement (.sweepStart cmd) := Or.inl rfl
theorem sweepComplete (cmd : Nat) : Statement (.sweepComplete cmd) := Or.inl rfl
theorem leaveRequest (cmd : Nat) : Statement (.leaveRequest cmd) := Or.inl rfl
theorem ceilingWindow : Statement (.ceilingWindow) := Or.inl rfl
theorem ack (f : Flit) : Statement (.ack f) := Or.inl rfl
theorem nak (f : Flit) : Statement (.nak f) := Or.inl rfl
theorem done (f : Flit) : Statement (.done f) := Or.inl rfl
theorem wmark (f : Flit) : Statement (.wmark f) := Or.inl rfl
theorem read (f : Flit) : Statement (.read f) := Or.inl rfl
theorem inval (f : Flit) : Statement (.inval f) := Or.inl rfl
theorem invack (f : Flit) : Statement (.invack f) := Or.inl rfl
theorem send1 (f : Flit) : Statement (.send1 f) := Or.inl rfl
theorem burst (f : Flit) : Statement (.burst f) := Or.inl rfl
theorem dataFlit (f : Flit) : Statement (.dataFlit f) := Or.inl rfl
theorem btag (f : Flit) : Statement (.btag f) := Or.inl rfl
theorem close (f : Flit) : Statement (.close f) := Or.inl rfl
theorem retire (f : Flit) : Statement (.retire f) := Or.inl rfl
theorem collctl (f : Flit) : Statement (.collctl f) := Or.inl rfl
theorem probe (f : Flit) : Statement (.probe f) := Or.inl rfl
theorem resendTimeout (dev : Nat) : Statement (.resendTimeout dev) := Or.inl rfl
theorem probeTimer (dev : Nat) : Statement (.probeTimer dev) := Or.inl rfl
theorem burstTimeout (port : Nat) : Statement (.burstTimeout port) := Or.inl rfl
theorem unreachableTimeout (dev : Nat) : Statement (.unreachableTimeout dev) := Or.inl rfl
theorem lossOfSignal (port : Nat) (wave : Nat) : Statement (.lossOfSignal port wave) := Or.inl rfl
theorem collStart (coll : Nat) : Statement (.collStart coll) := Or.inl rfl
theorem collComplete (coll : Nat) : Statement (.collComplete coll) := Or.inl rfl
theorem qpushWindowWrite (host : Nat) (queue : Nat) (off : Nat) (data : List Byte) : Statement (.qpushWindowWrite host queue off data) := Or.inl rfl
theorem qcfgWrite (host : Nat) (queue : Nat) (v : W64) : Statement (.qcfgWrite host queue v) := Or.inl rfl
theorem qbaseWrite (host : Nat) (queue : Nat) (v : W64) : Statement (.qbaseWrite host queue v) := Or.inl rfl
theorem pendingListEntry (queue : Nat) : Statement (.pendingListEntry queue) := Or.inl rfl
theorem dispatch : Statement (.dispatch) := Or.inl rfl
theorem launchRecordTake (queue : Nat) : Statement (.launchRecordTake queue) := Or.inl rfl
theorem graphStart (queue : Nat) : Statement (.graphStart queue) := Or.inl rfl
theorem phaseMark (queue : Nat) : Statement (.phaseMark queue) := Or.inl rfl
theorem reconfigurationWindow (ctx : Nat) : Statement (.reconfigurationWindow ctx) := Or.inl rfl
theorem teamEnd (team : Nat) : Statement (.teamEnd team) := Or.inl rfl
theorem teamCancel (team : Nat) : Statement (.teamCancel team) := Or.inl rfl
theorem priorityPreemptTimeout (queue : Nat) : Statement (.priorityPreemptTimeout queue) := Or.inl rfl
theorem powerPackingCheck (quad : Nat) : Statement (.powerPackingCheck quad) := Or.inl rfl
theorem timeSliceExpiry (team : Nat) : Statement (.timeSliceExpiry team) := Or.inl rfl
theorem hostPreemptRequest (team : Nat) : Statement (.hostPreemptRequest team) := Or.inl rfl
theorem preemptionEffect (team : Nat) : Statement (.preemptionEffect team) := Or.inl rfl
theorem quadWakeDone (quad : Nat) : Statement (.quadWakeDone quad) := Or.inl rfl
theorem quadPowerGate (quad : Nat) : Statement (.quadPowerGate quad) := Or.inl rfl
theorem pageWalk (walk : Nat) : Statement (.pageWalk walk) := Or.inl rfl
theorem fqreplyRetry (host : Nat) (rec : Nat) : Statement (.fqreplyRetry host rec) := Or.inl rfl
theorem fqreplyDecline (host : Nat) (rec : Nat) : Statement (.fqreplyDecline host rec) := Or.inl rfl
theorem invctlPage (host : Nat) (v : W64) : Statement (.invctlPage host v) := Or.inl rfl
theorem invctlContext (host : Nat) (v : W64) : Statement (.invctlContext host v) := Or.inl rfl
theorem invalidationComplete (inv : Nat) : Statement (.invalidationComplete inv) := Or.inl rfl
theorem regionGovernorWindow (region : Nat) (occupancy : Nat) : Statement (.regionGovernorWindow region occupancy) := Or.inl rfl
theorem regionPowerDown (region : Nat) : Statement (.regionPowerDown region) := Or.inl rfl
theorem regionWake (region : Nat) : Statement (.regionWake region) := Or.inl rfl
theorem regionWakeAccept (region : Nat) : Statement (.regionWakeAccept region) := Or.inl rfl
theorem lwaitTimerReached (team : Nat) : Statement (.lwaitTimerReached team) := Or.inl rfl
theorem powerOn : Statement (.powerOn) := Or.inl rfl
theorem resetreqStart (host : Nat) : Statement (.resetreqStart host) := Or.inl rfl
theorem resetreqRecover (host : Nat) : Statement (.resetreqRecover host) := Or.inl rfl
theorem dawnreqEnter (host : Nat) : Statement (.dawnreqEnter host) := Or.inl rfl
theorem freezeRequest (host : Nat) : Statement (.freezeRequest host) := Or.inl rfl
theorem freezeResume (host : Nat) : Statement (.freezeResume host) := Or.inl rfl
theorem freezePinAssert : Statement (.freezePinAssert) := Or.inl rfl
theorem freezePinRelease : Statement (.freezePinRelease) := Or.inl rfl
theorem thermalSample : Statement (.thermalSample) := Or.inl rfl
theorem quoteRequest (host : Nat) (v : W64) : Statement (.quoteRequest host v) := Or.inl rfl
theorem quoteReportWritten : Statement (.quoteReportWritten) := Or.inl rfl
theorem flashCopyStart (host : Nat) (v : W64) : Statement (.flashCopyStart host v) := Or.inl rfl
theorem flashCopyDone : Statement (.flashCopyDone) := Or.inl rfl
theorem featureAcceptWrite (host : Nat) (high : Bool) (v : W64) : Statement (.featureAcceptWrite host high v) := Or.inl rfl
theorem pcapWrite (host : Nat) (v : W64) : Statement (.pcapWrite host v) := Or.inl rfl
theorem channelRetire (channel : Nat) : Statement (.channelRetire channel) := Or.inl rfl
theorem channelMapChange (region : Nat) (channelMap : Nat) : Statement (.channelMapChange region channelMap) := Or.inl rfl
theorem registerWrite (host : Nat) (reg : Nat) (v : W64) : Statement (.registerWrite host reg v) := Or.inl rfl
theorem powerLoss : Statement (.powerLoss) := Or.inl rfl

end Sys2Proof.Laws.Encodes
end

