-- ==== Sys2Proof/Laws/State.lean ====
section
/-! SUPPORT. What each update of the state leaves alone: one lemma for each field, and what the changed field reads afterwards. -/

namespace Sys2Proof.Machine

/-! The changed fields. -/

@[simp] theorem team_updTeam_same (s : State) (t : Nat) (f : Team → Team) : team (updTeam s t f) t = (team s t).map f := by
  simp only [team, updTeam, upd]
  cases h : look s.teams t with
  | none => simp [h]
  | some v => simp [look_put_same]

theorem team_updTeam_other (s : State) {t k : Nat} (f : Team → Team) (h : k ≠ t) : team (updTeam s t f) k = team s k := by
  simp only [team, updTeam]
  exact look_upd_other s.teams f h

@[simp] theorem core_updCore_same (s : State) (c : Nat) (f : CoreSt → CoreSt) : core (updCore s c f) c = f (core s c) := by
  simp [core, updCore]

theorem core_updCore_other (s : State) {c k : Nat} (f : CoreSt → CoreSt) (h : k ≠ c) : core (updCore s c f) k = core s k := by
  simp only [core, updCore, look_put_other s.cores _ h]

@[simp] theorem host_updHost_same (s : State) (h : Nat) (f : HostRegs → HostRegs) : host (updHost s h f) h = f (host s h) := by
  simp [host, updHost]

/-! `updTeam`. -/

@[simp] theorem updTeam_agenda (s : State) (t : Nat) (f : Team → Team) : (updTeam s t f).agenda = s.agenda := rfl
@[simp] theorem updTeam_fresh (s : State) (t : Nat) (f : Team → Team) : (updTeam s t f).fresh = s.fresh := rfl
@[simp] theorem updTeam_cur (s : State) (t : Nat) (f : Team → Team) : (updTeam s t f).cur = s.cur := rfl
@[simp] theorem updTeam_nextId (s : State) (t : Nat) (f : Team → Team) : (updTeam s t f).nextId = s.nextId := rfl
@[simp] theorem updTeam_cycle (s : State) (t : Nat) (f : Team → Team) : (updTeam s t f).cycle = s.cycle := rfl
@[simp] theorem updTeam_mem (s : State) (t : Nat) (f : Team → Team) : (updTeam s t f).mem = s.mem := rfl
@[simp] theorem updTeam_bad (s : State) (t : Nat) (f : Team → Team) : (updTeam s t f).bad = s.bad := rfl
@[simp] theorem updTeam_portBad (s : State) (t : Nat) (f : Team → Team) : (updTeam s t f).portBad = s.portBad := rfl
@[simp] theorem updTeam_owner (s : State) (t : Nat) (f : Team → Team) : (updTeam s t f).owner = s.owner := rfl
@[simp] theorem updTeam_l2 (s : State) (t : Nat) (f : Team → Team) : (updTeam s t f).l2 = s.l2 := rfl
@[simp] theorem updTeam_pkts (s : State) (t : Nat) (f : Team → Team) : (updTeam s t f).pkts = s.pkts := rfl
@[simp] theorem updTeam_windows (s : State) (t : Nat) (f : Team → Team) : (updTeam s t f).windows = s.windows := rfl
@[simp] theorem updTeam_windowNo (s : State) (t : Nat) (f : Team → Team) : (updTeam s t f).windowNo = s.windowNo := rfl
@[simp] theorem updTeam_commits (s : State) (t : Nat) (f : Team → Team) : (updTeam s t f).commits = s.commits := rfl
@[simp] theorem updTeam_acks (s : State) (t : Nat) (f : Team → Team) : (updTeam s t f).acks = s.acks := rfl
@[simp] theorem updTeam_wms (s : State) (t : Nat) (f : Team → Team) : (updTeam s t f).wms = s.wms := rfl
@[simp] theorem updTeam_recs (s : State) (t : Nat) (f : Team → Team) : (updTeam s t f).recs = s.recs := rfl
@[simp] theorem updTeam_loads (s : State) (t : Nat) (f : Team → Team) : (updTeam s t f).loads = s.loads := rfl
@[simp] theorem updTeam_cores (s : State) (t : Nat) (f : Team → Team) : (updTeam s t f).cores = s.cores := rfl
@[simp] theorem updTeam_handles (s : State) (t : Nat) (f : Team → Team) : (updTeam s t f).handles = s.handles := rfl
@[simp] theorem updTeam_claims (s : State) (t : Nat) (f : Team → Team) : (updTeam s t f).claims = s.claims := rfl
@[simp] theorem updTeam_startNo (s : State) (t : Nat) (f : Team → Team) : (updTeam s t f).startNo = s.startNo := rfl
@[simp] theorem updTeam_walks (s : State) (t : Nat) (f : Team → Team) : (updTeam s t f).walks = s.walks := rfl
@[simp] theorem updTeam_tfaults (s : State) (t : Nat) (f : Team → Team) : (updTeam s t f).tfaults = s.tfaults := rfl
@[simp] theorem updTeam_declined (s : State) (t : Nat) (f : Team → Team) : (updTeam s t f).declined = s.declined := rfl
@[simp] theorem updTeam_l2tlb (s : State) (t : Nat) (f : Team → Team) : (updTeam s t f).l2tlb = s.l2tlb := rfl
@[simp] theorem updTeam_hosts (s : State) (t : Nat) (f : Team → Team) : (updTeam s t f).hosts = s.hosts := rfl
@[simp] theorem updTeam_invals (s : State) (t : Nat) (f : Team → Team) : (updTeam s t f).invals = s.invals := rfl
@[simp] theorem updTeam_chmapId (s : State) (t : Nat) (f : Team → Team) : (updTeam s t f).chmapId = s.chmapId := rfl
@[simp] theorem updTeam_chanFn (s : State) (t : Nat) (f : Team → Team) : (updTeam s t f).chanFn = s.chanFn := rfl
@[simp] theorem updTeam_lcnt (s : State) (t : Nat) (f : Team → Team) : (updTeam s t f).lcnt = s.lcnt := rfl
@[simp] theorem updTeam_counters (s : State) (t : Nat) (f : Team → Team) : (updTeam s t f).counters = s.counters := rfl
@[simp] theorem updTeam_fab (s : State) (t : Nat) (f : Team → Team) : (updTeam s t f).fab = s.fab := rfl
@[simp] theorem updTeam_zen (s : State) (t : Nat) (f : Team → Team) : (updTeam s t f).zen = s.zen := rfl
@[simp] theorem updTeam_units (s : State) (t : Nat) (f : Team → Team) : (updTeam s t f).units = s.units := rfl
@[simp] theorem updTeam_defs (s : State) (t : Nat) (f : Team → Team) : (updTeam s t f).defs = s.defs := rfl
@[simp] theorem updTeam_images (s : State) (t : Nat) (f : Team → Team) : (updTeam s t f).images = s.images := rfl
@[simp] theorem updTeam_rmoAcks (s : State) (t : Nat) (f : Team → Team) : (updTeam s t f).rmoAcks = s.rmoAcks := rfl
@[simp] theorem updTeam_cmds (s : State) (t : Nat) (f : Team → Team) : (updTeam s t f).cmds = s.cmds := rfl
@[simp] theorem updTeam_ceil (s : State) (t : Nat) (f : Team → Team) : (updTeam s t f).ceil = s.ceil := rfl
@[simp] theorem updTeam_regions (s : State) (t : Nat) (f : Team → Team) : (updTeam s t f).regions = s.regions := rfl
@[simp] theorem updTeam_moving (s : State) (t : Nat) (f : Team → Team) : (updTeam s t f).moving = s.moving := rfl
@[simp] theorem updTeam_featAccept (s : State) (t : Nat) (f : Team → Team) : (updTeam s t f).featAccept = s.featAccept := rfl
@[simp] theorem updTeam_startFail (s : State) (t : Nat) (f : Team → Team) : (updTeam s t f).startFail = s.startFail := rfl
@[simp] theorem updTeam_dawnWhy (s : State) (t : Nat) (f : Team → Team) : (updTeam s t f).dawnWhy = s.dawnWhy := rfl
@[simp] theorem updTeam_sys (s : State) (t : Nat) (f : Team → Team) : (updTeam s t f).sys = s.sys := rfl

/-! `updGroup`. -/

@[simp] theorem updGroup_agenda (s : State) (id : SrcId) (f : Group → Group) : (updGroup s id f).agenda = s.agenda := rfl
@[simp] theorem updGroup_fresh (s : State) (id : SrcId) (f : Group → Group) : (updGroup s id f).fresh = s.fresh := rfl
@[simp] theorem updGroup_cur (s : State) (id : SrcId) (f : Group → Group) : (updGroup s id f).cur = s.cur := rfl
@[simp] theorem updGroup_nextId (s : State) (id : SrcId) (f : Group → Group) : (updGroup s id f).nextId = s.nextId := rfl
@[simp] theorem updGroup_cycle (s : State) (id : SrcId) (f : Group → Group) : (updGroup s id f).cycle = s.cycle := rfl
@[simp] theorem updGroup_mem (s : State) (id : SrcId) (f : Group → Group) : (updGroup s id f).mem = s.mem := rfl
@[simp] theorem updGroup_bad (s : State) (id : SrcId) (f : Group → Group) : (updGroup s id f).bad = s.bad := rfl
@[simp] theorem updGroup_portBad (s : State) (id : SrcId) (f : Group → Group) : (updGroup s id f).portBad = s.portBad := rfl
@[simp] theorem updGroup_owner (s : State) (id : SrcId) (f : Group → Group) : (updGroup s id f).owner = s.owner := rfl
@[simp] theorem updGroup_l2 (s : State) (id : SrcId) (f : Group → Group) : (updGroup s id f).l2 = s.l2 := rfl
@[simp] theorem updGroup_pkts (s : State) (id : SrcId) (f : Group → Group) : (updGroup s id f).pkts = s.pkts := rfl
@[simp] theorem updGroup_windows (s : State) (id : SrcId) (f : Group → Group) : (updGroup s id f).windows = s.windows := rfl
@[simp] theorem updGroup_windowNo (s : State) (id : SrcId) (f : Group → Group) : (updGroup s id f).windowNo = s.windowNo := rfl
@[simp] theorem updGroup_commits (s : State) (id : SrcId) (f : Group → Group) : (updGroup s id f).commits = s.commits := rfl
@[simp] theorem updGroup_acks (s : State) (id : SrcId) (f : Group → Group) : (updGroup s id f).acks = s.acks := rfl
@[simp] theorem updGroup_wms (s : State) (id : SrcId) (f : Group → Group) : (updGroup s id f).wms = s.wms := rfl
@[simp] theorem updGroup_recs (s : State) (id : SrcId) (f : Group → Group) : (updGroup s id f).recs = s.recs := rfl
@[simp] theorem updGroup_loads (s : State) (id : SrcId) (f : Group → Group) : (updGroup s id f).loads = s.loads := rfl
@[simp] theorem updGroup_cores (s : State) (id : SrcId) (f : Group → Group) : (updGroup s id f).cores = s.cores := rfl
@[simp] theorem updGroup_handles (s : State) (id : SrcId) (f : Group → Group) : (updGroup s id f).handles = s.handles := rfl
@[simp] theorem updGroup_claims (s : State) (id : SrcId) (f : Group → Group) : (updGroup s id f).claims = s.claims := rfl
@[simp] theorem updGroup_startNo (s : State) (id : SrcId) (f : Group → Group) : (updGroup s id f).startNo = s.startNo := rfl
@[simp] theorem updGroup_walks (s : State) (id : SrcId) (f : Group → Group) : (updGroup s id f).walks = s.walks := rfl
@[simp] theorem updGroup_tfaults (s : State) (id : SrcId) (f : Group → Group) : (updGroup s id f).tfaults = s.tfaults := rfl
@[simp] theorem updGroup_declined (s : State) (id : SrcId) (f : Group → Group) : (updGroup s id f).declined = s.declined := rfl
@[simp] theorem updGroup_l2tlb (s : State) (id : SrcId) (f : Group → Group) : (updGroup s id f).l2tlb = s.l2tlb := rfl
@[simp] theorem updGroup_hosts (s : State) (id : SrcId) (f : Group → Group) : (updGroup s id f).hosts = s.hosts := rfl
@[simp] theorem updGroup_invals (s : State) (id : SrcId) (f : Group → Group) : (updGroup s id f).invals = s.invals := rfl
@[simp] theorem updGroup_chmapId (s : State) (id : SrcId) (f : Group → Group) : (updGroup s id f).chmapId = s.chmapId := rfl
@[simp] theorem updGroup_chanFn (s : State) (id : SrcId) (f : Group → Group) : (updGroup s id f).chanFn = s.chanFn := rfl
@[simp] theorem updGroup_lcnt (s : State) (id : SrcId) (f : Group → Group) : (updGroup s id f).lcnt = s.lcnt := rfl
@[simp] theorem updGroup_counters (s : State) (id : SrcId) (f : Group → Group) : (updGroup s id f).counters = s.counters := rfl
@[simp] theorem updGroup_fab (s : State) (id : SrcId) (f : Group → Group) : (updGroup s id f).fab = s.fab := rfl
@[simp] theorem updGroup_zen (s : State) (id : SrcId) (f : Group → Group) : (updGroup s id f).zen = s.zen := rfl
@[simp] theorem updGroup_units (s : State) (id : SrcId) (f : Group → Group) : (updGroup s id f).units = s.units := rfl
@[simp] theorem updGroup_defs (s : State) (id : SrcId) (f : Group → Group) : (updGroup s id f).defs = s.defs := rfl
@[simp] theorem updGroup_images (s : State) (id : SrcId) (f : Group → Group) : (updGroup s id f).images = s.images := rfl
@[simp] theorem updGroup_rmoAcks (s : State) (id : SrcId) (f : Group → Group) : (updGroup s id f).rmoAcks = s.rmoAcks := rfl
@[simp] theorem updGroup_cmds (s : State) (id : SrcId) (f : Group → Group) : (updGroup s id f).cmds = s.cmds := rfl
@[simp] theorem updGroup_ceil (s : State) (id : SrcId) (f : Group → Group) : (updGroup s id f).ceil = s.ceil := rfl
@[simp] theorem updGroup_regions (s : State) (id : SrcId) (f : Group → Group) : (updGroup s id f).regions = s.regions := rfl
@[simp] theorem updGroup_moving (s : State) (id : SrcId) (f : Group → Group) : (updGroup s id f).moving = s.moving := rfl
@[simp] theorem updGroup_featAccept (s : State) (id : SrcId) (f : Group → Group) : (updGroup s id f).featAccept = s.featAccept := rfl
@[simp] theorem updGroup_startFail (s : State) (id : SrcId) (f : Group → Group) : (updGroup s id f).startFail = s.startFail := rfl
@[simp] theorem updGroup_dawnWhy (s : State) (id : SrcId) (f : Group → Group) : (updGroup s id f).dawnWhy = s.dawnWhy := rfl
@[simp] theorem updGroup_sys (s : State) (id : SrcId) (f : Group → Group) : (updGroup s id f).sys = s.sys := rfl

/-! `updCore`. -/

@[simp] theorem updCore_agenda (s : State) (c : Nat) (f : CoreSt → CoreSt) : (updCore s c f).agenda = s.agenda := rfl
@[simp] theorem updCore_fresh (s : State) (c : Nat) (f : CoreSt → CoreSt) : (updCore s c f).fresh = s.fresh := rfl
@[simp] theorem updCore_cur (s : State) (c : Nat) (f : CoreSt → CoreSt) : (updCore s c f).cur = s.cur := rfl
@[simp] theorem updCore_nextId (s : State) (c : Nat) (f : CoreSt → CoreSt) : (updCore s c f).nextId = s.nextId := rfl
@[simp] theorem updCore_cycle (s : State) (c : Nat) (f : CoreSt → CoreSt) : (updCore s c f).cycle = s.cycle := rfl
@[simp] theorem updCore_mem (s : State) (c : Nat) (f : CoreSt → CoreSt) : (updCore s c f).mem = s.mem := rfl
@[simp] theorem updCore_bad (s : State) (c : Nat) (f : CoreSt → CoreSt) : (updCore s c f).bad = s.bad := rfl
@[simp] theorem updCore_portBad (s : State) (c : Nat) (f : CoreSt → CoreSt) : (updCore s c f).portBad = s.portBad := rfl
@[simp] theorem updCore_owner (s : State) (c : Nat) (f : CoreSt → CoreSt) : (updCore s c f).owner = s.owner := rfl
@[simp] theorem updCore_l2 (s : State) (c : Nat) (f : CoreSt → CoreSt) : (updCore s c f).l2 = s.l2 := rfl
@[simp] theorem updCore_pkts (s : State) (c : Nat) (f : CoreSt → CoreSt) : (updCore s c f).pkts = s.pkts := rfl
@[simp] theorem updCore_windows (s : State) (c : Nat) (f : CoreSt → CoreSt) : (updCore s c f).windows = s.windows := rfl
@[simp] theorem updCore_windowNo (s : State) (c : Nat) (f : CoreSt → CoreSt) : (updCore s c f).windowNo = s.windowNo := rfl
@[simp] theorem updCore_commits (s : State) (c : Nat) (f : CoreSt → CoreSt) : (updCore s c f).commits = s.commits := rfl
@[simp] theorem updCore_acks (s : State) (c : Nat) (f : CoreSt → CoreSt) : (updCore s c f).acks = s.acks := rfl
@[simp] theorem updCore_wms (s : State) (c : Nat) (f : CoreSt → CoreSt) : (updCore s c f).wms = s.wms := rfl
@[simp] theorem updCore_recs (s : State) (c : Nat) (f : CoreSt → CoreSt) : (updCore s c f).recs = s.recs := rfl
@[simp] theorem updCore_loads (s : State) (c : Nat) (f : CoreSt → CoreSt) : (updCore s c f).loads = s.loads := rfl
@[simp] theorem updCore_teams (s : State) (c : Nat) (f : CoreSt → CoreSt) : (updCore s c f).teams = s.teams := rfl
@[simp] theorem updCore_handles (s : State) (c : Nat) (f : CoreSt → CoreSt) : (updCore s c f).handles = s.handles := rfl
@[simp] theorem updCore_claims (s : State) (c : Nat) (f : CoreSt → CoreSt) : (updCore s c f).claims = s.claims := rfl
@[simp] theorem updCore_startNo (s : State) (c : Nat) (f : CoreSt → CoreSt) : (updCore s c f).startNo = s.startNo := rfl
@[simp] theorem updCore_walks (s : State) (c : Nat) (f : CoreSt → CoreSt) : (updCore s c f).walks = s.walks := rfl
@[simp] theorem updCore_tfaults (s : State) (c : Nat) (f : CoreSt → CoreSt) : (updCore s c f).tfaults = s.tfaults := rfl
@[simp] theorem updCore_declined (s : State) (c : Nat) (f : CoreSt → CoreSt) : (updCore s c f).declined = s.declined := rfl
@[simp] theorem updCore_l2tlb (s : State) (c : Nat) (f : CoreSt → CoreSt) : (updCore s c f).l2tlb = s.l2tlb := rfl
@[simp] theorem updCore_hosts (s : State) (c : Nat) (f : CoreSt → CoreSt) : (updCore s c f).hosts = s.hosts := rfl
@[simp] theorem updCore_invals (s : State) (c : Nat) (f : CoreSt → CoreSt) : (updCore s c f).invals = s.invals := rfl
@[simp] theorem updCore_chmapId (s : State) (c : Nat) (f : CoreSt → CoreSt) : (updCore s c f).chmapId = s.chmapId := rfl
@[simp] theorem updCore_chanFn (s : State) (c : Nat) (f : CoreSt → CoreSt) : (updCore s c f).chanFn = s.chanFn := rfl
@[simp] theorem updCore_lcnt (s : State) (c : Nat) (f : CoreSt → CoreSt) : (updCore s c f).lcnt = s.lcnt := rfl
@[simp] theorem updCore_counters (s : State) (c : Nat) (f : CoreSt → CoreSt) : (updCore s c f).counters = s.counters := rfl
@[simp] theorem updCore_fab (s : State) (c : Nat) (f : CoreSt → CoreSt) : (updCore s c f).fab = s.fab := rfl
@[simp] theorem updCore_zen (s : State) (c : Nat) (f : CoreSt → CoreSt) : (updCore s c f).zen = s.zen := rfl
@[simp] theorem updCore_units (s : State) (c : Nat) (f : CoreSt → CoreSt) : (updCore s c f).units = s.units := rfl
@[simp] theorem updCore_defs (s : State) (c : Nat) (f : CoreSt → CoreSt) : (updCore s c f).defs = s.defs := rfl
@[simp] theorem updCore_images (s : State) (c : Nat) (f : CoreSt → CoreSt) : (updCore s c f).images = s.images := rfl
@[simp] theorem updCore_rmoAcks (s : State) (c : Nat) (f : CoreSt → CoreSt) : (updCore s c f).rmoAcks = s.rmoAcks := rfl
@[simp] theorem updCore_cmds (s : State) (c : Nat) (f : CoreSt → CoreSt) : (updCore s c f).cmds = s.cmds := rfl
@[simp] theorem updCore_ceil (s : State) (c : Nat) (f : CoreSt → CoreSt) : (updCore s c f).ceil = s.ceil := rfl
@[simp] theorem updCore_regions (s : State) (c : Nat) (f : CoreSt → CoreSt) : (updCore s c f).regions = s.regions := rfl
@[simp] theorem updCore_moving (s : State) (c : Nat) (f : CoreSt → CoreSt) : (updCore s c f).moving = s.moving := rfl
@[simp] theorem updCore_featAccept (s : State) (c : Nat) (f : CoreSt → CoreSt) : (updCore s c f).featAccept = s.featAccept := rfl
@[simp] theorem updCore_startFail (s : State) (c : Nat) (f : CoreSt → CoreSt) : (updCore s c f).startFail = s.startFail := rfl
@[simp] theorem updCore_dawnWhy (s : State) (c : Nat) (f : CoreSt → CoreSt) : (updCore s c f).dawnWhy = s.dawnWhy := rfl
@[simp] theorem updCore_sys (s : State) (c : Nat) (f : CoreSt → CoreSt) : (updCore s c f).sys = s.sys := rfl

/-! `updHost`. -/

@[simp] theorem updHost_agenda (s : State) (h : Nat) (f : HostRegs → HostRegs) : (updHost s h f).agenda = s.agenda := rfl
@[simp] theorem updHost_fresh (s : State) (h : Nat) (f : HostRegs → HostRegs) : (updHost s h f).fresh = s.fresh := rfl
@[simp] theorem updHost_cur (s : State) (h : Nat) (f : HostRegs → HostRegs) : (updHost s h f).cur = s.cur := rfl
@[simp] theorem updHost_nextId (s : State) (h : Nat) (f : HostRegs → HostRegs) : (updHost s h f).nextId = s.nextId := rfl
@[simp] theorem updHost_cycle (s : State) (h : Nat) (f : HostRegs → HostRegs) : (updHost s h f).cycle = s.cycle := rfl
@[simp] theorem updHost_mem (s : State) (h : Nat) (f : HostRegs → HostRegs) : (updHost s h f).mem = s.mem := rfl
@[simp] theorem updHost_bad (s : State) (h : Nat) (f : HostRegs → HostRegs) : (updHost s h f).bad = s.bad := rfl
@[simp] theorem updHost_portBad (s : State) (h : Nat) (f : HostRegs → HostRegs) : (updHost s h f).portBad = s.portBad := rfl
@[simp] theorem updHost_owner (s : State) (h : Nat) (f : HostRegs → HostRegs) : (updHost s h f).owner = s.owner := rfl
@[simp] theorem updHost_l2 (s : State) (h : Nat) (f : HostRegs → HostRegs) : (updHost s h f).l2 = s.l2 := rfl
@[simp] theorem updHost_pkts (s : State) (h : Nat) (f : HostRegs → HostRegs) : (updHost s h f).pkts = s.pkts := rfl
@[simp] theorem updHost_windows (s : State) (h : Nat) (f : HostRegs → HostRegs) : (updHost s h f).windows = s.windows := rfl
@[simp] theorem updHost_windowNo (s : State) (h : Nat) (f : HostRegs → HostRegs) : (updHost s h f).windowNo = s.windowNo := rfl
@[simp] theorem updHost_commits (s : State) (h : Nat) (f : HostRegs → HostRegs) : (updHost s h f).commits = s.commits := rfl
@[simp] theorem updHost_acks (s : State) (h : Nat) (f : HostRegs → HostRegs) : (updHost s h f).acks = s.acks := rfl
@[simp] theorem updHost_wms (s : State) (h : Nat) (f : HostRegs → HostRegs) : (updHost s h f).wms = s.wms := rfl
@[simp] theorem updHost_recs (s : State) (h : Nat) (f : HostRegs → HostRegs) : (updHost s h f).recs = s.recs := rfl
@[simp] theorem updHost_loads (s : State) (h : Nat) (f : HostRegs → HostRegs) : (updHost s h f).loads = s.loads := rfl
@[simp] theorem updHost_cores (s : State) (h : Nat) (f : HostRegs → HostRegs) : (updHost s h f).cores = s.cores := rfl
@[simp] theorem updHost_teams (s : State) (h : Nat) (f : HostRegs → HostRegs) : (updHost s h f).teams = s.teams := rfl
@[simp] theorem updHost_handles (s : State) (h : Nat) (f : HostRegs → HostRegs) : (updHost s h f).handles = s.handles := rfl
@[simp] theorem updHost_claims (s : State) (h : Nat) (f : HostRegs → HostRegs) : (updHost s h f).claims = s.claims := rfl
@[simp] theorem updHost_startNo (s : State) (h : Nat) (f : HostRegs → HostRegs) : (updHost s h f).startNo = s.startNo := rfl
@[simp] theorem updHost_walks (s : State) (h : Nat) (f : HostRegs → HostRegs) : (updHost s h f).walks = s.walks := rfl
@[simp] theorem updHost_tfaults (s : State) (h : Nat) (f : HostRegs → HostRegs) : (updHost s h f).tfaults = s.tfaults := rfl
@[simp] theorem updHost_declined (s : State) (h : Nat) (f : HostRegs → HostRegs) : (updHost s h f).declined = s.declined := rfl
@[simp] theorem updHost_l2tlb (s : State) (h : Nat) (f : HostRegs → HostRegs) : (updHost s h f).l2tlb = s.l2tlb := rfl
@[simp] theorem updHost_invals (s : State) (h : Nat) (f : HostRegs → HostRegs) : (updHost s h f).invals = s.invals := rfl
@[simp] theorem updHost_chmapId (s : State) (h : Nat) (f : HostRegs → HostRegs) : (updHost s h f).chmapId = s.chmapId := rfl
@[simp] theorem updHost_chanFn (s : State) (h : Nat) (f : HostRegs → HostRegs) : (updHost s h f).chanFn = s.chanFn := rfl
@[simp] theorem updHost_lcnt (s : State) (h : Nat) (f : HostRegs → HostRegs) : (updHost s h f).lcnt = s.lcnt := rfl
@[simp] theorem updHost_counters (s : State) (h : Nat) (f : HostRegs → HostRegs) : (updHost s h f).counters = s.counters := rfl
@[simp] theorem updHost_fab (s : State) (h : Nat) (f : HostRegs → HostRegs) : (updHost s h f).fab = s.fab := rfl
@[simp] theorem updHost_zen (s : State) (h : Nat) (f : HostRegs → HostRegs) : (updHost s h f).zen = s.zen := rfl
@[simp] theorem updHost_units (s : State) (h : Nat) (f : HostRegs → HostRegs) : (updHost s h f).units = s.units := rfl
@[simp] theorem updHost_defs (s : State) (h : Nat) (f : HostRegs → HostRegs) : (updHost s h f).defs = s.defs := rfl
@[simp] theorem updHost_images (s : State) (h : Nat) (f : HostRegs → HostRegs) : (updHost s h f).images = s.images := rfl
@[simp] theorem updHost_rmoAcks (s : State) (h : Nat) (f : HostRegs → HostRegs) : (updHost s h f).rmoAcks = s.rmoAcks := rfl
@[simp] theorem updHost_cmds (s : State) (h : Nat) (f : HostRegs → HostRegs) : (updHost s h f).cmds = s.cmds := rfl
@[simp] theorem updHost_ceil (s : State) (h : Nat) (f : HostRegs → HostRegs) : (updHost s h f).ceil = s.ceil := rfl
@[simp] theorem updHost_regions (s : State) (h : Nat) (f : HostRegs → HostRegs) : (updHost s h f).regions = s.regions := rfl
@[simp] theorem updHost_moving (s : State) (h : Nat) (f : HostRegs → HostRegs) : (updHost s h f).moving = s.moving := rfl
@[simp] theorem updHost_featAccept (s : State) (h : Nat) (f : HostRegs → HostRegs) : (updHost s h f).featAccept = s.featAccept := rfl
@[simp] theorem updHost_startFail (s : State) (h : Nat) (f : HostRegs → HostRegs) : (updHost s h f).startFail = s.startFail := rfl
@[simp] theorem updHost_dawnWhy (s : State) (h : Nat) (f : HostRegs → HostRegs) : (updHost s h f).dawnWhy = s.dawnWhy := rfl
@[simp] theorem updHost_sys (s : State) (h : Nat) (f : HostRegs → HostRegs) : (updHost s h f).sys = s.sys := rfl

/-! `updCmd`. -/

@[simp] theorem updCmd_agenda (s : State) (n : Nat) (f : Cmd → Cmd) : (updCmd s n f).agenda = s.agenda := rfl
@[simp] theorem updCmd_fresh (s : State) (n : Nat) (f : Cmd → Cmd) : (updCmd s n f).fresh = s.fresh := rfl
@[simp] theorem updCmd_cur (s : State) (n : Nat) (f : Cmd → Cmd) : (updCmd s n f).cur = s.cur := rfl
@[simp] theorem updCmd_nextId (s : State) (n : Nat) (f : Cmd → Cmd) : (updCmd s n f).nextId = s.nextId := rfl
@[simp] theorem updCmd_cycle (s : State) (n : Nat) (f : Cmd → Cmd) : (updCmd s n f).cycle = s.cycle := rfl
@[simp] theorem updCmd_mem (s : State) (n : Nat) (f : Cmd → Cmd) : (updCmd s n f).mem = s.mem := rfl
@[simp] theorem updCmd_bad (s : State) (n : Nat) (f : Cmd → Cmd) : (updCmd s n f).bad = s.bad := rfl
@[simp] theorem updCmd_portBad (s : State) (n : Nat) (f : Cmd → Cmd) : (updCmd s n f).portBad = s.portBad := rfl
@[simp] theorem updCmd_owner (s : State) (n : Nat) (f : Cmd → Cmd) : (updCmd s n f).owner = s.owner := rfl
@[simp] theorem updCmd_l2 (s : State) (n : Nat) (f : Cmd → Cmd) : (updCmd s n f).l2 = s.l2 := rfl
@[simp] theorem updCmd_pkts (s : State) (n : Nat) (f : Cmd → Cmd) : (updCmd s n f).pkts = s.pkts := rfl
@[simp] theorem updCmd_windows (s : State) (n : Nat) (f : Cmd → Cmd) : (updCmd s n f).windows = s.windows := rfl
@[simp] theorem updCmd_windowNo (s : State) (n : Nat) (f : Cmd → Cmd) : (updCmd s n f).windowNo = s.windowNo := rfl
@[simp] theorem updCmd_commits (s : State) (n : Nat) (f : Cmd → Cmd) : (updCmd s n f).commits = s.commits := rfl
@[simp] theorem updCmd_acks (s : State) (n : Nat) (f : Cmd → Cmd) : (updCmd s n f).acks = s.acks := rfl
@[simp] theorem updCmd_wms (s : State) (n : Nat) (f : Cmd → Cmd) : (updCmd s n f).wms = s.wms := rfl
@[simp] theorem updCmd_recs (s : State) (n : Nat) (f : Cmd → Cmd) : (updCmd s n f).recs = s.recs := rfl
@[simp] theorem updCmd_loads (s : State) (n : Nat) (f : Cmd → Cmd) : (updCmd s n f).loads = s.loads := rfl
@[simp] theorem updCmd_cores (s : State) (n : Nat) (f : Cmd → Cmd) : (updCmd s n f).cores = s.cores := rfl
@[simp] theorem updCmd_teams (s : State) (n : Nat) (f : Cmd → Cmd) : (updCmd s n f).teams = s.teams := rfl
@[simp] theorem updCmd_handles (s : State) (n : Nat) (f : Cmd → Cmd) : (updCmd s n f).handles = s.handles := rfl
@[simp] theorem updCmd_claims (s : State) (n : Nat) (f : Cmd → Cmd) : (updCmd s n f).claims = s.claims := rfl
@[simp] theorem updCmd_startNo (s : State) (n : Nat) (f : Cmd → Cmd) : (updCmd s n f).startNo = s.startNo := rfl
@[simp] theorem updCmd_walks (s : State) (n : Nat) (f : Cmd → Cmd) : (updCmd s n f).walks = s.walks := rfl
@[simp] theorem updCmd_tfaults (s : State) (n : Nat) (f : Cmd → Cmd) : (updCmd s n f).tfaults = s.tfaults := rfl
@[simp] theorem updCmd_declined (s : State) (n : Nat) (f : Cmd → Cmd) : (updCmd s n f).declined = s.declined := rfl
@[simp] theorem updCmd_l2tlb (s : State) (n : Nat) (f : Cmd → Cmd) : (updCmd s n f).l2tlb = s.l2tlb := rfl
@[simp] theorem updCmd_hosts (s : State) (n : Nat) (f : Cmd → Cmd) : (updCmd s n f).hosts = s.hosts := rfl
@[simp] theorem updCmd_invals (s : State) (n : Nat) (f : Cmd → Cmd) : (updCmd s n f).invals = s.invals := rfl
@[simp] theorem updCmd_chmapId (s : State) (n : Nat) (f : Cmd → Cmd) : (updCmd s n f).chmapId = s.chmapId := rfl
@[simp] theorem updCmd_chanFn (s : State) (n : Nat) (f : Cmd → Cmd) : (updCmd s n f).chanFn = s.chanFn := rfl
@[simp] theorem updCmd_lcnt (s : State) (n : Nat) (f : Cmd → Cmd) : (updCmd s n f).lcnt = s.lcnt := rfl
@[simp] theorem updCmd_counters (s : State) (n : Nat) (f : Cmd → Cmd) : (updCmd s n f).counters = s.counters := rfl
@[simp] theorem updCmd_fab (s : State) (n : Nat) (f : Cmd → Cmd) : (updCmd s n f).fab = s.fab := rfl
@[simp] theorem updCmd_zen (s : State) (n : Nat) (f : Cmd → Cmd) : (updCmd s n f).zen = s.zen := rfl
@[simp] theorem updCmd_units (s : State) (n : Nat) (f : Cmd → Cmd) : (updCmd s n f).units = s.units := rfl
@[simp] theorem updCmd_defs (s : State) (n : Nat) (f : Cmd → Cmd) : (updCmd s n f).defs = s.defs := rfl
@[simp] theorem updCmd_images (s : State) (n : Nat) (f : Cmd → Cmd) : (updCmd s n f).images = s.images := rfl
@[simp] theorem updCmd_rmoAcks (s : State) (n : Nat) (f : Cmd → Cmd) : (updCmd s n f).rmoAcks = s.rmoAcks := rfl
@[simp] theorem updCmd_ceil (s : State) (n : Nat) (f : Cmd → Cmd) : (updCmd s n f).ceil = s.ceil := rfl
@[simp] theorem updCmd_regions (s : State) (n : Nat) (f : Cmd → Cmd) : (updCmd s n f).regions = s.regions := rfl
@[simp] theorem updCmd_moving (s : State) (n : Nat) (f : Cmd → Cmd) : (updCmd s n f).moving = s.moving := rfl
@[simp] theorem updCmd_featAccept (s : State) (n : Nat) (f : Cmd → Cmd) : (updCmd s n f).featAccept = s.featAccept := rfl
@[simp] theorem updCmd_startFail (s : State) (n : Nat) (f : Cmd → Cmd) : (updCmd s n f).startFail = s.startFail := rfl
@[simp] theorem updCmd_dawnWhy (s : State) (n : Nat) (f : Cmd → Cmd) : (updCmd s n f).dawnWhy = s.dawnWhy := rfl
@[simp] theorem updCmd_sys (s : State) (n : Nat) (f : Cmd → Cmd) : (updCmd s n f).sys = s.sys := rfl

/-! `updSys`. -/

@[simp] theorem updSys_agenda (s : State) (f : SysCtl → SysCtl) : (updSys s f).agenda = s.agenda := rfl
@[simp] theorem updSys_fresh (s : State) (f : SysCtl → SysCtl) : (updSys s f).fresh = s.fresh := rfl
@[simp] theorem updSys_cur (s : State) (f : SysCtl → SysCtl) : (updSys s f).cur = s.cur := rfl
@[simp] theorem updSys_nextId (s : State) (f : SysCtl → SysCtl) : (updSys s f).nextId = s.nextId := rfl
@[simp] theorem updSys_cycle (s : State) (f : SysCtl → SysCtl) : (updSys s f).cycle = s.cycle := rfl
@[simp] theorem updSys_mem (s : State) (f : SysCtl → SysCtl) : (updSys s f).mem = s.mem := rfl
@[simp] theorem updSys_bad (s : State) (f : SysCtl → SysCtl) : (updSys s f).bad = s.bad := rfl
@[simp] theorem updSys_portBad (s : State) (f : SysCtl → SysCtl) : (updSys s f).portBad = s.portBad := rfl
@[simp] theorem updSys_owner (s : State) (f : SysCtl → SysCtl) : (updSys s f).owner = s.owner := rfl
@[simp] theorem updSys_l2 (s : State) (f : SysCtl → SysCtl) : (updSys s f).l2 = s.l2 := rfl
@[simp] theorem updSys_pkts (s : State) (f : SysCtl → SysCtl) : (updSys s f).pkts = s.pkts := rfl
@[simp] theorem updSys_windows (s : State) (f : SysCtl → SysCtl) : (updSys s f).windows = s.windows := rfl
@[simp] theorem updSys_windowNo (s : State) (f : SysCtl → SysCtl) : (updSys s f).windowNo = s.windowNo := rfl
@[simp] theorem updSys_commits (s : State) (f : SysCtl → SysCtl) : (updSys s f).commits = s.commits := rfl
@[simp] theorem updSys_acks (s : State) (f : SysCtl → SysCtl) : (updSys s f).acks = s.acks := rfl
@[simp] theorem updSys_wms (s : State) (f : SysCtl → SysCtl) : (updSys s f).wms = s.wms := rfl
@[simp] theorem updSys_recs (s : State) (f : SysCtl → SysCtl) : (updSys s f).recs = s.recs := rfl
@[simp] theorem updSys_loads (s : State) (f : SysCtl → SysCtl) : (updSys s f).loads = s.loads := rfl
@[simp] theorem updSys_cores (s : State) (f : SysCtl → SysCtl) : (updSys s f).cores = s.cores := rfl
@[simp] theorem updSys_teams (s : State) (f : SysCtl → SysCtl) : (updSys s f).teams = s.teams := rfl
@[simp] theorem updSys_handles (s : State) (f : SysCtl → SysCtl) : (updSys s f).handles = s.handles := rfl
@[simp] theorem updSys_claims (s : State) (f : SysCtl → SysCtl) : (updSys s f).claims = s.claims := rfl
@[simp] theorem updSys_startNo (s : State) (f : SysCtl → SysCtl) : (updSys s f).startNo = s.startNo := rfl
@[simp] theorem updSys_walks (s : State) (f : SysCtl → SysCtl) : (updSys s f).walks = s.walks := rfl
@[simp] theorem updSys_tfaults (s : State) (f : SysCtl → SysCtl) : (updSys s f).tfaults = s.tfaults := rfl
@[simp] theorem updSys_declined (s : State) (f : SysCtl → SysCtl) : (updSys s f).declined = s.declined := rfl
@[simp] theorem updSys_l2tlb (s : State) (f : SysCtl → SysCtl) : (updSys s f).l2tlb = s.l2tlb := rfl
@[simp] theorem updSys_hosts (s : State) (f : SysCtl → SysCtl) : (updSys s f).hosts = s.hosts := rfl
@[simp] theorem updSys_invals (s : State) (f : SysCtl → SysCtl) : (updSys s f).invals = s.invals := rfl
@[simp] theorem updSys_chmapId (s : State) (f : SysCtl → SysCtl) : (updSys s f).chmapId = s.chmapId := rfl
@[simp] theorem updSys_chanFn (s : State) (f : SysCtl → SysCtl) : (updSys s f).chanFn = s.chanFn := rfl
@[simp] theorem updSys_lcnt (s : State) (f : SysCtl → SysCtl) : (updSys s f).lcnt = s.lcnt := rfl
@[simp] theorem updSys_counters (s : State) (f : SysCtl → SysCtl) : (updSys s f).counters = s.counters := rfl
@[simp] theorem updSys_fab (s : State) (f : SysCtl → SysCtl) : (updSys s f).fab = s.fab := rfl
@[simp] theorem updSys_zen (s : State) (f : SysCtl → SysCtl) : (updSys s f).zen = s.zen := rfl
@[simp] theorem updSys_units (s : State) (f : SysCtl → SysCtl) : (updSys s f).units = s.units := rfl
@[simp] theorem updSys_defs (s : State) (f : SysCtl → SysCtl) : (updSys s f).defs = s.defs := rfl
@[simp] theorem updSys_images (s : State) (f : SysCtl → SysCtl) : (updSys s f).images = s.images := rfl
@[simp] theorem updSys_rmoAcks (s : State) (f : SysCtl → SysCtl) : (updSys s f).rmoAcks = s.rmoAcks := rfl
@[simp] theorem updSys_cmds (s : State) (f : SysCtl → SysCtl) : (updSys s f).cmds = s.cmds := rfl
@[simp] theorem updSys_ceil (s : State) (f : SysCtl → SysCtl) : (updSys s f).ceil = s.ceil := rfl
@[simp] theorem updSys_regions (s : State) (f : SysCtl → SysCtl) : (updSys s f).regions = s.regions := rfl
@[simp] theorem updSys_moving (s : State) (f : SysCtl → SysCtl) : (updSys s f).moving = s.moving := rfl
@[simp] theorem updSys_featAccept (s : State) (f : SysCtl → SysCtl) : (updSys s f).featAccept = s.featAccept := rfl
@[simp] theorem updSys_startFail (s : State) (f : SysCtl → SysCtl) : (updSys s f).startFail = s.startFail := rfl
@[simp] theorem updSys_dawnWhy (s : State) (f : SysCtl → SysCtl) : (updSys s f).dawnWhy = s.dawnWhy := rfl

/-! `writeByte`. -/

@[simp] theorem writeByte_agenda (s : State) (a : Nat) (b : Byte) : (writeByte s a b).agenda = s.agenda := rfl
@[simp] theorem writeByte_fresh (s : State) (a : Nat) (b : Byte) : (writeByte s a b).fresh = s.fresh := rfl
@[simp] theorem writeByte_cur (s : State) (a : Nat) (b : Byte) : (writeByte s a b).cur = s.cur := rfl
@[simp] theorem writeByte_nextId (s : State) (a : Nat) (b : Byte) : (writeByte s a b).nextId = s.nextId := rfl
@[simp] theorem writeByte_cycle (s : State) (a : Nat) (b : Byte) : (writeByte s a b).cycle = s.cycle := rfl
@[simp] theorem writeByte_bad (s : State) (a : Nat) (b : Byte) : (writeByte s a b).bad = s.bad := rfl
@[simp] theorem writeByte_portBad (s : State) (a : Nat) (b : Byte) : (writeByte s a b).portBad = s.portBad := rfl
@[simp] theorem writeByte_owner (s : State) (a : Nat) (b : Byte) : (writeByte s a b).owner = s.owner := rfl
@[simp] theorem writeByte_l2 (s : State) (a : Nat) (b : Byte) : (writeByte s a b).l2 = s.l2 := rfl
@[simp] theorem writeByte_pkts (s : State) (a : Nat) (b : Byte) : (writeByte s a b).pkts = s.pkts := rfl
@[simp] theorem writeByte_windows (s : State) (a : Nat) (b : Byte) : (writeByte s a b).windows = s.windows := rfl
@[simp] theorem writeByte_windowNo (s : State) (a : Nat) (b : Byte) : (writeByte s a b).windowNo = s.windowNo := rfl
@[simp] theorem writeByte_commits (s : State) (a : Nat) (b : Byte) : (writeByte s a b).commits = s.commits := rfl
@[simp] theorem writeByte_acks (s : State) (a : Nat) (b : Byte) : (writeByte s a b).acks = s.acks := rfl
@[simp] theorem writeByte_wms (s : State) (a : Nat) (b : Byte) : (writeByte s a b).wms = s.wms := rfl
@[simp] theorem writeByte_recs (s : State) (a : Nat) (b : Byte) : (writeByte s a b).recs = s.recs := rfl
@[simp] theorem writeByte_loads (s : State) (a : Nat) (b : Byte) : (writeByte s a b).loads = s.loads := rfl
@[simp] theorem writeByte_cores (s : State) (a : Nat) (b : Byte) : (writeByte s a b).cores = s.cores := rfl
@[simp] theorem writeByte_teams (s : State) (a : Nat) (b : Byte) : (writeByte s a b).teams = s.teams := rfl
@[simp] theorem writeByte_handles (s : State) (a : Nat) (b : Byte) : (writeByte s a b).handles = s.handles := rfl
@[simp] theorem writeByte_claims (s : State) (a : Nat) (b : Byte) : (writeByte s a b).claims = s.claims := rfl
@[simp] theorem writeByte_startNo (s : State) (a : Nat) (b : Byte) : (writeByte s a b).startNo = s.startNo := rfl
@[simp] theorem writeByte_walks (s : State) (a : Nat) (b : Byte) : (writeByte s a b).walks = s.walks := rfl
@[simp] theorem writeByte_tfaults (s : State) (a : Nat) (b : Byte) : (writeByte s a b).tfaults = s.tfaults := rfl
@[simp] theorem writeByte_declined (s : State) (a : Nat) (b : Byte) : (writeByte s a b).declined = s.declined := rfl
@[simp] theorem writeByte_l2tlb (s : State) (a : Nat) (b : Byte) : (writeByte s a b).l2tlb = s.l2tlb := rfl
@[simp] theorem writeByte_hosts (s : State) (a : Nat) (b : Byte) : (writeByte s a b).hosts = s.hosts := rfl
@[simp] theorem writeByte_invals (s : State) (a : Nat) (b : Byte) : (writeByte s a b).invals = s.invals := rfl
@[simp] theorem writeByte_chmapId (s : State) (a : Nat) (b : Byte) : (writeByte s a b).chmapId = s.chmapId := rfl
@[simp] theorem writeByte_chanFn (s : State) (a : Nat) (b : Byte) : (writeByte s a b).chanFn = s.chanFn := rfl
@[simp] theorem writeByte_lcnt (s : State) (a : Nat) (b : Byte) : (writeByte s a b).lcnt = s.lcnt := rfl
@[simp] theorem writeByte_counters (s : State) (a : Nat) (b : Byte) : (writeByte s a b).counters = s.counters := rfl
@[simp] theorem writeByte_fab (s : State) (a : Nat) (b : Byte) : (writeByte s a b).fab = s.fab := rfl
@[simp] theorem writeByte_zen (s : State) (a : Nat) (b : Byte) : (writeByte s a b).zen = s.zen := rfl
@[simp] theorem writeByte_units (s : State) (a : Nat) (b : Byte) : (writeByte s a b).units = s.units := rfl
@[simp] theorem writeByte_defs (s : State) (a : Nat) (b : Byte) : (writeByte s a b).defs = s.defs := rfl
@[simp] theorem writeByte_images (s : State) (a : Nat) (b : Byte) : (writeByte s a b).images = s.images := rfl
@[simp] theorem writeByte_rmoAcks (s : State) (a : Nat) (b : Byte) : (writeByte s a b).rmoAcks = s.rmoAcks := rfl
@[simp] theorem writeByte_cmds (s : State) (a : Nat) (b : Byte) : (writeByte s a b).cmds = s.cmds := rfl
@[simp] theorem writeByte_ceil (s : State) (a : Nat) (b : Byte) : (writeByte s a b).ceil = s.ceil := rfl
@[simp] theorem writeByte_regions (s : State) (a : Nat) (b : Byte) : (writeByte s a b).regions = s.regions := rfl
@[simp] theorem writeByte_moving (s : State) (a : Nat) (b : Byte) : (writeByte s a b).moving = s.moving := rfl
@[simp] theorem writeByte_featAccept (s : State) (a : Nat) (b : Byte) : (writeByte s a b).featAccept = s.featAccept := rfl
@[simp] theorem writeByte_startFail (s : State) (a : Nat) (b : Byte) : (writeByte s a b).startFail = s.startFail := rfl
@[simp] theorem writeByte_dawnWhy (s : State) (a : Nat) (b : Byte) : (writeByte s a b).dawnWhy = s.dawnWhy := rfl
@[simp] theorem writeByte_sys (s : State) (a : Nat) (b : Byte) : (writeByte s a b).sys = s.sys := rfl

/-! `newId`. -/

@[simp] theorem newId_agenda (s : State) : (newId s).2.agenda = s.agenda := rfl
@[simp] theorem newId_fresh (s : State) : (newId s).2.fresh = s.fresh := rfl
@[simp] theorem newId_cur (s : State) : (newId s).2.cur = s.cur := rfl
@[simp] theorem newId_cycle (s : State) : (newId s).2.cycle = s.cycle := rfl
@[simp] theorem newId_mem (s : State) : (newId s).2.mem = s.mem := rfl
@[simp] theorem newId_bad (s : State) : (newId s).2.bad = s.bad := rfl
@[simp] theorem newId_portBad (s : State) : (newId s).2.portBad = s.portBad := rfl
@[simp] theorem newId_owner (s : State) : (newId s).2.owner = s.owner := rfl
@[simp] theorem newId_l2 (s : State) : (newId s).2.l2 = s.l2 := rfl
@[simp] theorem newId_pkts (s : State) : (newId s).2.pkts = s.pkts := rfl
@[simp] theorem newId_windows (s : State) : (newId s).2.windows = s.windows := rfl
@[simp] theorem newId_windowNo (s : State) : (newId s).2.windowNo = s.windowNo := rfl
@[simp] theorem newId_commits (s : State) : (newId s).2.commits = s.commits := rfl
@[simp] theorem newId_acks (s : State) : (newId s).2.acks = s.acks := rfl
@[simp] theorem newId_wms (s : State) : (newId s).2.wms = s.wms := rfl
@[simp] theorem newId_recs (s : State) : (newId s).2.recs = s.recs := rfl
@[simp] theorem newId_loads (s : State) : (newId s).2.loads = s.loads := rfl
@[simp] theorem newId_cores (s : State) : (newId s).2.cores = s.cores := rfl
@[simp] theorem newId_teams (s : State) : (newId s).2.teams = s.teams := rfl
@[simp] theorem newId_handles (s : State) : (newId s).2.handles = s.handles := rfl
@[simp] theorem newId_claims (s : State) : (newId s).2.claims = s.claims := rfl
@[simp] theorem newId_startNo (s : State) : (newId s).2.startNo = s.startNo := rfl
@[simp] theorem newId_walks (s : State) : (newId s).2.walks = s.walks := rfl
@[simp] theorem newId_tfaults (s : State) : (newId s).2.tfaults = s.tfaults := rfl
@[simp] theorem newId_declined (s : State) : (newId s).2.declined = s.declined := rfl
@[simp] theorem newId_l2tlb (s : State) : (newId s).2.l2tlb = s.l2tlb := rfl
@[simp] theorem newId_hosts (s : State) : (newId s).2.hosts = s.hosts := rfl
@[simp] theorem newId_invals (s : State) : (newId s).2.invals = s.invals := rfl
@[simp] theorem newId_chmapId (s : State) : (newId s).2.chmapId = s.chmapId := rfl
@[simp] theorem newId_chanFn (s : State) : (newId s).2.chanFn = s.chanFn := rfl
@[simp] theorem newId_lcnt (s : State) : (newId s).2.lcnt = s.lcnt := rfl
@[simp] theorem newId_counters (s : State) : (newId s).2.counters = s.counters := rfl
@[simp] theorem newId_fab (s : State) : (newId s).2.fab = s.fab := rfl
@[simp] theorem newId_zen (s : State) : (newId s).2.zen = s.zen := rfl
@[simp] theorem newId_units (s : State) : (newId s).2.units = s.units := rfl
@[simp] theorem newId_defs (s : State) : (newId s).2.defs = s.defs := rfl
@[simp] theorem newId_images (s : State) : (newId s).2.images = s.images := rfl
@[simp] theorem newId_rmoAcks (s : State) : (newId s).2.rmoAcks = s.rmoAcks := rfl
@[simp] theorem newId_cmds (s : State) : (newId s).2.cmds = s.cmds := rfl
@[simp] theorem newId_ceil (s : State) : (newId s).2.ceil = s.ceil := rfl
@[simp] theorem newId_regions (s : State) : (newId s).2.regions = s.regions := rfl
@[simp] theorem newId_moving (s : State) : (newId s).2.moving = s.moving := rfl
@[simp] theorem newId_featAccept (s : State) : (newId s).2.featAccept = s.featAccept := rfl
@[simp] theorem newId_startFail (s : State) : (newId s).2.startFail = s.startFail := rfl
@[simp] theorem newId_dawnWhy (s : State) : (newId s).2.dawnWhy = s.dawnWhy := rfl
@[simp] theorem newId_sys (s : State) : (newId s).2.sys = s.sys := rfl
@[simp] theorem newId_fst (s : State) : (newId s).1 = s.nextId := rfl
@[simp] theorem newId_nextId (s : State) : (newId s).2.nextId = s.nextId + 1 := rfl

/-! `writeV`. -/

@[simp] theorem writeV_pc (g : Group) (n l : Nat) (x : W32) : (writeV g n l x).pc = g.pc := rfl
@[simp] theorem writeV_shadow (g : Group) (n l : Nat) (x : W32) : (writeV g n l x).shadow = g.shadow := rfl
@[simp] theorem writeV_live (g : Group) (n l : Nat) (x : W32) : (writeV g n l x).live = g.live := rfl
@[simp] theorem writeV_age (g : Group) (n l : Nat) (x : W32) : (writeV g n l x).age = g.age := rfl
@[simp] theorem writeV_slotBit (g : Group) (n l : Nat) (x : W32) : (writeV g n l x).slotBit = g.slotBit := rfl
@[simp] theorem writeV_alloc (g : Group) (n l : Nat) (x : W32) : (writeV g n l x).alloc = g.alloc := rfl
@[simp] theorem writeV_sb (g : Group) (n l : Nat) (x : W32) : (writeV g n l x).sb = g.sb := rfl
@[simp] theorem writeV_p (g : Group) (n l : Nat) (x : W32) : (writeV g n l x).p = g.p := rfl
@[simp] theorem writeV_x (g : Group) (n l : Nat) (x : W32) : (writeV g n l x).x = g.x := rfl
@[simp] theorem writeV_latch (g : Group) (n l : Nat) (x : W32) : (writeV g n l x).latch = g.latch := rfl
@[simp] theorem writeV_latchLeft (g : Group) (n l : Nat) (x : W32) : (writeV g n l x).latchLeft = g.latchLeft := rfl
@[simp] theorem writeV_chain (g : Group) (n l : Nat) (x : W32) : (writeV g n l x).chain = g.chain := rfl
@[simp] theorem writeV_sr (g : Group) (n l : Nat) (x : W32) : (writeV g n l x).sr = g.sr := rfl
@[simp] theorem writeV_inTrap (g : Group) (n l : Nat) (x : W32) : (writeV g n l x).inTrap = g.inTrap := rfl
@[simp] theorem writeV_tcause (g : Group) (n l : Nat) (x : W32) : (writeV g n l x).tcause = g.tcause := rfl
@[simp] theorem writeV_tpc (g : Group) (n l : Nat) (x : W32) : (writeV g n l x).tpc = g.tpc := rfl
@[simp] theorem writeV_taddr (g : Group) (n l : Nat) (x : W32) : (writeV g n l x).taddr = g.taddr := rfl
@[simp] theorem writeV_tlanes (g : Group) (n l : Nat) (x : W32) : (writeV g n l x).tlanes = g.tlanes := rfl
@[simp] theorem writeV_trec (g : Group) (n l : Nat) (x : W32) : (writeV g n l x).trec = g.trec := rfl
@[simp] theorem writeV_restart (g : Group) (n l : Nat) (x : W32) : (writeV g n l x).restart = g.restart := rfl
@[simp] theorem writeV_tpcWritten (g : Group) (n l : Nat) (x : W32) : (writeV g n l x).tpcWritten = g.tpcWritten := rfl
@[simp] theorem writeV_heldTraps (g : Group) (n l : Nat) (x : W32) : (writeV g n l x).heldTraps = g.heldTraps := rfl
@[simp] theorem writeV_wait (g : Group) (n l : Nat) (x : W32) : (writeV g n l x).wait = g.wait := rfl
@[simp] theorem writeV_mark (g : Group) (n l : Nat) (x : W32) : (writeV g n l x).mark = g.mark := rfl
@[simp] theorem writeV_uqRead (g : Group) (n l : Nat) (x : W32) : (writeV g n l x).uqRead = g.uqRead := rfl
@[simp] theorem writeV_dq (g : Group) (n l : Nat) (x : W32) : (writeV g n l x).dq = g.dq := rfl
@[simp] theorem writeV_streams (g : Group) (n l : Nat) (x : W32) : (writeV g n l x).streams = g.streams := rfl
@[simp] theorem writeV_ops (g : Group) (n l : Nat) (x : W32) : (writeV g n l x).ops = g.ops := rfl
@[simp] theorem writeV_ord (g : Group) (n l : Nat) (x : W32) : (writeV g n l x).ord = g.ord := rfl
@[simp] theorem writeV_memq (g : Group) (n l : Nat) (x : W32) : (writeV g n l x).memq = g.memq := rfl
@[simp] theorem writeV_copyq (g : Group) (n l : Nat) (x : W32) : (writeV g n l x).copyq = g.copyq := rfl
@[simp] theorem writeV_arm (g : Group) (n l : Nat) (x : W32) : (writeV g n l x).arm = g.arm := rfl
@[simp] theorem writeV_handle (g : Group) (n l : Nat) (x : W32) : (writeV g n l x).handle = g.handle := rfl
@[simp] theorem writeV_yieldUntil (g : Group) (n l : Nat) (x : W32) : (writeV g n l x).yieldUntil = g.yieldUntil := rfl
@[simp] theorem writeV_defWait (g : Group) (n l : Nat) (x : W32) : (writeV g n l x).defWait = g.defWait := rfl
@[simp] theorem writeV_enq (g : Group) (n l : Nat) (x : W32) : (writeV g n l x).enq = g.enq := rfl
@[simp] theorem writeV_started (g : Group) (n l : Nat) (x : W32) : (writeV g n l x).started = g.started := rfl
@[simp] theorem writeV_ready (g : Group) (n l : Nat) (x : W32) : (writeV g n l x).ready = g.ready := rfl
@[simp] theorem writeV_dqAt (g : Group) (n l : Nat) (x : W32) : (writeV g n l x).dqAt = g.dqAt := rfl
@[simp] theorem writeV_uqSeen (g : Group) (n l : Nat) (x : W32) : (writeV g n l x).uqSeen = g.uqSeen := rfl
@[simp] theorem writeV_dropVer (g : Group) (n l : Nat) (x : W32) : (writeV g n l x).dropVer = g.dropVer := rfl
@[simp] theorem writeV_hold (g : Group) (n l : Nat) (x : W32) : (writeV g n l x).hold = g.hold := rfl
@[simp] theorem writeV_ownKeys (g : Group) (n l : Nat) (x : W32) : (writeV g n l x).ownKeys = g.ownKeys := rfl
@[simp] theorem writeV_ownPipes (g : Group) (n l : Nat) (x : W32) : (writeV g n l x).ownPipes = g.ownPipes := rfl

/-! `setPc`. -/

@[simp] theorem setPc_shadow (g : Group) (m : Mask) (pc : W64) : (setPc g m pc).shadow = g.shadow := rfl
@[simp] theorem setPc_live (g : Group) (m : Mask) (pc : W64) : (setPc g m pc).live = g.live := rfl
@[simp] theorem setPc_age (g : Group) (m : Mask) (pc : W64) : (setPc g m pc).age = g.age := rfl
@[simp] theorem setPc_slotBit (g : Group) (m : Mask) (pc : W64) : (setPc g m pc).slotBit = g.slotBit := rfl
@[simp] theorem setPc_alloc (g : Group) (m : Mask) (pc : W64) : (setPc g m pc).alloc = g.alloc := rfl
@[simp] theorem setPc_v (g : Group) (m : Mask) (pc : W64) : (setPc g m pc).v = g.v := rfl
@[simp] theorem setPc_err (g : Group) (m : Mask) (pc : W64) : (setPc g m pc).err = g.err := rfl
@[simp] theorem setPc_sb (g : Group) (m : Mask) (pc : W64) : (setPc g m pc).sb = g.sb := rfl
@[simp] theorem setPc_p (g : Group) (m : Mask) (pc : W64) : (setPc g m pc).p = g.p := rfl
@[simp] theorem setPc_x (g : Group) (m : Mask) (pc : W64) : (setPc g m pc).x = g.x := rfl
@[simp] theorem setPc_latch (g : Group) (m : Mask) (pc : W64) : (setPc g m pc).latch = g.latch := rfl
@[simp] theorem setPc_latchLeft (g : Group) (m : Mask) (pc : W64) : (setPc g m pc).latchLeft = g.latchLeft := rfl
@[simp] theorem setPc_chain (g : Group) (m : Mask) (pc : W64) : (setPc g m pc).chain = g.chain := rfl
@[simp] theorem setPc_sr (g : Group) (m : Mask) (pc : W64) : (setPc g m pc).sr = g.sr := rfl
@[simp] theorem setPc_inTrap (g : Group) (m : Mask) (pc : W64) : (setPc g m pc).inTrap = g.inTrap := rfl
@[simp] theorem setPc_tcause (g : Group) (m : Mask) (pc : W64) : (setPc g m pc).tcause = g.tcause := rfl
@[simp] theorem setPc_tpc (g : Group) (m : Mask) (pc : W64) : (setPc g m pc).tpc = g.tpc := rfl
@[simp] theorem setPc_taddr (g : Group) (m : Mask) (pc : W64) : (setPc g m pc).taddr = g.taddr := rfl
@[simp] theorem setPc_tlanes (g : Group) (m : Mask) (pc : W64) : (setPc g m pc).tlanes = g.tlanes := rfl
@[simp] theorem setPc_trec (g : Group) (m : Mask) (pc : W64) : (setPc g m pc).trec = g.trec := rfl
@[simp] theorem setPc_restart (g : Group) (m : Mask) (pc : W64) : (setPc g m pc).restart = g.restart := rfl
@[simp] theorem setPc_tpcWritten (g : Group) (m : Mask) (pc : W64) : (setPc g m pc).tpcWritten = g.tpcWritten := rfl
@[simp] theorem setPc_heldTraps (g : Group) (m : Mask) (pc : W64) : (setPc g m pc).heldTraps = g.heldTraps := rfl
@[simp] theorem setPc_wait (g : Group) (m : Mask) (pc : W64) : (setPc g m pc).wait = g.wait := rfl
@[simp] theorem setPc_mark (g : Group) (m : Mask) (pc : W64) : (setPc g m pc).mark = g.mark := rfl
@[simp] theorem setPc_uqRead (g : Group) (m : Mask) (pc : W64) : (setPc g m pc).uqRead = g.uqRead := rfl
@[simp] theorem setPc_dq (g : Group) (m : Mask) (pc : W64) : (setPc g m pc).dq = g.dq := rfl
@[simp] theorem setPc_streams (g : Group) (m : Mask) (pc : W64) : (setPc g m pc).streams = g.streams := rfl
@[simp] theorem setPc_ops (g : Group) (m : Mask) (pc : W64) : (setPc g m pc).ops = g.ops := rfl
@[simp] theorem setPc_ord (g : Group) (m : Mask) (pc : W64) : (setPc g m pc).ord = g.ord := rfl
@[simp] theorem setPc_memq (g : Group) (m : Mask) (pc : W64) : (setPc g m pc).memq = g.memq := rfl
@[simp] theorem setPc_copyq (g : Group) (m : Mask) (pc : W64) : (setPc g m pc).copyq = g.copyq := rfl
@[simp] theorem setPc_arm (g : Group) (m : Mask) (pc : W64) : (setPc g m pc).arm = g.arm := rfl
@[simp] theorem setPc_handle (g : Group) (m : Mask) (pc : W64) : (setPc g m pc).handle = g.handle := rfl
@[simp] theorem setPc_yieldUntil (g : Group) (m : Mask) (pc : W64) : (setPc g m pc).yieldUntil = g.yieldUntil := rfl
@[simp] theorem setPc_defWait (g : Group) (m : Mask) (pc : W64) : (setPc g m pc).defWait = g.defWait := rfl
@[simp] theorem setPc_enq (g : Group) (m : Mask) (pc : W64) : (setPc g m pc).enq = g.enq := rfl
@[simp] theorem setPc_started (g : Group) (m : Mask) (pc : W64) : (setPc g m pc).started = g.started := rfl
@[simp] theorem setPc_ready (g : Group) (m : Mask) (pc : W64) : (setPc g m pc).ready = g.ready := rfl
@[simp] theorem setPc_dqAt (g : Group) (m : Mask) (pc : W64) : (setPc g m pc).dqAt = g.dqAt := rfl
@[simp] theorem setPc_uqSeen (g : Group) (m : Mask) (pc : W64) : (setPc g m pc).uqSeen = g.uqSeen := rfl
@[simp] theorem setPc_dropVer (g : Group) (m : Mask) (pc : W64) : (setPc g m pc).dropVer = g.dropVer := rfl
@[simp] theorem setPc_hold (g : Group) (m : Mask) (pc : W64) : (setPc g m pc).hold = g.hold := rfl
@[simp] theorem setPc_ownKeys (g : Group) (m : Mask) (pc : W64) : (setPc g m pc).ownKeys = g.ownKeys := rfl
@[simp] theorem setPc_ownPipes (g : Group) (m : Mask) (pc : W64) : (setPc g m pc).ownPipes = g.ownPipes := rfl

/-! `setPcs`. -/

@[simp] theorem setPcs_shadow (g : Group) (m : Mask) (f : Nat → W64) : (setPcs g m f).shadow = g.shadow := rfl
@[simp] theorem setPcs_live (g : Group) (m : Mask) (f : Nat → W64) : (setPcs g m f).live = g.live := rfl
@[simp] theorem setPcs_age (g : Group) (m : Mask) (f : Nat → W64) : (setPcs g m f).age = g.age := rfl
@[simp] theorem setPcs_slotBit (g : Group) (m : Mask) (f : Nat → W64) : (setPcs g m f).slotBit = g.slotBit := rfl
@[simp] theorem setPcs_alloc (g : Group) (m : Mask) (f : Nat → W64) : (setPcs g m f).alloc = g.alloc := rfl
@[simp] theorem setPcs_v (g : Group) (m : Mask) (f : Nat → W64) : (setPcs g m f).v = g.v := rfl
@[simp] theorem setPcs_err (g : Group) (m : Mask) (f : Nat → W64) : (setPcs g m f).err = g.err := rfl
@[simp] theorem setPcs_sb (g : Group) (m : Mask) (f : Nat → W64) : (setPcs g m f).sb = g.sb := rfl
@[simp] theorem setPcs_p (g : Group) (m : Mask) (f : Nat → W64) : (setPcs g m f).p = g.p := rfl
@[simp] theorem setPcs_x (g : Group) (m : Mask) (f : Nat → W64) : (setPcs g m f).x = g.x := rfl
@[simp] theorem setPcs_latch (g : Group) (m : Mask) (f : Nat → W64) : (setPcs g m f).latch = g.latch := rfl
@[simp] theorem setPcs_latchLeft (g : Group) (m : Mask) (f : Nat → W64) : (setPcs g m f).latchLeft = g.latchLeft := rfl
@[simp] theorem setPcs_chain (g : Group) (m : Mask) (f : Nat → W64) : (setPcs g m f).chain = g.chain := rfl
@[simp] theorem setPcs_sr (g : Group) (m : Mask) (f : Nat → W64) : (setPcs g m f).sr = g.sr := rfl
@[simp] theorem setPcs_inTrap (g : Group) (m : Mask) (f : Nat → W64) : (setPcs g m f).inTrap = g.inTrap := rfl
@[simp] theorem setPcs_tcause (g : Group) (m : Mask) (f : Nat → W64) : (setPcs g m f).tcause = g.tcause := rfl
@[simp] theorem setPcs_tpc (g : Group) (m : Mask) (f : Nat → W64) : (setPcs g m f).tpc = g.tpc := rfl
@[simp] theorem setPcs_taddr (g : Group) (m : Mask) (f : Nat → W64) : (setPcs g m f).taddr = g.taddr := rfl
@[simp] theorem setPcs_tlanes (g : Group) (m : Mask) (f : Nat → W64) : (setPcs g m f).tlanes = g.tlanes := rfl
@[simp] theorem setPcs_trec (g : Group) (m : Mask) (f : Nat → W64) : (setPcs g m f).trec = g.trec := rfl
@[simp] theorem setPcs_restart (g : Group) (m : Mask) (f : Nat → W64) : (setPcs g m f).restart = g.restart := rfl
@[simp] theorem setPcs_tpcWritten (g : Group) (m : Mask) (f : Nat → W64) : (setPcs g m f).tpcWritten = g.tpcWritten := rfl
@[simp] theorem setPcs_heldTraps (g : Group) (m : Mask) (f : Nat → W64) : (setPcs g m f).heldTraps = g.heldTraps := rfl
@[simp] theorem setPcs_wait (g : Group) (m : Mask) (f : Nat → W64) : (setPcs g m f).wait = g.wait := rfl
@[simp] theorem setPcs_mark (g : Group) (m : Mask) (f : Nat → W64) : (setPcs g m f).mark = g.mark := rfl
@[simp] theorem setPcs_uqRead (g : Group) (m : Mask) (f : Nat → W64) : (setPcs g m f).uqRead = g.uqRead := rfl
@[simp] theorem setPcs_dq (g : Group) (m : Mask) (f : Nat → W64) : (setPcs g m f).dq = g.dq := rfl
@[simp] theorem setPcs_streams (g : Group) (m : Mask) (f : Nat → W64) : (setPcs g m f).streams = g.streams := rfl
@[simp] theorem setPcs_ops (g : Group) (m : Mask) (f : Nat → W64) : (setPcs g m f).ops = g.ops := rfl
@[simp] theorem setPcs_ord (g : Group) (m : Mask) (f : Nat → W64) : (setPcs g m f).ord = g.ord := rfl
@[simp] theorem setPcs_memq (g : Group) (m : Mask) (f : Nat → W64) : (setPcs g m f).memq = g.memq := rfl
@[simp] theorem setPcs_copyq (g : Group) (m : Mask) (f : Nat → W64) : (setPcs g m f).copyq = g.copyq := rfl
@[simp] theorem setPcs_arm (g : Group) (m : Mask) (f : Nat → W64) : (setPcs g m f).arm = g.arm := rfl
@[simp] theorem setPcs_handle (g : Group) (m : Mask) (f : Nat → W64) : (setPcs g m f).handle = g.handle := rfl
@[simp] theorem setPcs_yieldUntil (g : Group) (m : Mask) (f : Nat → W64) : (setPcs g m f).yieldUntil = g.yieldUntil := rfl
@[simp] theorem setPcs_defWait (g : Group) (m : Mask) (f : Nat → W64) : (setPcs g m f).defWait = g.defWait := rfl
@[simp] theorem setPcs_enq (g : Group) (m : Mask) (f : Nat → W64) : (setPcs g m f).enq = g.enq := rfl
@[simp] theorem setPcs_started (g : Group) (m : Mask) (f : Nat → W64) : (setPcs g m f).started = g.started := rfl
@[simp] theorem setPcs_ready (g : Group) (m : Mask) (f : Nat → W64) : (setPcs g m f).ready = g.ready := rfl
@[simp] theorem setPcs_dqAt (g : Group) (m : Mask) (f : Nat → W64) : (setPcs g m f).dqAt = g.dqAt := rfl
@[simp] theorem setPcs_uqSeen (g : Group) (m : Mask) (f : Nat → W64) : (setPcs g m f).uqSeen = g.uqSeen := rfl
@[simp] theorem setPcs_dropVer (g : Group) (m : Mask) (f : Nat → W64) : (setPcs g m f).dropVer = g.dropVer := rfl
@[simp] theorem setPcs_hold (g : Group) (m : Mask) (f : Nat → W64) : (setPcs g m f).hold = g.hold := rfl
@[simp] theorem setPcs_ownKeys (g : Group) (m : Mask) (f : Nat → W64) : (setPcs g m f).ownKeys = g.ownKeys := rfl
@[simp] theorem setPcs_ownPipes (g : Group) (m : Mask) (f : Nat → W64) : (setPcs g m f).ownPipes = g.ownPipes := rfl

/-! `writeLatch`. -/

@[simp] theorem writeLatch_pc (g : Group) (k : Nat) (m : Mask) (f : Nat → W64) : (writeLatch g k m f).pc = g.pc := rfl
@[simp] theorem writeLatch_shadow (g : Group) (k : Nat) (m : Mask) (f : Nat → W64) : (writeLatch g k m f).shadow = g.shadow := rfl
@[simp] theorem writeLatch_live (g : Group) (k : Nat) (m : Mask) (f : Nat → W64) : (writeLatch g k m f).live = g.live := rfl
@[simp] theorem writeLatch_age (g : Group) (k : Nat) (m : Mask) (f : Nat → W64) : (writeLatch g k m f).age = g.age := rfl
@[simp] theorem writeLatch_slotBit (g : Group) (k : Nat) (m : Mask) (f : Nat → W64) : (writeLatch g k m f).slotBit = g.slotBit := rfl
@[simp] theorem writeLatch_alloc (g : Group) (k : Nat) (m : Mask) (f : Nat → W64) : (writeLatch g k m f).alloc = g.alloc := rfl
@[simp] theorem writeLatch_v (g : Group) (k : Nat) (m : Mask) (f : Nat → W64) : (writeLatch g k m f).v = g.v := rfl
@[simp] theorem writeLatch_err (g : Group) (k : Nat) (m : Mask) (f : Nat → W64) : (writeLatch g k m f).err = g.err := rfl
@[simp] theorem writeLatch_sb (g : Group) (k : Nat) (m : Mask) (f : Nat → W64) : (writeLatch g k m f).sb = g.sb := rfl
@[simp] theorem writeLatch_p (g : Group) (k : Nat) (m : Mask) (f : Nat → W64) : (writeLatch g k m f).p = g.p := rfl
@[simp] theorem writeLatch_x (g : Group) (k : Nat) (m : Mask) (f : Nat → W64) : (writeLatch g k m f).x = g.x := rfl
@[simp] theorem writeLatch_latchLeft (g : Group) (k : Nat) (m : Mask) (f : Nat → W64) : (writeLatch g k m f).latchLeft = g.latchLeft := rfl
@[simp] theorem writeLatch_chain (g : Group) (k : Nat) (m : Mask) (f : Nat → W64) : (writeLatch g k m f).chain = g.chain := rfl
@[simp] theorem writeLatch_sr (g : Group) (k : Nat) (m : Mask) (f : Nat → W64) : (writeLatch g k m f).sr = g.sr := rfl
@[simp] theorem writeLatch_inTrap (g : Group) (k : Nat) (m : Mask) (f : Nat → W64) : (writeLatch g k m f).inTrap = g.inTrap := rfl
@[simp] theorem writeLatch_tcause (g : Group) (k : Nat) (m : Mask) (f : Nat → W64) : (writeLatch g k m f).tcause = g.tcause := rfl
@[simp] theorem writeLatch_tpc (g : Group) (k : Nat) (m : Mask) (f : Nat → W64) : (writeLatch g k m f).tpc = g.tpc := rfl
@[simp] theorem writeLatch_taddr (g : Group) (k : Nat) (m : Mask) (f : Nat → W64) : (writeLatch g k m f).taddr = g.taddr := rfl
@[simp] theorem writeLatch_tlanes (g : Group) (k : Nat) (m : Mask) (f : Nat → W64) : (writeLatch g k m f).tlanes = g.tlanes := rfl
@[simp] theorem writeLatch_trec (g : Group) (k : Nat) (m : Mask) (f : Nat → W64) : (writeLatch g k m f).trec = g.trec := rfl
@[simp] theorem writeLatch_restart (g : Group) (k : Nat) (m : Mask) (f : Nat → W64) : (writeLatch g k m f).restart = g.restart := rfl
@[simp] theorem writeLatch_tpcWritten (g : Group) (k : Nat) (m : Mask) (f : Nat → W64) : (writeLatch g k m f).tpcWritten = g.tpcWritten := rfl
@[simp] theorem writeLatch_heldTraps (g : Group) (k : Nat) (m : Mask) (f : Nat → W64) : (writeLatch g k m f).heldTraps = g.heldTraps := rfl
@[simp] theorem writeLatch_wait (g : Group) (k : Nat) (m : Mask) (f : Nat → W64) : (writeLatch g k m f).wait = g.wait := rfl
@[simp] theorem writeLatch_mark (g : Group) (k : Nat) (m : Mask) (f : Nat → W64) : (writeLatch g k m f).mark = g.mark := rfl
@[simp] theorem writeLatch_uqRead (g : Group) (k : Nat) (m : Mask) (f : Nat → W64) : (writeLatch g k m f).uqRead = g.uqRead := rfl
@[simp] theorem writeLatch_dq (g : Group) (k : Nat) (m : Mask) (f : Nat → W64) : (writeLatch g k m f).dq = g.dq := rfl
@[simp] theorem writeLatch_streams (g : Group) (k : Nat) (m : Mask) (f : Nat → W64) : (writeLatch g k m f).streams = g.streams := rfl
@[simp] theorem writeLatch_ops (g : Group) (k : Nat) (m : Mask) (f : Nat → W64) : (writeLatch g k m f).ops = g.ops := rfl
@[simp] theorem writeLatch_ord (g : Group) (k : Nat) (m : Mask) (f : Nat → W64) : (writeLatch g k m f).ord = g.ord := rfl
@[simp] theorem writeLatch_memq (g : Group) (k : Nat) (m : Mask) (f : Nat → W64) : (writeLatch g k m f).memq = g.memq := rfl
@[simp] theorem writeLatch_copyq (g : Group) (k : Nat) (m : Mask) (f : Nat → W64) : (writeLatch g k m f).copyq = g.copyq := rfl
@[simp] theorem writeLatch_arm (g : Group) (k : Nat) (m : Mask) (f : Nat → W64) : (writeLatch g k m f).arm = g.arm := rfl
@[simp] theorem writeLatch_handle (g : Group) (k : Nat) (m : Mask) (f : Nat → W64) : (writeLatch g k m f).handle = g.handle := rfl
@[simp] theorem writeLatch_yieldUntil (g : Group) (k : Nat) (m : Mask) (f : Nat → W64) : (writeLatch g k m f).yieldUntil = g.yieldUntil := rfl
@[simp] theorem writeLatch_defWait (g : Group) (k : Nat) (m : Mask) (f : Nat → W64) : (writeLatch g k m f).defWait = g.defWait := rfl
@[simp] theorem writeLatch_enq (g : Group) (k : Nat) (m : Mask) (f : Nat → W64) : (writeLatch g k m f).enq = g.enq := rfl
@[simp] theorem writeLatch_started (g : Group) (k : Nat) (m : Mask) (f : Nat → W64) : (writeLatch g k m f).started = g.started := rfl
@[simp] theorem writeLatch_ready (g : Group) (k : Nat) (m : Mask) (f : Nat → W64) : (writeLatch g k m f).ready = g.ready := rfl
@[simp] theorem writeLatch_dqAt (g : Group) (k : Nat) (m : Mask) (f : Nat → W64) : (writeLatch g k m f).dqAt = g.dqAt := rfl
@[simp] theorem writeLatch_uqSeen (g : Group) (k : Nat) (m : Mask) (f : Nat → W64) : (writeLatch g k m f).uqSeen = g.uqSeen := rfl
@[simp] theorem writeLatch_dropVer (g : Group) (k : Nat) (m : Mask) (f : Nat → W64) : (writeLatch g k m f).dropVer = g.dropVer := rfl
@[simp] theorem writeLatch_hold (g : Group) (k : Nat) (m : Mask) (f : Nat → W64) : (writeLatch g k m f).hold = g.hold := rfl
@[simp] theorem writeLatch_ownKeys (g : Group) (k : Nat) (m : Mask) (f : Nat → W64) : (writeLatch g k m f).ownKeys = g.ownKeys := rfl
@[simp] theorem writeLatch_ownPipes (g : Group) (k : Nat) (m : Mask) (f : Nat → W64) : (writeLatch g k m f).ownPipes = g.ownPipes := rfl

end Sys2Proof.Machine
end

