-- ==== Sys2Proof/Tests/Slice0.lean ====
section
/-! SUPPORT. Tests: words written out from the spec, ill-formed terms, the spec's worked values, and for every obligation a concrete
state and operands that meet its hypotheses. -/

namespace Sys2Proof.Tests
open Sys2Proof Sys2Proof.Machine Sys2Proof.Safety
set_option Elab.async false

/-! A small machine. -/

def pcs : FMap W64 := (List.range 32).map (fun l => (l, 0x100000))
def laneGroup : Group := { live := 0xFFFFFFFF, alloc := 128, pc := pcs, handle := some 7 }
def leadGroup : Group := { live := 1, alloc := 64, pc := [(0, 0x100000)], started := some 0 }
def smallTeam : Team :=
  { launch := { extx := 4, exty := 3, extz := 2, scrkb := 64, tagn := 16, ctx := 1, lid := 5, save := 0x40000 }, trapBase := 0x8000
    groups := [(0, laneGroup), (32, leadGroup)], uq := [(0, .uniform 1)], uqWrite := 2 }
/-- A resident team of one group on core 0, whose lanes and lead stand at 0x100000, with every feature on. -/
def small : State := { teams := [(0, smallTeam)], featAccept := 0xFF, cur := { id := ⟨0, 0⟩, pc := 0x100000 } }
def inLead (s : State) : State := { s with cur := { s.cur with id := ⟨0, 32⟩ } }
/-- Every lane of the group has x in register n. -/
def setR (s : State) (g n : Nat) (x : W32) : State :=
  updGroup s ⟨0, g⟩ (fun gr => { gr with v := (List.range 32).foldl (fun v l => put v (32 * n + l) x) gr.v })
/-- Registers 4 and 5 of the group hold the 64-bit value x. -/
def addr (s : State) (x : W64) : State := setR (setR s 0 4 (lo x)) 0 5 (hi x)
def onTeam (s : State) (f : Team → Team) : State := updTeam s 0 f
def onGroup (s : State) (f : Group → Group) : State := updGroup s ⟨0, 0⟩ f
/-- Core 0 translates the first 64 KiB of context 1 with a leaf. -/
def mapped (s : State) (leaf : W64) : State :=
  updCore s 0 (fun c => { c with tlb := [{ ctx := 1, size := 16, vpn := 0, leaf }] })
/-- A readable, writable and executable page. -/
def page : W64 := 0xC0000000000103C0

/-- The fields of an instruction's word. -/
def wOf (i : Instr) : FWord := ((encF i).map (·.2.2)).getD {}
/-- Some lane executes the word in s, and the rest of a statement's hypotheses hold of what the issue sees. -/
def holds (i : Instr) (s : State) (p : Ctx → Bool) : Bool :=
  match prologue i (wOf i) s with
  | .ok c => c.act != 0 && p c
  | .error _ => false
/-- The word issues, whether or not a lane executes it. -/
def issues (i : Instr) (s : State) (p : Ctx → Bool) : Bool :=
  match prologue i (wOf i) s with
  | .ok c => p c
  | .error _ => false
def runs (i : Instr) (s : State) : Bool := holds i s (fun _ => true)
/-- The step goes on in a state with some property. -/
def goes (i : Instr) (s : State) (p : State → Bool) : Bool :=
  match exec i s with
  | .next u => p u
  | _ => false
def isOk : Except Stop Unit → Bool
  | .ok _ => true
  | .error _ => false
def waits : Except Stop Unit → Bool
  | .error .wait => true
  | _ => false

/-- What `holds` decides is what the statements assume of a word. -/
theorem executes_of_holds (i : Instr) (s : State) (p : Ctx → Bool) (h : holds i s p = true) : ∃ c, Executes i (wOf i) s c ∧ p c = true := by
  simp only [holds] at h
  split at h
  · rename_i c hc
    simp only [Bool.and_eq_true, bne_iff_ne] at h
    exact ⟨c, ⟨hc, h.1⟩, h.2⟩
  · simp at h

theorem issues_of_issues (i : Instr) (s : State) (p : Ctx → Bool) (h : issues i s p = true) : ∃ c, Issues i (wOf i) s c ∧ p c = true := by
  simp only [issues] at h
  split at h
  · exact ⟨_, ‹_›, h⟩
  · simp at h

/-! Words that the spec writes out field by field, and what they stand for: the tables of the sections' examples, and two words put
together from the encoding tables of R122. Bits of a row are `decodeTableWord`'s: the word as a number. -/

/-- The cause and the detail with which the decoder refuses a word. -/
def refusal (lead : Bool) (slot : Nat) (w : W64) : Nat × Nat :=
  match decode lead slot w with
  | .ok _ => (0, 0)
  | .error e => (e.cause, e.detail)

theorem test_decode_integer_float_special :
    decodeTableWord 64 0x002C240100D15500 = some (.iadd { pn := true, pr := 3, dst := 9, a := .v 4, b := .sel (.v 6), hsrc := 1, hlat := 1 } .wrap) ∧
    decodeTableWord 64 0x0880280100A06008 = some (.ffma { dst := 10, a := .v 4, b := .sel (.v 5), c := .v 6 } false false .rz false) ∧
    decodeTableWord 64 0x08400C004FE00000 = some (.fadd { dst := 3, a := .v 1, b := .imm 0xFE00 } .team false) ∧
    decodeTableWord 64 0x1A84180100B15041 = some (.sclxX8 { pr := 1, dst := 6, a := .v 4, b := .sel (.v 5) } true .team) := by decide +kernel

theorem test_decode_memory_control :
    decodeTableWord 64 0x208000010140B004 = some (.st { a := .v 4, b := .sel (.v 10), c := .v 11 } .w 1 false) ∧
    decodeTableWord 64 0x20003401A2B15003 = some (.lds { dst := 13, a := .v 6 } .w true) ∧
    decodeTableWord 64 0x2940004540000003 = some (.bar { b := .imm 0 } 3 false) ∧
    decodeTableWord 64 0x2A081C0162B15003 = some (.vote { pr := 2, dst := 7, a := .v 5 } .mask false) ∧
    decodeTableWord 64 0x2D881000E2B15020 = some (.grow { pr := 2, dst := 4, a := .v 3 }) := by decide +kernel

theorem test_decode_engines :
    decodeTableWord 64 0x311C000782214004 = some (.sendr { pr := 7, a := .v 30, b := .sel (.v 17), c := .v 20 } false 1) ∧
    decodeTableWord 64 0x3118004542214025 = some (.sendn { pr := 6, b := .sel (.v 17), c := .v 20 } .e 1) ∧
    decodeTableWord 64 0x30980C0400515002 = some (.rarm { pr := 6, dst := 3, a := .v 16, b := .sel (.v 2) } false true) ∧
    decodeTableWord 64 0x31840006E2B15000 = some (.cpy { pr := 1, a := .v 27 }) ∧
    decodeTableWord 64 0x324070454000F020 = some (.twaitall { dst := 28, b := .imm 15 }) ∧
    decodeTableWord 64 0x3280000302F15000 = some (.mloadb { a := .v 12, b := .sel (.v 23) }) ∧
    decodeTableWord 64 0x330000160BC5F000 = some (.mstore { a := .v 88, b := .sel (.v 94), c := .v 95 } 0) ∧
    decodeTableWord 64 0x35040001A2B15000 = some (.rmdef { pr := 1, a := .v 6 }) ∧
    decodeTableWord 64 0x34000005A2B15049 = some (.rmoN { a := .v 22 } 9 1) ∧
    decodeTableWord 64 0x360C000583015004 = some (.mcast { pr := 3, a := .v 22, b := .sel (.v 24), c := .v 21 } false 1) ∧
    decodeTableWord 64 0x3600004562B15024 = some (.coll {} 1) := by decide +kernel

theorem test_decode_system_and_forms :
    (decode true 0 0x38C0000180004020).toOption = some (.qpusha { a := .v 6, b := .imm 4 }) ∧
    (decode true 0 0x38C00002C0000040).toOption = some (.dqpush { a := .v 11, b := .imm 0 } false) ∧
    decodeTableWord 64 0x3B800001A2B15000 = some (.tlbinv { a := .v 6 } false) ∧
    decodeTableWord 64 0x3B802001A2B15020 = some (.pgacc { dst := 8, a := .v 6 } false) ∧
    decodeTableWord 64 0x4800806800015040 = some (.pFormWord { op := .fadd .team, pr := 0, dst := 8, src := .v 13 } { op := .iadd, pr := 0, dst := 10, src := .q }) ∧
    (decode false 1 0xE000044004440000).toOption = some (.dFormSlot { index := 17, off := 0 } (some { index := 17, off := 4 }) none) ∧
    refusal false 2 0xE000044004440000 = (1, 9) ∧ refusal false 0 0x8000000000000000 = (1, 1) ∧ refusal true 0 0x4800806800015040 = (1, 11) := by decide +kernel

theorem wit_EncodedWordsDecode :
    wf false (.iadd { pn := true, pr := 3, dst := 9, a := .v 4, b := .sel (.v 6), hsrc := 1, hlat := 1 } .wrap) = true ∧
    encode (.iadd { pn := true, pr := 3, dst := 9, a := .v 4, b := .sel (.v 6), hsrc := 1, hlat := 1 } .wrap) = some 0x002C240100D15500 := by
  decide

/-- An ill-formed term for each check of `wf`, which the check refuses. -/
theorem test_wf_refuses :
    roundingOk (.fadd {} .rs false) = false ∧ wf false (.fadd {} .rs false) = false ∧
    cvtxOk (.cvtx {} .e2m3 6) = false ∧ wf false (.cvtx {} .e2m3 6) = false ∧
    variantOk (.mov {} false none) true = false ∧ wf false (.bra {}) = false ∧ wf false (.atom { b := .imm 1 } .cas 0 false) = false ∧
    sectionOk false (.lexit {}) = false ∧ wf false (.lexit {}) = false ∧ sectionOk true (.iadd {} .wrap) = true ∧ wf true (.vote {} .every false) = false ∧
    fieldsOk false (.iadd64 { dst := 9 } .wrap) = false ∧ wf false (.iadd64 { dst := 9 } .wrap) = false ∧
    fieldsOk false (.iadd { b := .imm 1, c := .v 3 } .wrap) = false ∧ wf true (.iadd { a := .v 64 } .wrap) = false ∧
    halvesOk { op := .iadd, pr := 0, dst := 3, src := .v 1 } { op := .iadd, pr := 0, dst := 3, src := .v 2 } = false ∧
    popOk (.fadd .rs) = false ∧
    wf false (.dFormSlot { index := 0, off := 0 } none (some { index := 0, off := 0 })) = false ∧
    wf false (.iadd { dst := 9, a := .v 4, b := .sel (.v 6) } .wrap) = true := by decide +kernel

/-- The next step runs the word that `withFetchWord` places: `IADD` of V4 and V6 into V9, all zero, at the next PC. -/
theorem test_step_runs_the_word :
    (match step (State.reset.withFetchWord 64 0x0000240100D15500) with
    | .next u => (group u ⟨0, 0⟩).any (fun g => pcOf g 0 == 0x100008 && readV g 9 3 == 0)
    | _ => false) = true := by decide +kernel

/-! Worked values of the spec. -/

/-- V[n] of lane l after the word. -/
def after (i : Instr) (s : State) (n l : Nat) : Option W32 :=
  match exec i s with
  | .next u => (group u ⟨0, 0⟩).map (fun g => readV g n l)
  | _ => none
def flagsAfter (i : Instr) (s : State) : Option W64 :=
  match exec i s with
  | .next u => (team u 0).map allFlags
  | _ => none
/-- Lane l holds the l-th of some values in register n. -/
def lanesHold (s : State) (n : Nat) (xs : List W32) : State :=
  onGroup s (fun g => { g with v := (xs.zip (List.range 32)).foldl (fun v x => put v (32 * n + x.2) x.1) g.v })
/-- P1 holds in lanes 0 to 3. -/
def fourLanes (s : State) : State := onGroup s (fun g => { g with p := [(1, 0xF)] })

/-- `fadd v3, v1, 0xfe00` adds 1.0. -/
theorem test_fadd_immediate : after (.fadd { dst := 3, a := .v 1, b := .imm 0xFE00 } .team false) (setR small 0 1 0x40000000) 3 9 = some 0x40400000 := by
  decide +kernel
/-- R199's table: two values 1.0625 narrowed to E4M3 with `.rs` in a lane whose SRSTATE is 1. -/
theorem test_stochastic_rounding :
    let s := onGroup (setR (setR small 0 4 0x3F880000) 0 5 0x3F880000) (fun g => { g with sr := [(0, 1)] })
    goes (.cvt8 { dst := 6, a := .v 4, b := .sel (.v 5) } (.fromF32 false .rs false)) s (fun u => (group u ⟨0, 0⟩).any (fun g =>
      (readV g 6 0).extractLsb' 0 16 == 0x3938 && get 0 g.sr 0 == 0x04080601)) = true := by decide +kernel
/-- R201: 460 gives 448 without SAT, and 470 gives 448 with SAT and NX. -/
theorem test_conversion_saturates :
    let s := fourLanes (lanesHold small 4 [0x43E60000, 0x43EB0000])
    let i (p : BitVec 3) (n : Bool) : Instr := .cvt8 { pr := p, pn := n, dst := 6, a := .v 4, b := .sel .zero } (.fromF32 false .rne false)
    (after (i 0 false) s 6 0).map (·.extractLsb' 0 8) = some 0x7E ∧ (after (i 0 false) s 6 1).map (·.extractLsb' 0 8) = some 0x7E ∧
    flagsAfter (i 0 false) (setR small 0 4 0x43E60000) = some 0x20 ∧ flagsAfter (i 0 false) (setR small 0 4 0x43EB0000) = some 0x21 := by decide +kernel
/-- The worked MXFP4 block: scale, scaled values, codes and the packed word. -/
theorem test_mxfp4_block :
    let s := fourLanes (lanesHold small 4 [0x3F800000, 0xC0600000, 0x41200000, 0x3E800000])
    let v6 := lanesHold s 6 [0x3F000000, 0xBFE00000, 0x40A00000, 0x3E000000]
    let v7 := lanesHold s 7 [0x1, 0xC, 0x6, 0x0]
    (List.range 4).map (after (.sclxBlk { pr := 1, dst := 5, a := .v 4 } .e2m1) s 5) = List.replicate 4 (some 0x80) ∧
    (List.range 4).map (after (.sclxX8 { pr := 1, dst := 6, a := .v 4, b := .sel (.v 5) } true .team) (setR s 0 5 0x80) 6) =
      [some 0x3F000000, some 0xBFE00000, some 0x40A00000, some 0x3E000000] ∧
    (List.range 4).map (after (.cvt4E2m1 { pr := 1, dst := 7, a := .v 6 } .rne) v6 7) = [some 0x1, some 0xC, some 0x6, some 0x0] ∧
    (List.range 4).map (after (.cvt4Pack { pr := 1, dst := 8, a := .v 7 }) v7 8) = [some 0x6C1, some 0, some 0, some 0] := by decide +kernel
/-- R512's address: its home slice. -/
theorem test_home_slice : homeSlice 0x001234567A00 = 5 := by decide +kernel
/-- The worked remote opcode `satinc`: bin 7 goes from 250 to 251, and at 255 it stays and SAT is set. -/
theorem test_remote_opcode :
    let run (m : W32) := runRequest 0x5DEF092101400001 [0x01000000, 0x2A000001, 0x71280001, 0x10200000, 0xB8000000] [m] []
    ((run 250).m, (run 250).flags) = ([(0, 251)], 0) ∧ ((run 255).m, (run 255).flags) = ([(0, 255)], 1) := by decide +kernel


/-! What the statements assume, met: the words that execute or issue in a small state. -/

def words0 : List Instr :=
  [.iadd {} .wrap, .isub {} .wrap, .iaddc {} 0 false, .isubb {} 0 false, .ineg {} false,
   .iabs {} false, .imul {}, .imulh {} false, .imad {}, .imadw {} false,
   .iadd64 {} .wrap, .isub64 {} .wrap, .shf64 {} .l, .imin {} false, .imax {} false,
   .iand {} false, .ior {} false, .ixor {} false, .inot {} false, .ilop3 {} 0 0,
   .shl {}, .shr {}, .sar {}, .rot {}, .bfe {} false,
   .bfi {}, .popc {}, .clz {}, .brev {}, .icmp {} .eq false false,
   .sel {} 0 false false, .mov {} false none, .movi { b := .imm 0 } false, .movhi { b := .imm 0 }, .lea {} 0 false,
   .pand {} false, .por {} false, .pxor {} false, .pnot {}, .pset {} false]
def words1 : List Instr :=
  [.fadd {} .team false, .fsub {} .team false, .fmul {} .team false, .fdivs {} .team false, .dadd {} .team false,
   .dsub {} .team false, .dmul {} .team false, .ffma {} false false .team false, .dfma {} false false .team false, .fmin {} .team,
   .fmax {} .team, .dmin {} .team, .dmax {} .team, .fcmp {} .eq .team false, .dcmp {} .eq .team false,
   .frnd {} .team, .drnd {} .team, .fclass {} .fp32 .team, .hadd2 {} .team false, .hmul2 {} .team false,
   .badd2 {} .team false, .bmul2 {} .team false, .hfma2 {} .team false, .bfma2 {} .team false, .dot4i {} false false false .team,
   .frcp {}, .frsq {}, .fsqrt {}, .fexp2 {}, .flog2 {},
   .fsin {}, .fcos {}, .cvt {} .f32F64 .team, .cvt8 {} (.toF32 false 0), .cvt4E2m1 {} .team,
   .cvt4Pack {}, .cvt4Fp32 {} 0, .cvtx {} .int4 0, .sclxFp32 {} .team, .sclxFp64 {} .team]
def words2 : List Instr :=
  [.sclxX8 {} false .team, .sclxBlk {} .e2m1, .ld {} .w .normal false, .lds {} .w false, .st {} .w 0 false,
   .sts {} .w 0 false, .lde {} .e .normal false, .ste {} .e 0 false, .ldx {} 0 .normal false, .stx {} 0 0 false,
   .atom {} .add 0 false, .atomx {} .add 0 false, .acq {}, .rel {}, .sjoin {},
   .pref {} false, .cflush {}, .cinv {}, .bra { b := .imm 0 }, .brx {},
   .call {}, .ret {}, .exit {}, .nop {}, .yield {},
   .bkpt {}, .trap { b := .imm 0 }, .rtt {}, .bar {} 0 false, .pbar {} 0 .sync,
   .vote {} .every false, .lead {}, .shfl {} .from false .s32, .xset {} 0, .xadd {} 0,
   .xget {} 0 .index, .dqtake {} none, .vgrow {}, .vshrink {}, .krd {}]
def words3 : List Instr :=
  [.kwr {}, .flagarm {} false, .spawn {}, .grow {}, .launch {},
   .cancel {} .l, .cntrd {} .l, .capmk {} false false, .caprv {}, .rarm {} false false,
   .rdisarm {}, .rpend {}, .sendr {} false 0, .sendn {} .n 0, .cpy {},
   .cpyg {}, .cpym {}, .cpypf {}, .twaitany {}, .twaitall {},
   .tffr {}, .tclr {}, .mloadb {}, .mma {} false, .mzero {},
   .mstore {} 0, .mread {} false, .mwrite {} false, .mres {}, .mrel {} false,
   .mstat {}, .rmoN {} 0 0, .rmoR {} 0 0, .rmdef {}, .rmdrop {},
   .rmqry {}, .sweep {}, .mcast {} false 0, .coll {} 0, .fgrp {} .info]
def words4 : List Instr :=
  [.tlbinv {} false, .pgacc {} false]
def leadWords : List Instr :=
  [.sld {} false false, .slds {} false false, .sst {} false 0 false, .qpush {} false, .qpusha {},
   .dqpush {} false, .brc {} .jump, .scmp {} .eq false false .set, .lwait {} none, .ltime {} none,
   .dictld {}, .lexit {}]
theorem test_words0_issue : words0.all (fun i => runs i small) = true := by decide +kernel
theorem test_words1_issue : words1.all (fun i => runs i small) = true := by decide +kernel
theorem test_words2_issue : words2.all (fun i => runs i small) = true := by decide +kernel
theorem test_words3_issue : words3.all (fun i => runs i small) = true := by decide +kernel
theorem test_words4_issue : words4.all (fun i => runs i small) = true := by decide +kernel
theorem test_leadWords_issue : leadWords.all (fun i => runs i (inLead small)) = true := by decide +kernel
/-! Concrete states and operands that meet the hypotheses of each obligation, a witness for each of its clauses. By `executes_of_holds`,
each `holds i s p` gives a context in which the word executes and `p` is true. -/

/-- 32 groups of 128 registers: the whole register file of a core. -/
def wide : State := onTeam small (fun t => { t with launch := { t.launch with grpm1 := 31 }
                                                    groups := (List.range 32).map (fun g => (g, laneGroup)) })
/-- Another team on core 0 with 3,968 registers. -/
def crowded : State := { small with teams := put small.teams 1 { smallTeam with groups := (List.range 16).map (fun g => (g, { laneGroup with alloc := 248 })) } }
def inTrap (s : State) : State := onGroup s (fun g => { g with inTrap := true })

theorem wit_StepRunsTheDecodedWord : ([
  (let s := State.reset.withFetchWord 64 0x0000240100D15500
   running s && (team s 0).isSome && (group s ⟨0, 0⟩).any (fun g => chainAt g 0x100000 0xFFFFFFFF && issueLanes g 0x100000 0xFFFFFFFF != 0) &&
     (match fetch s 0 0 ⟨0, 0⟩ 0x100000 with | .word w => w == 0x0000240100D15500 && (decode false 0 w).toOption.isSome | _ => false)),
  (let s := State.reset.withFetchWord 64 0x8000000000000000
   match fetch s 0 0 ⟨0, 0⟩ 0x100000 with | .word w => (decode false 0 w).toOption.isNone | _ => false),
  (let s := onTeam { small with agenda := [.issueAt ⟨0, 32⟩ implicitPc 1] } (fun t => { t with groups := upd t.groups 32 (fun g => { g with pc := [(0, implicitPc)] }) })
   running s && (team s 0).isSome && (group s ⟨0, 32⟩).any (fun g => g.chain.isNone)),
  running { State.reset with agenda := [.event (.ceilingWindow)] } && !isWord .ceilingWindow,
  look (Machine.core (cacheWord small 0 1 0x100000 5) 0).icache (icKey 1 0x100000) == some 5,
  (let s := mapped small page
   (look (Machine.core s 0).icache (icKey 1 0x8000)).isNone && (match translate s 0 1 .fetch (.src ⟨0, 0⟩) (wordOf 0x8000) with
    | .ok pa _ => (List.range 8).all (fun k => tierOf (pa + k) != some 3) && (look s.bad (pa / 8)).isNone
    | _ => false))] : List Bool).all id = true := by decide +kernel

/-- Entry 17 of the team's dictionary holds a word, which issues as a D-form slot's in the context that p accepts. -/
def inDict (i : Instr) (p : Ctx → Bool) : Bool :=
  let s := onTeam small (fun t => { t with dict := [(17, (encode i).getD 0)] })
  (decodeEntry 0 (get 0x8000000000000000 ((team s 0).getD {}).dict 17)).toOption == some i && smallTeam.dictBusy.isNone && issues i s p &&
    goes (.dFormSlot { index := 17, off := 0 } none none) s (fun u => (group u ⟨0, 0⟩).any (fun g => pcOf g 0 == 0x100008))

theorem wit_WordsAndForms : ([
  -- EncodedWordsDecode
  wf false (.iadd { dst := 9, a := .v 4, b := .sel (.v 6) } .wrap) && (encode (.iadd { dst := 9, a := .v 4, b := .sel (.v 6) } .wrap)).isSome,
  wf true (.qpusha { a := .v 6, b := .imm 4 }) && (encode (.qpusha { a := .v 6, b := .imm 4 })).isSome,
  -- OtherFormsAndIdleWords: the hypotheses of a word in the plain case, a word no lane executes, both halves of a P-form word
  (let i : Instr := .iadd { dst := 9, a := .v 4, b := .sel (.v 6) } .wrap
   let w := wOf i
   smallTeam.status == .resident && laneGroup.chain.isNone && laneGroup.defWait.isNone && small.invals.isEmpty && small.fab.away.isEmpty &&
     usesLatch w == false && (featureOf i).isNone && (xdstOf i).1.isNone && lanesAt laneGroup 0x100000 &&& small.cur.lanes != 0 &&
     (lanesOf 0xFFFFFFFF).all (fun l => (readRegs laneGroup (shape i) w l ++ dstRegs laneGroup (shape i) w none false l).all
       (fun n => n < laneGroup.alloc && regReady laneGroup n l && (look laneGroup.err (32 * n + l)).isNone))),
  issues (.st { pr := 1 } .w 0 false) small (fun c => c.act == 0 && c.gr.enq.isEmpty),
  (let i : Instr := .rmoN { pr := 1, a := .v 4, b := .sel (.v 10) } 0 1
   issues i small (fun c => c.act == 0 && (headerOf c.t 0).any (fun h => isOk (rmoDecode c (wOf i) (rmoShape h.dw0 false (wOf i)))))),
  inDict (.iadd { dst := 9, a := .v 4, b := .sel (.v 6) } .sat) (fun c => c.act != 0), inDict (.popc { dst := 9, a := .v 4 }) (fun c => c.act != 0),
  inDict (.shl { pr := 1, dst := 9, a := .v 4, b := .sel (.v 6) }) (fun c => c.act == 0),
  (match pPrologue { op := .fadd .team, pr := 0, dst := 8, src := .v 13 } { op := .iadd, pr := 0, dst := 10, src := .q } small with
    | .ok c => c.act != 0
    | .error _ => false),
  issueLanes laneGroup small.cur.pc small.cur.lanes != 0,
  (decodeEntry 4 (get 0x8000000000000000 [(17, (0x0000240100D15500 : W64))] 17)).toOption.isSome,
  (decodeEntry 4 (get 0x8000000000000000 ([] : FMap W64) 17)).toOption.isNone] : List Bool).all id = true := by decide +kernel

theorem wit_RoundingTakesANeighbour :
    (0 < fp32.fbits ∧ 0 < e2m1.fbits) ∧ ({ neg := false, m := 3, e := -1, sticky := false } : Ex).m ≠ 0 := by decide +kernel

theorem wit_RegisterWords : ([
  holds (.xset { a := .v 6, b := .imm 4 } 1) (setR small 0 6 124) (fun c => (lanesOf c.act).all (fun l =>
    let x := laneIn (.xset { a := .v 6, b := .imm 4 } 1) { a := .v 6, b := .imm 4 } (setR small 0 6 124) c l
    (lo x.a).toNat + (lo x.b).toNat == c.gr.alloc)),
  holds (.xset { a := .v 6, b := .imm 0 } 1) small (fun c => (lo (laneIn (.xset { a := .v 6, b := .imm 0 } 1) { a := .v 6, b := .imm 0 } small c 0).b).toNat == 0),
  holds (.xset { a := .v 6, b := .imm 4 } 1) (setR small 0 6 125) (fun c => c.gr.alloc == 128),
  runs (.xadd {} 1) small, runs (.xget {} 1 .limit) small,
  holds (.vgrow { b := .imm 128 }) small (fun c => regCount (.vgrow { b := .imm 128 }) { b := .imm 128 } small c == c.gr.alloc),
  holds (.vgrow { b := .imm 256 }) small (fun c => teamRegs c.t - c.gr.alloc + 256 ≤ 4096 && regsUsed small c.t.core + (256 - c.gr.alloc) ≤ 4096),
  holds (.vgrow { b := .imm 256 }) crowded (fun c => teamRegs c.t - c.gr.alloc + 256 ≤ 4096 && 4096 < regsUsed crowded c.t.core + (256 - c.gr.alloc)),
  holds (.vgrow { b := .imm 257 }) small (fun c => c.gr.alloc < 256),
  holds (.vgrow { b := .imm 136 }) wide (fun c => 4096 < teamRegs c.t - c.gr.alloc + 136),
  holds (.vshrink { b := .imm 16 }) small (fun c => 16 < c.gr.alloc)] : List Bool).all id = true := by decide +kernel

theorem wit_BranchesAndCalls : ([
  runs (.bra { b := .imm 5 }) small, runs (.call { b := .imm 0x20000 }) small,
  holds (.brx { a := .v 4 }) (addr small 0x200000) (fun c => (lanesOf c.act).all (fun l =>
    (laneIn (.brx { a := .v 4 }) { a := .v 4 } (addr small 0x200000) c l).a == 0x200000)),
  holds (.ret { a := .v 4 }) (addr small 4) (fun c => (laneIn (.ret { a := .v 4 }) { a := .v 4 } (addr small 4) c 0).a.getLsbD 2),
  holds (.call { a := .v 4 }) (addr small 0x0200000000000000) (fun c =>
    (laneIn (.call { a := .v 4 }) { a := .v 4 } (addr small 0x0200000000000000) c 0).a.toNat == 2 ^ 57),
  -- ImmediateBranchTargets
  runs (.brc { b := .imm 0x1FFFF } .call) (inLead small)] : List Bool).all id = true := by decide +kernel

theorem wit_ReturnAndTrapWords : ([
  runs (.exit {}) small, runs (.lexit {}) (inLead small), runs (.nop {}) small, runs (.yield {}) small, runs (.bkpt {}) small, runs (.trap { b := .imm 0x105 }) small,
  holds (.rtt {}) small (fun c => c.gr.inTrap == false), holds (.rtt {}) (inTrap small) (fun c => c.gr.inTrap),
  (let g : Group := { laneGroup with inTrap := true, live := 3, wait := [(0, .rtt), (1, .rtt)], mark := [(1, .bar 3 false 0x100008)], tlanes := 1 }
   g.inTrap && g.live != 0 && (lanesOf g.live).all (fun l => look g.wait l == some .rtt) && g.heldTraps.isEmpty)] : List Bool).all id = true := by decide +kernel

/-- The word takes a precise fault with this cause, detail, lanes and address. -/
def traps (i : Instr) (s : State) (cause detail : Nat) (lanes : Mask) (a : W64) : Bool :=
  goes i s (fun u => u == enterTrap s s.cur.id cause detail lanes s.cur.pc a)

theorem wit_Traps : ([
  -- PreciseFaultsEnterTheRoutine
  traps (.trap { b := .imm 0x105 }) small 0x0A 5 0xFFFFFFFF 0x105 && smallTeam.trapBase != 0 && !laneGroup.inTrap && laneGroup.chain.isNone && laneGroup.enq.isEmpty,
  -- TrapsWithoutARoutineEndTheTeam
  (let s := { onTeam small (fun t => { t with trapBase := 0 }) with lcnt := [(lcntKey 1 5, { count := 1, state := 1 })] }
   traps (.trap { b := .imm 0x105 }) s 0x0A 5 0xFFFFFFFF 0x105 && (look s.lcnt (lcntKey 1 5)).any (fun n => n.seq == smallTeam.run && n.state == 1) &&
     !(host s (hostOf 1)).fqEnable),
  (let s := inTrap { small with lcnt := [(lcntKey 1 5, { count := 1, state := 1 })] }
   traps (.trap { b := .imm 0x105 }) s 0x0A 5 0xFFFFFFFF 0x105)] : List Bool).all id = true := by decide +kernel

/-- Errors of the parts: one unit, a compressed block (R514), a corrected bit (R370). -/
theorem test_upset : (upset (.memory 5 false) small).bad = [(5, true)] ∧
    ((upset (.memory 70 true) small).bad.map (·.1)).take 2 = [64, 65] ∧ (arrayOf (upset (.accBit 0) small) 0).eccfix = 1 := by
  decide +kernel

/-- An entry of the uniform queue or of a decision queue can be taken two cycles after its push (R265, R268). -/
theorem test_push_to_pop :
    (let t : Team := { smallTeam with uqAt := [(0, 10)] }
     let g : Group := { laneGroup with dq := [7, 8], dqAt := [3, 10, 11] }
     [queuesReady t g 11 (.iadd { dst := 1, a := .q, b := .imm 1 } .wrap), queuesReady t g 12 (.iadd { dst := 1, a := .q, b := .imm 1 } .wrap),
      queuesReady t g 11 (.dqtake { dst := 1 } none), queuesReady t g 12 (.dqtake { dst := 1 } none)]) = [false, true, false, true] := by
  decide +kernel
def bars (s : State) (n : Nat) (b : Bar) : State := onTeam s (fun t => { t with bars := put t.bars n b })
def armed (s : State) : State := onTeam s (fun t => { t with flags := flagARMED ||| flagSAT })
/-- All lanes of the group wait. -/
def waiting (s : State) (w : LaneWait) : State := onGroup s (fun g => { g with wait := (List.range 32).map (fun l => (l, w)) })

theorem wit_Barriers : ([
  holds (.bar { b := .imm 0 } 3 false) small (fun c => barCount (.bar { b := .imm 0 } 3 false) { b := .imm 0 } small c == 32 && (barTarget c.t 3).isNone),
  holds (.bar { a := .v 6 } 3 true) (bars (setR small 0 6 32) 3 { target := some 32 }) (fun c =>
    barCount (.bar { a := .v 6 } 3 true) { a := .v 6 } (bars (setR small 0 6 32) 3 { target := some 32 }) c == 32 && barTarget c.t 3 == some 32),
  holds (.pbar { b := .imm 32 } 2 .sync) small (fun c =>
    pbarTargets ((look c.t.pbars 2).getD {}) ((lanesOf c.act).map (laneKey c.id.g)) == [] &&
      barCount (.pbar { b := .imm 32 } 2 .sync) { b := .imm 32 } small c ≤ (c.t.launch.grpm1 + 1) * 32),
  runs (.pbar {} 7 .wait) small, holds (.pbar { b := .imm 31 } 2 .arv) (onTeam small (fun t => { t with pbars := [(2, { target0 := some 31 })] })) (fun c =>
    pbarTargets ((look c.t.pbars 2).getD {}) ((lanesOf c.act).map (laneKey c.id.g)) == List.replicate 1 31),
  -- BarrierEvents: a closed barrier, and with FLAGS armed; a phase; an expiry; an allocation
  (let s := waiting (bars small 3 { target := some 1, arrived := [(0, ⟨0, 0⟩)], closed := true }) (.bar 3 false 0x100008)
   laneDone s ⟨0, 0⟩ 0 0 && goes (.barrierComplete 0 3) s (fun u => (group u ⟨0, 0⟩).any (fun g => g.wait.isEmpty && pcOf g 5 == 0x100008))),
  (let s := armed (waiting (bars small 3 { target := some 1, arrived := [(0, ⟨0, 0⟩)], closed := true }) (.bar 3 false 0x100008))
   (group s ⟨0, 0⟩).any (fun g => !insideWord s ⟨0, 0⟩ g) && goes (.barrierComplete 0 3) s (fun u => (group u ⟨0, 0⟩).any (fun g => g.inTrap && g.tcause == 0x0B))),
  (let b : PBar := { target0 := some 1, cnt0 := [(0, ⟨0, 0⟩)], ahead := [(0, 1), (1, 2)] }
   let s := waiting (onTeam small (fun t => { t with pbars := [(2, b)] })) (.pbar 2 0x100008)
   met smallTeam b.target0 b.cnt0 && laneDone s ⟨0, 0⟩ 0 0 && sorted b.ahead &&
     goes (.phaseComplete 0 2) s (fun u => (group u ⟨0, 0⟩).any (fun g => (look g.wait 0).isNone && (look g.wait 1).isSome))),
  (let s := waiting (bars (onTeam small (fun t => { t with timer := 2 ^ 24 + 1 })) 15 { target := some 64, arrived := [(0, ⟨0, 0⟩)], timer := some 0 }) (.bar 15 false 0x100008)
   goes (.barrierTimeout 0 15) s (fun u => (group u ⟨0, 0⟩).any (fun g => g.inTrap && g.tcause == 0xF06 && g.tlanes == 0xFFFFFFFF))),
  (let s := waiting small (.vgrow 256 0 0x100008)
   (group s ⟨0, 0⟩).any (fun g => vgrowWait g == some (256, 0)) && regsUsed s 0 + (256 - 128) ≤ 4096 &&
     goes (.vgrowGrant 0 0) s (fun u => (group u ⟨0, 0⟩).any (fun g => g.alloc == 256)))] : List Bool).all id = true := by decide +kernel

theorem wit_BarrierCountFaults : ([
  holds (.bar { b := .imm 33 } 3 false) small (fun c => (c.t.launch.grpm1 + 1) * 32 < barCount (.bar { b := .imm 33 } 3 false) { b := .imm 33 } small c),
  holds (.bar { b := .imm 9 } 3 false) (bars small 3 { target := some 8 }) (fun c => barTarget c.t 3 == some 8 && barCount (.bar { b := .imm 9 } 3 false) { b := .imm 9 } small c == 9),
  holds (.bar { b := .imm 32 } 3 false) (bars small 3 { target := some 32 }) (fun c => barTarget c.t 3 == some 32),
  !met smallTeam (some 32) [(0, ⟨0, 0⟩)] && (look ([(0, ⟨0, 0⟩)] : FMap Arr) (laneKey 0 0)).isSome] : List Bool).all id = true := by decide +kernel

/-- KRD or KWR of a control register by number. -/
def reads (lead : Bool) (n : BitVec 18) (p : Ctx → Bool) : Bool :=
  let s := if lead then inLead small else small
  holds (.krd { dst := 8, b := .imm n }) s (fun c => cregNum (.krd { dst := 8, b := .imm n }) { dst := 8, b := .imm n } s c == n.toNat && p c)
def writes (x : W32) (n : BitVec 18) (p : Nat → W64 → Bool) : Bool :=
  let s := setR small 0 4 x
  let i : Instr := .kwr { a := .v 4, b := .imm n }
  holds i s (fun c => cregNum i (wOf i) s c == n.toNat && p n.toNat (kwrVal i (wOf i) s c (highest c.act)))

theorem wit_ControlRegisterWords : ([
  reads false 0x010 (fun c => (cregAccess (isLead c.id) 0x010).isSome), reads false 0x009 (fun c => (cregAccess (isLead c.id) 0x009).isNone),
  reads true 0x012 (fun c => (cregAccess (isLead c.id) 0x012).isNone),
  writes 0x8000 0x000 (fun _ _ => true), writes 1 0x010 (fun _ _ => true), writes 8 0x002 (fun _ _ => true), writes 7 0x012 (fun _ _ => true),
  writes 7 0x009 (fun n _ => (cregAccess false n).isNone), runs (.flagarm {} false) small, runs (.flagarm {} true) small,
  -- BarrierTimeoutRegister
  writes 0 0x011 (fun _ v => v.toNat % 32 == 0), writes 1 0x011 (fun _ v => v.toNat % 32 == 1), writes 9 0x011 (fun _ v => v.toNat % 32 == 9),
  writes 10 0x011 (fun _ v => v.toNat % 32 == 10), writes 31 0x011 (fun _ v => v.toNat % 32 == 31), writes 0 0x001 (fun n _ => cregAccess false n == some false),
  reads false 0x011 (fun _ => true)] : List Bool).all id = true := by decide +kernel

/-! Memory words: lanes at scratchpad addresses and on a mapped page. -/

def scratch : W64 := 0x01FFFF0000000000
def inPage (s : State) : State := addr (mapped s page) 0x1000
def inScr (s : State) : State := addr s scratch
/-- The address checks of a memory word with nbytes at V4:V5, aligned to al. -/
def memOk (i : Instr) (s : State) (k : AccKind) (al n : Nat) : Bool :=
  let va (c : Ctx) := addrOf i (wOf i) s c
  holds i s (fun c => isOk (memWait s c (reachesMemory c (va c))) && isOk (strongWait s c) && isOk (accessCheck s c k al (fun _ => n) (va c)) &&
    isOk (storeWait s c false) && isOk (streamWait c 1))
def accsOk (i : Instr) (s : State) (strong : Bool) (n : Nat) : Bool :=
  holds i s (fun c => ((lanesOf c.act).mapM (fun l => loadAcc s c strong (addrOf i (wOf i) s c l) n l 8)).toOption.isSome)
/-- The lanes' X1 names four words from V8 on. -/
def windowed (s : State) : State := onGroup s (fun g => { g with x := (List.range 32).map (fun l => (32 + l, { base := 8, limit := 4, index := 0 })) })
/-- A page of FP32 elements. -/
def fmtPage : W64 := 0xC0000000000113C0

theorem wit_LoadsBecomeOutstanding : ([
  memOk (.ld { dst := 8, a := .v 4 } .w .normal false) (inPage small) .load 1 4, accsOk (.ld { dst := 8, a := .v 4 } .w .normal false) (inPage small) false 4,
  memOk (.lds { dst := 8, a := .v 4 } .w true) (inScr small) .load 4 4, accsOk (.lds { dst := 8, a := .v 4 } .w true) (inScr small) true 4,
  (let s := inLead (setR (setR small 32 4 (lo scratch)) 32 5 (hi scratch))
   memOk (.sld { dst := 8, a := .v 4 } true false) s .load 1 8 && accsOk (.slds { dst := 8, a := .v 4 } false false) s true 4),
  (let i : Instr := .lde { dst := 8, a := .v 4 } .e .normal false
   let s := addr (mapped small fmtPage) 0x1000
   holds i s (fun c => isOk (memWait s c true) && isOk (elemCheck s c .load .e (addrOf i (wOf i) s c)) &&
     ((lanesOf c.act).mapM (fun l => elemAcc s c (addrOf i (wOf i) s c l) l 8)).toOption.isSome)),
  (let i : Instr := .ldx { a := .v 4 } 1 .normal false
   let s := windowed (inPage small)
   holds i s (fun c => isOk (windowCheck c 1 false) && isOk (memWait s c (reachesMemory c (addrOf i (wOf i) s c))) &&
     isOk (accessCheck s c .load 4 (fun l => 4 * windowLen c 1 l) (addrOf i (wOf i) s c)) && windowLen c 1 0 == 4 &&
     (((lanesOf c.act).flatMap (fun l => (List.range (windowLen c 1 l)).map (fun k => (l, k)))).mapM
       (fun e => loadAcc s c false (addrOf i (wOf i) s c e.1 + BitVec.ofNat 64 (4 * e.2)) 4 e.1 (windowReg c 1 e.1 + e.2))).toOption.isSome)),
  -- LoadAccessesAreBound: the scratchpad, the counters, no store before, a store before that covers the access
  inScratch scratch && inScratch 0x01FFFF00000FFFFF && !inScratch 0x01FFFF0000100000, inCounters 0x01FFFE0000000000 && !inScratch 0x01FFFE0000000000,
  (let s := inPage small
   holds (.ld { dst := 8, a := .v 4 } .w .normal false) s (fun c => (pendingOn c.gr (physBytes s c .load 0x1000 4)).isEmpty && (physBytes s c .load 0x1000 4).length == 4)),
  (let o : Op := { kind := .store, stream := 0, seq := 0, ord := 0, lanes := 1, left := 1, pas := [0x11000, 0x11001, 0x11002, 0x11003], data := [(0x11000, 1), (0x11001, 2), (0x11002, 3), (0x11003, 4)] }
   let s := onGroup (inPage small) (fun g => { g with ops := [(0, o)] })
   holds (.ld { dst := 8, a := .v 4 } .w .normal false) s (fun c => youngest (pendingOn c.gr (physBytes s c .load 0x1000 4)) == some o &&
     (physBytes s c .load 0x1000 4).all (fun p => o.data.any (fun e => e.1 == p))))] : List Bool).all id = true := by decide +kernel
def openStore (s : State) (stream : Nat) : State :=
  onGroup s (fun g => { g with ops := [(9, { kind := .store, stream, seq := 1, ord := 0, lanes := 1, left := 1 })] })

theorem wit_StoresBecomeOutstanding : ([
  memOk (.st { a := .v 4, c := .v 10 } .w 1 false) (inPage small) .store 1 4, memOk (.sts { a := .v 4, c := .v 10 } .d 1 false) (inPage small) .store 8 8,
  memOk (.st { a := .v 4, c := .v 10 } .w 1 false) (inScr small) .store 1 4,
  (let s := inLead (setR (setR small 32 4 (lo scratch)) 32 5 (hi scratch))
   memOk (.sst { a := .v 4, c := .v 10 } true 1 false) s .store 1 8),
  (let i : Instr := .stx { a := .v 4 } 1 1 false
   let s := windowed (inPage small)
   holds i s (fun c => isOk (windowCheck c 1 true) && isOk (accessCheck s c .store 4 (fun l => 4 * windowLen c 1 l) (addrOf i (wOf i) s c)))),
  (let i : Instr := .ste { a := .v 4, c := .v 10 } .e 1 false
   let s := addr (mapped small fmtPage) 0x1000
   holds i s (fun c => isOk (memWait s c true) && isOk (storeWait s c false) && isOk (streamWait c 1) && isOk (elemCheck s c .store .e (addrOf i (wOf i) s c)) &&
     ((lanesOf c.act).mapM (fun l => steLane i (wOf i) s c .e (addrOf i (wOf i) s c l) l)).toOption.isSome))] : List Bool).all id = true := by decide +kernel

def atomOk (i : Instr) (s : State) (d : Bool) : Bool :=
  let n := if d then 8 else 4
  holds i s (fun c =>
    let va := atomAddr i (wOf i) s c
    isOk (memWait s c (reachesMemory c va)) && isOk (storeWait s c false) && isOk (streamWait c 1) && isOk (accessCheck s c .store n (fun _ => n) va) &&
      match ((lanesOf c.act).filter (fun l => !inScratch (va l))).mapM (atLane i (wOf i) s c d) with
      | .ok ls => (pendingOn c.gr (ls.flatMap (fun x => (List.range n).map (x.pa + ·)))).isEmpty
      | .error _ => false)
theorem wit_Atomics : ([
  atomOk (.atom { dst := 8, a := .v 4, b := .sel (.v 10) } .add 1 false) (inPage small) false, atomOk (.atomx { dst := 8, a := .v 4, b := .sel (.v 10) } .max 1 false) (inPage small) true,
  atomOk (.atom { dst := 8, a := .v 4, b := .sel (.v 10) } .cas 1 false) (inScr small) false] : List Bool).all id = true := by decide +kernel

def load (src : SrcId) : LoadOp :=
  { src, ord := 0, lanes := 1, kind := .plain .w, strong := true, pol := .normal, acquire := false, counted := true
    accs := [{ lane := 0, reg := 8, pas := [0x11000, 0x11001, 0x11002, 0x11003], val := some [1, 2, 3, 4] }] }
def loading (src : SrcId) : State := { onGroup small (fun g => { g with memq := 1, sb := [(8, 1)] }) with loads := [(0, load src)] }

theorem wit_LoadsReturn :
    goes (.loadReturn 0) (loading ⟨0, 0⟩) (fun u => u.loads == [] && (group u ⟨0, 0⟩).any (fun g => readV g 8 0 == 0x04030201 && g.memq == 0)) = true := by
  decide +kernel

theorem wit_FencesAndCacheWords : ([
  runs (.acq {}) small, holds (.acq {}) { small with loads := [(0, load ⟨0, 0⟩)] } (fun _ => !(({ small with loads := [(0, load ⟨0, 0⟩)] } : State).loads.all (fun e => e.2.src != ⟨0, 0⟩))),
  runs (.rel {}) small, holds (.rel {}) (openStore small 1) (fun c => c.gr.ops.any (fun e => e.2.kind == .store)),
  runs (.sjoin { b := .imm 2 }) small, holds (.sjoin { b := .imm 2 }) (openStore small 1) (fun c => c.gr.ops.any (fun e => (2 : Nat).testBit e.2.stream)),
  runs (.pref { a := .v 4 } false) (inPage small), holds (.cinv { a := .v 4 }) (inPage small) (fun c => isOk (lineCheck (inPage small) c (addrOf (.cinv { a := .v 4 }) { a := .v 4 } (inPage small) c))),
  holds (.cflush { a := .v 4 }) (inPage small) (fun c => isOk (memWait (inPage small) c true) &&
    isOk (lineCheck (inPage small) c (addrOf (.cflush { a := .v 4 }) { a := .v 4 } (inPage small) c)))] : List Bool).all id = true := by decide +kernel

/-- A group table: this device is 3, and device 5 is reached by port 2. -/
def groupTable : GroupTable :=
  { phase := 1, self := 3, ndev := 2, routes := [(3, 0x8000FFFFFF000000), (5, 0x8000FFFFC2000000)], sets := [[3, 5], [9]]
    trees := [{ parent := 0x3FF, children := [], isIn := true, switch := 0x3FF, ops := 0xFFFF }] }
def grouped (s : State) : State := { s with fab := { s.fab with table := some groupTable, ports := [(2, 0xFF)] } }

/-- A store packet for slice 8 with the bytes of one word. -/
def storePkt : Pkt :=
  { src := ⟨0, 0⟩, op := some 9, ctx := 1, core := 0, dest := 8, stream := 0, seq := 0, wm := 0, flag := false
    body := .store [{ lane := 0, bytes := [(0x1000, 1), (0x1001, 2), (0x1002, 3), (0x1003, 4)] }] true }
/-- A command that waits for one packet, and that packet: a byte and the low four bits of another one. -/
def anyCmd : Cmd :=
  { src := ⟨0, 0⟩, lane := 0, core := 0, ctx := 1, left := 1
    body := .coll { inst := 1, tree := 9, op := 0, dkind := 0, src := 0, cstride := 0, c := 0, nel := 1, res := 0, cap := 0 } }
def engPkt : Pkt := { storePkt with op := none, body := .eng (some 3) [{ pa := 0x1000, val := 7 }, { pa := 0x1001, val := 0xFF, mask := 0x0F }] }
def storing (held : Bool) : State := { openStore small 0 with pkts := [(0, { storePkt with held })] }

theorem wit_StoresArePerformed : ([
  (let s := storing false
   regionsUp s (pktPath s storePkt) && (look s.windows 8).isNone && storePkt.after == [] && s.pkts.all (fun e => !e.2.held) && !isMoving s (bodyPas storePkt.body) && (heldAway s (bodyPas storePkt.body)).isEmpty &&
     goes (.packetArrival 0) s (fun u => look u.windows 8 == some [0])),
  (let s := { grouped (storing true) with windows := [(8, [0])], cycle := 16 }
   get 0 s.windowNo 8 < s.cycle / 16 && goes (.ownershipConflictWindowEnd 8) s (fun u => readByte u 0x1003 == 4 && u.windows == [] && u.acks.length == 1)),
  (bodyPas storePkt.body).contains 0x1003 && !(bodyPas storePkt.body).contains 0x1004,
  (let s := { openStore small 0 with acks := [(0, { src := ⟨0, 0⟩, op := 9, core := 0, words := [], superseded := [] })] }
   goes (.storeAcknowledge 0) s (fun u => (group u ⟨0, 0⟩).any (fun g => g.ops.isEmpty))),
  (let s := { grouped small with pkts := [(0, engPkt)], windows := [(8, [0])], cycle := 16, cmds := [(3, anyCmd)], owner := [(0x400, 2)], mem := [(0x1001, 0x55)] }
   (match engPkt.body with
    | .eng _ es => es.all (fun e => !e.ms && !queuedAt s e.pa) && (es.map (·.pa)).Nodup
    | _ => false) && get 0 s.windowNo 8 < s.cycle / 16 && goes (.ownershipConflictWindowEnd 8) s (fun u =>
      readByte u 0x1000 == 7 && readByte u 0x1001 == 0x5F && u.owner == [] && u.pkts == [] && (look u.cmds 3).any (fun c => c.left == 0))),
  (let m : WmMsg := { src := guestSrc 5 7, dest := 8, stream := 1, wm := 5 }
   let s := { small with wms := [(0, m)] }
   regionsUp s (wmPath s m) && isGuest m.src && goes (.watermarkMessage 0) s (fun u => (commitOf u 8 m.src 1).wm == 5)),
  (let m : WmMsg := { src := ⟨0, 0⟩, dest := 8, stream := 1, wm := 5 }
   let s := { small with wms := [(0, m)], pkts := [(0, { storePkt with stream := 1, seq := 6 })] }
   regionsUp s (wmPath s m) && !isGuest m.src && s.pkts.all (fun e => !e.2.held) && goes (.watermarkMessage 0) s (fun u => u.pkts.all (fun e => e.2.wm == 5)))] : List Bool).all id = true := by decide +kernel

/-- The bytes of some doublewords, as memory lists them. -/
def cells (xs : List (Nat × W64)) : List Host.Cell :=
  (xs.flatMap (fun x => ((List.range 8).zip (leBytes 8 x.2.toNat)).map (fun b => (x.1 + b.1, b.2)))).filter (fun c => c.2 != 0)
/-- Tables for page 0 of context 1: five levels, the leaf at 0x104000. -/
def tables (leaf : W64) : State :=
  { small with mem := cells [(16, 0x8000000000100000), (0x100000, 0x8000000000101000), (0x101000, 0x8000000000102000), (0x102000, 0x8000000000103000),
                             (0x103000, 0x8000000000104000), (0x104000, leaf)]
               walks := [(0, { ctx := 1, va := 0x1000, kind := .store, core := 0, waiters := [.src ⟨0, 0⟩] })] }

theorem wit_Translation : ([
  holds (.tlbinv { a := .v 4 } false) (addr small 0x1000) (fun c => relDone c.gr),
  holds (.tlbinv { a := .v 4 } true) (openStore small 1) (fun c => !relDone c.gr),
  holds (.pgacc { dst := 8, a := .v 4 } true) (addr small 0x1000) (fun c => (lanesOf c.act).all (fun l =>
    (laneIn (.pgacc { dst := 8, a := .v 4 } true) { dst := 8, a := .v 4 } (addr small 0x1000) c l).a.toNat < 2 ^ 57)),
  ctxEntry small 1 == 16 && walkPage small 1 0x1000 == .bad 0x54 1 0,
  walkPage { small with mem := cells [(16, 0x8000000000100000)] } 1 0x1000 == .bad 0x50 1 0,
  memWf (tables page).mem && walkPage (tables page) 1 0x1000 == .leaf page 16 0x104000 && (leafBad small page 0).isNone,
  walkPage (tables 0x8000000000010000) 1 0x1000 == .bad 0x53 2 0x8000000000010000,
  (tierOf (ctxEntry small 1)).isSome && leafW page && goes (.pageWalk 0) (tables page) (fun u => u.walks == [] && read64 u 0x104000 == (page ||| 0xC0)),
  (let s := { tables 0 with nextId := 9 }
   !(host s (hostOf 1)).fqEnable && goes (.pageWalk 0) s (fun u => u.walks == [] && u.tfaults.length == 1)),
  (let f : TFault := { ctx := 1, page := 0, kind := .store, cause := 0x50, detail := 1, waiters := [.src ⟨0, 0⟩] }
   goes (.fqreplyRetry 0 0) { small with tfaults := [(0, f)] } (fun u => u.tfaults == []) &&
     goes (.fqreplyDecline 0 0) { small with tfaults := [(0, f)] } (fun u => u.tfaults == [] && u.declined.length == 1)),
  goes (.invctlPage 0 0x0001000000000001) (mapped small page) (fun u => (Machine.core u 0).tlb == [] && u.invals.length == 1) &&
    goes (.invctlContext 0 0x0001000000000003) (mapped small page) (fun u => (Machine.core u 0).tlb == [] && (host u 0).invctl.getLsbD 0),
  goes (.invctlPage 0 1) (updHost small 0 (fun h => { h with invctl := 1 })) (fun u => u.invals == []),
  (let s := { updHost small 0 (fun h => { h with invctl := 1 }) with invals := [(0, { ctx := 1, page := none, host := some 0, src := none, loads := [0], pkts := [] })] }
   goes (.invalidationComplete 0) s (fun u => u.invals == [] && !(host u 0).invctl.getLsbD 0) &&
     goes (.invalidationComplete 0) { s with loads := [(0, load ⟨0, 0⟩)] } (fun u => u.invals.length == 1))] : List Bool).all id = true := by decide +kernel
/-- The word executes and every lane's operand a is x. -/
def withA (i : Instr) (s : State) (x : W64) : Bool := holds i s (fun c => (lanesOf c.act).all (fun l => (laneIn i (wOf i) s c l).a == x))

theorem wit_Queues : ([
  runs (.qpush { a := .v 8, b := .imm 3 } false) (inLead small), runs (.qpush { a := .v 8 } true) (inLead small), runs (.qpusha { a := .v 6, b := .imm 4 }) (inLead small),
  holds (.qpush { b := .imm 3 } false) (inLead (onTeam small (fun t => { t with uqWrite := 64 }))) (fun c =>
    (look c.t.groups 0).any (fun g => g.live != 0 && c.t.uqWrite - g.uqRead == 64)),
  holds (.qpush { b := .imm 3 } false) (inLead (onTeam small (fun t => { t with groups := upd t.groups 0 (fun g => { g with live := 0 }) }))) (fun c => groupsEnded c.t),
  holds (.dqpush { a := .v 8, b := .imm 0 } false) (inLead small) (fun c => dqGroups (.dqpush { a := .v 8, b := .imm 0 } false) { a := .v 8, b := .imm 0 } (inLead small) c false == [0] && dqRoom c.t 0 && c.id.g == 32),
  holds (.dqpush { a := .v 8, b := .imm 1 } false) (inLead small) (fun c => dqGroups (.dqpush { a := .v 8, b := .imm 1 } false) { a := .v 8, b := .imm 1 } (inLead small) c false == [1] && groupCount c.t ≤ 1),
  (let s := inLead (onGroup small (fun g => { g with dq := List.replicate 16 0 }))
   holds (.dqpush { a := .v 8 } true) s (fun c => dqGroups (.dqpush { a := .v 8 } true) { a := .v 8 } s c true == [0] && !dqRoom c.t 0)),
  issues (.dqtake { pr := 1, dst := 8 } none) (onGroup small (fun g => { g with dq := [4, 5] })) (fun c => c.gr.dq == [4, 5] && c.act == 0),
  issues (.dqtake { dst := 8 } (some 2)) small (fun c => c.gr.dq == [] && !leadEnded c.t),
  issues (.dqtake { dst := 8 } none) (updGroup small ⟨0, 32⟩ (fun g => { g with live := 0 })) (fun c => c.gr.dq == [] && leadEnded c.t)] : List Bool).all id = true := by decide +kernel

def leadAddr (s : State) (x : W64) : State := inLead (setR (setR s 32 4 (lo x)) 32 5 (hi x))
def dictWord (n : BitVec 32) : State := setR (setR (leadAddr (mapped small page) 0x1000) 32 6 1022) 32 7 n
def dictI : Instr := .dictld { a := .v 4, b := .sel (.v 6), c := .v 7 }
def dictIn (s : State) (p : Ctx → W64 → Nat → Nat → Bool) : Bool :=
  holds dictI s (fun c => let x := laneIn dictI (wOf dictI) s c 0; p c x.a (lo x.b).toNat (lo x.c).toNat)

theorem wit_LeadWords : ([
  runs (.brc { b := .imm 5 } .jump) (inLead small), withA (.brc { dst := 8, a := .v 4 } .call) (leadAddr small 0x200000) 0x200000, withA (.brc { a := .v 4 } .ret) (leadAddr small 0x200004) 0x200004,
  withA (.lwait { a := .v 4 } none) (leadAddr small 0) 0, withA (.lwait { a := .v 4 } none) (leadAddr small 1) 1,
  (let s := leadAddr small 1
   holds (.lwait { a := .v 4 } (some 3)) s (fun c => ((look c.t.bars 3).getD {}).gen == 0 && !groupsEnded c.t && (srcLoads s c.id).isEmpty)),
  (let s := { leadAddr small 1 with loads := [(0, load ⟨0, 32⟩)] }
   holds (.lwait { a := .v 4 } (some 3)) s (fun c => ((look c.t.bars 3).getD {}).gen == 0 && !(srcLoads s c.id).isEmpty)),
  holds (.lwait { a := .v 4 } (some 3)) (leadAddr small 0) (fun c => ((look c.t.bars 3).getD {}).gen == 0 && !groupsEnded c.t),
  runs (.ltime { dst := 8 } none) (inLead small), runs (.ltime { dst := 8 } (some 15)) (inLead small),
  (let s := onTeam (updGroup small ⟨0, 32⟩ (fun g => { g with wait := [(0, .timer 9 0x100008)] })) (fun t => { t with timer := 9 })
   goes (.lwaitTimerReached 0) s (fun u => (group u ⟨0, 32⟩).any (fun g => g.wait == [] && pcOf g 0 == 0x100008))),
  dictIn (dictWord 0) (fun _ _ f n => f == 1022 && n == 0), dictIn (dictWord 3) (fun _ _ f n => n == 3 && 1024 < f + n),
  dictIn (dictWord 2) (fun c a f n => f + n == 1024 && c.t.dictBusy.isNone && isOk (dictCheck (dictWord 2) c a f n)),
  (let s := onTeam (dictWord 2) (fun t => { t with dictBusy := some (1022, 2) })
   dictIn s (fun c a f n => c.t.dictBusy.isSome && isOk (dictCheck s c a f n) && (linesMissing s ((List.range n).flatMap (dictBytes s c a))).isEmpty && !dictWaits s c a n && (dictBad s c a n).isNone)),
  (let s := { onTeam (dictWord 2) (fun t => { t with dictBusy := some (1022, 2) }) with bad := [(0x11008 / 8, true)] }
   dictIn s (fun c a f n => isOk (dictCheck s c a f n) && !dictWaits s c a n && (dictBad s c a n).isSome && isLead c.id && !c.gr.inTrap && c.t.trapBase != 0))] : List Bool).all id = true := by decide +kernel

def mint (b n : W32) : State := grouped (setR (setR small 0 6 b) 0 7 n)
theorem wit_CapabilitiesAreMinted : ([
  runs (.capmk { dst := 8, a := .v 6, b := .sel (.v 7) } false false) (mint 0 4),
  holds (.capmk { dst := 8, a := .v 6, b := .sel (.v 7) } true false) (mint 0 0) (fun _ => true), runs (.capmk { dst := 8, a := .v 6, b := .sel (.v 7) } true true) (mint 0 65),
  runs (.capmk { dst := 8, a := .v 6, b := .sel (.v 7) } true false) (mint 193 64),
  holds (.capmk { dst := 8, a := .v 6, b := .sel (.v 7) } true false) (mint 192 64) (fun c => c.dev < 1024 && (handleFor (mint 192 64) c.id c.gr).any (fun h => h.1 == 7)),
  -- RevocationRaisesTheGeneration
  holds (.caprv {}) { small with handles := [(7, { gen := 255, holder := some ⟨0, 0⟩ })] } (fun c => c.gr.handle == some 7),
  holds (.caprv {}) (onGroup small (fun g => { g with handle := none })) (fun c => c.gr.handle.isNone)] : List Bool).all id = true := by decide +kernel

/-- A group without a handle gets one while the table has room, and none when it is full. -/
theorem wit_handles :
    (∃ h e, handleFor small ⟨0, 0⟩ { laneGroup with handle := none } = some (h, e) ∧ h < 16384) ∧
    handleFor { small with handles := (List.range 16384).map (fun n => (n, { holder := some ⟨9, 0⟩ })) } ⟨0, 0⟩ { laneGroup with handle := none } = none := by
  constructor
  · refine ⟨Config.choice 0 0 % 16384, { gen := 1, holder := some ⟨0, 0⟩ }, ?_, Nat.mod_lt _ (by decide)⟩
    simp only [handleFor, freeHandle]
    rw [show (16384 : Nat) = 16383 + 1 from rfl, List.range_succ_eq_map, List.findSome?_cons]
    simp only [small, look, Option.bind_none, Option.isNone_none, if_true, Nat.add_zero, Nat.mod_mod, Option.map_some]
    rfl
  · have h : ∀ (n a k : Nat), k < n → look ((List.range' a n).map (fun n => (n, ({ holder := some ⟨9, 0⟩ } : Handle)))) (a + k) = some { holder := some ⟨9, 0⟩ } := by
      intro n
      induction n with
      | zero => intro a k hk; omega
      | succ n ih =>
        intro a k hk
        cases k with
        | zero => simp [List.range'_succ, look]
        | succ k =>
          have h := ih (a + 1) k (by omega)
          rw [show a + 1 + k = a + (k + 1) by omega] at h
          simpa [List.range'_succ, look] using h
    simp only [handleFor, freeHandle, Option.map_eq_none_iff, List.findSome?_eq_none_iff, List.mem_range]
    intro k _
    have := h 16384 0 ((Config.choice small.fresh 0 % 16384 + k) % 16384) (Nat.mod_lt _ (by decide))
    rw [Nat.zero_add, ← List.range_eq_range'] at this
    rw [this]
    rfl

def win (b n : W32) : State := setR (setR small 0 16 b) 0 2 n
def armI (nbr : Bool) : Instr := .rarm { dst := 3, a := .v 16, b := .sel (.v 2) } false nbr
def winIs (i : Instr) (s : State) (b n : Nat) : Bool := holds i s (fun c => windowOf i (wOf i) s c == (b, n))
def claimed (id : SrcId) (b : Nat) : State := { win 32 4 with claims := [(3, { id, base := b, count := 4, ctx := 1 })] }
def cap : W64 := capBits 3 1 1 4 16 7
def sending (off : W32) (x : W64) : State := grouped (setR (setR (setR small 0 30 (lo x)) 0 31 (hi x)) 0 17 off)
def sendI : Instr := .sendr { a := .v 30, b := .sel (.v 17), c := .v 20 } false 1

theorem wit_WindowsAndSends : ([
  winIs (armI false) (win 32 0) 32 0, winIs (.rdisarm { a := .v 16, b := .sel (.v 2) }) (win 32 65) 32 65, winIs (armI false) (win 65 64) 65 64, winIs (armI false) (win 64 64) 64 64,
  winIs (armI true) (win 32 4) 32 4 && (look (win 32 4).claims 3).isNone, winIs (armI true) (claimed ⟨9, 0⟩ 32) 32 4, winIs (armI true) (claimed ⟨0, 0⟩ 33) 32 4, winIs (armI true) (claimed ⟨0, 0⟩ 32) 32 4,
  winIs (.rdisarm { a := .v 16, b := .sel (.v 2) }) (win 64 64) 64 64 && sorted (claimed ⟨0, 0⟩ 32).claims, runs (.rpend { dst := 8, a := .v 6 }) small,
  cap.getLsbD 28 && capCount cap == 4 && capBase cap == 16 && capHandle cap == 7 && capDev cap == 3,
  holds sendI (sending 4 cap) (fun c => capCount (laneIn sendI (wOf sendI) (sending 4 cap) c 0).a < (lo (laneIn sendI (wOf sendI) (sending 4 cap) c 0).b).toNat + 1),
  holds sendI (sending 3 cap) (fun c => (lanesOf c.act).all (fun l => let x := laneIn sendI (wOf sendI) (sending 3 cap) c l
    x.a.getLsbD 28 && (lo x.b).toNat + 1 ≤ capCount x.a && (capPeerFault (sending 3 cap) x.a).isNone) && isOk (sendWait (sending 3 cap) c 1)),
  holds (.sendn { b := .sel (.v 17), c := .v 20 } .n 1) small (fun c => (neighbour c.t.core .n).isNone),
  holds (.sendn { b := .sel (.v 17), c := .v 20 } .e 1) (grouped small) (fun c => (neighbour c.t.core .e).any (fun k => linkBusy (grouped small) k (arrivesFrom .e) < 8) && isOk (sendWait (grouped small) c 1)),
  (let p : Pkt := { src := ⟨0, 0⟩, op := none, ctx := 1, core := 0, dest := portDest small 1 .w, stream := 1, seq := 0, wm := 0, flag := false, body := .send (.port 1 .w 1) false false [] }
   let s := { small with pkts := (List.range 8).map (fun k => (k, p)) }
   holds (.sendn { b := .sel (.v 17), c := .v 20 } .e 1) s (fun c => neighbour c.t.core .e == some 1 && isOk (sendWait s c 1) && 8 ≤ linkBusy s 1 (arrivesFrom .e))),
  -- SendsCommit: a send to the window that the group's claim of the port from the west names
  (let p : Pkt := { src := ⟨0, 0⟩, op := none, ctx := 1, core := 1, dest := 0, stream := 0, seq := 0, wm := 0, flag := false, held := true
                    body := .send (.port 0 .w 1) false false [{ lane := 2, off := 1, val := 77 }] }
   let s := { onGroup (grouped (win 0 0)) (fun g => { g with arm := [(32 * 33 + 2, { armed := true, kind := 7 })] }) with pkts := [(0, p)], claims := [(3, { id := ⟨0, 0⟩, base := 32, count := 4, ctx := 1 })] }
   committable s 0 p && !isGuest p.src && (match landing s (.port 0 .w 1) false with
     | .ok l => l.id == ⟨0, 0⟩ && (laneRefusal laneGroup l [(1, 77)] 2).isSome
     | .error _ => false) && goes (.sendCommit 0) s (fun u => u.pkts == [] && (group u ⟨0, 0⟩).any (fun g => readV g 33 2 == 77 && g.arm == [])))] : List Bool).all id = true := by decide +kernel
/-! Engine commands, from records in the scratchpad. -/

/-- The state after a step, where it goes on. -/
def next (i : Instr) (s : State) : State :=
  match exec i s with
  | .next u => u
  | _ => s
def scr (xs : List (Nat × W64)) (s : State) : State := onTeam s (fun t => { t with scratch := cells xs })
/-- P1 holds in lane 0 alone. -/
def lane0 (s : State) : State := onGroup s (fun g => { g with p := [(1, 1)] })
/-- A copy block without a tag, the layouts at 0x100 and 0x180 of 4 FP16 elements, and a CPYM's follow-on. -/
def block (follow : W64) : List (Nat × W64) :=
  [(0, scratch + 0x100), (8, scratch + 0x180), (0x10, 0x02000000 + follow * 2 ^ 32), (0x100, scratch + 0x200), (0x108, 0x82), (0x110, 4), (0x128, 1),
   (0x180, scratch + 0x280), (0x188, 0x82), (0x190, 4), (0x1A8, 1), (0x200, 0x3C00)]
def copying : State := next (.cpy { pr := 1 }) (scr (block 0) (lane0 (grouped small)))
def cmdNo (s : State) : Nat := (s.cmds.map (·.1)).headD 0
def copyIn (s : State) (p : Cmd → CopyCmd → Bool) : Bool :=
  match look s.cmds (cmdNo s) with
  | some c => match c.body with
    | .copy q => p c q
    | _ => false
  | none => false
def engOk {α : Type} : Except EngStop α → Bool
  | .ok _ => true
  | .error _ => false
def engFaults {α : Type} : Except EngStop α → Bool
  | .error (.fault _) => true
  | _ => false

theorem wit_EngineWordsEnqueueCommands : ([
  (let s := onGroup (scr (block 0) small) (fun g => { g with copyq := 60 })
   holds (.cpy {}) s (fun c => isOk (storeWait s c false) && (lanesOf c.act).all (fun l => (copyFault s c 0 (copyOff (.cpy {}) {} s c l) 0).isNone) &&
     (enqueueAll c.gr.ord s ((lanesOf c.act).map (blockCmd c 0 0 0))).2.length == 29)),
  (let s := scr (block 0) (lane0 small)
   holds (.cpy { pr := 1 }) s (fun c => (enqueueAll c.gr.ord s ((lanesOf c.act).map (blockCmd c 0 0 0))).2.isEmpty)),
  holds (.cpy { a := .v 4 }) (setR small 0 4 8) (fun c => (copyFault (setR small 0 4 8) c 0 8 0).isSome),
  (let s := scr (block 0x40000000) (lane0 small)
   holds (.cpym { pr := 1 }) s (fun c => (copyFault s c 2 0 0).isNone)), (let s := scr [(0, scratch + 0x100), (0x10, 0x02000000)] (lane0 small)
   holds (.cpypf { pr := 1 }) s (fun c => (copyFault s c 3 0 0).isNone)),
  (let s := scr (block 0) (lane0 small)
   holds (.cpyg { pr := 1, b := .sel (.v 6) }) s (fun c => (copyFault s c 1 0 0).isNone)),
  (let s := scr [(0, 0x20002), (8, 0x2000), (0x10, 0x1000), (0x18, 16)] (lane0 small)
   holds (.sweep { pr := 1 }) s (fun c => (sweepFault c 0).isNone && (enqueueAll c.gr.ord s [sweepCmd c 0 0]).2.isEmpty))] : List Bool).all id = true := by decide +kernel

theorem wit_CopyCommands : ([
  copyIn copying (fun c q => !c.started && c.fault.isNone && cmdMayStart copying c && cmdResident copying c && engOk (startCopy copying (cmdNo copying) c q)),
  (let s := scr ((0x108, 2) :: (block 0).filter (fun e => e.1 != 0x108)) copying
   copyIn s (fun c q => engFaults (startCopy s (cmdNo s) c q))),
  (let s := next (.copyStart (cmdNo copying)) copying
   copyIn s (fun c q => c.started && c.leave == .granted && c.left == 0 && q.chunk < chunks q && q.kind != 3 && engOk (runChunk s (cmdNo s) c q))),
  (let s := updCmd (next (.copyStart (cmdNo copying)) copying) (cmdNo copying) (fun c => match c.body with
     | .copy q => { c with body := .copy { q with dst := { q.dst with base := 0x01FFFE0000000000 } } }
     | _ => c)
   copyIn s (fun c q => engFaults (runChunk s (cmdNo s) c q))),
  (let s := next (.copyChunk (cmdNo copying)) (next (.copyStart (cmdNo copying)) copying)
   copyIn s (fun c q => c.stat.isNone && c.started && chunks q ≤ q.chunk && c.left == 0 && q.kind == 0) &&
     goes (.copyComplete (cmdNo copying)) s (fun u => u.cmds == [] && (team u 0).any (fun t => get 0 t.scratch 0x281 == 0x3C))),
  (let s := updCmd copying (cmdNo copying) (fun c => { c with fault := some { cause := 0x86, detail := 1 }, tag := some 3 })
   copyIn s (fun c _ => c.fault.isSome && c.tag.any (fun k => k < smallTeam.launch.tagn && smallTeam.launch.tagbase + smallTeam.launch.tagn ≤ 64))),
  (let s0 := next (.cpym { pr := 1 }) (scr (block 0x800C0000) (lane0 (grouped small)))
   let s := next (.copyChunk (cmdNo s0)) (next (.copyStart (cmdNo s0)) s0)
   copyIn s (fun c q => q.kind == 2 && !q.handed && c.fault.isNone && c.started && chunks q ≤ q.chunk && c.left == 0 && cmdNo s < s.nextId &&
     (matFault smallTeam (q.fkind - 1) q.farg.toNat (BitVec.ofNat 64 q.dst.base)).isNone && (queueOf (arrayOf s c.core) c.src).length < 4 && tagFree s 0 (followOn c q).tag)),
  (let s0 := next (.cpym { pr := 1 }) (scr (block 0x80000000) (lane0 (grouped small)))
   let s := next (.copyChunk (cmdNo s0)) (next (.copyStart (cmdNo s0)) s0)
   copyIn s (fun _ q => (matFault smallTeam (q.fkind - 1) q.farg.toNat (BitVec.ofNat 64 q.dst.base)).isSome && q.chunk == chunks q))] : List Bool).all id = true := by decide +kernel

def sweeping (n : W64) : State := next (.sweep { pr := 1 }) (scr [(0, 0x20002), (8, 0x2000), (0x10, 0x1000), (0x18, n)] (lane0 (grouped (mapped small page))))
def sweepIn (s : State) (p : Cmd → SweepCmd → Bool) : Bool :=
  match look s.cmds (cmdNo s) with
  | some c => match c.body with
    | .sweep q => p c q
    | _ => false
  | none => false
def granted (s : State) : State := updCmd s (cmdNo s) (fun c => { c with leave := .granted })
def tagged (tags busy : W64) : State := updCore small 0 (fun c => { c with tags, busy })
def tagWord (i : Instr) (s : State) (p : W64 → W64 → W64 → Bool) : Bool := holds i s (fun c => p (tagArg i (wOf i) s c) (tagsOf s c.t) (busyOf s c.t))

theorem wit_TagsAndSweeps : ([
  tagWord (.twaitany { dst := 8, a := .v 4 }) (addr small 0x10000) (fun m _ _ => 2 ^ 16 ≤ m.toNat), tagWord (.twaitall { dst := 8, b := .imm 0xFFFF }) (tagged 0 0) (fun m t b => m == 0xFFFF && t == 0 && b == 0),
  tagWord (.twaitall { dst := 8, b := .imm 15 }) (tagged 0 8) (fun m _ b => b &&& m != 0), tagWord (.twaitany { dst := 8, b := .imm 15 }) (tagged 4 8) (fun m t _ => t &&& m != 0),
  tagWord (.tffr { dst := 8, b := .imm 15 }) (tagged 12 0) (fun m t _ => (t &&& m).getLsbD 2 && !(t &&& m).getLsbD 0 && !(t &&& m).getLsbD 1), tagWord (.tffr { dst := 8, b := .imm 15 }) (tagged 0x8000 0) (fun m t _ => t &&& m == 0),
  tagWord (.tclr { b := .imm 15 }) small (fun _ _ _ => true),
  -- a tag that a completion of this cycle has set
  (let s := updCore (tagged 1 0) 0 (fun c => { c with doneTags := 1, doneAt := 0 })
   tagWord (.tffr { dst := 8, b := .imm 15 }) s (fun m t _ => t &&& ~~~(freshTags s smallTeam) &&& m == 0 && t == 1)),
  (let s := sweeping 16
   sweepIn s (fun c q => !c.started && c.fault.isNone && cmdMayStart s c && c.leave == .unasked && (sweepTranslate s (cmdNo s) c q.pages (sweepPages q)).2.isNone)),
  (let s := sweeping 0x10000
   sweepIn (updCore s 0 (fun c => { c with tlb := [{ ctx := 1, size := 16, vpn := 0, leaf := 0xC0000000000103C0 }, { ctx := 1, size := 16, vpn := 1, leaf := 0xD000100000010380 }] })) (fun c q =>
     match (sweepTranslate (updCore s 0 (fun c => { c with tlb := [{ ctx := 1, size := 16, vpn := 0, leaf := 0xC0000000000103C0 }, { ctx := 1, size := 16, vpn := 1, leaf := 0xD000100000010380 }] })) (cmdNo s) c q.pages (sweepPages q)).2 with
     | some (.fault _) => true
     | _ => false)),
  (let s := granted (next (.sweepStart (cmdNo (sweeping 16))) (sweeping 16))
   sweepIn s (fun c _ => !c.started && c.leave == .granted) && goes (.sweepStart (cmdNo s)) s (fun u => sweepIn u (fun c _ => c.started))),
  (let s0 := granted (next (.sweepStart (cmdNo (sweeping 0))) (sweeping 0))
   let s := updCmd (next (.sweepStart (cmdNo s0)) s0) (cmdNo s0) (fun c => { c with op := none })
   sweepIn s (fun c q => c.started && !q.written && c.left == 0 && (sweepValue s q).1.length == 8 && (match engBytes s (cmdNo s) c .engWrite q.res 8 with
     | .ok ls => engOk (engPortCheck s c ls) && ls == (List.range 8).map (fun k => Loc.mem (0x12000 + k))
     | .error _ => false)) && goes (.sweepComplete (cmdNo s)) s (fun u => u.pkts.length == 1 && sweepIn u (fun c q => q.written && c.left == 1))),
  (let s0 := granted (next (.sweepStart (cmdNo (sweeping 0))) (sweeping 0))
   let s := updCmd (next (.sweepStart (cmdNo s0)) s0) (cmdNo s0) (fun c => match c.body with
     | .sweep q => { c with op := none, flags := 1, body := .sweep { q with written := true } }
     | _ => c)
   sweepIn s (fun c q => c.started && c.fault.isNone && q.written && c.left == 0 && c.stat.isNone && c.op.isNone) &&
     goes (.sweepComplete (cmdNo s)) s (fun u => u.cmds == [] && (team u 0).any (fun t => t.flags.getLsbD 0)))] : List Bool).all id = true := by decide +kernel
def intDesc : W32 := 0x000C0000      -- format 6: INT8 elements
def matIn (s : State) (p : Cmd → MatCmd → Bool) : Bool :=
  match look s.cmds (cmdNo s) with
  | some c => match c.body with
    | .mat m => p c m
    | _ => false
  | none => false
/-- The operands b and a of the lowest lane pass the checks, and the queue has room. -/
def matWordIn (i : Instr) (s : State) (bad : Team → LaneIn → Option (Nat × Nat)) (ok : Bool) : Bool :=
  holds i s (fun c => (bad c.t (laneIn i (wOf i) s c (lowest c.act))).isNone == ok && isOk (storeWait s c false) &&
    (queueOf (arrayOf s c.t.core) c.id).length < 4)
/-- A matrix command in its queue, with leave, and the same command started. -/
def queued (i : Instr) (s : State) : State := granted (next i (lane0 (grouped s)))
def started (i : Instr) (s : State) : State := let s := queued i s; next (.matrixCommandStart (cmdNo s)) s
def dword (x : W32) : State := setR (setR (setR small 0 4 (lo scratch)) 0 5 (hi scratch)) 0 6 x
def mzeroI : Instr := .mzero { pr := 1, b := .sel (.v 6) }
def onArray (s : State) (f : MatArray → MatArray) : State := updArray s 0 f

theorem wit_MatrixWordsQueueCommands : ([
  matWordIn (.mloadb { a := .v 4, b := .sel (.v 6) }) (dword intDesc) (fun t x => matFault t 0 (lo x.b).toNat x.a) true,
  matWordIn (.mma { a := .v 4, b := .sel (.v 6) } true) (dword intDesc) (fun t x => matFault t 1 (lo x.b).toNat x.a) true,
  matWordIn mzeroI (lane0 (dword 0xFF00)) (fun t x => matFault t 2 (lo x.b).toNat 0) true, matWordIn mzeroI (lane0 (dword 0xFF01)) (fun t x => matFault t 2 (lo x.b).toNat 0) false,
  matWordIn (.mstore { a := .v 4, b := .sel (.v 6) } 0) (dword 0x100) (fun t x => match storeFault t (lo x.b).toNat (lo x.c).toNat with
    | some f => some f
    | none => imageFault t x.a (imageSpan 4 (lo x.b).toNat)) true,
  matWordIn (.mread { dst := 8, b := .sel (.v 6) } true) (dword 0x7FE) (fun _ x => posFault (lo x.b).toNat true) true,
  matWordIn (.mwrite { b := .sel (.v 6), c := .v 10 } true) (dword 0x7FF) (fun _ x => posFault (lo x.b).toNat true) false,
  holds mzeroI (onArray (lane0 (dword 0)) (fun a => { a with queues := [(0, [1, 2, 3, 4])] })) (fun c => queueOf (arrayOf (onArray (lane0 (dword 0)) (fun a => { a with queues := [(0, [1, 2, 3, 4])] })) 0) c.id == [1, 2, 3, 4]),
  -- ReservationIsTaken, ParityErrorsAreCounted
  holds (.mres { dst := 1 }) small (fun c => (arrayOf small c.t.core).reserved.isNone),
  holds (.mres { dst := 1 }) (onArray small (fun a => { a with reserved := some 9 })) (fun c => (arrayOf (onArray small (fun a => { a with reserved := some 9 })) c.t.core).reserved == some 9),
  matIn (started mzeroI (dword 0)) (fun c _ => (arrayOf (started mzeroI (dword 0)) c.core).computing == some (cmdNo (started mzeroI (dword 0)))) &&
    goes (.sequencerParityError (cmdNo (started mzeroI (dword 0)))) (onArray (started mzeroI (dword 0)) (fun a => { a with parity := 0xFFFF })) (fun u => (arrayOf u 0).parity == 0xFFFF)] : List Bool).all id = true := by decide +kernel

def completes (i : Instr) (s : State) (p : MatArray → Group → Bool) : Bool :=
  let s := updCmd (started i s) (cmdNo (started i s)) (fun c => { c with op := none })
  matIn s (fun c m => c.fault.isNone && c.stat.isNone && c.tag.isNone && (if m.member = 0 then (arrayOf s 0).loading else (arrayOf s 0).computing) == some (cmdNo s)) &&
    goes (.matrixCommandComplete (cmdNo s)) s (fun u => (group u ⟨0, 0⟩).any (fun g => p (arrayOf u 0) g))
def full : State := onArray (dword 0) (fun a => { a with acc := [(3, 77), (256, 5)], rowOwner := [(0, 0)] })

theorem wit_MatrixCommandsRun : ([
  holds (.mrel {} true) full (fun c => (queueOf (arrayOf full 0) c.id).isEmpty), holds (.mrel {} true) { queued mzeroI full with cur := { pc := 0x100008 } } (fun c => !(queueOf (arrayOf (queued mzeroI full) 0) c.id).isEmpty),
  runs (.mrel {} false) full, runs (.mstat { dst := 8 }) full,
  (let s := queued mzeroI full
   matIn s (fun c m => matReady s (cmdNo s) && (arrayOf s 0).computing.isNone && nextQueue s (arrayOf s 0) (m.member == 0) == some (queueKey c.src) &&
     (matRows m).all (fun r => (look (arrayOf s 0).rowOwner r).all (· == 0)))),
  (let s := queued mzeroI (onArray full (fun a => { a with rowOwner := [(0, 9)] }))
   matIn s (fun _ m => matReady s (cmdNo s) && (matRows m).contains 0)),
  (let i : Instr := .mloadb { pr := 1, a := .v 4, b := .sel (.v 6) }
   let s := queued i (onArray (dword intDesc) (fun a => { a with bank0 := { owner := some 9 } }))
   matIn s (fun _ m => matReady s (cmdNo s) && matBank m == some 0) && goes (.matrixCommandStart (cmdNo s)) s (fun u => (arrayOf u 0).loading == some (cmdNo s))),
  completes mzeroI full (fun a _ => a.acc == [(256, 5)] && a.computing.isNone),
  completes (.mread { pr := 1, dst := 8, b := .sel (.v 6) } true) full (fun _ g => readV g 8 0 == 0 && readV g 9 0 == 5),
  completes (.mwrite { pr := 1, b := .sel (.v 6), c := .v 10 } false) (setR full 0 10 9) (fun a _ => get 0 a.acc 0 == 9),
  completes (.mstore { pr := 1, a := .v 4, b := .sel (.v 6) } 0) full (fun a _ => a.computing.isNone),
  (let s := updCmd (started (.mma { pr := 1, a := .v 4, b := .sel (.v 6) } true) (onArray (dword intDesc) (fun a => { a with bank0 := { valid := true, fmt := 6 } }))) 2 (fun c => match c.body with
     | .mat m => { c with body := .mat { m with row := 2 }, op := none }
     | _ => c)
   matIn s (fun c m => c.fault.isNone && descRows m.desc.toNat ≤ m.row && (arrayOf s 0).computing == some (cmdNo s)))] : List Bool).all id = true := by decide +kernel

/-! A B image in the scratchpad is read whole: the bank load's hypothesis is met there. -/

theorem mapM_ok {ε α β : Type} (f : α → Except ε β) (g : α → β) (xs : List α) (h : ∀ x ∈ xs, f x = .ok (g x)) : xs.mapM f = .ok (xs.map g) := by
  induction xs with
  | nil => rfl
  | cons x xs ih =>
    rw [List.mapM_cons, h x (by simp), ih (fun y hy => h y (by simp [hy]))]
    rfl

theorem engBytes_scratch (s : State) (n : Nat) (c : Cmd) (k : AccKind) (va : W64) (m : Nat) (h : ∀ j, j < m → inScratch (va + BitVec.ofNat 64 j) = true) :
    engBytes s n c k va m = .ok ((List.range m).map (fun j => Loc.scr (scratchOff (va + BitVec.ofNat 64 j)))) := by
  apply mapM_ok
  intro j hj
  simp only [engByte, engPage, h j (List.mem_range.mp hj), if_true]
  rfl

theorem readRows_scratch (s : State) (n : Nat) (c : Cmd) (xs : List (W64 × Nat)) (h : ∀ e ∈ xs, ∀ j, j < e.2 → inScratch (e.1 + BitVec.ofNat 64 j) = true) :
    ∃ r, readRows s n c xs = .ok r := by
  refine ⟨_, mapM_ok _ (fun e => (List.range e.2).map (fun j => scrByte s c (scratchOff (e.1 + BitVec.ofNat 64 j)))) xs ?_⟩
  intro e he
  rw [engBytes_scratch s n c _ _ _ (h e he)]
  have hp : locPas ((List.range e.2).map (fun j => Loc.scr (scratchOff (e.1 + BitVec.ofNat 64 j)))) = [] := by
    simp only [locPas, List.filterMap_eq_nil_iff, List.mem_map]
    rintro _ ⟨_, _, rfl⟩
    rfl
  simp only [Bind.bind, Except.bind, engRead, hp, isMoving, linesMissing, badUnit, List.map_map, Function.comp_def]
  rfl

/-- An image of INT8 elements at the start of the scratchpad. -/
theorem wit_bank_loads (s : State) (n : Nat) (c : Cmd) (m : MatCmd) (hd : m.desc = intDesc) (ha : m.addr = scratch) : ∃ b, readBank s n c m = .ok b := by
  have hk : matK (descFmt m.desc.toNat) = 128 ∧ pitchOf m.desc.toNat 256 = 256 ∧ bRowBytes m.desc.toNat = 256 ∧ matScales m.desc.toNat = 0 := by
    rw [hd]; decide
  have h : ∀ e ∈ (List.range 128).map (fun k => (scratch + BitVec.ofNat 64 (k * 256), 256)), ∀ j, j < e.2 → inScratch (e.1 + BitVec.ofNat 64 j) = true := by
    simp only [List.mem_map, List.mem_range]
    rintro e ⟨k, hk, rfl⟩ j hj
    have hj : j < 256 := hj
    have h1 : (scratch + BitVec.ofNat 64 (k * 256) + BitVec.ofNat 64 j).toNat = 0x01FFFF0000000000 + k * 256 + j := by
      have h2 : scratch.toNat = 0x01FFFF0000000000 := by decide
      rw [BitVec.toNat_add, BitVec.toNat_add, BitVec.toNat_ofNat, BitVec.toNat_ofNat, h2]
      omega
    show inScratch (scratch + BitVec.ofNat 64 (k * 256) + BitVec.ofNat 64 j) = true
    unfold inScratch
    rw [Bool.and_eq_true]
    exact ⟨decide_eq_true (by omega), decide_eq_true (by omega)⟩
  obtain ⟨r, hr⟩ := readRows_scratch s n c _ h
  obtain ⟨r2, hr2⟩ := readRows_scratch s n c [] (by simp)
  simp only [readBank, hk.1, hk.2.2.1, hk.2.1, hk.2.2.2, ha, hr, List.range_zero, List.map_nil, hr2]
  exact ⟨_, rfl⟩

theorem wit_MatrixResults : ([
  (let s := started (.mma { pr := 1, a := .v 4, b := .sel (.v 6) } true) (onArray (dword intDesc) (fun a => { a with bank0 := { valid := true, fmt := 6 } }))
   matIn s (fun c m => c.fault.isNone && (arrayOf s 0).computing == some (cmdNo s) && m.row < descRows m.desc.toNat && engOk (runPair s (cmdNo s) c m))),
  (let s0 := started (.mstore { pr := 1, a := .v 4, b := .sel (.v 6) } 0) (mapped (setR (setR (dword 0x100) 0 4 0) 0 5 0) page)
   let s := next (.matrixCommandComplete (cmdNo s0)) s0
   matIn s (fun c m => m.member == 4 && m.hasRead && m.row + 1 < m.upTo && c.left == 0 && (match engBytes s (cmdNo s) c .engWrite m.addr 1024 with
     | .ok ls => engOk (engPortCheck s c ls) && ls.head? == some (.mem 0x10000)
     | .error _ => false)))] : List Bool).all id = true := by decide +kernel

def image : List (Nat × W64) := [(0x11000, 0x5DEF092101400001), (0x11010, 0x2A00000101000000), (0x11018, 0x1020000071280001), (0x11020, 0xB8000000)]
def defined9 (s : State) : State := onTeam { s with defs := [(defKey s 1 9, { defined := true, version := 1, dw0 := 0x5DEF092101400001, image := [] })] }
  (fun t => { t with headers := [(9, { dw0 := 0x5DEF092101400001, version := 1 })] })
def rmoOk (i : Instr) (num : Nat) (ret : Bool) (s : State) : Bool :=
  holds i s (fun c => match headerOf c.t num with
    | none => false
    | some h => isOk (rmoFields c (wOf i) h.dw0 ret) && isOk (rmoDecode c (wOf i) (rmoShape h.dw0 ret (wOf i))) && isOk (regChecks (wOf i) (rmoShape h.dw0 ret (wOf i)) (none, false) c) &&
      isOk (rmoAddrCheck s c num h.dw0 (rmoAddr c (wOf i))) && isOk (memWait s c false) && isOk (storeWait s c false) && isOk (streamWait c 1) &&
      ((lanesOf c.act).mapM (rmoReq s c (wOf i) h.dw0)).toOption.isSome)

theorem wit_RemoteOpcodes : ([
  -- RemoteOpcodesIssue
  rmoOk (.rmoN { a := .v 4, b := .sel (.v 10) } 0 1) 0 false (inPage small), rmoOk (.rmoR { dst := 8, a := .v 4, b := .sel (.v 10) } 5 1) 5 true (inPage small),
  rmoOk (.rmoN { a := .v 4 } 9 1) 9 false (defined9 (inPage small)), holds (.rmoN { a := .v 4 } 31 1) (inPage small) (fun c => (headerOf c.t 31).isNone),
  -- RemoteDefinitions
  (let i : Instr := .rmdef { a := .v 4 }
   let s := { grouped (inPage small) with mem := cells image }
   holds i s (fun c =>
     let k := lowCtx c
     let a := (laneIn i (wOf i) s c (lowest c.act)).a
     let hd := imageDwords s k a 2
     let n := 2 + imageRest (hd.headD 0)
     relDone c.gr && a == 0x1000 && hd.headD 0 == 0x5DEF092101400001 && n == 5 && isOk (defAddrCheck s k a) && isOk (dictAccess s k a n) &&
       (linesMissing s ((List.range n).flatMap (dictBytes s k a))).isEmpty && (dictBad s k a n).isNone &&
       isOk (defImageCheck s k a (hd.headD 0) (hd.getD 1 0) (imageOps (hd.headD 0) ((imageDwords s k a n).drop 2))))),
  runs (.rmdrop { b := .imm 7 }) small, runs (.rmdrop { a := .v 6 }) (setR small 0 6 32),
  holds (.rmdrop { a := .v 6 }) (setR (defined9 small) 0 6 9) (fun c => (defOf (defined9 small) c.t.launch.ctx 9).defined && c.gr.defWait.isNone),
  holds (.rmdrop { a := .v 6 }) (setR small 0 6 9) (fun c => !(defOf small c.t.launch.ctx 9).defined && c.gr.defWait.isNone && !rmoPending small c.t.launch.ctx 9 0),
  withA (.rmqry { dst := 8, a := .v 6 }) (setR small 0 6 31) 31, withA (.rmqry { dst := 8, a := .v 6 }) (setR small 0 6 32) 32] : List Bool).all id = true := by decide +kernel

def request (load : Option Nat) : Pkt :=
  { src := ⟨0, 0⟩, op := some 9, ctx := 1, core := 0, dest := 8, stream := 1, seq := 1, wm := 0, flag := false, held := true
    body := .rmo 9 { dw0 := 0x5DEF092101400001, version := 1 } load [{ lane := 0, va := 0x1000, pa := 0x1000, ops := [] }] }
def remote (load : Option Nat) (fetched : Bool) : State :=
  { openStore (defined9 (grouped small)) 1 with
    pkts := [(0, request load)], units := [(8, [.rmo 0 0])]
    images := if fetched then [(imageKey 8 3 1 9 1, { version := 1, image := [0x01000000, 0x2A000001, 0x71280001, 0x10200000, 0xB8000000] })] else [] }

theorem wit_RemoteRequests : ([
  (let s := remote (some 0) true
   (reqOf s (.rmo 0 0)).any (fun x => x.load.isSome && !isGuest x.p.src && (imageOf s 8 x).isSome && !isMoving s (footPas x) && (heldAway s (footPas x)).isEmpty && (badUnit s (granPas x)).isNone) &&
     goes (.rmoExecute 8) s (fun u => readByte u 0x1000 == 1 && u.rmoAcks.length == 1)),
  (let s := { openStore small 1 with rmoAcks := [(0, { src := ⟨0, 0⟩, op := 9, load := none, lane := 0, flags := 1 })] }
   goes (.rmoAcknowledge 0) s (fun u => u.rmoAcks == [] && (team u 0).any (fun t => t.flags == 1))),
  (let s := remote none false
   (needsImage s 8).any (fun x => !isGuest x.p.src && (defOf s x.p.ctx x.num).version == x.hdr.version) && goes (.definitionFetch 8) s (fun u => u.images.length == 1))] : List Bool).all id = true := by decide +kernel
/-! Zenith: queue 0 of context 1 has 64 slots at 0x4000, and the die of the host interfaces translates the first 64 KiB of the context. -/

def ownLaunch : Cnt := { count := 3, state := 1, next := 3, launch := smallTeam.launch }
def q0 : ZQueue := { ctx := 1, enable := true, base := 0x4000 }
def zen (x : ZQueue) (s : State) : State :=
  { mapped s page with lcnt := [(lcntKey 1 5, ownLaunch)], zen := { s.zen with queues := [(0, x)] }
                       l2tlb := [(0, [{ ctx := 1, size := 16, vpn := 0, leaf := page }])] }
def nextIs (n : Nat) (s : State) : State := { s with lcnt := [(lcntKey 1 5, { ownLaunch with next := n })] }
def spawnI (b : SelB) : Instr := .spawn { dst := 8, a := .v 4, b }
def spawnIn (s : State) (p : Nat → Nat → Bool) : Bool :=
  let i := spawnI (.imm 0)
  holds i s (fun c => (spawnEntry (wOf i) s c).toNat < 2 ^ 57 && (spawnEntry (wOf i) s c).toNat % 8 == 0 && isOk (memWait s c false) && relDone c.gr &&
    (lanesOf c.act).all (fun l => (laneIn i (wOf i) s c l).a == 0) && c.t.joins.length ≤ 4 &&
    (liveRun s (ownKey c) c.t.run).any (fun x => p (qFree s c.t.queue) (x.next + laneCount c.act)))
/-- Lane frames at 0x1000 name the join block at 0x1040, with a good continuation record. -/
def joining (held : Bool) : State :=
  { onTeam (addr (zen { q0 with pending := [{ words := [] }] } small) 0x1000) (fun t => { t with joins := if held then [0x1040] else [] }) with
    mem := cells [(0x11000, 0x1040), (0x11040, 7), (0x11060, 0x4000000000100000), (0x11068, 0x2000)] }
def joinIn (s : State) : Bool :=
  let i := spawnI (.imm 0)
  holds i s (fun c => isOk (spawnCheckF (wOf i) s c) && isOk (spawnCheckJ (wOf i) s c) && isOk (spawnCheckQ (wOf i) s c) && (liveRun s (ownKey c) c.t.run).isSome &&
    (frameLanes (wOf i) s c).all (fun l => (strongPas s c .load (spawnFrame (wOf i) s c l) 8).all (fun p => tierOf p != some 3)) &&
    (recordPas (wOf i) s c).all (fun p => tierOf p != some 3) && (lanesOf c.act).all (fun l => spawnJoin (wOf i) s c l == 0x1040) &&
    countPas s c 0x1040 == (List.range 8).map (0x11040 + ·) && (heldAway s (countPas s c 0x1040)).isEmpty && !(zq s c.t.queue).pending.isEmpty)
def growIn (n : BitVec 18) (s : State) (p : Int → Nat → Nat → Bool) : Bool :=
  let i : Instr := .grow { dst := 8, b := .imm n }
  holds i s (fun c => (liveRun s (ownKey c) c.t.run).any (fun x => p (growCount (wOf i) s c) (x.next + (growCount (wOf i) s c).toNat) (qFree s c.t.queue)))
def launchIn (q : BitVec 18) (a : W64) (s : State) (p : ZQueue → Nat → Nat → Bool) : Bool :=
  let i : Instr := .launch { a := .v 4, b := .imm q }
  let s := addr s a
  holds i s (fun c => isOk (memWait s c false) && relDone c.gr && launchAddr (wOf i) s c == a && launchQueue (wOf i) s c == q.toNat &&
    p (zq s q.toNat) (qFree s q.toNat) c.t.launch.ctx)
def named (n : BitVec 18) (lvl : Level) (s : State) : Bool :=
  holds (.cancel { b := .imm n } lvl) s (fun c => entryName (.cancel { b := .imm n } lvl) { b := .imm n } s c == n.toNat && (wOf (.cancel { b := .imm n } lvl)).a == .zero && c.t.launch.ctx == 1)
def rdNamed (n : BitVec 18) (lvl : Level) (s : State) : Bool :=
  holds (.cntrd { dst := 8, b := .imm n } lvl) s (fun c => entryName (.cntrd { dst := 8, b := .imm n } lvl) { dst := 8, b := .imm n } s c == n.toNat)

theorem wit_ZenithWords : ([
  holds (spawnI (.sel (.v 6))) (setR (zen q0 small) 0 6 0x100004) (fun c => (spawnEntry (wOf (spawnI (.sel (.v 6)))) (setR (zen q0 small) 0 6 0x100004) c).toNat % 8 == 4),
  spawnIn (addr (zen q0 small) 0) (fun free next => 32 ≤ free && next ≤ 2 ^ 31), spawnIn (addr (zen { q0 with tail := 33 } small) 0) (fun free _ => free == 31),
  spawnIn (addr (nextIs (2 ^ 31 - 32) (zen { q0 with tail := 32 } small)) 0) (fun free next => free == 32 && next == 2 ^ 31),
  spawnIn (addr (nextIs (2 ^ 31 - 31) (zen q0 small)) 0) (fun free next => 32 ≤ free && 2 ^ 31 < next), joinIn (joining false), joinIn (joining true),
  growIn (-1) (zen q0 small) (fun n _ _ => n < 0), growIn 0 (nextIs (2 ^ 31) (zen q0 small)) (fun n x _ => n == 0 && x == 2 ^ 31),
  growIn 1 (nextIs (2 ^ 31) (zen q0 small)) (fun _ x _ => 2 ^ 31 < x), growIn 1 (zen { q0 with tail := 64 } small) (fun n x f => n == 1 && x ≤ 2 ^ 31 && f == 0),
  growIn 1 (nextIs (2 ^ 31 - 1) (zen { q0 with tail := 63 } small)) (fun n x f => n == 1 && x == 2 ^ 31 && f == 1),
  launchIn 64 0x1000 (zen q0 small) (fun _ _ _ => true), launchIn 63 0x1000 (zen q0 small) (fun x _ _ => !x.enable), launchIn 0 0x1000 (zen { q0 with ctx := 2 } small) (fun x _ k => x.ctx.toNat != k),
  launchIn 0 0x1000 (zen { q0 with tail := 64 } small) (fun x f k => x.enable && x.ctx.toNat == k && f == 0), launchIn 0 0x1020 (zen q0 small) (fun x f k => x.enable && x.ctx.toNat == k && 0 < f),
  (let i : Instr := .launch { a := .v 4, b := .imm 0 }
   let s := addr (zen q0 small) 0x1000
   holds i s (fun c => (rangeFault c.t 0x1000 64).isNone && isOk (laneAccess s c .load 8 64 [lowest c.act] (fun _ => 0x1000)) && isOk (readable s c (strongPas s c .load 0x1000 64)) &&
     (strongPas s c .load 0x1000 64).all (fun p => tierOf p != some 3) && 0 < qFree s 0)),
  named 1024 .g (zen q0 small), named 1 .p (zen q0 small), named 1 .j (zen q0 small), named 6 .l (zen q0 small), named 5 .l (zen q0 small) && ownLaunch.state == 1 && 0 < ownLaunch.count && !lastEnds (zen q0 small) ownLaunch && ownLaunch.launch.compl == 0 && ownLaunch.node.isNone && sorted (zen q0 small).teams,
  (let s := zen q0 small
   named 1023 .g { s with zen := { s.zen with gcnt := [(1023, { ctx := 1, state := 1 })] } } && s.lcnt.all (fun e => e.2.launch.gslot != 1023)),
  named 0 .p { small with zen := { small.zen with pcnt := [(1, { state := 1 })] } }, named 0 .j { small with zen := { small.zen with jcnt := [(1, { state := 1 })] } },
  small.lcnt.isEmpty && small.zen.gcnt.isEmpty,
  rdNamed 1024 .g small, rdNamed 1 .p small, rdNamed 1 .j small, rdNamed 5 .l (zen q0 small), rdNamed 1023 .g small, rdNamed 0 .p small, rdNamed 0 .j small] : List Bool).all id = true := by decide +kernel

/-- Memory holds these doublewords, and context 1 exists. -/
def holding (xs : List (Nat × W64)) (x : ZQueue) : State := { zen x { small with teams := [] } with lcnt := [], mem := cells ((16, 0x8000000000200000) :: xs) }
def zOk {α : Type} : Except ZStop α → Bool
  | .ok _ => true
  | .error _ => false
def gives {α : Type} (p : α → Bool) : Except ZStop α → Bool
  | .ok a => p a
  | .error _ => false
/-- A launch record at slot 0 with an extent of n by 1 by 1, and its image at 0x6000. -/
def launchRec (n : W64) : State :=
  holding [(0x14000, 0x6000), (0x14018, (1 <<< 47) + (1 <<< 31) + n), (0x14028, 1), (0x14030, 0x0000FFFF00000009), (0x16000, 0x5A4B0001), (0x16008, 0x100)] { q0 with tail := 1 }
def atHead (s : State) (k : Nat) (p : List W64 → Bool) : Bool :=
  headReady (zq s 0) && (look s.zen.halts 1).isNone && gives (fun ws => recKind ws == k && p ws) (headWords s 0)
def entering (r : Mark) (s : State) : Bool :=
  let x := zq s 0
  x.pending.head? == some r && !x.stuck && qUsed x < qSize x &&
    gives (fun pas => pas.Nodup && !isMoving s pas && (heldAway s pas).isEmpty && pas.all (fun p => tierOf p != some 3))
      (zenPas s x.ctx.toNat .zenWrite (taskSlot 0) (x.base + BitVec.ofNat 64 (64 * (x.tail.toNat % 2 ^ x.log2n.toNat))) 64)
def rec0 : Mark := { words := [0x6000] }
def rec2 : Mark := { words := [0x4000000000100000, 0, 0, 5 * 2 ^ 32] }
/-- A graph of one node at 0x8000, or an empty one. -/
def graphRec (n : W64) : State :=
  holding [(0x14000, 0x8000000000008000), (0x14008, 1023), (0x18000, n), (0x18040, 0x6000), (0x18070, 0x000003FF00000009)] { q0 with tail := 1, pending := [rec0] }
def halting (table : W64) (failed : Bool) (n : Nat) : State :=
  let s := holding [] q0
  { s with zen := { s.zen with halts := [(1, { queue := 0, table, failed })], pcnt := [(1, { count := n, state := 1 })] } }

theorem wit_QueueAndHeadEvents : ([
  (let x := zq small 63
   !x.enable && x.head == x.tail && !(host small 1).fqEnable), (zq (zen q0 small) 0).enable, qFree (zen { q0 with tail := 64 } small) 0 == 0,
  0 < qFree (zen { q0 with pending := [rec0] } small) 0, 0 < qFree (zen q0 small) 0 && q0.pending.isEmpty,
  entering rec0 (zen { q0 with pending := [rec0, rec2], tail := 63 } small) && recKind rec0.words == 0,
  (let s := zen { q0 with pending := [rec2], tail := 64, head := 1 } small
   entering rec2 s && recKind rec2.words == 2 && (liveRun s (recKey (zq s 0) rec2.words) 0).isSome),
  (let r : Mark := { rec2 with run := 4, held := true }
   let s := { zen { q0 with pending := [r], tail := 64, head := 1 } small with lcnt := [(lcntKey 1 5, { ownLaunch with seq := 4 })] }
   entering r s && isCont r && (liveRun s (recKey (zq s 0) r.words) r.run).isSome && r.node.isNone &&
     goes (.pendingListEntry 0) s (fun u => (look u.lcnt (lcntKey 1 5)).any (fun c => c.next == ownLaunch.next + 1))),
  -- launch records, graphs and phases
  (let s := launchRec 3
   !lcntFull s && markLive s (zq s 0) (headMark (zq s 0)) && atHead s 0 (fun ws => gives (fun r => match r with
     | .ok l => l.extx == 3 && (recordCause s 1 ws).isNone
     | .error _ => false) (checkLaunch s 1 1 ws))),
  (let s := launchRec 0
   !lcntFull s && atHead s 0 (fun ws => (launchOf ws).compl == 0 && (launchOf ws).extx == 0 && gives (fun r => match r with
     | .ok _ => false
     | .error c => c == 0xC1) (checkLaunch s 1 1 ws))),
  (let s := { launchRec 0 with lcnt := [(lcntKey 1 9, ownLaunch)], zen := { (launchRec 0).zen with queues := [(0, { q0 with tail := 1, marks := [(0, { words := [], issuer := some (⟨7, 0⟩, 3) })] })] } }
   (look s.lcnt (lcntKey 1 9)).any cntLive && markLive s (zq s 0) (headMark (zq s 0)) && atHead s 0 (fun ws => lcntKey 1 (launchOf ws).lid == lcntKey 1 9)),
  (let s := graphRec 1
   atHead s 4 (fun ws => fieldN (ws.getD 1 0) 0 10 == 1023 && gives (fun r => match r with
     | .ok ns => ns.all (fun n => n.left == 0 && !(zq s n.queue).pending.isEmpty) && ns.length == 1
     | .error _ => false) (readGraph s 1 (taskHead 0) 1023 ws))),
  (let s := graphRec 0
   !(host s 0).fqEnable && atHead s 4 (fun ws => gives (fun r => match r with
     | .ok _ => false
     | .error d => d == 1) (readGraph s 1 (taskHead 0) 1023 ws))),
  atHead (holding [(0x14000, 0xA000000000000100)] { q0 with tail := 1 }) 5 (fun ws => ws.getD 0 0 &&& 0x1E00000000000007 == 0 && (ws.drop 1).all (· == 0)),
  -- the reconfiguration window
  ((look (halting 0 false 1).zen.pcnt 1).map (·.count)).getD 0 != 0, ((look (halting 0 false 0).zen.pcnt 1).map (·.count)).getD 0 == 0 && (halting 0 false 0).fab.peers.isEmpty,
  (let s := halting 0x01FFFF0000000000 false 0
   !(host s 0).fqEnable && gives (fun r => match r.2 with
     | .ok _ => false
     | .error d => d == 1) (readTable s 1 (taskCtx 1) 0x01FFFF0000000000))] : List Bool).all id = true := by decide +kernel

theorem wit_TeamCoordinates : 1 ≤ smallTeam.launch.extx ∧ 1 ≤ smallTeam.launch.exty := by decide

/-- Queue 0 is about to place a team of an accepted launch, and quad 0 is awake or not. -/
def placing (awake : Bool) (next last : Nat) (l : Launch) : State :=
  let s := launchRec 3
  let s := updQ s 0 (fun x => { x with prog := some { key := lcntKey 1 5, run := 0, next, last, entry := 0x6100 } })
  { s with lcnt := [(lcntKey 1 5, { ownLaunch with launch := l })], zen := { s.zen with quads := [(0, { awake })] } }
def placeIn (s : State) (p : HeadProg → Cnt → Option Nat → Bool) : Bool :=
  queueOrder s == [0] && (zq s 0).saved.isEmpty && match (zq s 0).prog with
    | some h => (liveRun s h.key h.run).any (fun c => p h c (pickCore s (launchNeed c.launch)))
    | none => false
/-- Two queues of one priority: the one served last comes last. -/
def twoQueues : State := { launchRec 3 with zen := { (launchRec 3).zen with queues := [(5, { q0 with tail := 1 }), (9, { q0 with tail := 1 })], lastQueue := 5 } }

theorem wit_TeamsAreDispatched : ([
  queueOrder twoQueues == [9, 5],
  placeIn (placing true 0 3 {}) (fun _ c core => core == some 0 && c.launch.grpm1 < 32 && zOk (readDict (placing true 0 3 {}) (taskPlace 0) c.launch)),
  placeIn (placing true 2 3 { grpm1 := 31, regb := 15 }) (fun h c core => core == some 0 && h.next + 1 == h.last && c.launch.grpm1 < 32 && c.launch.dictn == 0),
  placeIn (placing true 0 3 { dictn := 2, dictoff := 0x40, kcode := 0x6000, ctx := 1 }) (fun _ c core => core == some 0 && zOk (readDict (placing true 0 3 {}) (taskPlace 0) c.launch)),
  placeIn (placing false 0 3 {}) (fun _ _ core => core == none)] : List Bool).all id = true := by decide +kernel

/-- The team of `small` may be saved; a team of another launch of its queue may stand beside it. -/
def rival : Team := { smallTeam with run := 7, order := 9, dispatched := 10 ^ 6, index := 3, queue := 1 }
def twoTeams (x y : ZQueue) : State :=
  { small with teams := [(0, smallTeam), (1, rival)], cycle := 10 ^ 6, zen := { small.zen with queues := [(0, x), (1, y)] } }
/-- The trigger asks a team to leave. -/
def asked (tm : Nat) (i : Instr) (s : State) : Bool := goes i s (fun u => (team u tm).any (·.preemptReq))
theorem wit_QuadsAndPreemption : ([
  (let s := { small with cycle := 1574, zen := { small.zen with quads := [(0, { wake := some 1575 })] } }
   (quad s 0).wake == some 1575 && s.cycle < 1575),
  (let s := { small with cycle := 1575, zen := { small.zen with quads := [(0, { wake := some 1575 })] } }
   (quad s 0).wake.any (fun t => t ≤ s.cycle)),
  (let s := { small with cycle := 34999, zen := { small.zen with quads := [(1, { awake := true })] } }
   (quad s 1).awake && s.teams.all (fun e => e.2.status == .saved || quadOf e.2.core != 1) && s.cycle < (quad s 1).emptyAt + 35000),
  (let s := { small with cycle := 35000, zen := { small.zen with quads := [(1, { awake := true })] } }
   (quad s 1).awake && (quad s 1).emptyAt + 35000 ≤ s.cycle),
  look small.teams 0 == some smallTeam && sorted small.teams && smallTeam.status == .resident && smallTeam.launch.save != 0,
  (let s := twoTeams { slice := 1, blocked := some 0 } {}
   overSlice s smallTeam && (!overSlice s rival || smallTeam.dispatched < rival.dispatched) && sorted s.teams && asked 0 (.timeSliceExpiry 0) s),
  (let s := twoTeams { pri := 1 } { pri := 3, blocked := some 0 }
   (zq s 1).blocked.any (fun b => b + 3500 ≤ s.cycle) && teamPri s smallTeam < 3 && !(teamPri s rival < 3) && asked 0 (.priorityPreemptTimeout 1) s),
  (let s := twoTeams { pri := 1 } { pri := 1 }
   let s := { s with zen := { s.zen with queues := s.zen.queues ++ [(2, { pri := 2, blocked := some (10 ^ 6 - 3500) })] }, teams := [(0, { smallTeam with order := 11 }), (1, rival)] }
   (zq s 2).blocked.any (fun b => b + 3500 ≤ s.cycle) && teamPri s smallTeam < 2 && teamPri s smallTeam == teamPri s rival && rival.order < 11 && asked 0 (.priorityPreemptTimeout 2) s),
  (let s := { small with cycle := 87500, zen := { small.zen with quads := [(0, { awake := true }), (1, { awake := true })] } }
   (quad s 0).packAt + 87500 ≤ s.cycle && quadTeams s 0 == [(0, smallTeam)] && (placesFor s (savedNeed smallTeam)).contains 2 && quadOf 2 != 0 && asked 0 (.powerPackingCheck 0) s),
  (let s := updCore { small with cycle := 1024 } 0 (fun c => { c with stuck := some 0 })
   (Machine.core s 0).stuck.any (fun b => b + 1024 ≤ s.cycle) && (teamsOn s 0).all (fun e => !e.2.preemptReq) && asked 0 (.registerDeadlockBreak 0) s), asked 0 (.hostPreemptRequest 0) small,
  -- triggers that are not due
  !((team small 0).all (fun t => overSlice small t)), (zq small 0).blocked.isNone, small.cycle < (quad small 0).packAt + 87500,
  (let s := { small with cycle := 87500 }
   (quad s 5).packAt + 87500 ≤ s.cycle && (quadTeams s 5).length != 1), (Machine.core small 0).stuck.isNone] : List Bool).all id = true := by decide +kernel

def leaving (f : Team → Team) : State := onTeam (zen q0 small) f
def endOver (f : Team → Team) (x : Cnt) : State :=
  { leaving (fun t => f { t with groups := t.groups.map (fun e => (e.1, { e.2 with live := 0 })) }) with lcnt := [(lcntKey 1 5, x)] }
def overIn (s : State) (p : Team → Cnt → Bool) : Bool :=
  (look s.teams 0).any (fun t => drained s 0 t && t.status != .saved && t.join == 0 && t.joins.isEmpty && t.contDue.isNone && (liveRun s (lcntKey 1 5) t.run).any (fun x => x.node.isNone && p t x))
theorem wit_TeamsLeaveTheirCores : ([
  (let s := leaving (fun t => { t with preemptReq := true, dictBusy := some (0, 1) })
   (look s.teams 0).any (fun t => !t.cancelReq && !atBoundary s 0 t)),
  (let s := leaving (fun t => { t with preemptReq := true })
   (look s.teams 0).any (fun t => !t.cancelReq && atBoundary s 0 t)),
  smallTeam.cancelReq == false, (leaving (fun t => { t with cancelReq := true })).cmds.isEmpty, !drained small 0 smallTeam,
  overIn (endOver id { ownLaunch with count := 2 }) (fun _ x => 2 ≤ x.count), overIn (endOver id { ownLaunch with count := 1 }) (fun t x => x.count == 1 && t.launch.compl == 0),
  (let s := endOver (fun t => { t with launch := { t.launch with compl := 0x3000 } }) { ownLaunch with count := 1, fault := true }
   overIn s (fun t x => x.count == 1 && t.launch.compl == 0x3000 && s.fab.srcns.isEmpty &&
     gives (fun pas => pas.Nodup && !isMoving s pas && (heldAway s pas).isEmpty && pas.all (fun p => tierOf p != some 3)) (zenPas s 1 .zenWrite (taskEnd 0) 0x3000 8)))] : List Bool).all id = true := by decide +kernel

/-! A team is saved and comes back. Zenith's TLB maps the first 2 MiB of context 1, and the area stands at 0x40000. -/

/-- One entry serves Zenith, and nothing stands in its way. -/
structure Clear (s : State) : Prop where
  declined : s.declined = []
  moving : s.moving = []
  dir : s.fab.dir = []
  owner : s.owner = []
  cores : s.cores = []
  tlb : s.l2tlb = [(0, [{ ctx := 1, size := 21, vpn := 0, leaf := page }])]

theorem clear_pa {s : State} (h : Clear s) (k : AccKind) (hk : k = .zenith ∨ k = .zenWrite) (task n : Nat) (hn : n < 2 ^ 21) :
    zenPa s 1 k task (BitVec.ofNat 64 n) = .ok (0x10000 + n) := by
  have hv : (BitVec.ofNat 64 n).toNat = n := by rw [BitVec.toNat_ofNat]; omega
  have h1 : nonCanonical (BitVec.ofNat 64 n) = false := by
    simp only [nonCanonical, bne_eq_false_iff_eq]
    apply BitVec.eq_of_toNat_eq
    simp [BitVec.toNat_ushiftRight, hv]
    omega
  have h2 : inScratch (BitVec.ofNat 64 n) = false := by
    simp only [inScratch, hv, Bool.and_eq_false_iff, decide_eq_false_iff_not]
    left; omega
  have h3 : inCounters (BitVec.ofNat 64 n) = false := by
    simp only [inCounters, hv, Bool.and_eq_false_iff, decide_eq_false_iff_not]
    left; omega
  have hl : tlbLook s zenCore 1 (BitVec.ofNat 64 n) = some { ctx := 1, size := 21, vpn := 0, leaf := page } := by
    have hc : (Machine.core s zenCore).tlb = [] := by simp only [Machine.core, h.cores]; rfl
    have hh : tlbHit 1 (BitVec.ofNat 64 n) { ctx := 1, size := 21, vpn := 0, leaf := page } = true := by
      simp only [tlbHit, hv, beq_self_eq_true, Bool.true_and, beq_iff_eq]
      omega
    simp only [tlbLook, hc, h.tlb, List.find?_nil]
    show List.find? _ [_] = _
    simp [hh]
  have ha : allows k page = true := by obtain rfl | rfl := hk <;> decide +kernel
  have ht : leafTier page ≠ 3 := by decide +kernel
  have hp : leafPa page = 0x10000 := by decide +kernel
  simp only [zenPa, h1, h2, h3, Bool.false_eq_true, if_false, Machine.translate, h.declined, List.find?_nil, hl, ha, Bool.not_true, ht, leafAddr, hv, hp]
  rw [Nat.mod_eq_of_lt (by omega)]

theorem clear_pas {s : State} (h : Clear s) (k : AccKind) (hk : k = .zenith ∨ k = .zenWrite) (task a n : Nat) (hn : a + n ≤ 2 ^ 21) :
    zenPas s 1 k task (BitVec.ofNat 64 a) n = .ok ((List.range n).map (fun j => 0x10000 + (a + j))) := by
  apply mapM_ok
  intro j hj
  have hj := List.mem_range.mp hj
  rw [show BitVec.ofNat 64 a + BitVec.ofNat 64 j = BitVec.ofNat 64 (a + j) from (BitVec.ofNat_add a j).symm]
  exact clear_pa h k hk task _ (by omega)

theorem clear_moving {s : State} (h : Clear s) (pas : List Nat) : isMoving s pas = false := by
  simp [isMoving, h.moving]
theorem low_tier {p : Nat} (h : p < 0xC000000000) : tierOf p = some 0 := by
  rw [tierOf, if_pos h]

theorem writes_frame (bs : List (Nat × Byte)) (s : State) : ∃ m, bs.foldl (fun s e => writeByte s e.1 e.2) s = { s with mem := m } := by
  induction bs generalizing s with
  | nil => exact ⟨s.mem, rfl⟩
  | cons b bs ih =>
    obtain ⟨m, h⟩ := ih (writeByte s b.1 b.2)
    exact ⟨m, h⟩
theorem no_owner (ws : List Nat) {s : State} (h : s.owner = []) : ws.foldl dropWord s = s := by
  induction ws with
  | nil => rfl
  | cons w ws ih => rw [List.foldl_cons, show dropWord s w = s by simp [dropWord, h, look], ih]

theorem clear_write {s : State} (h : Clear s) (task a : Nat) (bs : List Byte) (hn : a + bs.length ≤ 2 ^ 21) :
    ∃ m b, zenWrite s 1 task (BitVec.ofNat 64 a) bs = .ok { s with mem := m, bad := b } := by
  have hz : ∀ e ∈ ((List.range bs.length).map (fun j => 0x10000 + (a + j))).zip bs, tierOf e.1 = some 0 := by
    intro e he
    have := List.of_mem_zip he
    obtain ⟨j, hj, h2⟩ := List.mem_map.mp this.1
    have hj := List.mem_range.mp hj
    exact low_tier (by omega)
  have h3 : (((List.range bs.length).map (fun j => 0x10000 + (a + j))).zip bs).filter (fun b => tierOf b.1 == some 3) = [] := by
    rw [List.filter_eq_nil_iff]
    intro e he
    rw [hz e he]
    decide
  have hh : heldAway s ((List.range bs.length).map (fun j => 0x10000 + (a + j))) = [] := by simp [heldAway, h.dir, look]
  obtain ⟨m, hm⟩ := writes_frame ((((List.range bs.length).map (fun j => 0x10000 + (a + j))).zip bs).filter (fun b => tierOf b.1 != some 3)) s
  refine ⟨m, ?_, ?_⟩
  rotate_left
  · simp only [zenWrite, clear_pas h .zenWrite (.inr rfl) task a bs.length hn, Bind.bind, Except.bind, clear_moving h, hh, Bool.false_eq_true, if_false, ne_eq,
      not_true_eq_false, h3]
    simp only [zenPeers, List.map_nil, List.eraseDups_nil, List.foldl_nil, engineWrite, no_owner _ h.owner, hm]
    rfl

theorem clear_frame {s : State} (h : Clear s) (m : List Host.Cell) (b : FMap Bool) : Clear { s with mem := m, bad := b } :=
  ⟨h.declined, h.moving, h.dir, h.owner, h.cores, h.tlb⟩

theorem regBytes_length (gr : Group) : (regBytes gr).length = 128 * gr.alloc := by
  have h : ∀ ks : List Nat, (ks.flatMap (fun k => leBytes 4 (readV gr (k / 32) (k % 32)).toNat)).length = 4 * ks.length := by
    intro ks
    induction ks with
    | nil => rfl
    | cons k ks ih => rw [List.flatMap_cons, List.length_append, ih, leBytes_length, List.length_cons]; omega
  rw [regBytes, h, List.length_range]
  omega

theorem fold_ok {α : Type} (P : State → Prop) (f : State → α → Except ZStop State) (xs : List α) (h : ∀ s, P s → ∀ x ∈ xs, ∃ u, f s x = .ok u ∧ P u) :
    ∀ s, P s → ∃ u, xs.foldlM f s = .ok u ∧ P u := by
  induction xs with
  | nil => exact fun s hs => ⟨s, rfl, hs⟩
  | cons x xs ih =>
    intro s hs
    obtain ⟨u, hu, hp⟩ := h s hs x (by simp)
    obtain ⟨v, hv, hq⟩ := ih (fun s hs y hy => h s hs y (by simp [hy])) u hp
    exact ⟨v, by rw [List.foldlM_cons, hu]; exact hv, hq⟩

theorem clear_area {s : State} (h : Clear s) (tm : Nat) (t : Team) (no : Nat) (hc : t.launch.ctx = 1) (hb : saveBase t + areaBytes t ≤ 2 ^ 21)
    (hg : ∀ e ∈ t.groups, e.1 < 32 → e.2.live ≠ 0 → 256 * e.1 + e.2.alloc ≤ 256 * groupCount t) : ∃ u, writeArea s tm t no = .ok u ∧ Clear u := by
  have hw : ∀ s, Clear s → ∀ a bs, a + bs.length ≤ 2 ^ 21 → ∃ u, zenWrite s t.launch.ctx (taskSave tm) (BitVec.ofNat 64 a) bs = .ok u ∧ Clear u := by
    intro s h a bs hn
    obtain ⟨m, b, he⟩ := clear_write h (taskSave tm) a bs hn
    exact ⟨_, hc ▸ he, clear_frame h m b⟩
  simp only [areaBytes] at hb
  obtain ⟨s1, e1, h1⟩ := hw s h (saveBase t) ((ownRegions t).map (Config.saveByte no)) (by
    rw [List.length_map, ownRegions, List.length_range]
    exact Nat.le_trans (Nat.add_le_add_left (Nat.mul_le_mul_right 1024 (by omega)) _) hb)
  obtain ⟨s2, e2, h2⟩ := fold_ok Clear (fun (s : State) (e : Nat × Group) => zenWrite s t.launch.ctx (taskSave tm) (BitVec.ofNat 64 (saveReg t e.1 0 0)) (regBytes e.2))
    (t.groups.filter (fun (e : Nat × Group) => decide (e.1 < 32) && e.2.live != 0)) (by
      intro s hs e he
      obtain ⟨hm, hp⟩ := List.mem_filter.mp he
      simp only [Bool.and_eq_true, decide_eq_true_eq, bne_iff_ne] at hp
      have := hg e hm hp.1 hp.2
      apply hw s hs
      rw [regBytes_length]
      simp only [saveReg]
      omega) s1 h1
  obtain ⟨s3, e3, h3⟩ := hw s2 h2 (saveScr t 0) (scratchRead t 0 (t.launch.scrkb * 1024)) (by
    rw [saveScr, scratchRead, List.length_map, List.length_range]; omega)
  refine ⟨s3, ?_, h3⟩
  simp only [writeArea, Bind.bind, Except.bind, e1]
  rw [e2]
  exact e3

theorem mapM_some {ε α β : Type} (f : α → Except ε β) (xs : List α) (h : ∀ x ∈ xs, ∃ y, f x = .ok y) : ∃ ys, xs.mapM f = .ok ys := by
  induction xs with
  | nil => exact ⟨[], rfl⟩
  | cons x xs ih =>
    obtain ⟨y, hy⟩ := h x (by simp)
    obtain ⟨ys, hys⟩ := ih (fun x hx => h x (by simp [hx]))
    exact ⟨y :: ys, by rw [List.mapM_cons, hy, hys]; rfl⟩

theorem clear_pages {s : State} (h : Clear s) (task base n : Nat) (hn : 0 < n) (hb : base + n ≤ 2 ^ 21) : ∃ l, areaPages s 1 task base n = .ok l := by
  apply mapM_some
  intro p hp
  obtain ⟨j, hj, rfl⟩ := List.mem_map.mp hp
  have hj := List.mem_range.mp hj
  have hm : max base ((base / 65536 + j) * 65536) < 2 ^ 21 := by omega
  generalize max base ((base / 65536 + j) * 65536) = va at hm ⊢
  dsimp only
  rw [clear_pa h .zenWrite (.inr rfl) task va hm]
  exact ⟨_, rfl⟩

theorem two_binds {ε α β γ : Type} {u : α} {l : β} (x : Except ε α) (y : α → Except ε β) (f : α → β → γ) (hx : x = .ok u) (hy : y u = .ok l) :
    (x >>= fun s => y s >>= fun p => pure (f s p)) = .ok (f u l) := by
  rw [hx]
  show (y u >>= _) = _
  rw [hy]
  rfl

/-- A team whose area the pages of Zenith reach can be saved. -/
theorem clear_saves {s : State} (h : Clear s) (tm : Nat) (t : Team) (hc : t.launch.ctx = 1) (hb : saveBase t + areaBytes t ≤ 2 ^ 21)
    (hg : ∀ e ∈ t.groups, e.1 < 32 → (saveGroup e.2).live ≠ 0 → 256 * e.1 + (saveGroup e.2).alloc ≤ 256 * groupCount t) : ∃ u, saveTeam s tm t = .ok u := by
  have hn : Clear (newId s).2 := ⟨h.declined, h.moving, h.dir, h.owner, h.cores, h.tlb⟩
  have ha : 0 < areaBytes t := by simp only [areaBytes]; omega
  unfold saveTeam
  generalize newId s = x at *
  obtain ⟨no, s'⟩ := x
  obtain ⟨t', ht⟩ : ∃ t' : Team, t' = { t with groups := t.groups.map (fun (e : Nat × Group) => (e.1, saveGroup e.2)) } := ⟨_, rfl⟩
  have hl : t'.launch = t.launch := ht ▸ rfl
  have hs : saveBase t' = saveBase t := ht ▸ rfl
  have hr : areaBytes t' = areaBytes t := ht ▸ rfl
  have hq : groupCount t' = groupCount t := ht ▸ rfl
  have hm : t'.groups = t.groups.map (fun e => (e.1, saveGroup e.2)) := ht ▸ rfl
  simp only [← ht]
  obtain ⟨u, hu, hcu⟩ := clear_area hn tm t' no (hl ▸ hc) (by rw [hs, hr]; exact hb) (by
    intro e he h1 h2
    rw [hm] at he
    obtain ⟨x, hx, rfl⟩ := List.mem_map.mp he
    rw [hq]
    exact hg x hx h1 h2)
  obtain ⟨l, hp⟩ := clear_pages hcu (taskSave tm) (saveBase t') (areaBytes t') (by rw [hr]; exact ha) (by rw [hs, hr]; exact hb)
  exact ⟨_, two_binds _ _ _ hu (by rw [hc]; exact hp)⟩

theorem clear_read {s : State} (h : Clear s) (hbad : s.bad = []) (task a n : Nat) (hn : a + n ≤ 2 ^ 21) :
    zenRead s 1 task (BitVec.ofNat 64 a) n = .ok ((List.range n).map (fun j => readByte s (0x10000 + (a + j)))) := by
  have hz : ∀ p ∈ (List.range n).map (fun j => 0x10000 + (a + j)), tierOf p = some 0 := by
    intro p hp
    obtain ⟨j, hj, rfl⟩ := List.mem_map.mp hp
    have hj := List.mem_range.mp hj
    exact low_tier (by omega)
  have hl : linesMissing s ((List.range n).map (fun j => 0x10000 + (a + j))) = [] := by
    have : ((List.range n).map (fun j => 0x10000 + (a + j))).filter (fun p => tierOf p == some 3 && (look s.fab.copies p).isNone) = [] := by
      rw [List.filter_eq_nil_iff]
      intro p hp
      rw [hz p hp]
      simp
    rw [linesMissing, this]
    rfl
  have hu : badUnit s ((List.range n).map (fun j => 0x10000 + (a + j))) = none := by
    have h1 : ((List.range n).map (fun j => 0x10000 + (a + j))).find? (fun p => (look s.bad (p / 8)).isSome) = none := by
      simp [hbad, look]
    have h2 : ((List.range n).map (fun j => 0x10000 + (a + j))).any (fun p => tierOf p == some 2 && (look s.portBad (p / 8)).isSome) = false := by
      rw [List.any_eq_false]
      intro p hp
      rw [hz p hp]
      simp
    simp only [badUnit, h1, h2, Bool.false_eq_true, if_false]
  have hm : ((List.range n).map (fun j => 0x10000 + (a + j))).map (homeByte s) = (List.range n).map (fun j => readByte s (0x10000 + (a + j))) := by
    rw [List.map_map]
    apply List.map_congr_left
    intro j hj
    have := hz _ (List.mem_map.mpr ⟨j, hj, rfl⟩)
    simp only [Function.comp, homeByte, this]
    rfl
  unfold zenRead
  rw [clear_pas h .zenith (.inl rfl) task a n hn]
  show (if _ then _ else if _ then _ else _) = _
  rw [clear_moving h, if_neg (by decide), hl, if_neg (by decide), hu, ← hm]
  rfl

theorem one_bind {ε α β : Type} (p : α → Bool) (x : α) (e : Except ε β) (g : α → Except ε β) (y : β) (h : p x = false) (hg : g x = .ok y) :
    ((Except.ok x : Except ε α) >>= fun a => if p a then e else g a) = .ok y := by
  show (if _ then _ else _) = _
  rw [h]
  exact hg

/-- The area of a saved team that holds what its save wrote is read whole. -/
theorem clear_restores {s : State} (h : Clear s) (hbad : s.bad = []) (tm : Nat) (t : Team) (hc : t.launch.ctx = 1)
    (hb : saveBase t + areaBytes t ≤ 2 ^ 21)
    (hm : ∀ k, k < (296 + 16 * groupCount t) * 1024 → readByte s (0x10000 + (saveBase t + k)) = Config.saveByte t.saveNo k) :
    ∃ bs, readArea s tm t = .ok bs := by
  unfold readArea
  rw [hc, clear_read h hbad _ _ _ hb]
  have hf : (ownRegions t).any (fun k => ((List.range (areaBytes t)).map (fun j => readByte s (0x10000 + (saveBase t + j)))).getD k 0 != Config.saveByte t.saveNo k) = false := by
    rw [List.any_eq_false]
    intro k hk
    have hk : k < (296 + 16 * groupCount t) * 1024 := List.mem_range.mp hk
    have hka : k < areaBytes t := Nat.lt_of_lt_of_le hk (Nat.mul_le_mul_right 1024 (by omega))
    have hg : ((List.range (areaBytes t)).map (fun j => readByte s (0x10000 + (saveBase t + j)))).getD k 0 = readByte s (0x10000 + (saveBase t + k)) := by
      rw [List.getD_eq_getElem?_getD, List.getElem?_map, List.getElem?_range hka]
      rfl
    rw [hg, hm k hk]
    simp
  refine ⟨_, one_bind (fun (bs : List Byte) => (ownRegions t).any (fun k => bs.getD k 0 != Config.saveByte t.saveNo k)) _ _ _ _ hf rfl⟩

/-- A team that is to be saved, and one that has been saved: its area stands at 0x50000 of tier 0. -/
def reached (s : State) : State := { s with l2tlb := [(0, [{ ctx := 1, size := 21, vpn := 0, leaf := page }])] }
def savable : State := reached (onTeam small (fun t => { t with preemptReq := true }))
def savedTeam : Team := { smallTeam with status := .saved }
@[irreducible] def savedArea (n : Nat) : List Host.Cell := (List.range n).map (fun k => (0x50000 + k, Config.saveByte 0 k))
def saved : State :=
  { reached { small with teams := [(0, savedTeam)], zen := { small.zen with quads := [(0, { awake := true })], queues := [(0, { q0 with saved := [0] })] } } with
    mem := savedArea 319488 }

theorem saved_mem : saved.mem = savedArea 319488 := rfl

theorem look_cells (f : Nat → Byte) (a n k : Nat) (h : k < n) : look ((List.range n).map (fun k => (a + k, f k))) (a + k) = some (f k) := by
  have h2 : ∀ n b k, k < n → look ((List.range' b n).map (fun k => (a + k, f k))) (a + (b + k)) = some (f (b + k)) := by
    intro n
    induction n with
    | zero => intro b k hk; omega
    | succ n ih =>
      intro b k hk
      cases k with
      | zero => simp [List.range'_succ, look]
      | succ k =>
        have h := ih (b + 1) k (by omega)
        rw [show b + 1 + k = b + (k + 1) by omega] at h
        simpa [List.range'_succ, look] using h
  have := h2 n 0 k h
  rw [Nat.zero_add, ← List.range_eq_range'] at this
  exact this

theorem read_cells (s : State) (f : Nat → Byte) {a n : Nat} (hm : s.mem = (List.range n).map (fun k => (a + k, f k))) (k : Nat) (h : k < n) :
    readByte s (a + k) = f k := by
  rw [readByte, Machine.get, hm, look_cells f a n k h]
  rfl

theorem wit_saves : atBoundary savable 0 ((look savable.teams 0).getD {}) = true ∧ (∃ t u, look savable.teams 0 = some t ∧ saveTeam savable 0 t = .ok u) := by
  refine ⟨by decide +kernel, { smallTeam with preemptReq := true }, ?_⟩
  obtain ⟨u, hu⟩ := clear_saves (s := savable) ⟨rfl, rfl, rfl, rfl, rfl, rfl⟩ 0 { smallTeam with preemptReq := true } (by decide) (by decide +kernel) (by decide +kernel)
  exact ⟨u, by decide +kernel, hu⟩

theorem saved_mem_eq : saved.mem = (List.range 319488).map (fun k => (0x50000 + k, Config.saveByte 0 k)) := by rw [saved_mem, savedArea]

theorem saved_area (k : Nat) (hk : k < (296 + 16 * groupCount savedTeam) * 1024) :
    readByte saved (0x10000 + (saveBase savedTeam + k)) = Config.saveByte savedTeam.saveNo k := by
  have hb : saveBase savedTeam = 0x40000 := by decide +kernel
  have hg : groupCount savedTeam = 1 := rfl
  rw [hg] at hk
  have hk2 : k < 319488 := by omega
  rw [hb, ← Nat.add_assoc]
  exact read_cells saved (Config.saveByte 0) saved_mem_eq k hk2

theorem wit_restores : queueOrder saved = [0] ∧ pickCore saved (savedNeed savedTeam) = some 0 ∧
    ∃ bs b0 b1, readArea saved 0 savedTeam = .ok bs ∧ replay (updTeam saved 0 (withScratch · bs)) 0 savedTeam 0 0 = .ok b0 ∧
      replay (updTeam saved 0 (withScratch · bs)) 0 savedTeam 0 1 = .ok b1 := by
  obtain ⟨bs, hb⟩ := clear_restores (s := saved) ⟨rfl, rfl, rfl, rfl, rfl, rfl⟩ rfl 0 savedTeam (by decide) (by decide +kernel) saved_area
  exact ⟨by decide +kernel, by decide +kernel, bs, { owner := some 0 }, { owner := some 0 }, hb, rfl, rfl⟩

/-! The fabric: flits of device 5 on port 2. -/

def fgrpIn (k : FgrpKind) (x : W32) (p : State → Nat → Bool) : Bool :=
  let s := grouped (setR small 0 6 x)
  let i : Instr := .fgrp { dst := 8, b := .sel (.v 6) } k
  holds i s (fun c => (lanesOf c.act).all (fun l => p s (lo (laneIn i (wOf i) s c l).b).toNat))
def mcastI : Instr := .mcast { a := .v 4, b := .sel (.v 6), c := .v 10 } false 1
def mcastIn (set : W32) (s : State) (p : Nat → Bool) : Bool :=
  holds mcastI (setR s 0 6 set) (fun c => p (lo (laneIn mcastI (wOf mcastI) (setR s 0 6 set) c (lowest c.act)).b).toNat)

theorem wit_FabricWords : ([
  mcastIn 0 (addr small 0x1000) (fun _ => small.fab.table.isNone), mcastIn 2 (addr (grouped small) 0x1000) (fun n => groupTable.sets[n]?.isNone),
  mcastIn 1 (addr (grouped small) 0x1000) (fun n => groupTable.sets[n]? == some [9] && !isMember (grouped small) 9),
  (let s := setR (addr (grouped small) 0x1000) 0 6 0
   holds mcastI s (fun c => groupTable.sets[0]? == some [3, 5] && [3, 5].all (fun m => (peerFault s m).isNone) && isOk (storeWait s c false) && isOk (streamWait c 1) &&
     (lanesOf c.act).all (fun l => let va := (laneIn mcastI (wOf mcastI) s c l).a; !nonCanonical va && !inScratch va && va.toNat % 4 == 0))),
  fgrpIn .info 0 (fun _ _ => true), fgrpIn .route 1023 (fun _ n => n == 1023), fgrpIn .route 5 (fun _ n => n == 5), fgrpIn .route 1024 (fun _ n => n == 1024),
  fgrpIn .tree 0 (fun _ n => n < groupTable.trees.length), fgrpIn .tree 1 (fun s n => (s.fab.table.map (·.trees.length)).getD 0 ≤ n)] : List Bool).all id = true := by decide +kernel

/-- A record of a sum of one word at the scratchpad's start, and its words' state: operand a is the record's offset. -/
def collWords (bad : W64) : List (Nat × W64) := [(0, 0x0000000700200000 + bad), (8, scratch + 0x200), (0x10, 0x0000000400010001), (0x18, 0x1000), (0x200, 5)]
def collState (off : W64) (bad : W64) : State := addr (scr (collWords bad) (grouped (mapped small page))) off
def collI : Instr := .coll { a := .v 4 } 0
def collWord (s : State) (off : Nat) (p : Ctx → Bool) : Bool :=
  holds collI s (fun c => (lo (laneIn collI (wOf collI) s c (lowest c.act)).a).toNat == off && p c)
def collReady (s : State) (c : Ctx) : Bool :=
  (collFault s c 0).isNone && isOk (storeWait s c false) && isOk (streamWait c 0) && tagFree s c.id.team (collCmd c 0 0).tag
def issued : State := next collI (collState 0 0)
def collIn (s : State) (p : Cmd → CollCmd → Bool) : Bool := (look s.cmds (cmdNo s)).any (fun c => (collOf c).any (p c))
/-- The tree has a child that is no member. -/
def parted (s : State) : State :=
  { s with fab := { s.fab with table := some { groupTable with trees := [{ parent := 0x3FF, children := [9], isIn := true, switch := 0xFFFF, ops := 0 }] } } }
def flit (kind payload : Nat) (p : FabPkt) : Flit := { port := 2, src := 5, words := ctlWords 5 3 p kind payload }
def pkt1 : FabPkt := { tsn := 1, body := .burst [] }
def arrives (kind : Nat) (f : Flit) (s : State) : Bool := portUp s f.port && !flitBad f && fKind f == kind && fDdev f == deviceId s
def fresh (kind : Nat) (f : Flit) (s : State) : Bool := arrives kind f s && arrivalOf (peerOf s (fSdev f)) (fTsn f) == .fresh

theorem wit_CollectivesRun : ([
  collWord (addr (scr (collWords 0) small) 0) 0 (fun _ => true), collWord (collState 0x40 0) 64 (fun c => scratchSize c.t == 65536), collWord (collState 65536 0) 65536 (fun c => scratchSize c.t < 65536 + 128),
  collWord (collState 0 1) 0 (fun c => collFault (collState 0 1) c 0 == some (0xB0, 3)), collWord (collState 0 0) 0 (fun c => collReady (collState 0 0) c && collCount (collState 0 0) < 16),
  (let s := { collState 0 0 with cmds := (List.range 16).map (fun n => (n, { src := ⟨9, 0⟩, lane := 0, core := 1, ctx := 1, body := .coll { inst := 1, tree := 9, op := 0, dkind := 0, src := 0, cstride := 0, c := 0, nel := 1, res := 0, cap := 0 } })) }
   collWord s 0 (fun c => collReady s c && 16 ≤ collCount s)),
  collIn (parted issued) (fun c k => c.fault.isNone && (treeOf (parted issued) k.tree).any (fun te => treeNear te == [9]) && !c.started && cmdMayStart (parted issued) c && !reachable (parted issued) 9),
  collIn issued (fun c k => c.fault.isNone && (treeOf issued k.tree).any (fun te => treeNear te == [] && te.parent == 0x3FF) && !c.started && cmdMayStart issued c && issued.fab.collIn.isEmpty &&
    engOk (ownFold issued (cmdNo issued) c k) && k.result.isNone && k.final.isNone),
  (let s := next (.collStart (cmdNo issued)) issued
   collIn s (fun c k => k.dkind == 0 && !k.written && c.left == 0 && (treeOf s k.tree).any isRoot && k.final == some [5] && engOk (writeRes s (cmdNo s) c k [5]))),
  (let s := updColl (next (.collStart (cmdNo issued)) issued) (cmdNo issued) (fun k => { k with written := true })
   collIn s (fun c k => c.stat.isNone && k.written && c.left == 0 && (team s c.src.team).any (·.status == .resident))),
  (let f := flit 0x0D (7 + 0xB6 * 2 ^ 38) pkt1
   fresh 0x0D f issued && payField f 36 2 == 0 && (findColl issued (payField f 32 4) (BitVec.ofNat 32 (payField f 0 32))).any (fun e => e.2.1.fault.isNone && !collDone e.2.2)),
  (let f := flit 0x0D (8 + 0xB6 * 2 ^ 38) pkt1
   fresh 0x0D f issued && (findColl issued (payField f 32 4) (BitVec.ofNat 32 (payField f 0 32))).isNone && issued.fab.collIn.isEmpty)] : List Bool).all id = true := by decide +kernel

/-- A store of lane 0 is outstanding at device 5, and its packet is not acknowledged. -/
def away : State :=
  let s := grouped (openStore small 1)
  { s with cycle := 40000
           fab := { s.fab with srcns := [(4, ⟨0, 0⟩)], away := [(0, { dev := 5, src := ⟨0, 0⟩, op := some 9, stream := 1, seq := 1, core := 0, addr := 0, kind := .store [] })]
                               peers := [(5, { nextTsn := 2, retx := [{ pkt1 with body := .ctl 8 0 }], quiet := some 5000 })] } }
theorem wit_FabricReplies : ([
  (let f := flit 0x01 (1 + 2 ^ 32) pkt1
   arrives 0x01 f away && fSdev f == 5 && (peerOf away 5).waiting.isEmpty && !(peerOf away 5).unreach), arrives 0x02 (flit 0x02 1 pkt1) away, arrives 0x02 (flit 0x02 (1 + 2 ^ 32) pkt1) away,
  (let f := flit 0x03 0 { pkt1 with srcn := 4, stream := 1, seq := 1 }
   fresh 0x03 f away && (awayOf away f).any (fun e => e.1 == 0) && (group away ⟨0, 0⟩).any (fun g => (look g.ops 9).isSome)),
  !(peerOf away 5).retx.isEmpty && (peerOf away 5).lastSent + 7000 ≤ away.cycle, unreachableNow away 5] : List Bool).all id = true := by decide +kernel

def there : State := grouped small
def hits (kind payload : Nat) (s : State) (p : Flit → Bool) : Bool := let f := flit kind payload { pkt1 with stream := 1, seq := 3, srcn := 7 }; fresh kind f s && p f
/-- A burst with one write of a doubleword at 0x1000, as its flits. -/
def burstFlits (a : Nat) : List Flit := pktFlits 5 3 2 { pkt1 with body := .burst [padFlit [BitVec.ofNat 64 (2 ^ 60 + a), 0xFF, 0x0102030405060708]] }
def theFlit (fs : List Flit) (k : Nat) : Flit := fs.getD k { port := 0, src := 0, words := [] }
def staged (fs : List Flit) (got : Bool) : State :=
  { there with fab := { there.fab with bursts := [{ port := 2, hdr := (theFlit fs 0).words, flits := if got then [(theFlit fs 1).words] else [] }] } }
theorem wit_FabricPackets : ([
  (let f := flit 0x0E 0 { pkt1 with tsn := 0 }
   arrives 0x0E f there && arrivalOf (peerOf there 5) (fTsn f) == .again), hits 0x04 0 there (fun f => fStream f != 0), hits 0x05 0x1000 there (fun f => local01 (payField f 0 52)),
  hits 0x06 0x1000 there (fun _ => true), hits 0x07 0x1000 { there with fab := { there.fab with dir := [(0x20, { devs := [5], waiting := [5] })] } } (fun f => payField f 7 45 == 0x20),
  hits 0x08 0 there (fun f => !closed there f),
  (let s := { there with pkts := [(0, { storePkt with src := guestSrc 5 7, stream := 1, seq := 3, op := none })] }
   hits 0x0B (3 + 4 * 2 ^ 24) s (fun f => s.pkts.all (fun e => e.2.src == guestSrc (fSdev f) (fSrcn f) && e.2.stream == fStream f &&
     seqGe e.2.seq (BitVec.ofNat 24 (payField f 0 24)) && seqGe (BitVec.ofNat 24 (payField f 24 24)) e.2.seq && !pktTaken s e.1 e.2))),
  hits 0x0C 0 there (fun _ => true), hits 0x0E 0 there (fun _ => true),
  -- bursts
  arrives 0x09 (theFlit (burstFlits 0x1000) 0) there && there.fab.bursts.isEmpty,
  (let fs := burstFlits 0x1000
   let s := staged fs false
   let f := theFlit fs 1
   portUp s f.port && f.words.length == 64 && s.fab.bursts.any (fun b => b.port == f.port && fSdev (burstFlit b) == f.src && !burstFull b && b.tag.isNone))] : List Bool).all id = true := by decide +kernel

set_option maxRecDepth 1000000 in
theorem wit_Bursts : ([
  (let fs := burstFlits 0x1000
   let s := staged fs true
   let f := { theFlit fs 2 with words := ctlWords 5 3 pkt1 0x0A 1 }
   arrives 0x0A f s && s.fab.bursts.any (fun b => sameBurst b { port := 2, hdr := f.words } && burstFull b && burstTag b.hdr b.flits != (flitDw f 2).toNat)),
  (let fs := burstFlits 0x1000
   let s := staged fs true
   let f := theFlit fs 2
   arrives 0x0A f s && s.fab.bursts.any (fun b => sameBurst b { port := 2, hdr := f.words } && burstFull b && burstTag b.hdr b.flits == (flitDw f 2).toNat && b.tag.isNone &&
     arrivalOf (peerOf s 5) (fTsn (burstFlit b)) == .fresh && !closed s (burstFlit b) && (let r := burstItems b.flits
       !r.2 && !r.1.isEmpty && r.1.all (fun x => itemType x == 1) && !(r.1.flatMap writeBytesOf).isEmpty &&
         (r.1.flatMap writeBytesOf).all (fun e => local01 e.1 && homeSlice e.1 == homeSlice 0x1000))))] : List Bool).all id = true := by decide +kernel

def wanting (spent : Nat) : State :=
  { updCmd copying (cmdNo copying) (fun c => { c with leave := .wanted }) with ceil := { copying.ceil with spent } }
def region (r : Region) (cycle : Nat) : State := { small with regions := [(0, r)], cycle }
theorem wit_LeaveRegionsAndChannels : ([
  (let s := wanting 0
   (look s.cmds (cmdNo s)).any (fun c => c.fault.isNone && wantsLeave s (cmdNo s) c && !afterHigher s (quadOf c.core)) && s.ceil.window == s.cycle / 1750 && s.ceil.queue.isEmpty),
  (let s := wanting (10 ^ 12)
   (look s.cmds (cmdNo s)).any (fun c => s.ceil.spent != 0 && !((s.ceil.spent + chargeOf c) * 1280 ≤ (s.ceil.pcap - 600) * 1000000 * s.ceil.scale))),
  ({ small with cycle := 1750 } : State).ceil.window != 1750 / 1750,
  (let s := { wanting 0 with cycle := 1750 }
   let s := { s with ceil := { s.ceil with queue := [cmdNo s] } }
   s.ceil.window != s.cycle / 1750 && (look s.cmds (cmdNo s)).isSome),
  ({} : Region).windowAt + regionCycles {} 1024 ≤ (region {} 3000).cycle && !({} : Region).down, ({} : Region).idleSince + regionCycles {} 8192 ≤ 30000 && ({} : Region).wake.isNone && !fifoHolds (region {} 30000) 0,
  (let s := { region { down := true } 5 with pkts := [(0, { storePkt with dest := 0 })] }
   regionTraffic s 0 && goes (.regionWake 0) s (fun u => (look u.regions 0).any (fun x => x.wake == some (5 + regionCycles {} 64)))),
  (let s := { region { down := true, downAt := 7 } 8 with pkts := [(0, { storePkt with dest := 0 })] }
   regionTraffic s 0 && regionCycle {} 7 == regionCycle {} 8 && goes (.regionWake 0) s (fun u => (look u.regions 0).any (fun x => x.wake == some (8 + regionCycles {} 6)))), (region { wake := some 5 } 5).regions == [(0, { wake := some 5 })],
  (look small.sys.channels 384).isNone && outOfService small (chanGroup 384) < 2 && !small.moving.contains (chanGroup 384),
  (let s := { small with sys := { small.sys with channels := [(385, 1), (386, 2)] } }
   (look s.sys.channels 384).isNone && 2 ≤ outOfService s (chanGroup 384)),
  (let s := { small with sys := { small.sys with channels := [(0, 1), (3, 2), (6, 1), (9, 1)] } }
   (look s.sys.channels 381).isNone && 4 ≤ outOfService s (chanGroup 381)),
  local01 0 && ({ small with moving := [0] } : State).moving.contains (regionGroup 0), get 0 small.chanFn 5 != 7] : List Bool).all id = true := by decide +kernel

def rec1 : RingRec := { words := [0x71, 0, 0, 0], lane := some 3 }
def ring (n : Nat) : State := onTeam { small with recs := [(0, { team := 0, words := [0x71, 0, 0, 0], lane := some 3 })] } (fun t => { t with ring := List.replicate n rec1 })
theorem wit_FaultRecordsAreDelivered : ([
  (team (ring 31) 0).any (fun t => (recTarget t rec1).isSome && t.ring.length < 32), (team (ring 32) 0).any (fun t => (recTarget t rec1).isSome && t.ring.length == 32),
  (let t := { smallTeam with groups := smallTeam.groups.map (fun e => (e.1, { e.2 with live := 0 })) }
   (recTarget t rec1).isNone),
  (let s := { small with recs := [(0, { team := 9, words := [0x71, 0, 0, 0], lane := some 3, origin := some { ctx := 1, lid := 5, index := 0, run := 0 } })] }
   (team s 9).isNone && goes (.faultRecordArrival 0) s (fun u => u.recs == [] && (host u (hostOf 1)).waiting.length == 1)),
  (team (ring 1) 0).any (fun t => t.ring.all (fun x => (recTarget t x).isSome) && recTarget t rec1 == some 0 && t.trapBase != 0 &&
    (look t.groups 0).any (fun g => canDeliver (ring 1) t ⟨0, 0⟩ g && g.chain.isNone))] : List Bool).all id = true := by decide +kernel

/-! Which start step fails, if any, is a free value (log 8): both cases of a start can only be assumed. -/

theorem wit_StartsAndResets : ([
  ({ small with sys := { small.sys with mode := .off } } : State).sys.mode == .off, small.sys.mode != .off && !dawnNow small && small.sys.flashBusy.isNone && !small.sys.trip,
  ({ small with sys := { small.sys with flashBusy := some 0 } } : State).sys.flashBusy.isSome, fieldN ({ small with startFail := 3 } : State).startFail 0 2 == 3] : List Bool).all id = true := by
  decide +kernel

theorem wit_SystemController : ([
  small.sys.mode != .off, ({ small with cycle := 17500 } : State).sys.sampledAt + 17500 ≤ 17500, ({ small with sys := { small.sys with frozen := true } } : State).sys.frozen,
  (let s := { small with sys := { small.sys with quote := some (1, [1, 2, 3, 4]), quoteAddr := [(1, 0x40000)] } }
   let pa := (get 0 s.sys.quoteAddr 1).toNat
   tierOf pa == some 0 && tierOf (pa + 4959) == some 0), small.sys.flashBusy.isNone, small.sys.waiting.isEmpty,
  (999 : Nat) < 1000 ∧ (0x3E8 : W64).toNat % 4096 = 1000 ∧ (0xE10 : W64).toNat % 4096 = 3600] : List Bool).all id = true := by decide +kernel

/-- A step from a canonical memory to a next state. -/
theorem wit_MemoryStaysCanonical : memWf State.reset.mem = true ∧ (∃ t, step { State.reset with agenda := [.event .freezePinAssert] } = .next t) := by
  refine ⟨by decide, ?_⟩
  have h : (match step { State.reset with agenda := [.event .freezePinAssert] } with
    | .next _ => true
    | _ => false) = true := by decide +kernel
  revert h
  cases step { State.reset with agenda := [.event .freezePinAssert] } <;> simp

end Sys2Proof.Tests
end

section
/-! The target of an immediate branch and its reach (R95). -/

open Sys2Proof.Safety

namespace Sys2Proof.Machine

/-! The target as a number. -/

/-- Clearing the slot bits of a PC leaves its word address. -/
theorem toNat_clearSlot (pc : W64) : (pc &&& ~~~7#64).toNat = pc.toNat / 8 * 8 := by
  have h : pc &&& ~~~7#64 = pc >>> 3 <<< 3 := (BitVec.shiftLeft_ushiftRight (x := pc) (n := 3)).symm
  rw [h, BitVec.toNat_shiftLeft, BitVec.toNat_ushiftRight, Nat.shiftRight_eq_div_pow, Nat.shiftLeft_eq]
  omega

/-- The 57 bits of a PC, kept by its mask, are the number modulo 2 ^ 57. -/
theorem toNat_pcMask (x : W64) : (x &&& 0x1FFFFFFFFFFFFFF).toNat = x.toNat % 2 ^ 57 := by
  rw [BitVec.toNat_and]
  exact Nat.and_two_pow_sub_one_eq_mod x.toNat 57

/-- The offset of an immediate branch counts words of 8 bytes. -/
theorem toNat_immOffset (k : BitVec 18) : ((k.signExtend 64 <<< 3).toNat : Int) = 8 * k.toInt % 2 ^ 64 := by
  rw [BitVec.signExtend, BitVec.toNat_shiftLeft, BitVec.toNat_ofInt, Nat.shiftLeft_eq]
  omega

/-- R95's target as a number: at slot 0, and modulo the width of a PC. -/
theorem toNat_immTarget (pc : W64) (k : BitVec 18) :
    ((immTarget pc (.imm k)).toNat : Int) = (((pc.toNat / 8 * 8 : Nat) : Int) + 8 * k.toInt) % 2 ^ 57 := by
  have hk := toNat_immOffset k
  rw [immTarget, toNat_pcMask, BitVec.toNat_add, toNat_clearSlot]
  omega

/-- The reach of an 18-bit word offset: 1 MiB either way. -/
theorem immOffset_reach (k : BitVec 18) : -(2 : Int) ^ 20 ≤ 8 * k.toInt ∧ 8 * k.toInt < 2 ^ 20 := by
  have hlo := BitVec.le_toInt k
  have hhi := BitVec.toInt_lt (x := k)
  omega

/-! The branch as an effect on the group. -/

/-- The group after its own update. -/
@[simp] theorem group_updGroup_same (s : State) (id : SrcId) (f : Group → Group) : group (updGroup s id f) id = (group s id).map f := by
  simp only [group, updGroup, updTeam, look_upd_same]
  cases look s.teams id.team <;> simp

/-- The group of a word that computes is still there. -/
theorem group_of_computes {i : Instr} {w : FWord} {s u : State} {c : Ctx} {out : Nat → LaneOut}
    (h : Computes i w s c out u) : ∃ g, group u c.id = some g := by
  obtain ⟨t, g, ht, hg, -⟩ := h
  exact ⟨g, by simp [group, ht, hg]⟩

/-- A word that sends its executing lanes to `tgt` leaves each of them there. -/
theorem pcOf_of_does_setPcs {i : Instr} {w : FWord} {s : State} {c : Ctx} {out : Nat → LaneOut} {tgt : Nat → W64}
    (h : Does i w s c out (fun u => updGroup u c.id (fun g => setPcs g c.act tgt))) :
    ∃ u g, exec i s = .next u ∧ group u c.id = some g ∧ ∀ l, l < 32 → c.act.getLsbD l = true → pcOf g l = tgt l := by
  obtain ⟨u, hu, he⟩ := h
  obtain ⟨g, hg⟩ := group_of_computes hu
  refine ⟨_, setPcs g c.act tgt, he, ?_, fun l hl ha => ?_⟩
  · rw [group_updGroup_same, hg, Option.map_some]
  · rw [pcOf_setPcs _ _ _ _ hl, if_pos ha]

/-- A word that is `runEff` does what `runEff` says, whenever it executes and its own check passes. -/
theorem does_of_runEff {i : Instr} {w : FWord} {s : State} {c : Ctx} {check : Ctx → Except Stop Unit}
    {out : Ctx → Nat → LaneOut} {eff : Ctx → State → State} (hx : exec i s = runEff i w check out eff s)
    (h : Executes i w s c) (hk : check c = .ok ()) : Does i w s c (out c) (eff c) :=
  ⟨_, commitWord_computes i w s c (out c) (issues_team h.1), by rw [hx, runEff_issues out eff h.1 h.2 hk]⟩

/-- An immediate branch of lane code or of lead code sends its executing lanes to the one target (R179, R278). -/
theorem immBranch_does {w : FWord} {s : State} {c : Ctx} {k : BitVec 18} {kind : BrcKind} (hb : w.b = .imm k) {i : Instr}
    (hi : i ∈ [Instr.bra w, Instr.call w, Instr.brc w kind]) (h : Executes i w s c) :
    ∃ out, Does i w s c out (fun u => updGroup u c.id (fun g => setPcs g c.act (fun _ => immTarget c.pc (.imm k)))) := by
  have himm : w.b.isImm = true := by rw [hb]; rfl
  simp only [List.mem_cons, List.not_mem_nil, or_false] at hi
  rw [← hb]
  rcases hi with rfl | rfl | rfl
  · have hx : exec (.bra w) s = execBra w s := rfl
    exact ⟨_, does_of_runEff hx h rfl⟩
  · have hx : exec (.call w) s = execCall w s := rfl
    rw [execCall, if_pos himm] at hx
    exact ⟨_, does_of_runEff hx h rfl⟩
  · have hx : exec (.brc w kind) s = execBrc w kind s := rfl
    simp only [execBrc, himm, if_true] at hx
    exact ⟨_, does_of_runEff hx h rfl⟩

/-- Settles O13: every immediate branch sends its executing lanes to `immTarget`, and `toNat_immTarget` says which number that is. -/
theorem immediateBranchTargets : Obligations.ImmediateBranchTargets := by
  intro w s c k kind hb i hi h
  obtain ⟨out, hd⟩ := immBranch_does hb hi h
  obtain ⟨u, g, he, hg, hpc⟩ := pcOf_of_does_setPcs hd
  refine ⟨immOffset_reach k, u, g, he, hg, fun l hl ha => ?_⟩
  rw [hpc l hl ha, toNat_immTarget]

end Sys2Proof.Machine
end

section
/-! Counting barriers: faults of a count leave the arrivals alone, and what an arrival makes of its lanes (R148). -/

open Sys2Proof.Safety

namespace Sys2Proof.Machine

/-! The counting barriers of a team, which a trap or the end of the team leaves as they are (R148). -/

/-- The counting barriers of a team. -/
def barsOf (s : State) (tm : Nat) : Option (FMap Bar) := (team s tm).map (·.bars)

theorem barsOf_congr {s u : State} (h : u.teams = s.teams) (tm : Nat) : barsOf u tm = barsOf s tm := by
  rw [barsOf, barsOf, team, team, h]

theorem barsOf_updTeam (s : State) (k : Nat) {f : Team → Team} (hf : ∀ t, (f t).bars = t.bars) (tm : Nat) :
    barsOf (updTeam s k f) tm = barsOf s tm := by
  unfold barsOf
  by_cases h : tm = k
  · subst h
    rw [team_updTeam_same, Option.map_map]
    exact congrArg (fun g => (team s tm).map g) (funext hf)
  · rw [team_updTeam_other s f h]

theorem barsOf_updGroup (s : State) (id : SrcId) (f : Group → Group) (tm : Nat) : barsOf (updGroup s id f) tm = barsOf s tm :=
  barsOf_updTeam s id.team (fun _ => by rfl) tm

/-! The host fault queue (R511) holds no team. -/

@[simp] theorem writeBytes_teams (s : State) (a : Nat) (bs : List Byte) : (writeBytes s a bs).teams = s.teams := by
  obtain ⟨m, h⟩ := writeBytes_frame s a bs
  rw [h]

@[simp] theorem writeWords_teams (s : State) (a : Nat) (ws : List W64) : (writeWords s a ws).teams = s.teams := by
  induction ws generalizing s a with
  | nil => rfl
  | cons w ws ih => rw [writeWords_cons, ih, write64, writeBytes_teams]

@[simp] theorem drainHost_teams (n : Nat) (s : State) (h : Nat) : (drainHost n s h).teams = s.teams := by
  induction n generalizing s with
  | zero => rfl
  | succ n ih =>
    simp only [drainHost]
    split
    · rfl
    · split
      · rw [ih, updHost_teams, writeWords_teams]
      · rfl

@[simp] theorem hostRecord_teams (s : State) (ctx : Nat) (w : List W64) : (hostRecord s ctx w).teams = s.teams := by
  rw [hostRecord, hostPut, drainHost_teams, updHost_teams]

/-! The end of a team, and the trap. -/

theorem foldl_releaseGroup_teams (tm : Nat) (gs : FMap Group) (s : State) :
    (gs.foldl (fun s e => releaseGroup s ⟨tm, e.1⟩) s).teams = s.teams := by
  induction gs generalizing s with
  | nil => rfl
  | cons e gs ih => rw [List.foldl_cons, ih]; rfl

theorem barsOf_endGroups (s : State) (tm k : Nat) : barsOf (endGroups s tm) k = barsOf s k := by
  unfold endGroups
  split
  · rfl
  · exact (barsOf_congr (foldl_releaseGroup_teams ..) k).trans (barsOf_updTeam s tm (fun _ => by rfl) k)

theorem barsOf_endTeamFault (s : State) (tm cause detail second : Nat) (addr : W64) (k : Nat) :
    barsOf (endTeamFault s tm cause detail second addr) k = barsOf s k := by
  unfold endTeamFault
  split
  · rfl
  · exact (barsOf_congr (hostRecord_teams ..) k).trans (barsOf_endGroups s tm k)

/-- A precise fault records no arrival, also where it ends its team (R47, R48). -/
theorem barsOf_enterTrap (s : State) (id : SrcId) (cause detail : Nat) (lanes : Mask) (tpc taddr : W64) (k : Nat) :
    barsOf (enterTrap s id cause detail lanes tpc taddr) k = barsOf s k := by
  unfold enterTrap enterTrapWith
  split
  · dsimp only
    split
    · exact barsOf_endTeamFault ..
    · split
      · exact barsOf_endTeamFault ..
      · rw [barsOf_updGroup]
        split
        · exact barsOf_updTeam _ _ (fun _ => by rfl) k
        · rfl
  · rfl

/-- A word that is `runEff` traps whenever it executes and its own check faults. -/
theorem traps_of_runEff {i : Instr} {w : FWord} {s : State} {c : Ctx} {check : Ctx → Except Stop Unit}
    {out : Ctx → Nat → LaneOut} {eff : Ctx → State → State} (hx : exec i s = runEff i w check out eff s)
    (h : Executes i w s c) {cause detail : Nat} {lanes : Mask} {addr : W64}
    (hk : check c = .error (.trap cause detail lanes addr)) : Traps i s cause detail lanes addr := by
  rw [Traps, hx, runEff_stops out eff h.1 h.2 hk, finish]

/-- A word that traps leaves its team's counting barriers as they were. -/
theorem bars_of_traps {i : Instr} {w : FWord} {s : State} {c : Ctx} (h : Issues i w s c) {cause detail : Nat} {lanes : Mask}
    {addr : W64} (ht : Traps i s cause detail lanes addr) :
    ∃ u t, exec i s = .next u ∧ team u c.id.team = some t ∧ t.bars = c.t.bars := by
  have hb := barsOf_enterTrap s s.cur.id cause detail lanes s.cur.pc addr c.id.team
  have ht0 : team s c.id.team = some c.t := issues_team h
  rw [barsOf, barsOf, ht0, Option.map_some, Option.map_eq_some_iff] at hb
  obtain ⟨t, hteam, hbars⟩ := hb
  exact ⟨_, t, ht, hteam, hbars⟩

/-! The checks of a count (R148). -/

theorem countCheck_tooLarge {n : Nat} (xs : List Nat) {c : Ctx} (h : (c.t.launch.grpm1 + 1) * 32 < n) :
    countCheck n xs c = .error (.trap 0x10 2 c.act 0) := by
  rw [countCheck, groupCount, if_pos h]

theorem countCheck_mismatch {n x : Nat} {xs : List Nat} {c : Ctx} (h : n ≤ (c.t.launch.grpm1 + 1) * 32) (hx : x ∈ xs)
    (hne : x ≠ n) : countCheck n xs c = .error (.trap 0x10 1 c.act 0) := by
  have hany : xs.any (· ≠ n) = true := List.any_eq_true.2 ⟨x, hx, decide_eq_true hne⟩
  rw [countCheck, groupCount, if_neg (Nat.not_lt.2 h), if_pos hany]

theorem countCheck_ok {n : Nat} {xs : List Nat} {c : Ctx} (h : n ≤ (c.t.launch.grpm1 + 1) * 32) (hx : ∀ x ∈ xs, x = n) :
    countCheck n xs c = .ok () := by
  have hany : ¬ xs.any (· ≠ n) = true := by simpa using hx
  rw [countCheck, groupCount, if_neg (Nat.not_lt.2 h), if_neg hany]

/-! The wait of an arrival's lanes. -/

/-- A fold that writes one value at each key of a list. -/
theorem look_foldl_put {α : Type} (v : α) (ls : List Nat) (m : FMap α) (k : Nat) :
    look (ls.foldl (fun m l => put m l v) m) k = if k ∈ ls then some v else look m k := by
  induction ls generalizing m with
  | nil => simp
  | cons l ls ih =>
    rw [List.foldl_cons, ih, look_put]
    by_cases hk : k ∈ ls <;> simp [hk]

/-- The lanes that are made to wait do wait. -/
theorem look_wait_waitLanes (gr : Group) {lanes : Mask} (pc : W64) (w : LaneWait) {l : Nat} (h : l ∈ lanesOf lanes) :
    look (waitLanes gr lanes pc w).wait l = some w := by
  rw [waitLanes, look_foldl_put, if_pos h]

/-- A change of a team that keeps its groups. -/
theorem group_updTeam_of_groups (s : State) (tm : Nat) {f : Team → Team} (hf : ∀ t, (f t).groups = t.groups) (id : SrcId) :
    group (updTeam s tm f) id = group s id := by
  simp only [group, updTeam, look_upd]
  split
  · rename_i h
    rw [h]
    cases look s.teams tm <;> simp [hf]
  · rfl

/-! The arrival of one lane. -/

@[simp] theorem arriveBar_groups (t : Team) (n k g : Nat) (lanes : Mask) (a : Arr) : (arriveBar t n k g lanes a).groups = t.groups := rfl

/-- Arrivals and exits meet a target whatever barriers the team has. -/
theorem met_bars (t : Team) (bs : FMap Bar) (target : Option Nat) (m : FMap Arr) : met { t with bars := bs } target m = met t target m := rfl

theorem look_mapValues {α β : Type} (f : α → β) (m : FMap α) (k : Nat) : look (m.map (fun e => (e.1, f e.2))) k = (look m k).map f := by
  induction m with
  | nil => rfl
  | cons e m ih =>
    simp only [List.map_cons, look]
    split
    · rfl
    · exact ih

/-- A counting barrier of a team, closed if its target is met. -/
def closedIfMet (t : Team) (b : Bar) : Bar :=
  if met t b.target b.arrived && !b.closed then { b with closed := true, timer := none } else b

theorem closeBars_bars (t : Team) : (closeBars t).bars = t.bars.map (fun e => (e.1, closedIfMet t e.2)) := rfl

/-- A barrier whose target is not met stays open. -/
theorem look_closeBars_of_unmet {t : Team} {n : Nat} {b : Bar} (hb : look t.bars n = some b) (hm : met t b.target b.arrived = false) :
    look (closeBars t).bars n = some b := by
  rw [closeBars_bars, look_mapValues, hb, Option.map_some, closedIfMet, hm, Bool.false_and, if_neg Bool.false_ne_true]

theorem lanesOf_oneLane : ∀ l < 32, lanesOf (oneLane l) = [l] := by decide

/-- A lane of the arrived set that arrives again, with the count that is set, at most starts the timer (R148). -/
theorem look_arriveBar_again {t : Team} {n k g l : Nat} {a : Arr} {b : Bar} (hb : look t.bars n = some b) (hopen : b.closed = false)
    (hl : l < 32) (hin : look b.arrived (laneKey g l) ≠ none) (hm : met t b.target b.arrived = false) (hk : b.target = some k) :
    look (arriveBar t n k g (oneLane l) a).bars n = some { b with timer := some (b.timer.getD a.at_) } := by
  have hsome : (look b.arrived (laneKey g l)).isSome = true := Option.isSome_iff_ne_none.2 hin
  simp only [arriveBar, hb, Option.getD_some, hopen, Bool.false_eq_true, if_false, lanesOf_oneLane l hl, List.foldl_cons, List.foldl_nil,
    hsome, if_true, hk]
  rw [hk] at hm
  rw [look_closeBars_of_unmet (look_put_same ..) (by rw [met_bars]; exact hm), ← hk]

/-- A `BAR` whose count faults traps, and records no arrival. -/
theorem bar_traps {w : FWord} {n : BitVec 4} {arv : Bool} {s : State} {c : Ctx} (h : Executes (.bar w n arv) w s c) {detail : Nat}
    (hk : countCheck (barCount (.bar w n arv) w s c) (barTarget c.t n.toNat).toList c = .error (.trap 0x10 detail c.act 0)) :
    Traps (.bar w n arv) s 0x10 detail c.act 0 ∧
      ∃ u t, exec (.bar w n arv) s = .next u ∧ team u c.id.team = some t ∧ t.bars = c.t.bars := by
  have hx : exec (.bar w n arv) s = execBar w n arv s := rfl
  rw [execBar] at hx
  have ht := traps_of_runEff hx h hk
  exact ⟨ht, bars_of_traps h.1 ht⟩

/-- A `BAR` that does not fault makes its executing lanes wait. -/
theorem bar_waits {w : FWord} {n : BitVec 4} {s : State} {c : Ctx} (h : Executes (.bar w n false) w s c)
    (hk : countCheck (barCount (.bar w n false) w s c) (barTarget c.t n.toNat).toList c = .ok ()) :
    ∃ u g, exec (.bar w n false) s = .next u ∧ group u c.id = some g ∧
      ∀ l ∈ lanesOf c.act, ∃ later, look g.wait l = some (.bar n.toNat later c.next) := by
  have hx : exec (.bar w n false) s = execBar w n false s := rfl
  rw [execBar] at hx
  obtain ⟨u, hu, he⟩ := does_of_runEff hx h hk
  obtain ⟨g, hg⟩ := group_of_computes hu
  refine ⟨_, waitLanes g c.act c.pc (.bar n.toNat (((look c.t.bars n.toNat).map (·.closed)).getD false) c.next), he, ?_,
    fun l hl => ⟨_, look_wait_waitLanes _ _ _ hl⟩⟩
  simp only [Bool.false_eq_true, if_false, onTeam, onGroup]
  rw [group_updTeam_of_groups _ _ (fun t => arriveBar_groups ..), group_updGroup_same, hg, Option.map_some]

/-- Settles O18: a trap keeps the barriers (`barsOf_enterTrap`), and a second arrival keeps the arrived set (`look_arriveBar_again`). -/
theorem barrierCountFaults : Obligations.BarrierCountFaults := by
  intro w n arv s c h
  refine ⟨fun hbig => ?_, fun hle x htgt hne => ?_, fun hle htgt harv => ?_, fun t l a b hb hopen hl hin hm hk => ?_⟩
  · exact bar_traps h (countCheck_tooLarge _ hbig)
  · exact bar_traps h (countCheck_mismatch hle (Option.mem_toList.2 htgt) hne)
  · subst harv
    refine bar_waits h (countCheck_ok hle fun x hmem => ?_)
    rw [htgt] at hmem
    exact List.mem_singleton.1 hmem
  · rw [look_arriveBar_again hb hopen hl hin hm hk, Option.map_some, hopen]

end Sys2Proof.Machine
end

section
/-! The barrier time-out register, and the registers that lanes only read (R157, R158). -/

open Sys2Proof.Safety

namespace Sys2Proof.Machine

/-- Lanes and leads may write BARTMO. -/
@[simp] theorem cregAccess_barTimeout (lead : Bool) : cregAccess lead 0x011 = some true := by simp [cregAccess]

/-- A read of BARTMO gives LOG. -/
@[simp] theorem cregRead_barTimeout (s : State) (c : Ctx) (l : Nat) : cregRead s c 0x011 l = BitVec.ofNat 64 c.t.barLog := by
  simp [cregRead]

/-! The checks of a write. -/

theorem kwrCheck_readOnly {n : Nat} {c : Ctx} (v : W64) (h : cregAccess (isLead c.id) n = some false) :
    kwrCheck n v c = .error (.trap 0x0C 2 c.act 0) := by
  rw [kwrCheck, h]

/-- LOG may not be 1 to 9. -/
theorem kwrCheck_barTimeout (v : W64) (c : Ctx) :
    kwrCheck 0x011 v c = if 1 ≤ v.toNat % 32 ∧ v.toNat % 32 ≤ 9 then .error (.trap 0x0C 3 c.act 0) else .ok () := by
  simp [kwrCheck, trapIf]

/-- A write of BARTMO sets LOG, 0 as 24. -/
theorem kwrApply_barTimeout (v : W64) (x : Nat → W64) (c : Ctx) :
    kwrApply 0x011 v x c = fun u => updTeam u c.id.team (fun t => { t with barLog := if v.toNat % 32 = 0 then 24 else v.toNat % 32 }) := by
  funext u
  simp [kwrApply, onTeam]

/-- A `KWR` of BARTMO with a value that may be written. -/
theorem kwr_barTimeout_does {w : FWord} {s : State} {c : Ctx} {v : W64} (h : Executes (.kwr w) w s c)
    (hn : cregNum (.kwr w) w s c = 0x011) (hv : kwrVal (.kwr w) w s c (highest c.act) = v)
    (hok : ¬ (1 ≤ v.toNat % 32 ∧ v.toNat % 32 ≤ 9)) :
    Does (.kwr w) w s c (fun _ => {})
      (fun u => updTeam u c.id.team (fun t => { t with barLog := if v.toNat % 32 = 0 then 24 else v.toNat % 32 })) := by
  have hx : exec (.kwr w) s = execKwr w s := rfl
  subst hv
  have hd := does_of_runEff hx h (by rw [hn, kwrCheck_barTimeout, if_neg hok])
  rw [hn, kwrApply_barTimeout] at hd
  exact hd

/-- A `KRD` of BARTMO. -/
theorem krd_barTimeout_does {w : FWord} {s : State} {c : Ctx} (h : Executes (.krd w) w s c) (hn : cregNum (.krd w) w s c = 0x011) :
    Does (.krd w) w s c (fun _ => { val := BitVec.ofNat 64 c.t.barLog }) id := by
  have hx : exec (.krd w) s = execKrd w s := rfl
  have hd := does_of_runEff hx h (by rw [hn, cregAccess_barTimeout]; rfl)
  simp only [hn, cregRead_barTimeout] at hd
  exact hd

/-- Settles O20, by the ranges of LOG that `kwrCheck_barTimeout` tells apart. -/
theorem barrierTimeoutRegister : Obligations.BarrierTimeoutRegister := by
  intro w s c h
  have hx : exec (.kwr w) s = execKwr w s := rfl
  refine ⟨fun hn h0 => ?_, fun hn h1 h9 => ?_, fun hn h10 => ?_, fun hro => ?_, fun i w' c' h' hn => ?_, fun _ _ _ _ _ _ => rfl⟩
  · have hd := kwr_barTimeout_does h hn rfl (by omega)
    rwa [if_pos h0] at hd
  · exact traps_of_runEff hx h (by rw [hn, kwrCheck_barTimeout, if_pos ⟨h1, h9⟩])
  · have hd := kwr_barTimeout_does h hn rfl (by omega)
    rwa [if_neg (by omega)] at hd
  · exact traps_of_runEff hx h (kwrCheck_readOnly _ hro)
  · exact krd_barTimeout_does h' hn

end Sys2Proof.Machine
end

section
/-! Revocation: CAPRV raises the generation of the group's handle (R307), and the generation test of R287 then fails. -/

open Sys2Proof.Safety

namespace Sys2Proof.Machine

/-! What a word that computes leaves of the handles. -/

/-- A word that computes leaves the handle table alone. -/
theorem handles_of_computes {i : Instr} {w : FWord} {s u : State} {c : Ctx} {out : Nat → LaneOut}
    (h : Computes i w s c out u) : u.handles = s.handles := by
  obtain ⟨-, -, -, -, -, -, -, -, -, -, -, hframe⟩ := h
  exact (congrArg State.handles hframe :)

/-- A word that computes leaves its group the handle it holds. -/
theorem handle_of_computes {i : Instr} {w : FWord} {s u : State} {c : Ctx} {out : Nat → LaneOut}
    (h : Computes i w s c out u) : ∃ g, group u c.id = some g ∧ g.handle = c.gr.handle := by
  obtain ⟨t, g, ht, hg, heff, -⟩ := h
  exact ⟨g, by simp [group, ht, hg], (congrArg Group.handle heff.frame :)⟩

/-! The raised generation. -/

/-- The entry of a handle table after a revocation. -/
def raisedGen (e : Handle) : Handle := { e with gen := e.gen + 1 }

/-- The machine after the entry of handle `n` is revoked. -/
def revoked (n : Nat) (s : State) : State := { s with handles := upd s.handles n raisedGen }

theorem look_revoked_handles {s : State} {n : Nat} {e : Handle} (h : look s.handles n = some e) :
    look (revoked n s).handles n = some (raisedGen e) := by
  rw [revoked, look_upd_same, h, Option.map_some]

/-- The generation is counted modulo 256. -/
theorem raisedGen_eq (e : Handle) : raisedGen e = { e with gen := BitVec.ofNat 8 ((e.gen.toNat + 1) % 256) } := by
  have hgen : e.gen + 1 = BitVec.ofNat 8 ((e.gen.toNat + 1) % 256) := by
    bv_omega
  rw [raisedGen, hgen]

/-- Eight bits tell a generation from the next one. -/
theorem gen_ne_raisedGen (e : Handle) : e.gen ≠ (raisedGen e).gen := by
  rw [raisedGen]
  bv_omega

/-- A generation that is not the entry's fails the test of R287, whatever else the capability holds. -/
theorem capTest_fails_of_gen_ne {s : State} {cap : W64} {e : Handle} (eng : Bool) (he : look s.handles (capHandle cap) = some e)
    (hgen : capGen cap ≠ e.gen) : ∃ x, capTest s cap eng = .error x := by
  simp only [capTest, he]
  cases e.holder with
  | none => exact ⟨_, rfl⟩
  | some id => exact ⟨_, if_pos hgen⟩

/-- A group with a handle mints with the generation of its entry. -/
theorem handleFor_of_handle {s : State} {gr : Group} {n : Nat} {e : Handle} (id : SrcId) (hn : gr.handle = some n)
    (he : look s.handles n = some e) : handleFor s id gr = some (n, e) := by
  simp only [handleFor, hn, he, Option.getD_some]

/-! The word. -/

/-- CAPRV revokes the entry of its group's handle, and only issues where the group has none. -/
theorem caprv_does {w : FWord} {s : State} {c : Ctx} (h : Executes (.caprv w) w s c) :
    Does (.caprv w) w s c (fun _ => {}) (c.gr.handle.elim id revoked) := by
  have hx : exec (.caprv w) s = execCaprv w s := rfl
  obtain ⟨u, hu, he⟩ := does_of_runEff hx h rfl
  refine ⟨u, hu, ?_⟩
  cases hn : c.gr.handle with
  | none => rw [he, hn]; rfl
  | some n => rw [he, hn]; rfl

/-- Settles O31: the raised entry is what later mints read (`handleFor_of_handle`), and an older capability differs from it in its
generation (`gen_ne_raisedGen`). -/
theorem revocationRaisesTheGeneration : Obligations.RevocationRaisesTheGeneration := by
  intro w s c h
  have hdoes := caprv_does h
  refine ⟨fun hn => by rwa [hn] at hdoes, fun n e hn he => ?_⟩
  rw [hn] at hdoes
  obtain ⟨u, hu, hexec⟩ := hdoes
  obtain ⟨g, hg, hgh⟩ := handle_of_computes hu
  have hentry : look (revoked n u).handles n = some (raisedGen e) :=
    look_revoked_handles (by rw [handles_of_computes hu, he])
  have hhandle : g.handle = some n := hgh.trans hn
  refine ⟨revoked n u, g, hexec, hg, hhandle, ?_, fun cap eng hcap hold => ?_, handleFor_of_handle c.id hhandle hentry⟩
  · rw [hentry, raisedGen_eq]
  · have hcur : look (revoked n u).handles (capHandle cap) = some (raisedGen e) := by rw [hcap, hentry]
    exact capTest_fails_of_gen_ne eng hcur (by rw [hold]; exact gen_ne_raisedGen e)

end Sys2Proof.Machine
end

section
/-! The count of sequencer parity errors (R371), which saturates (R386). -/

open Sys2Proof.Safety

namespace Sys2Proof.Machine

/-- The next count, as a number: one more, and a full count stays. -/
theorem parity_succ_eq_min (p : BitVec 16) :
    (if p = 0xFFFF then p else p + 1) = BitVec.ofNat 16 (min 0xFFFF (p.toNat + 1)) := by
  split
  case isTrue hfull => rw [hfull]; rfl
  case isFalse hp =>
    have hroom : p.toNat + 1 ≤ 0xFFFF := by bv_omega
    rw [Nat.min_eq_right hroom]
    bv_omega

theorem matOf_of_body {s : State} {n : Nat} {c : Cmd} {m : MatCmd} (hc : look s.cmds n = some c) (hm : c.body = .mat m) :
    matOf s n = some (c, m) := by
  simp only [matOf, hc, hm]

/-- A parity error of a command that is on one of its array's paths. -/
theorem parityError_of_running {s : State} {n : Nat} {c : Cmd} {m : MatCmd} (hmat : matOf s n = some (c, m))
    (hrun : (arrayOf s c.core).computing = some n ∨ (arrayOf s c.core).loading = some n) :
    parityError s n =
      updArray s c.core (fun a => { a with parity := if a.parity = 0xFFFF then a.parity else a.parity + 1 }) := by
  simp only [parityError, hmat, if_pos hrun]

/-- Settles O38: the running command's error counts (`parityError_of_running`), and the count saturates (`parity_succ_eq_min`). -/
theorem parityErrorsAreCounted : Obligations.ParityErrorsAreCounted := by
  intro s n c m hc hm hrun
  have hx : exec (.sequencerParityError n) s = .next (parityError s n) := rfl
  rw [hx, parityError_of_running (matOf_of_body hc hm) hrun]
  simp only [parity_succ_eq_min]

end Sys2Proof.Machine
end

section
/-! A team's coordinates (R475) and the registers of its lead at dispatch (R257). -/

namespace Sys2Proof.Machine

/-- An index at or beyond an extent of `a * z`, cut in slices of `a`, lies beyond the last slice. -/
theorem pred_lt_div_or_eq_zero {a z i : Nat} (ha : 0 < a) (hi : a * z ≤ i) : z - 1 < i / a ∨ z = 0 := by
  have hz : z ≤ i / a := (Nat.le_div_iff_mul_le ha).mpr (by rwa [Nat.mul_comm])
  omega

/-- The six words that the lead's registers S0 to S5 start with (R257). -/
theorem v_newLead (l : Launch) (index : Nat) (frame : W64) :
    (newLead l index frame).v =
      set 0 (set 0 (set 0 (set 0 (set 0 (set 0 [] (32 * 0) (lo frame)) (32 * 1) (hi frame)) (32 * 2) (lo l.kcode)) (32 * 3) (hi l.kcode))
        (32 * 4) (BitVec.ofNat 32 index)) (32 * 5) (BitVec.ofNat 32 (l.grpm1 + 1)) := rfl

/-- S4 of the lead holds the team's index: S5 is the only register written after it. -/
theorem readV_newLead_index (l : Launch) (index : Nat) (frame : W64) :
    readV (newLead l index frame) 4 0 = BitVec.ofNat 32 index := by
  rw [readV, v_newLead, get_set_other _ _ _ (by decide), Nat.add_zero, get_set_same]

/-- Settles O46: the selectors read `teamX`, `teamY` and `teamZ`, and the lead's word is `readV_newLead_index`. -/
theorem teamCoordinates : Obligations.TeamCoordinates := by
  intro c l hx hy
  have hslice : 0 < c.t.launch.extx * c.t.launch.exty := Nat.mul_pos hx hy
  exact ⟨rfl, rfl, rfl, pred_lt_div_or_eq_zero hslice, readV_newLead_index c.t.launch c.t.index⟩

end Sys2Proof.Machine
end
